-- ==== Sys2Proof/Word.lean ====
section
/-! DEFINITION. The word types of the ZXQ GF(256) block and their plainest arithmetic. -/

namespace Sys2Proof

/-- A 32-bit register, command word or host-port word (10_state.md R103, 30_encoding.md R300). -/
abbrev Word := BitVec 32

/-- A byte: a field element, a polynomial coefficient, a codeword (41_gf.md R402, 10_state.md R150). -/
abbrev Byte := BitVec 8

/-- `zext_32` of a byte (00_scope.md R7). -/
def Byte.toWord (b : Byte) : Word := b.setWidth 32

/-- A one-bit result as a 32-bit value (00_scope.md R7). -/
def Word.ofBool (b : Bool) : Word := if b then 1 else 0

/-- A natural number as a 32-bit value. -/
def Word.ofNat (n : Nat) : Word := BitVec.ofNat 32 n

@[simp] theorem Byte.toWord_toNat (b : Byte) : b.toWord.toNat = b.toNat := by
  simp only [Byte.toWord, BitVec.toNat_setWidth]
  exact Nat.mod_eq_of_lt (Nat.lt_trans b.isLt (by decide))

@[simp] theorem Word.ofBool_true : Word.ofBool true = 1 := rfl
@[simp] theorem Word.ofBool_false : Word.ofBool false = 0 := rfl

@[simp] theorem Word.ofNat_toNat_of_lt {n : Nat} (h : n < 2 ^ 32) : (Word.ofNat n).toNat = n := by
  simp only [Word.ofNat, BitVec.toNat_ofNat]
  exact Nat.mod_eq_of_lt h

end Sys2Proof
end

