-- ==== Sys2Proof/Config.lean ====
section
/-! DEFINITION. What the block's configuration fixes and what the spec leaves OPEN (00_scope.md R6): the legal field
polynomials, the two banks, the parameters `ZXQ_BASE` and latency, the free value of a read while busy, and the
arbitrary contents of the memories before they are written. -/

namespace Sys2Proof

/-- The two bit-vector banks, A (number 0) and B (number 1) (10_state.md R140). -/
inductive Bank where
  | A
  | B
deriving DecidableEq, Repr

/-- The number of a bank, as a `BD` or `BA` field holds it (30_encoding.md R301, R302). -/
def Bank.number : Bank → Nat
  | .A => 0
  | .B => 1

/-- The sixteen primitive polynomials of degree 8, the legal values of `GF_PRIM` (10_state.md R110). -/
def Config.primitivePolys : List (BitVec 9) :=
  [0x11D, 0x12B, 0x12D, 0x14D, 0x15F, 0x163, 0x165, 0x169, 0x171, 0x187, 0x18D, 0x1A9, 0x1C3, 0x1CF, 0x1E7, 0x1F5]

/-- `ZXQ_BASE / 0x10000`: the platform places the window, so nothing is known of it (20_memory.md R200, R207). -/
opaque Config.baseIndex : Nat

/-- `ZXQ_BASE`, the base address of the register window: OPEN, a multiple of 0x10000 (00_scope.md R6, 20_memory.md R200). -/
def Config.zxqBase : Nat := 0x10000 * Config.baseIndex

/-- The OPEN latency of a command (70_reset_and_hazards.md R970), counted in host accesses that the block serves
between the accepted `CMD` write and the completion: any finite number, 0 being completion before the next access
(R972). It is a free value: `draw` is a fresh number at every acceptance, so no two commands need have one latency. -/
opaque Config.latency : (cmd : Word) → (draw : Nat) → Nat

/-- The unspecified value of a host read of command-written state while `BUSY` = 1: a fresh draw for every such read
(70_reset_and_hazards.md R962, 93_implementation_defined.md 1.2). A free value. -/
opaque Config.busyRead : (draw : Nat) → Word

/-- What a memory byte that no access and no command has written since power-up reads as, by its offset: the arbitrary contents
that the spec's model takes for the memories (70_reset_and_hazards.md R951; 93_implementation_defined.md 1.2). A free value of
each byte, the same at every read until the byte is written (assumption 2). -/
opaque Config.unwritten : (offset : Nat) → Byte

end Sys2Proof
end

