-- ==== Sys2Proof/Machine/State.lean ====
section
/-! DEFINITION. The state of the block as plain data (10_state.md R101), what the outside world asks of it, and its
state after reset (70_reset_and_hazards.md R950). -/

namespace Sys2Proof.Machine

/-- The block has no fault: a command that fails completes, reports its code in `ERRCODE` and the block goes on
(60_exceptions.md R901, R922), and an access that the spec leaves undefined is refused, not faulted (R921). So this type has no
constructor and no step can answer a fault. -/
inductive Fault where
deriving DecidableEq, Repr

/-- Why the model gives a step no meaning. -/
inductive Refusal where
  /-- Raised by `exec` for a command without a meaning yet; no arm raises it. Safe: the run ends. -/
  | notModelled (mnemonic : String)
  /-- Raised by `step` for a host access whose address is not a multiple of 4, which the spec leaves undefined and says a
  model refuses (20_memory.md R202). Safe: the run ends, so nothing false can be proved of what the block would do. -/
  | misalignedAccess
  /-- Raised by `step` for a host access that moves fewer than 32 bits (20_memory.md R202). Safe, for the same reason. -/
  | narrowAccess
deriving DecidableEq, Repr

/-- How many bits a host access moves. Only `word` is a defined access (20_memory.md R202). -/
inductive AccessWidth where
  | byte
  | half
  | word
deriving DecidableEq, Repr

/-- What the outside world can ask of the block. `offset` is the byte address from `ZXQ_BASE` (20_memory.md R200). -/
inductive HostInput where
  /-- `MemRead(offset, 4)`, or a read of another width. -/
  | read (width : AccessWidth) (offset : BitVec 16)
  /-- `MemWrite(offset, 4, data)`, or a write of another width. -/
  | write (width : AccessWidth) (offset : BitVec 16) (data : Word)
  /-- The platform's reset (70_reset_and_hazards.md R950, R952). -/
  | reset
deriving DecidableEq, Repr

/-- `STATUS` (10_state.md R106); bits 31:6 read 0 and hold nothing. -/
structure Status where
  busy : Bool
  done : Bool
  err : Bool
  ovr : Bool
  haz : Bool
  cfgErr : Bool
deriving DecidableEq, Repr

/-- The memories behind the windows, as (window offset, byte) pairs: offsets strictly rising (`Memory.wf`), an
entry for every byte that has been written. Each window's bytes, bits and cells lie where 20_memory.md R204 puts them. -/
abbrev Memory := List Host.Cell

/-- The block's state. Every field but the last four is a component that 10_state.md R101 or 60_exceptions.md R900
(`latch`) names. -/
structure State where
  /-- `STATUS` with its `busy` component (R106). -/
  status : Status
  /-- `ERRCODE.CODE` (R107). -/
  errCode : Byte
  /-- `ERRCODE.SUB` (R107). -/
  errSub : Byte
  /-- `CMD`, the last accepted command word (R108). -/
  cmd : Word
  /-- `ARG0` to `ARG3` (R120). -/
  arg : Vector Word 4
  /-- The operands that the running command uses, latched at acceptance (60_exceptions.md R900). -/
  latch : Vector Word 4
  /-- `RESULT0` to `RESULT7` (R121). -/
  result : Vector Word 8
  /-- `GF_PRIM`, nine bits (R110). -/
  gfPrim : BitVec 9
  /-- `GF_BASE`, one bit (R111). -/
  gfBase : BitVec 1
  /-- `PLEN0` to `PLEN7` (R131); the coefficients are in `mem`. -/
  plen : Vector Nat 8
  /-- `BV[0].size` (R140); the bits are in `mem`. -/
  bvSizeA : Nat
  /-- `BV[1].size` (R140). -/
  bvSizeB : Nat
  /-- `BMW` (R160); the words are in `mem`. -/
  bmW : Nat
  /-- `BMH` (R160). -/
  bmH : Nat
  /-- `SYMV` (R170); `SYMN` is `State.symN`, a function of it; the cells are in `mem`. -/
  symV : Nat
  /-- `LOCCNT` (R180); the two lists are in `mem`. -/
  locCnt : Nat
  /-- `PEN0` to `PEN7` (R122). -/
  pen : Vector Word 8
  /-- `CW`, `LOC`, `MAG`, both bank stores, `BMWORD`, `COEF` and the symbol cells (R130 to R180). -/
  mem : Memory
  /-- The model's own: what the outside world asks next, oldest first (assumption 4). -/
  host : List HostInput
  /-- The model's own: the word that the host's last read returned (assumption 4). -/
  rdata : Word
  /-- The model's own: how many more host accesses the block serves before the running command completes, the part of the OPEN
  latency still to come (70_reset_and_hazards.md R970; assumption 5). -/
  wait : Nat
  /-- The model's own: the number of free values drawn so far (assumptions 5 and 6). -/
  draws : Nat
deriving DecidableEq, Repr

/-- The block right after reset (70_reset_and_hazards.md R950). No byte of the memories has been written: their
contents are unspecified, the free values `Config.unwritten` (R951; assumption 2); the last
four fields are the model's own (assumptions 4 to 6). -/
def State.reset : State where
  status := ⟨false, false, false, false, false, false⟩
  errCode := 0
  errSub := 0
  cmd := 0
  arg := Vector.replicate 4 0
  latch := Vector.replicate 4 0
  result := Vector.replicate 8 0
  gfPrim := 0x11D
  gfBase := 0
  plen := Vector.replicate 8 0
  bvSizeA := 0
  bvSizeB := 0
  bmW := 0
  bmH := 0
  symV := 0
  locCnt := 0
  pen := Vector.replicate 8 0
  mem := []
  host := []
  rdata := 0
  wait := 0
  draws := 0

end Sys2Proof.Machine
end

