-- ==== Sys2Proof/Machine/Memory.lean ====
section
/-! DEFINITION. Reading and writing the memories, in bytes and in bits. Every store of a command or of the host goes
through `Memory.write`. -/

namespace Sys2Proof.Machine

/-- The canonical form of a memory: offsets strictly rising. A byte that has been written is listed, whatever its value, and a byte that
has not been is not: an unlisted offset holds no value of the state's (`Config.unwritten`; assumption 2). -/
def Memory.wf : Memory → Bool
  | [] => true
  | [_] => true
  | c :: d :: m => decide (c.1 < d.1) && Memory.wf (d :: m)

/-- The byte at offset `a`. -/
def Memory.read : Memory → Nat → Byte
  | [], a => Config.unwritten a
  | c :: m, a => if c.1 = a then c.2 else Memory.read m a

/-- The `n` bytes from offset `a` on. -/
def Memory.readBytes (m : Memory) (a n : Nat) : List Byte := (List.range n).map fun i => m.read (a + i)

/-- The part of a memory that lies in `[lo, hi)`: it reads there as the whole does, and a scan of it is shorter. -/
def Memory.window (m : Memory) (lo hi : Nat) : Memory := m.filter fun c => decide (lo ≤ c.1) && decide (c.1 < hi)

/-- The entries of bytes `vs` from offset `a` on. -/
def Memory.entries : Nat → List Byte → Memory
  | _, [] => []
  | a, v :: vs => (a, v) :: Memory.entries (a + 1) vs

/-- Write the bytes `vs` from offset `a` on. -/
def Memory.write (m : Memory) (a : Nat) (vs : List Byte) : Memory :=
  m.filter (fun c => decide (c.1 < a)) ++ Memory.entries a vs ++ m.filter (fun c => decide (a + vs.length ≤ c.1))

/-- Write `v` to the `n` bytes from offset `a` on. -/
def Memory.fill (m : Memory) (a n : Nat) (v : Byte) : Memory := m.write a (List.replicate n v)

/-- Write the bytes `vs` one by one, byte `i` to offset `a + 4 * i`: the layout of `LOC` and `MAG` (20_memory.md R204). -/
def Memory.writeEvery4 : Memory → Nat → List Byte → Memory
  | m, _, [] => m
  | m, a, v :: vs => Memory.writeEvery4 (m.write a [v]) (a + 4) vs

/-- Bit `i` of the bit store that starts at offset `base`: bit `i % 32` of word `i / 32` of a little-endian window, which is
bit `i % 8` of byte `i / 8` (20_memory.md R201, R205). -/
def Memory.bit (m : Memory) (base i : Nat) : Bool := (m.read (base + i / 8)).getLsbD (i % 8)

/-- The byte whose bit `j` is `f j`. -/
def byteOfBits (f : Nat → Bool) : Byte :=
  BitVec.ofNat 8 ((f 0).toNat + (f 1).toNat * 2 + (f 2).toNat * 4 + (f 3).toNat * 8 + (f 4).toNat * 16
    + (f 5).toNat * 32 + (f 6).toNat * 64 + (f 7).toNat * 128)

/-- The word whose bit `j` is `f j`. -/
def wordOfBits (f : Nat → Bool) : Word :=
  byteOfBits (fun j => f (24 + j)) ++ byteOfBits (fun j => f (16 + j)) ++ byteOfBits (fun j => f (8 + j)) ++ byteOfBits f

/-- Write `n` bits of the bit store at `base`, from bit `i` on: bit `i + k` becomes `f k`. Every other bit keeps its value. -/
def Memory.writeBits (m : Memory) (base i n : Nat) (f : Nat → Bool) : Memory :=
  m.write (base + i / 8) <| (List.range ((i % 8 + n + 7) / 8)).map fun k =>
    byteOfBits fun j =>
      let b := 8 * (i / 8 + k) + j
      if i ≤ b ∧ b < i + n then f (b - i) else m.bit base b

/-- The 32-bit word of the little-endian window at offset `a` (20_memory.md R201). -/
def Memory.word (m : Memory) (a : Nat) : Word :=
  m.read (a + 3) ++ m.read (a + 2) ++ m.read (a + 1) ++ m.read a

/-- The bytes of a word in the order of their offsets: little-endian (20_memory.md R201). -/
def bytesOfWord (v : Word) : List Byte :=
  [v.extractLsb' 0 8, v.extractLsb' 8 8, v.extractLsb' 16 8, v.extractLsb' 24 8]

/-- Offset of `CW[i]` (20_memory.md R204). -/
def cwAddr (i : Nat) : Nat := 0x0400 + i

/-- Offset of `LOC[k]` (20_memory.md R204). -/
def locAddr (k : Nat) : Nat := 0x0800 + 4 * k

/-- Offset of `MAG[k]` (20_memory.md R204). -/
def magAddr (k : Nat) : Nat := 0x0C00 + 4 * k

/-- Offset of a bank's store (20_memory.md R204). -/
def bankBase : Bank → Nat
  | .A => 0x1000
  | .B => 0x2000

/-- Offset of `BMWORD[0]` (20_memory.md R204). -/
def bmBase : Nat := 0x4000

/-- Offset of `COEF[r][i]` (20_memory.md R204). -/
def coefAddr (r i : Nat) : Nat := 0x8000 + 0x200 * r + i

/-- Offset of row `y` of the symbol's cells, twelve words a row (20_memory.md R204). -/
def symRowBase (y : Nat) : Nat := 0xA000 + 48 * y

end Sys2Proof.Machine
end

