-- ==== Sys2Proof/Syntax.lean ====
section
/-! DEFINITION. The commands of the block: one constructor for each of the 56 rows of 30_encoding.md R321, in the
table's order. A command word carries polynomial register numbers and banks only (R302); every numeric operand is read
from the latched `ARG` registers, so it is no part of the syntax. Fields stand in the order of the assembler syntax
(R322): destination, second destination, sources. -/

namespace Sys2Proof

/-- A command of the block. A `Nat` field is a polynomial register number, which `Instr.wellFormed` bounds by 8. -/
inductive Instr where
  /-- `NOP` (R330). -/
  | nop
  /-- `GF_ADD` (R410). -/
  | gfAdd
  /-- `GF_MUL` (R411). -/
  | gfMul
  /-- `GF_INV` (R412). -/
  | gfInv
  /-- `GF_EXP` (R413). -/
  | gfExp
  /-- `GF_LOG` (R414). -/
  | gfLog
  /-- `P_ZERO rd` (R470). -/
  | pZero (rd : Nat)
  /-- `P_MONO rd` (R471). -/
  | pMono (rd : Nat)
  /-- `P_COPY rd, ra` (R472). -/
  | pCopy (rd ra : Nat)
  /-- `P_NORM rd` (R473). -/
  | pNorm (rd : Nat)
  /-- `P_ADD rd, ra, rb` (R474). -/
  | pAdd (rd ra rb : Nat)
  /-- `P_MUL rd, ra, rb` (R475). -/
  | pMul (rd ra rb : Nat)
  /-- `P_SCALE rd, ra` (R476). -/
  | pScale (rd ra : Nat)
  /-- `P_MULMONO rd, ra` (R477). -/
  | pMulmono (rd ra : Nat)
  /-- `P_DIV rd, rc, ra, rb`: quotient `rd`, remainder `rc`, dividend `ra`, divisor `rb` (R478). -/
  | pDiv (rd rc ra rb : Nat)
  /-- `P_EVAL ra` (R479). -/
  | pEval (ra : Nat)
  /-- `P_COEF ra` (R480). -/
  | pCoef (ra : Nat)
  /-- `P_DEG ra` (R481). -/
  | pDeg (ra : Nat)
  /-- `RS_GEN rd` (R520). -/
  | rsGen (rd : Nat)
  /-- `RS_ENC` (R521). -/
  | rsEnc
  /-- `RS_SYND rd` (R522). -/
  | rsSynd (rd : Nat)
  /-- `RS_KEY rd, rc, ra`: σ to `rd`, ω to `rc`, syndrome in `ra` (R523). -/
  | rsKey (rd rc ra : Nat)
  /-- `RS_CHIEN ra` (R524). -/
  | rsChien (ra : Nat)
  /-- `RS_FORNEY ra` (R525). -/
  | rsForney (ra : Nat)
  /-- `RS_CORR` (R526). -/
  | rsCorr
  /-- `RS_DEC` (R527). -/
  | rsDec
  /-- `BV_CLEAR X` (R610). -/
  | bvClear (x : Bank)
  /-- `BV_APPEND X` (R611). -/
  | bvAppend (x : Bank)
  /-- `BV_GET Y` (R612). -/
  | bvGet (y : Bank)
  /-- `BV_SET X` (R613). -/
  | bvSet (x : Bank)
  /-- `BV_XOR X, Y` (R614). -/
  | bvXor (x y : Bank)
  /-- `BV_TOBYTES Y` (R615). -/
  | bvTobytes (y : Bank)
  /-- `BV_SETSIZE X` (R616). -/
  | bvSetsize (x : Bank)
  /-- `BM_INIT` (R660). -/
  | bmInit
  /-- `BM_CLEAR` (R661). -/
  | bmClear
  /-- `BM_GET` (R662). -/
  | bmGet
  /-- `BM_SET` (R663). -/
  | bmSet
  /-- `BM_SETREGION` (R664). -/
  | bmSetregion
  /-- `BM_TOPLEFT` (R665). -/
  | bmTopleft
  /-- `BM_BOTRIGHT` (R666). -/
  | bmBotright
  /-- `BM_ROW X` (R667). -/
  | bmRow (x : Bank)
  /-- `BM_COL X` (R668). -/
  | bmCol (x : Bank)
  /-- `SYM_INIT` (R740). -/
  | symInit
  /-- `SYM_GET` (R741). -/
  | symGet
  /-- `SYM_SET` (R742). -/
  | symSet
  /-- `EMB_BASIC` (R743). -/
  | embBasic
  /-- `EMB_TYPE` (R744). -/
  | embType
  /-- `EMB_VERSION` (R745). -/
  | embVersion
  /-- `EMB_DATA Y` (R746). -/
  | embData (y : Bank)
  /-- `SYM_BUILD Y` (R747). -/
  | symBuild (y : Bank)
  /-- `SYM_EXPORT` (R748). -/
  | symExport
  /-- `MASK_BIT` (R810). -/
  | maskBit
  /-- `MASK_PENALTY` (R811). -/
  | maskPenalty
  /-- `MASK_SELECT Y` (R812). -/
  | maskSelect (y : Bank)
  /-- `BCH_TYPE` (R813). -/
  | bchType
  /-- `BCH_VERSION` (R814). -/
  | bchVersion
deriving DecidableEq, Repr

end Sys2Proof
end

