-- ==== Sys2Proof/WellFormed.lean ====
section
/-! DEFINITION. Which terms of `Instr` are commands of the block: every polynomial register number is 0 to 7
(10_state.md R130, 30_encoding.md R301). A bank is A or B by its type, and P_DIV or RS_KEY with one destination twice is
a well-formed command that FAILS when it runs (42_poly.md R478, 43_rs.md R523), so neither is checked here. -/

namespace Sys2Proof

/-- A polynomial register number: there are eight registers, 0 to 7 (10_state.md R130). -/
def isPolyReg (r : Nat) : Bool := decide (r < 8)

/-- The command's register fields all fit the three bits that 30_encoding.md R301 gives them. -/
def Instr.wellFormed : Instr → Bool
  | .nop => true
  | .gfAdd => true
  | .gfMul => true
  | .gfInv => true
  | .gfExp => true
  | .gfLog => true
  | .pZero rd => isPolyReg rd
  | .pMono rd => isPolyReg rd
  | .pCopy rd ra => isPolyReg rd && isPolyReg ra
  | .pNorm rd => isPolyReg rd
  | .pAdd rd ra rb => isPolyReg rd && isPolyReg ra && isPolyReg rb
  | .pMul rd ra rb => isPolyReg rd && isPolyReg ra && isPolyReg rb
  | .pScale rd ra => isPolyReg rd && isPolyReg ra
  | .pMulmono rd ra => isPolyReg rd && isPolyReg ra
  | .pDiv rd rc ra rb => isPolyReg rd && isPolyReg rc && isPolyReg ra && isPolyReg rb
  | .pEval ra => isPolyReg ra
  | .pCoef ra => isPolyReg ra
  | .pDeg ra => isPolyReg ra
  | .rsGen rd => isPolyReg rd
  | .rsEnc => true
  | .rsSynd rd => isPolyReg rd
  | .rsKey rd rc ra => isPolyReg rd && isPolyReg rc && isPolyReg ra
  | .rsChien ra => isPolyReg ra
  | .rsForney ra => isPolyReg ra
  | .rsCorr => true
  | .rsDec => true
  | .bvClear _ => true
  | .bvAppend _ => true
  | .bvGet _ => true
  | .bvSet _ => true
  | .bvXor _ _ => true
  | .bvTobytes _ => true
  | .bvSetsize _ => true
  | .bmInit => true
  | .bmClear => true
  | .bmGet => true
  | .bmSet => true
  | .bmSetregion => true
  | .bmTopleft => true
  | .bmBotright => true
  | .bmRow _ => true
  | .bmCol _ => true
  | .symInit => true
  | .symGet => true
  | .symSet => true
  | .embBasic => true
  | .embType => true
  | .embVersion => true
  | .embData _ => true
  | .symBuild _ => true
  | .symExport => true
  | .maskBit => true
  | .maskPenalty => true
  | .maskSelect _ => true
  | .bchType => true
  | .bchVersion => true

end Sys2Proof
end

