-- ==== Sys2Proof/Decode.lean ====
section
/-! DEFINITION. Decoding a command word, total on all 2^32 words and rejecting by name (30_encoding.md R310, R311), and
after it the encoder, both from the opcode map of R321. -/

namespace Sys2Proof

/-- Why a command word is no command: the two `ILLEGAL_COMMAND` causes of 30_encoding.md R310. -/
inductive DecodeError where
  /-- The opcode is not listed in R321 (`ILLEGAL_COMMAND` 0x01). -/
  | undefinedOpcode
  /-- The opcode is listed and a must-be-zero bit is 1 (`ILLEGAL_COMMAND` 0x02). -/
  | mustBeZero
deriving DecidableEq, Repr

/-- `OPC`, bits [7:0] (R301). -/
def fieldOPC (w : Word) : Nat := (w.extractLsb' 0 8).toNat

/-- `RD`, bits [10:8] (R301). -/
def fieldRD (w : Word) : Nat := (w.extractLsb' 8 3).toNat

/-- `RA`, bits [14:12] (R301). -/
def fieldRA (w : Word) : Nat := (w.extractLsb' 12 3).toNat

/-- `RB`, bits [18:16] (R301). -/
def fieldRB (w : Word) : Nat := (w.extractLsb' 16 3).toNat

/-- `RC`, bits [22:20] (R301). -/
def fieldRC (w : Word) : Nat := (w.extractLsb' 20 3).toNat

/-- A bank field's value: 0 selects bank A and 1 bank B (R302). -/
def bankOfBit (b : Bool) : Bank := if b then .B else .A

/-- `BD`, bit 8 (R301). -/
def fieldBD (w : Word) : Bank := bankOfBit (w.getLsbD 8)

/-- `BA`, bit 12 (R301). -/
def fieldBA (w : Word) : Bank := bankOfBit (w.getLsbD 12)

/-- One row of the opcode map: a word is this row's command exactly when `word & mask == pattern` (R310). -/
structure OpRow where
  pattern : Word
  mask : Word
  build : Word → Instr

/-- The control rows, opcodes 0x0_ (R321). -/
def rowsControl : List OpRow :=
  [⟨0x00000000, 0xFFFFFFFF, fun _ => .nop⟩]

/-- The field scalar rows, opcodes 0x1_ (R321). -/
def rowsField : List OpRow :=
  [⟨0x00000010, 0xFFFFFFFF, fun _ => .gfAdd⟩,
   ⟨0x00000011, 0xFFFFFFFF, fun _ => .gfMul⟩,
   ⟨0x00000012, 0xFFFFFFFF, fun _ => .gfInv⟩,
   ⟨0x00000013, 0xFFFFFFFF, fun _ => .gfExp⟩,
   ⟨0x00000014, 0xFFFFFFFF, fun _ => .gfLog⟩]

/-- The polynomial rows, opcodes 0x2_ (R321). -/
def rowsPoly : List OpRow :=
  [⟨0x00000020, 0xFFFFF8FF, fun w => .pZero (fieldRD w)⟩,
   ⟨0x00000021, 0xFFFFF8FF, fun w => .pMono (fieldRD w)⟩,
   ⟨0x00000022, 0xFFFF88FF, fun w => .pCopy (fieldRD w) (fieldRA w)⟩,
   ⟨0x00000023, 0xFFFFF8FF, fun w => .pNorm (fieldRD w)⟩,
   ⟨0x00000024, 0xFFF888FF, fun w => .pAdd (fieldRD w) (fieldRA w) (fieldRB w)⟩,
   ⟨0x00000025, 0xFFF888FF, fun w => .pMul (fieldRD w) (fieldRA w) (fieldRB w)⟩,
   ⟨0x00000026, 0xFFFF88FF, fun w => .pScale (fieldRD w) (fieldRA w)⟩,
   ⟨0x00000027, 0xFFFF88FF, fun w => .pMulmono (fieldRD w) (fieldRA w)⟩,
   ⟨0x00000028, 0xFF8888FF, fun w => .pDiv (fieldRD w) (fieldRC w) (fieldRA w) (fieldRB w)⟩,
   ⟨0x00000029, 0xFFFF8FFF, fun w => .pEval (fieldRA w)⟩,
   ⟨0x0000002A, 0xFFFF8FFF, fun w => .pCoef (fieldRA w)⟩,
   ⟨0x0000002B, 0xFFFF8FFF, fun w => .pDeg (fieldRA w)⟩]

/-- The Reed-Solomon rows, opcodes 0x3_ (R321). -/
def rowsRs : List OpRow :=
  [⟨0x00000030, 0xFFFFF8FF, fun w => .rsGen (fieldRD w)⟩,
   ⟨0x00000031, 0xFFFFFFFF, fun _ => .rsEnc⟩,
   ⟨0x00000032, 0xFFFFF8FF, fun w => .rsSynd (fieldRD w)⟩,
   ⟨0x00000033, 0xFF8F88FF, fun w => .rsKey (fieldRD w) (fieldRC w) (fieldRA w)⟩,
   ⟨0x00000034, 0xFFFF8FFF, fun w => .rsChien (fieldRA w)⟩,
   ⟨0x00000035, 0xFFFF8FFF, fun w => .rsForney (fieldRA w)⟩,
   ⟨0x00000036, 0xFFFFFFFF, fun _ => .rsCorr⟩,
   ⟨0x00000037, 0xFFFFFFFF, fun _ => .rsDec⟩]

/-- The bit vector rows, opcodes 0x4_ (R321). -/
def rowsBitVector : List OpRow :=
  [⟨0x00000040, 0xFFFFFEFF, fun w => .bvClear (fieldBD w)⟩,
   ⟨0x00000041, 0xFFFFFEFF, fun w => .bvAppend (fieldBD w)⟩,
   ⟨0x00000042, 0xFFFFEFFF, fun w => .bvGet (fieldBA w)⟩,
   ⟨0x00000043, 0xFFFFFEFF, fun w => .bvSet (fieldBD w)⟩,
   ⟨0x00000044, 0xFFFFEEFF, fun w => .bvXor (fieldBD w) (fieldBA w)⟩,
   ⟨0x00000045, 0xFFFFEFFF, fun w => .bvTobytes (fieldBA w)⟩,
   ⟨0x00000046, 0xFFFFFEFF, fun w => .bvSetsize (fieldBD w)⟩]

/-- The bit matrix rows, opcodes 0x5_ (R321). -/
def rowsBitMatrix : List OpRow :=
  [⟨0x00000050, 0xFFFFFFFF, fun _ => .bmInit⟩,
   ⟨0x00000051, 0xFFFFFFFF, fun _ => .bmClear⟩,
   ⟨0x00000052, 0xFFFFFFFF, fun _ => .bmGet⟩,
   ⟨0x00000053, 0xFFFFFFFF, fun _ => .bmSet⟩,
   ⟨0x00000054, 0xFFFFFFFF, fun _ => .bmSetregion⟩,
   ⟨0x00000055, 0xFFFFFFFF, fun _ => .bmTopleft⟩,
   ⟨0x00000056, 0xFFFFFFFF, fun _ => .bmBotright⟩,
   ⟨0x00000057, 0xFFFFFEFF, fun w => .bmRow (fieldBD w)⟩,
   ⟨0x00000058, 0xFFFFFEFF, fun w => .bmCol (fieldBD w)⟩]

/-- The symbol matrix rows, opcodes 0x6_ (R321). -/
def rowsSymbol : List OpRow :=
  [⟨0x00000060, 0xFFFFFFFF, fun _ => .symInit⟩,
   ⟨0x00000061, 0xFFFFFFFF, fun _ => .symGet⟩,
   ⟨0x00000062, 0xFFFFFFFF, fun _ => .symSet⟩,
   ⟨0x00000063, 0xFFFFFFFF, fun _ => .embBasic⟩,
   ⟨0x00000064, 0xFFFFFFFF, fun _ => .embType⟩,
   ⟨0x00000065, 0xFFFFFFFF, fun _ => .embVersion⟩,
   ⟨0x00000066, 0xFFFFEFFF, fun w => .embData (fieldBA w)⟩,
   ⟨0x00000067, 0xFFFFEFFF, fun w => .symBuild (fieldBA w)⟩,
   ⟨0x00000068, 0xFFFFFFFF, fun _ => .symExport⟩]

/-- The mask and BCH rows, opcodes 0x7_ (R321). -/
def rowsMask : List OpRow :=
  [⟨0x00000070, 0xFFFFFFFF, fun _ => .maskBit⟩,
   ⟨0x00000071, 0xFFFFFFFF, fun _ => .maskPenalty⟩,
   ⟨0x00000072, 0xFFFFEFFF, fun w => .maskSelect (fieldBA w)⟩,
   ⟨0x00000073, 0xFFFFFFFF, fun _ => .bchType⟩,
   ⟨0x00000074, 0xFFFFFFFF, fun _ => .bchVersion⟩]

/-- The opcode map, 56 rows in the table's order (R321). -/
def opTable : List OpRow :=
  rowsControl ++ rowsField ++ rowsPoly ++ rowsRs ++ rowsBitVector ++ rowsBitMatrix ++ rowsSymbol ++ rowsMask

/-- Decoding as 30_encoding.md R310 states it: the opcode is looked up first, then the must-be-zero bits are tested. -/
def decode (w : Word) : Except DecodeError Instr :=
  match opTable.find? (fun row => decide (fieldOPC row.pattern = fieldOPC w)) with
  | none => .error .undefinedOpcode
  | some row => if w &&& row.mask = row.pattern then .ok (row.build w) else .error .mustBeZero

/-- A command word from its opcode and its fields in place, every other bit zero (R301, R320). -/
def cmdWord (opc rd ra rb rc : Nat) : Word :=
  BitVec.ofNat 32 (opc + rd * 2 ^ 8 + ra * 2 ^ 12 + rb * 2 ^ 16 + rc * 2 ^ 20)

/-- The one word of a well-formed command (R300, R320). -/
def encode : Instr → Word
  | .nop => cmdWord 0x00 0 0 0 0
  | .gfAdd => cmdWord 0x10 0 0 0 0
  | .gfMul => cmdWord 0x11 0 0 0 0
  | .gfInv => cmdWord 0x12 0 0 0 0
  | .gfExp => cmdWord 0x13 0 0 0 0
  | .gfLog => cmdWord 0x14 0 0 0 0
  | .pZero rd => cmdWord 0x20 rd 0 0 0
  | .pMono rd => cmdWord 0x21 rd 0 0 0
  | .pCopy rd ra => cmdWord 0x22 rd ra 0 0
  | .pNorm rd => cmdWord 0x23 rd 0 0 0
  | .pAdd rd ra rb => cmdWord 0x24 rd ra rb 0
  | .pMul rd ra rb => cmdWord 0x25 rd ra rb 0
  | .pScale rd ra => cmdWord 0x26 rd ra 0 0
  | .pMulmono rd ra => cmdWord 0x27 rd ra 0 0
  | .pDiv rd rc ra rb => cmdWord 0x28 rd ra rb rc
  | .pEval ra => cmdWord 0x29 0 ra 0 0
  | .pCoef ra => cmdWord 0x2A 0 ra 0 0
  | .pDeg ra => cmdWord 0x2B 0 ra 0 0
  | .rsGen rd => cmdWord 0x30 rd 0 0 0
  | .rsEnc => cmdWord 0x31 0 0 0 0
  | .rsSynd rd => cmdWord 0x32 rd 0 0 0
  | .rsKey rd rc ra => cmdWord 0x33 rd ra 0 rc
  | .rsChien ra => cmdWord 0x34 0 ra 0 0
  | .rsForney ra => cmdWord 0x35 0 ra 0 0
  | .rsCorr => cmdWord 0x36 0 0 0 0
  | .rsDec => cmdWord 0x37 0 0 0 0
  | .bvClear x => cmdWord 0x40 x.number 0 0 0
  | .bvAppend x => cmdWord 0x41 x.number 0 0 0
  | .bvGet y => cmdWord 0x42 0 y.number 0 0
  | .bvSet x => cmdWord 0x43 x.number 0 0 0
  | .bvXor x y => cmdWord 0x44 x.number y.number 0 0
  | .bvTobytes y => cmdWord 0x45 0 y.number 0 0
  | .bvSetsize x => cmdWord 0x46 x.number 0 0 0
  | .bmInit => cmdWord 0x50 0 0 0 0
  | .bmClear => cmdWord 0x51 0 0 0 0
  | .bmGet => cmdWord 0x52 0 0 0 0
  | .bmSet => cmdWord 0x53 0 0 0 0
  | .bmSetregion => cmdWord 0x54 0 0 0 0
  | .bmTopleft => cmdWord 0x55 0 0 0 0
  | .bmBotright => cmdWord 0x56 0 0 0 0
  | .bmRow x => cmdWord 0x57 x.number 0 0 0
  | .bmCol x => cmdWord 0x58 x.number 0 0 0
  | .symInit => cmdWord 0x60 0 0 0 0
  | .symGet => cmdWord 0x61 0 0 0 0
  | .symSet => cmdWord 0x62 0 0 0 0
  | .embBasic => cmdWord 0x63 0 0 0 0
  | .embType => cmdWord 0x64 0 0 0 0
  | .embVersion => cmdWord 0x65 0 0 0 0
  | .embData y => cmdWord 0x66 0 y.number 0 0
  | .symBuild y => cmdWord 0x67 0 y.number 0 0
  | .symExport => cmdWord 0x68 0 0 0 0
  | .maskBit => cmdWord 0x70 0 0 0 0
  | .maskPenalty => cmdWord 0x71 0 0 0 0
  | .maskSelect y => cmdWord 0x72 0 y.number 0 0
  | .bchType => cmdWord 0x73 0 0 0 0
  | .bchVersion => cmdWord 0x74 0 0 0 0

/-- The command that the decoder reads from a table row's word: every row is one 32-bit word (R300), so a word that does
not fit 32 bits is no command word. -/
def decodeTableWord (nbits w : Nat) : Option Instr :=
  if w < 2 ^ 32 ∧ w < 2 ^ nbits then
    match decode (BitVec.ofNat 32 w) with
    | .ok i => some i
    | .error _ => none
  else none

end Sys2Proof
end

