-- ==== Sys2Proof/Machine/Flags.lean ====
section
/-! DEFINITION. The error codes (60_exceptions.md R910), the `STATUS` bits (10_state.md R106), and the three ways they
change: acceptance of a command (R900), its completion with success, and its completion with a failure (R901, R902). -/

namespace Sys2Proof.Machine

/-- The failures that a command can report, one for each code and subcode of 60_exceptions.md R910. -/
inductive Failure where
  /-- A source polynomial register is empty. -/
  | emptyPoly
  /-- Division by the zero polynomial. -/
  | zeroDivisor
  /-- `ecCount` = 0. -/
  | zeroEcCount
  /-- No data codeword (n ≤ e). -/
  | noDataCodeword
  /-- Bit count n > 32. -/
  | bitCount
  /-- Bit index or range outside the vector or the store. -/
  | bitIndex
  /-- Invalid mask index. -/
  | maskIndex
  /-- Coordinate out of bounds. -/
  | coordinate
  /-- Region empty or not inside the matrix. -/
  | region
  /-- Zero matrix dimension. -/
  | zeroDimension
  /-- Version outside 1..40. -/
  | version
  /-- EC level operand outside 0..3. -/
  | ecLevel
  /-- The two destination registers are the same. -/
  | sameDestination
  /-- `twoS` = 0. -/
  | zeroTwoS
  /-- No symbol (`SYMN` = 0). -/
  | noSymbol
  /-- Block length n = 0. -/
  | zeroLength
  /-- Bit vectors of unequal size. -/
  | unequalSize
  /-- Cell value not 0, 1 or 0xFFFF_FFFF. -/
  | cellValue
  /-- `log(0)`. -/
  | logZero
  /-- `inverse(0)`, including a zero Forney denominator. -/
  | inverseZero
  /-- Field-element operand above 255. -/
  | fieldOperand
  /-- "sigmaTilde(0) was zero". -/
  | sigmaZero
  /-- Chien root count differs from deg σ. -/
  | rootCount
  /-- "bad error location" (position < 0). -/
  | badLocation
  /-- r_{i-1} was zero in the Euclidean loop (unreachable, 43_rs.md R505). -/
  | remainderZero
  /-- Euclidean division failed to reduce (unreachable, 43_rs.md R505). -/
  | notReduced
  /-- Invalid mask for type information (mask > 7). -/
  | typeMask
  /-- Separator cell not empty. -/
  | separatorCell
  /-- Dark-module cell is white. -/
  | darkModule
  /-- Not all data bits consumed. -/
  | dataBitsLeft
  /-- Bit-vector store full, or size > 32768. -/
  | bankCapacity
  /-- Polynomial result longer than 512 coefficients. -/
  | polyCapacity
  /-- Codeword buffer range beyond 256 bytes. -/
  | cwCapacity
  /-- Bit-matrix dimension above 256. -/
  | bmCapacity
  /-- Generator degree or `twoS` above 255. -/
  | rsCapacity
  /-- Undefined opcode. -/
  | undefinedOpcode
  /-- A must-be-zero bit is 1. -/
  | mustBeZero
deriving DecidableEq, Repr

/-- `ERRCODE.CODE` of a failure (60_exceptions.md R910). -/
def Failure.code : Failure → Byte
  | .emptyPoly | .zeroDivisor | .zeroEcCount | .noDataCodeword | .bitCount | .bitIndex | .maskIndex | .coordinate
  | .region | .zeroDimension | .version | .ecLevel | .sameDestination | .zeroTwoS | .noSymbol | .zeroLength
  | .unequalSize | .cellValue => 0x01
  | .logZero | .inverseZero | .fieldOperand => 0x02
  | .sigmaZero | .rootCount | .badLocation | .remainderZero | .notReduced => 0x03
  | .typeMask | .separatorCell | .darkModule | .dataBitsLeft => 0x04
  | .bankCapacity | .polyCapacity | .cwCapacity | .bmCapacity | .rsCapacity => 0x05
  | .undefinedOpcode | .mustBeZero => 0x06

/-- `ERRCODE.SUB` of a failure (60_exceptions.md R910). -/
def Failure.sub : Failure → Byte
  | .emptyPoly => 0x01
  | .zeroDivisor => 0x02
  | .zeroEcCount => 0x03
  | .noDataCodeword => 0x04
  | .bitCount => 0x05
  | .bitIndex => 0x06
  | .maskIndex => 0x07
  | .coordinate => 0x08
  | .region => 0x09
  | .zeroDimension => 0x0A
  | .version => 0x0B
  | .ecLevel => 0x0C
  | .sameDestination => 0x0D
  | .zeroTwoS => 0x0E
  | .noSymbol => 0x0F
  | .zeroLength => 0x10
  | .unequalSize => 0x11
  | .cellValue => 0x12
  | .logZero => 0x01
  | .inverseZero => 0x02
  | .fieldOperand => 0x03
  | .sigmaZero => 0x01
  | .rootCount => 0x02
  | .badLocation => 0x03
  | .remainderZero => 0x04
  | .notReduced => 0x05
  | .typeMask => 0x01
  | .separatorCell => 0x02
  | .darkModule => 0x03
  | .dataBitsLeft => 0x04
  | .bankCapacity => 0x01
  | .polyCapacity => 0x02
  | .cwCapacity => 0x03
  | .bmCapacity => 0x04
  | .rsCapacity => 0x05
  | .undefinedOpcode => 0x01
  | .mustBeZero => 0x02

/-- The failure that a word which is no command reports (30_encoding.md R310). -/
def Failure.ofDecode : DecodeError → Failure
  | .undefinedOpcode => .undefinedOpcode
  | .mustBeZero => .mustBeZero

/-- `STATUS` as a word (10_state.md R106): `BUSY` is bit 0, `DONE` 1, `ERR` 2, `OVR` 3, `HAZ` 4, `CFGERR` 5. -/
def Status.toWord (st : Status) : Word :=
  BitVec.ofNat 32 (st.busy.toNat + st.done.toNat * 2 + st.err.toNat * 4 + st.ovr.toNat * 8 + st.haz.toNat * 16
    + st.cfgErr.toNat * 32)

/-- A host write of `v` to `STATUS`: a W1C field is cleared by writing 1 to it and unchanged by writing 0; `BUSY` ignores
writes (10_state.md R105, R106). -/
def Status.clearedBy (st : Status) (v : Word) : Status where
  busy := st.busy
  done := st.done && !v.getLsbD 1
  err := st.err && !v.getLsbD 2
  ovr := st.ovr && !v.getLsbD 3
  haz := st.haz && !v.getLsbD 4
  cfgErr := st.cfgErr && !v.getLsbD 5

/-- `ERRCODE` as a word (10_state.md R107). -/
def State.errWord (s : State) : Word := BitVec.ofNat 32 (s.errCode.toNat + s.errSub.toNat * 256)

/-- A WARL write was refused as illegal (10_state.md R105). -/
def State.setCfgErr (s : State) : State := { s with status := { s.status with cfgErr := true } }

/-- A host write was dropped because `BUSY` = 1 (70_reset_and_hazards.md R960). -/
def State.setHaz (s : State) : State := { s with status := { s.status with haz := true } }

/-- A write to `CMD` was dropped because `BUSY` = 1 (70_reset_and_hazards.md R961). -/
def State.setOvr (s : State) : State := { s with status := { s.status with ovr := true } }

/-- Acceptance of command word `w` (60_exceptions.md R900); `wait` host accesses come before its completion. -/
def State.accept (s : State) (w : Word) (wait : Nat) : State :=
  { s with
    cmd := w
    latch := s.arg
    status := { s.status with busy := true, done := false, err := false }
    errCode := 0
    errSub := 0
    wait := wait }

/-- Completion with success: `s` is the state with the command's writes (60_exceptions.md R901). -/
def State.succeed (s : State) : State :=
  { s with status := { s.status with busy := false, done := true, err := false }, errCode := 0, errSub := 0 }

/-- Completion with a failure: nothing but the completion bits and `ERRCODE` changes (60_exceptions.md R901, R902). -/
def State.fail (s : State) (f : Failure) : State :=
  { s with status := { s.status with busy := false, done := true, err := true }, errCode := f.code, errSub := f.sub }

/-- Completion of the command that runs in `s`, from what it computed: the state with its writes, or its failure. It is
all or nothing: a failure keeps `s`, whatever the command had computed (60_exceptions.md R901, R902). -/
def State.complete (s : State) (r : Except Failure State) : Host.Outcome State Fault Refusal :=
  match r with
  | .ok t => .next t.succeed
  | .error f => .next (s.fail f)

end Sys2Proof.Machine
end

