-- ==== Sys2Proof/Machine/Field.lean ====
section
/-! DEFINITION. The field GF(256) of `GF_PRIM`: exponent and logarithm tables, multiplication and inverse
(41_gf.md R400 to R405). `prim` is the nine-bit `GF_PRIM` throughout; field addition is `^^^` on bytes (R402). -/

namespace Sys2Proof.Machine

/-- One step of the exponent table: double, and reduce by `GF_PRIM` when the result is no byte (R400; 90_conflicts.md C2:
the test is `x ≥ 256`). -/
def gfDouble (prim x : Nat) : Nat :=
  let y := x <<< 1
  if 256 ≤ y then (y ^^^ prim) &&& 0xFF else y

/-- `EXP[i]` as an integer (R400). -/
def gfPower (prim : Nat) : Nat → Nat
  | 0 => 1
  | i + 1 => gfDouble prim (gfPower prim i)

/-- `EXP[i]` (R400). -/
def gfExp (prim : BitVec 9) (i : Nat) : Byte := BitVec.ofNat 8 (gfPower prim.toNat i)

/-- The index of `a` in the exponent table, which is walked from entry `i`, whose value is `x`, over `fuel` entries. -/
def gfFind (prim a : Nat) : (fuel i x : Nat) → Nat
  | 0, i, _ => i
  | fuel + 1, i, x => if x = a then i else gfFind prim a fuel (i + 1) (gfDouble prim x)

/-- `LOG[a]`: the first of the 255 entries `EXP[0..254]` that holds `a`, which is the only one when `GF_PRIM` is primitive
(R401). `LOG[0]` has no value, and no command reads it. -/
def gfLog (prim : BitVec 9) (a : Byte) : Nat := gfFind prim.toNat a.toNat 255 0 1

/-- Field multiplication (R403). -/
def gfMul (prim : BitVec 9) (a b : Byte) : Byte :=
  if a = 0 ∨ b = 0 then 0 else gfExp prim ((gfLog prim a + gfLog prim b) % 255)

/-- The inverse of a nonzero element, `EXP[255 - LOG[a]]` (R404). -/
def gfInvNonzero (prim : BitVec 9) (a : Byte) : Byte := gfExp prim (255 - gfLog prim a)

/-- Field inverse; `inverse(0)` fails (R404). -/
def gfInv (prim : BitVec 9) (a : Byte) : Except Failure Byte :=
  if a = 0 then .error .inverseZero else .ok (gfInvNonzero prim a)

end Sys2Proof.Machine
end

