-- ==== Sys2Proof/Machine/Polynomial.lean ====
section
/-! DEFINITION. Polynomials over GF(256) as non-empty coefficient lists, most significant first, and the primitives of
42_poly.md R450 to R460. -/

namespace Sys2Proof.Machine

/-- A polynomial: its coefficients, that of the highest power first (42_poly.md). -/
abbrev Poly := List Byte

/-- Normalisation: leading zeros are dropped, down to one coefficient (R450). -/
def norm : Poly → Poly
  | [] => []
  | [c] => [c]
  | c :: d :: cs => if c = 0 then norm (d :: cs) else c :: d :: cs

/-- The degree of a normalised polynomial; the zero polynomial has degree 0 (R451). -/
def deg (p : Poly) : Nat := p.length - 1

/-- The zero test of a normalised polynomial (R452). -/
def isZero (p : Poly) : Bool := decide (p.headD 0 = 0)

/-- The coefficient of power `d`, 0 above the degree (R453). -/
def coef (p : Poly) (d : Nat) : Byte := if d ≤ deg p then p.getD (p.length - 1 - d) 0 else 0

/-- The leading coefficient (R453). -/
def lead (p : Poly) : Byte := coef p (deg p)

/-- The monomial `c·x^d` (R454). -/
def mono (d : Nat) (c : Byte) : Poly := if c = 0 then [0] else c :: List.replicate d 0

/-- The sum of two lists of coefficients, of which `short` is not the longer: aligned on the constant term (R455). -/
def xorAligned (short long : Poly) : Poly :=
  let k := long.length - short.length
  long.take k ++ List.zipWith (· ^^^ ·) short (long.drop k)

/-- Addition, which is subtraction too (R455). -/
def padd (a b : Poly) : Poly :=
  if isZero a then b
  else if isZero b then a
  else if a.length ≤ b.length then norm (xorAligned a b)
  else norm (xorAligned b a)

/-- The XOR of two lists aligned on their FIRST entries, the rest of the longer kept. -/
def xorLeft : List Byte → List Byte → List Byte
  | [], ys => ys
  | x :: xs, [] => x :: xs
  | x :: xs, y :: ys => (x ^^^ y) :: xorLeft xs ys

/-- The convolution of two coefficient lists before normalisation: entry `i + j` collects `a[i]·b[j]` (R456). -/
def convolve (prim : BitVec 9) : Poly → Poly → Poly
  | [], b => List.replicate (b.length - 1) 0
  | x :: xs, b => xorLeft (b.map (gfMul prim x)) (0 :: convolve prim xs b)

/-- Multiplication (R456). -/
def pmul (prim : BitVec 9) (a b : Poly) : Poly :=
  if isZero a || isZero b then [0] else norm (convolve prim a b)

/-- Multiplication by a scalar (R457). -/
def pscale (prim : BitVec 9) (a : Poly) (s : Byte) : Poly :=
  if s = 0 then [0] else if s = 1 then a else norm (a.map fun c => gfMul prim c s)

/-- Multiplication by the monomial `c·x^d` (R458). -/
def pmulmono (prim : BitVec 9) (a : Poly) (d : Nat) (c : Byte) : Poly :=
  if c = 0 then [0] else norm ((a.map fun x => gfMul prim x c) ++ List.replicate d 0)

/-- The loop of long division by `b`, whose leading coefficient has inverse `inv`, from quotient `q` and remainder `r`
(R459). Each round lowers the degree of `r` or makes it zero, so `fuel` rounds are enough when `fuel` is `r`'s length. -/
def divLoop (prim : BitVec 9) (b : Poly) (inv : Byte) : (fuel : Nat) → (q r : Poly) → Poly × Poly
  | 0, q, r => (q, r)
  | fuel + 1, q, r =>
    if deg b ≤ deg r ∧ isZero r = false then
      let dd := deg r - deg b
      let s := gfMul prim (lead r) inv
      divLoop prim b inv fuel (padd q (mono dd s)) (padd r (pmulmono prim b dd s))
    else (q, r)

/-- Division: quotient and remainder; a zero divisor fails (R459). -/
def pdiv (prim : BitVec 9) (a b : Poly) : Except Failure (Poly × Poly) := do
  if isZero b then throw .zeroDivisor
  let inv ← gfInv prim (lead b)
  return divLoop prim b inv a.length [0] a

/-- Evaluation at `x`: Horner's method with the two fast paths (R460). -/
def peval (prim : BitVec 9) (p : Poly) (x : Byte) : Byte :=
  if x = 0 then coef p 0
  else if x = 1 then p.foldl (· ^^^ ·) 0
  else p.tail.foldl (fun v c => gfMul prim x v ^^^ c) (p.headD 0)

end Sys2Proof.Machine
end

