-- ==== Sys2Proof/Machine/Operands.lean ====
section
/-! DEFINITION. The operands of a command: the latched `ARG` registers (30_encoding.md R302, 60_exceptions.md R900), field
elements (41_gf.md R406), polynomial registers (10_state.md R130), and the views of the state that commands read. -/

namespace Sys2Proof.Machine

/-- `check(cond) else Fail(f)` (00_scope.md R9). -/
def check (c : Bool) (f : Failure) : Except Failure Unit := if c then .ok () else .error f

/-- `ARG[i]` as the running command sees it: the latched value, unsigned (30_encoding.md R302, 10_state.md R120). -/
def State.operand (s : State) (i : Nat) : Nat := (s.latch.getD i 0).toNat

/-- A field-element operand: 255 at most (41_gf.md R406). -/
def State.fieldOperand (s : State) (i : Nat) : Except Failure Byte := do
  check (decide (s.operand i ≤ 255)) .fieldOperand
  return BitVec.ofNat 8 (s.operand i)

/-- `PLEN[r]` (10_state.md R131). -/
def State.plenOf (s : State) (r : Nat) : Nat := s.plen.getD r 0

/-- `COEF[r][0..n-1]` (10_state.md R130). -/
def State.coefs (s : State) (r n : Nat) : List Byte := s.mem.readBytes (coefAddr r 0) n

/-- Reading `P[r]`: an empty register cannot be read, any other gives a normalised polynomial (10_state.md R130). -/
def State.poly (s : State) (r : Nat) : Except Failure Poly := do
  check (decide (s.plenOf r ≠ 0)) .emptyPoly
  return norm (s.coefs r (s.plenOf r))

/-- `GF_BASE` as a number, 0 or 1 (10_state.md R111). -/
def State.base (s : State) : Nat := s.gfBase.toNat

/-- `CW[0..n-1]` (10_state.md R150). -/
def State.cw (s : State) (n : Nat) : List Byte := s.mem.readBytes (cwAddr 0) n

/-- `LOC[0..LOCCNT-1]` (10_state.md R180). -/
def State.locs (s : State) : List Byte := (List.range s.locCnt).map fun k => s.mem.read (locAddr k)

/-- `MAG[0..LOCCNT-1]` (10_state.md R180). -/
def State.mags (s : State) : List Byte := (List.range s.locCnt).map fun k => s.mem.read (magAddr k)

/-- `BV[b].size` (10_state.md R140). -/
def State.bvSize (s : State) : Bank → Nat
  | .A => s.bvSizeA
  | .B => s.bvSizeB

/-- `BV[b].bit[i]` (10_state.md R140). -/
def State.bvBit (s : State) (b : Bank) (i : Nat) : Bool := s.mem.bit (bankBase b) i

/-- The value of a bank: its bits 0 to size - 1 (44_bitvec.md R600). -/
def State.bvBits (s : State) (b : Bank) : List Bool :=
  let store := s.mem.window (bankBase b) (bankBase b + 0x1000)
  (List.range (s.bvSize b)).map fun i => store.bit (bankBase b) i

/-- `row_size`, the words of a row of the bit matrix (10_state.md R160). -/
def State.bmRowSize (s : State) : Nat := (s.bmW + 31) / 32

/-- The index of cell (x, y)'s bit in the matrix store: bit `x % 32` of word `y * row_size + x / 32` (10_state.md R160). -/
def State.bmBitIndex (s : State) (x y : Nat) : Nat := 32 * (s.bmRowSize * y) + x

/-- `BM(x, y)`; a place outside the matrix reads 0 (10_state.md R160, 45_bitmatrix.md R651). -/
def State.bmCell (s : State) (x y : Nat) : Bool :=
  decide (x < s.bmW) && decide (y < s.bmH) && s.mem.bit bmBase (s.bmBitIndex x y)

/-- Bit `j` of `BMWORD[o]` is a cell, not padding and not outside the matrix (45_bitmatrix.md R650, R651). -/
def State.bmIsCell (s : State) (o j : Nat) : Bool :=
  decide (32 * (o % s.bmRowSize) + j < s.bmW) && decide (o / s.bmRowSize < s.bmH)

/-- The bits of `BMWORD[o]` that are cells. -/
def State.bmCellMask (s : State) (o : Nat) : Word := wordOfBits (s.bmIsCell o)

/-- `BMWORD[o]`; bits that are not cells read 0 (10_state.md R160). -/
def State.bmWord (s : State) (o : Nat) : Word := s.mem.word (bmBase + 4 * o) &&& s.bmCellMask o

/-- `SYMN`: 0 when there is no symbol, else `4 * SYMV + 17` (10_state.md R170, 46_symbol.md R701). -/
def State.symN (s : State) : Nat := if s.symV = 0 then 0 else 4 * s.symV + 17

end Sys2Proof.Machine
end

