-- ==== Sys2Proof/Machine/Ops.lean ====
section
/-! DEFINITION. The writes that commands make: `RESULT`, polynomial registers, the codeword buffer, the error lists, the
banks, the bit matrix. The block takes no exception (60_exceptions.md R920, R922): what stands in for one, the report of a
failure, is `State.fail` in Flags.lean. -/

namespace Sys2Proof.Machine

/-- `RESULT[i] <- v` (10_state.md R121). -/
def State.setResult (s : State) (i : Nat) (v : Word) : State := { s with result := s.result.setIfInBounds i v }

/-- `PLEN[r] <- n`. -/
def State.setPlen (s : State) (r n : Nat) : State := { s with plen := s.plen.setIfInBounds r n }

/-- Replace the memories. -/
def State.setMem (s : State) (m : Memory) : State := { s with mem := m }

/-- `P[r] <- p`: at most 512 coefficients; the coefficients beyond `p`'s length keep their values (10_state.md R130). -/
def State.setPoly (s : State) (r : Nat) (p : Poly) : Except Failure State := do
  check (decide (p.length ≤ 512)) .polyCapacity
  return (s.setPlen r p.length).setMem (s.mem.write (coefAddr r 0) p)

/-- `CW[i..] <- bytes`. -/
def State.setCw (s : State) (i : Nat) (bytes : List Byte) : State := s.setMem (s.mem.write (cwAddr i) bytes)

/-- `LOC[0..] <- bytes`. -/
def State.setLocs (s : State) (bytes : List Byte) : State := s.setMem (s.mem.writeEvery4 (locAddr 0) bytes)

/-- `MAG[0..] <- bytes`. -/
def State.setMags (s : State) (bytes : List Byte) : State := s.setMem (s.mem.writeEvery4 (magAddr 0) bytes)

/-- `LOCCNT <- n` (10_state.md R180). -/
def State.setLocCnt (s : State) (n : Nat) : State := { s with locCnt := n }

/-- `BV[b].size <- n` (10_state.md R140). -/
def State.setBvSize (s : State) (b : Bank) (n : Nat) : State :=
  match b with
  | .A => { s with bvSizeA := n }
  | .B => { s with bvSizeB := n }

/-- `BV[b].bit[i + k] <- f k` for `k < n`. -/
def State.setBvBits (s : State) (b : Bank) (i n : Nat) (f : Nat → Bool) : State :=
  s.setMem (s.mem.writeBits (bankBase b) i n f)

/-- `BMW <- w; BMH <- h; BMWORD[o] <- 0` for every o (45_bitmatrix.md R660, 46_symbol.md R748). -/
def State.newMatrix (s : State) (w h : Nat) : State := { s with bmW := w, bmH := h, mem := s.mem.fill bmBase 0x2000 0 }

/-- `BM(x + k, y) <- f k` for `k < n`. -/
def State.setBmRow (s : State) (x y n : Nat) (f : Nat → Bool) : State :=
  s.setMem (s.mem.writeBits bmBase (s.bmBitIndex x y) n f)

/-- `PEN[m] <- p[m]` (10_state.md R122). -/
def State.setPens (s : State) (p : Vector Word 8) : State := { s with pen := p }

/-- `SYMV <- v`, and with it `SYMN` (10_state.md R170). -/
def State.setSymV (s : State) (v : Nat) : State := { s with symV := v }

/-- The platform's reset: every register takes its reset value and a running command is abandoned; the memories keep what
they hold (70_reset_and_hazards.md R950 to R952). What the outside world still asks, and the model's own counters, stay. -/
def State.platformReset (s : State) : State :=
  { State.reset with mem := s.mem, host := s.host, rdata := s.rdata, draws := s.draws }

end Sys2Proof.Machine
end

