-- ==== Sys2Proof/Machine/BitMatrixCommands.lean ====
section
/-! DEFINITION. The bit-matrix scans (45_bitmatrix.md R653) and commands (R660 to R668). -/

namespace Sys2Proof.Machine

/-- The index of the lowest set bit of a word (R653). -/
def lowestSetBit (w : Word) : Option Nat := (List.range 32).find? fun j => w.getLsbD j

/-- The index of the highest set bit of a word (R653). -/
def highestSetBit (w : Word) : Option Nat := (List.range 32).reverse.find? fun j => w.getLsbD j

/-- The cell of bit `j` of word `o` (R650). -/
def State.bmPosition (s : State) (o j : Nat) : Nat × Nat := (32 * (o % s.bmRowSize) + j, o / s.bmRowSize)

/-- `top_left()`: the first nonzero word, then its lowest set bit (R653). -/
def State.topLeft (s : State) : Option (Nat × Nat) := do
  let o ← (List.range (s.bmRowSize * s.bmH)).find? fun o => decide (s.bmWord o ≠ 0)
  let j ← lowestSetBit (s.bmWord o)
  return s.bmPosition o j

/-- `bottom_right()`: the last nonzero word, then its highest set bit (R653). -/
def State.bottomRight (s : State) : Option (Nat × Nat) := do
  let o ← (List.range (s.bmRowSize * s.bmH)).reverse.find? fun o => decide (s.bmWord o ≠ 0)
  let j ← highestSetBit (s.bmWord o)
  return s.bmPosition o j

/-- What a scan leaves in `RESULT0..2`: found, x, y, or three zeros (R665, R666). -/
def State.setScan (s : State) (p : Option (Nat × Nat)) : State :=
  match p with
  | none => ((s.setResult 0 0).setResult 1 0).setResult 2 0
  | some (x, y) => ((s.setResult 0 1).setResult 1 (Word.ofNat x)).setResult 2 (Word.ofNat y)

/-- `BM_INIT` (R660). -/
def execBmInit (s : State) : Host.Outcome State Fault Refusal :=
  s.complete do
    let w := s.operand 0
    let h := s.operand 1
    check (decide (1 ≤ w) && decide (1 ≤ h)) .zeroDimension
    check (decide (w ≤ 256) && decide (h ≤ 256)) .bmCapacity
    return s.newMatrix w h

/-- `BM_CLEAR` (R661): the dimensions stay. -/
def execBmClear (s : State) : Host.Outcome State Fault Refusal :=
  s.complete (.ok (s.newMatrix s.bmW s.bmH))

/-- `BM_GET` (R662). -/
def execBmGet (s : State) : Host.Outcome State Fault Refusal :=
  s.complete do
    let x := s.operand 0
    let y := s.operand 1
    check (decide (x < s.bmW) && decide (y < s.bmH)) .coordinate
    return s.setResult 0 (Word.ofBool (s.bmCell x y))

/-- `BM_SET` (R663). -/
def execBmSet (s : State) : Host.Outcome State Fault Refusal :=
  s.complete do
    let x := s.operand 0
    let y := s.operand 1
    check (decide (x < s.bmW) && decide (y < s.bmH)) .coordinate
    return s.setBmRow x y 1 fun _ => true

/-- `BM_SETREGION` (R664). -/
def execBmSetregion (s : State) : Host.Outcome State Fault Refusal :=
  s.complete do
    let l := s.operand 0
    let t := s.operand 1
    let w := s.operand 2
    let h := s.operand 3
    check (decide (1 ≤ w) && decide (1 ≤ h)) .region
    check (decide (l + w ≤ s.bmW) && decide (t + h ≤ s.bmH)) .region
    return (List.range h).foldl (fun u k => u.setBmRow l (t + k) w fun _ => true) s

/-- `BM_TOPLEFT` (R665). -/
def execBmTopleft (s : State) : Host.Outcome State Fault Refusal :=
  s.complete (.ok (s.setScan s.topLeft))

/-- `BM_BOTRIGHT` (R666). -/
def execBmBotright (s : State) : Host.Outcome State Fault Refusal :=
  s.complete (.ok (s.setScan s.bottomRight))

/-- `BM_ROW X` (R667): bit x of the bank is column x. -/
def execBmRow (x : Bank) (s : State) : Host.Outcome State Fault Refusal :=
  s.complete do
    let y := s.operand 0
    check (decide (y < s.bmH)) .coordinate
    return (s.setBvBits x 0 s.bmW fun c => s.bmCell c y).setBvSize x s.bmW

/-- `BM_COL X` (R668): bit y of the bank is row y. -/
def execBmCol (x : Bank) (s : State) : Host.Outcome State Fault Refusal :=
  s.complete do
    let c := s.operand 0
    check (decide (c < s.bmW)) .coordinate
    return (s.setBvBits x 0 s.bmH fun y => s.bmCell c y).setBvSize x s.bmH

end Sys2Proof.Machine
end

