-- ==== Sys2Proof/Machine/BitVectorCommands.lean ====
section
/-! DEFINITION. The bit-vector commands (44_bitvec.md R600 to R616). -/

namespace Sys2Proof.Machine

/-- Byte `i` of `to_bytes(b, bitOffset, ·)`: eight bits of the bank, the first in the most significant place (R604). -/
def State.exportByte (s : State) (b : Bank) (bitOffset i : Nat) : Byte :=
  byteOfBits fun j => s.bvBit b (bitOffset + 8 * i + (7 - j))

/-- `to_bytes(b, bitOffset, count)` (R604). -/
def State.toBytes (s : State) (b : Bank) (bitOffset count : Nat) : List Byte :=
  (List.range count).map (s.exportByte b bitOffset)

/-- `BV_CLEAR X` (R610): the whole store and the size. -/
def execBvClear (x : Bank) (s : State) : Host.Outcome State Fault Refusal :=
  s.complete (.ok ((s.setMem (s.mem.fill (bankBase x) 0x1000 0)).setBvSize x 0))

/-- `BV_APPEND X` (R611): value bit `n - 1` goes to index `size`, value bit 0 last (R601). -/
def execBvAppend (x : Bank) (s : State) : Host.Outcome State Fault Refusal :=
  s.complete do
    let value := s.latch.getD 0 0
    let n := s.operand 1
    check (decide (n ≤ 32)) .bitCount
    check (decide (s.bvSize x + n ≤ 32768)) .bankCapacity
    return (s.setBvBits x (s.bvSize x) n fun k => value.getLsbD (n - 1 - k)).setBvSize x (s.bvSize x + n)

/-- `BV_GET Y` (R612). -/
def execBvGet (y : Bank) (s : State) : Host.Outcome State Fault Refusal :=
  s.complete do
    let i := s.operand 0
    check (decide (i < s.bvSize y)) .bitIndex
    return s.setResult 0 (Word.ofBool (s.bvBit y i))

/-- `BV_SET X` (R613): any index of the store, and the size stays. -/
def execBvSet (x : Bank) (s : State) : Host.Outcome State Fault Refusal :=
  s.complete do
    let i := s.operand 0
    check (decide (i < 32768)) .bitIndex
    return s.setBvBits x i 1 fun _ => true

/-- `BV_XOR X, Y` (R614). -/
def execBvXor (x y : Bank) (s : State) : Host.Outcome State Fault Refusal :=
  s.complete do
    check (decide (s.bvSize x = s.bvSize y)) .unequalSize
    return s.setBvBits x 0 (s.bvSize x) fun i => Bool.xor (s.bvBit x i) (s.bvBit y i)

/-- `BV_TOBYTES Y` (R615). -/
def execBvTobytes (y : Bank) (s : State) : Host.Outcome State Fault Refusal :=
  s.complete do
    let bitOffset := s.operand 0
    let byteOffset := s.operand 1
    let count := s.operand 2
    check (decide (bitOffset + 8 * count ≤ s.bvSize y)) .bitIndex
    check (decide (byteOffset + count ≤ 256)) .cwCapacity
    return s.setCw byteOffset (s.toBytes y bitOffset count)

/-- `BV_SETSIZE X` (R616): the store stays. -/
def execBvSetsize (x : Bank) (s : State) : Host.Outcome State Fault Refusal :=
  s.complete do
    check (decide (s.operand 0 ≤ 32768)) .bankCapacity
    return s.setBvSize x (s.operand 0)

end Sys2Proof.Machine
end

