-- ==== Sys2Proof/Machine/Control.lean ====
section
/-! DEFINITION. The control command. -/

namespace Sys2Proof.Machine

/-- `NOP` (30_encoding.md R330): nothing but the completion bits is written. -/
def execNop (s : State) : Host.Outcome State Fault Refusal := s.complete (.ok s)

end Sys2Proof.Machine
end

