-- ==== Sys2Proof/Machine/FieldCommands.lean ====
section
/-! DEFINITION. The scalar field commands (41_gf.md R410 to R414). -/

namespace Sys2Proof.Machine

/-- `GF_ADD` (R410). -/
def execGfAdd (s : State) : Host.Outcome State Fault Refusal :=
  s.complete do
    let a ← s.fieldOperand 0
    let b ← s.fieldOperand 1
    return s.setResult 0 (Byte.toWord (a ^^^ b))

/-- `GF_MUL` (R411). -/
def execGfMul (s : State) : Host.Outcome State Fault Refusal :=
  s.complete do
    let a ← s.fieldOperand 0
    let b ← s.fieldOperand 1
    return s.setResult 0 (Byte.toWord (gfMul s.gfPrim a b))

/-- `GF_INV` (R412). -/
def execGfInv (s : State) : Host.Outcome State Fault Refusal :=
  s.complete do
    let a ← s.fieldOperand 0
    let b ← gfInv s.gfPrim a
    return s.setResult 0 (Byte.toWord b)

/-- `GF_EXP` (R413): the operand is a table index 0 to 255, not an integer mod 255. -/
def execGfExp (s : State) : Host.Outcome State Fault Refusal :=
  s.complete do
    let i ← s.fieldOperand 0
    return s.setResult 0 (Byte.toWord (gfExp s.gfPrim i.toNat))

/-- `GF_LOG` (R414). -/
def execGfLog (s : State) : Host.Outcome State Fault Refusal :=
  s.complete do
    let a ← s.fieldOperand 0
    check (decide (a ≠ 0)) .logZero
    return s.setResult 0 (Word.ofNat (gfLog s.gfPrim a))

end Sys2Proof.Machine
end

