-- ==== Sys2Proof/Machine/Grid.lean ====
section
/-! DEFINITION. The symbol's cells (46_symbol.md R700), in the memory (20_memory.md R204) and as the working grid on which a
command embeds its patterns; and the constants and patterns of the symbol: finders, separators, alignment patterns, dark
module, timing, type and version information, data placement (46_symbol.md R710 to R728), with the mask functions of
47_mask.md R800. -/

namespace Sys2Proof.Machine

/-- The value of a cell: -1 (empty), 0 (white) or 1 (black) (R700). -/
inductive Cell where
  | empty
  | white
  | black
deriving DecidableEq, Repr

/-- A data bit as a cell. -/
def Cell.ofBool (b : Bool) : Cell := if b then .black else .white

/-- Bits 0 and 1 of a cell's two-bit code: 00 white, 01 black, 10 empty (20_memory.md R204). -/
def Cell.codeBit (c : Cell) (j : Nat) : Bool :=
  match c with
  | .white => false
  | .black => decide (j = 0)
  | .empty => decide (j = 1)

/-- The cell of a two-bit code; 11 stands for an empty cell, as a host write of it does (20_memory.md R204). -/
def Cell.ofCode (bit0 bit1 : Bool) : Cell := if bit1 then .empty else Cell.ofBool bit0

/-- A cell at the register interface: 0, 1 or 0xFFFF_FFFF (R702). -/
def Cell.toWord : Cell → Word
  | .empty => 0xFFFFFFFF
  | .white => 0
  | .black => 1

/-- The cell that a register value stands for, if it stands for one (R702). -/
def Cell.ofWord (v : Word) : Option Cell :=
  if v = 0xFFFFFFFF then some .empty else if v = 0 then some .white else if v = 1 then some .black else none

/-- The cell whose code is in memory `m` for column `x` of row `y`. -/
def cellIn (m : Memory) (x y : Nat) : Cell := Cell.ofCode (m.bit (symRowBase y) (2 * x)) (m.bit (symRowBase y) (2 * x + 1))

/-- `SYM(x, y)`; a place outside the symbol reads white, code 00 (20_memory.md R204). -/
def State.symCell (s : State) (x y : Nat) : Cell :=
  if x < s.symN ∧ y < s.symN then cellIn s.mem x y else .white

/-- `SYM(x, y) <- c`. -/
def State.setSymCell (s : State) (x y : Nat) (c : Cell) : State :=
  s.setMem (s.mem.writeBits (symRowBase y) (2 * x) 2 c.codeBit)

/-- The working copy of a symbol's cells: rows of cells. -/
abbrev Grid := Array (Array Cell)

/-- An all-empty symbol of dimension `n` (R700). -/
def Grid.blank (n : Nat) : Grid := Array.replicate n (Array.replicate n .empty)

/-- The cell in column `x` of row `y`; white outside. -/
def Grid.cell (g : Grid) (x y : Nat) : Cell := (g.getD y #[]).getD x .white

/-- Write the cell in column `x` of row `y`. -/
def Grid.put (g : Grid) (x y : Nat) (c : Cell) : Grid := g.setIfInBounds y ((g.getD y #[]).setIfInBounds x c)

/-- Write cells in list order, without testing them first. -/
def Grid.putAll (g : Grid) (cells : List (Nat × Nat × Cell)) : Grid :=
  cells.foldl (fun g c => g.put c.1 c.2.1 c.2.2) g

/-- The current symbol as a grid. -/
def State.symGrid (s : State) : Grid :=
  ((List.range s.symN).map fun y =>
    let row := s.mem.window (symRowBase y) (symRowBase (y + 1))
    ((List.range s.symN).map fun x => cellIn row x y).toArray).toArray

/-- Store a grid of dimension `n` as the symbol's cells; no other bit of the memories changes. -/
def Memory.storeGrid (m : Memory) (n : Nat) (g : Grid) : Memory :=
  (List.range n).foldl (fun m y => m.writeBits (symRowBase y) 0 (2 * n) fun k => (g.cell (k / 2) y).codeBit (k % 2)) m

/-- The symbol's cells become those of grid `g`. -/
def State.setSymGrid (s : State) (g : Grid) : State := s.setMem (s.mem.storeGrid s.symN g)

/-- A pattern given as rows of 0 (white) and 1 (black), with its top left cell at (xs, ys). -/
def patternCells (xs ys : Nat) (rows : List (List Nat)) : List (Nat × Nat × Cell) :=
  rows.zipIdx.flatMap fun r => r.1.zipIdx.map fun c => (xs + c.2, ys + r.2, Cell.ofBool (decide (c.1 = 1)))

/-- `FINDER`, the position-detection pattern (R710). -/
def finderRows : List (List Nat) :=
  [[1, 1, 1, 1, 1, 1, 1],
   [1, 0, 0, 0, 0, 0, 1],
   [1, 0, 1, 1, 1, 0, 1],
   [1, 0, 1, 1, 1, 0, 1],
   [1, 0, 1, 1, 1, 0, 1],
   [1, 0, 0, 0, 0, 0, 1],
   [1, 1, 1, 1, 1, 1, 1]]

/-- `ALIGNP`, the position-adjustment pattern (R713). -/
def alignRows : List (List Nat) :=
  [[1, 1, 1, 1, 1],
   [1, 0, 0, 0, 1],
   [1, 0, 1, 0, 1],
   [1, 0, 0, 0, 1],
   [1, 1, 1, 1, 1]]

/-- The three finders, at the corners (0, 0), (N-7, 0) and (0, N-7) (R710). -/
def finderCells (n : Nat) : List (Nat × Nat × Cell) :=
  patternCells 0 0 finderRows ++ patternCells (n - 7) 0 finderRows ++ patternCells 0 (n - 7) finderRows

/-- The cells of `hsep(xs, ys)` (R711). -/
def hsep (xs ys : Nat) : List (Nat × Nat) := (List.range 8).map fun dx => (xs + dx, ys)

/-- The cells of `vsep(xs, ys)` (R711). -/
def vsep (xs ys : Nat) : List (Nat × Nat) := (List.range 7).map fun dy => (xs, ys + dy)

/-- The separators' cells in the order in which they are written (R711). -/
def separatorCells (n : Nat) : List (Nat × Nat) :=
  hsep 0 7 ++ hsep (n - 8) 7 ++ hsep 0 (n - 8) ++ vsep 7 0 ++ vsep (n - 8) 0 ++ vsep 7 (n - 7)

/-- Each separator cell must be empty before it becomes white (R711). -/
def embedSeparators : List (Nat × Nat) → Grid → Except Failure Grid
  | [], g => .ok g
  | (x, y) :: rest, g => if g.cell x y = .empty then embedSeparators rest (g.put x y .white) else .error .separatorCell

/-- The dark module, cell (8, N-8), which must not be white (R714). -/
def embedDark (n : Nat) (g : Grid) : Except Failure Grid :=
  if g.cell 8 (n - 8) = .white then .error .darkModule else .ok (g.put 8 (n - 8) .black)

/-- `ALIGN[v]` for versions 1 to 10 (R712). -/
def alignTable1 : List (List Nat) :=
  [[], [6, 18], [6, 22], [6, 26], [6, 30], [6, 34], [6, 22, 38], [6, 24, 42], [6, 26, 46], [6, 28, 50]]

/-- `ALIGN[v]` for versions 11 to 20 (R712). -/
def alignTable2 : List (List Nat) :=
  [[6, 30, 54], [6, 32, 58], [6, 34, 62], [6, 26, 46, 66], [6, 26, 48, 70], [6, 26, 50, 74], [6, 30, 54, 78],
   [6, 30, 56, 82], [6, 30, 58, 86], [6, 34, 62, 90]]

/-- `ALIGN[v]` for versions 21 to 30 (R712). -/
def alignTable3 : List (List Nat) :=
  [[6, 28, 50, 72, 94], [6, 26, 50, 74, 98], [6, 30, 54, 78, 102], [6, 28, 54, 80, 106], [6, 32, 58, 84, 110],
   [6, 30, 58, 86, 114], [6, 34, 62, 90, 118], [6, 26, 50, 74, 98, 122], [6, 30, 54, 78, 102, 126],
   [6, 26, 52, 78, 104, 130]]

/-- `ALIGN[v]` for versions 31 to 40 (R712). -/
def alignTable4 : List (List Nat) :=
  [[6, 30, 56, 82, 108, 134], [6, 34, 60, 86, 112, 138], [6, 30, 58, 86, 114, 142], [6, 34, 62, 90, 118, 146],
   [6, 30, 54, 78, 102, 126, 150], [6, 24, 50, 76, 102, 128, 154], [6, 28, 54, 80, 106, 132, 158],
   [6, 32, 58, 84, 110, 136, 162], [6, 26, 54, 82, 110, 138, 166], [6, 30, 58, 86, 114, 142, 170]]

/-- `ALIGN[v]`, the alignment-pattern centres of version `v`, 1 to 40 (R712). -/
def alignCentres (v : Nat) : List Nat := (alignTable1 ++ alignTable2 ++ alignTable3 ++ alignTable4).getD (v - 1) []

/-- One alignment pattern, written whole when its centre cell is empty and skipped otherwise (R713). -/
def embedAlign (g : Grid) (cx cy : Nat) : Grid :=
  if g.cell cx cy = .empty then g.putAll (patternCells (cx - 2) (cy - 2) alignRows) else g

/-- All alignment patterns of version `v`, `cy` in the outer loop (R713). -/
def embedAligns (v : Nat) (g : Grid) : Grid :=
  (alignCentres v).foldl (fun g cy => (alignCentres v).foldl (fun g cx => embedAlign g cx cy) g) g

/-- Write a cell only if it is empty. -/
def Grid.putIfEmpty (g : Grid) (x y : Nat) (c : Cell) : Grid := if g.cell x y = .empty then g.put x y c else g

/-- The timing patterns: black at even indices, only into empty cells (R715). -/
def embedTiming (n : Nat) (g : Grid) : Grid :=
  ((List.range (n - 16)).map (· + 8)).foldl
    (fun g i =>
      let c := Cell.ofBool (decide ((i + 1) % 2 = 1))
      (g.putIfEmpty i 6 c).putIfEmpty 6 i c) g

/-- `embed_basic()` for version `v` and dimension `n`, in its order (R716). -/
def embedBasic (v n : Nat) (g : Grid) : Except Failure Grid := do
  let g ← embedSeparators (separatorCells n) (g.putAll (finderCells n))
  let g ← embedDark n g
  return embedTiming n (embedAligns v g)

/-- `msb(v)`, the bit length of `v` (R720). -/
def msb (v : Nat) : Nat := if v = 0 then 0 else Nat.log2 v + 1

/-- The loop of the BCH remainder; every round clears the highest set bit of `v`, so `fuel = msb v` rounds are enough (R720). -/
def bchLoop (poly m : Nat) : (fuel : Nat) → (v : Nat) → Nat
  | 0, v => v
  | fuel + 1, v => if m ≤ msb v then bchLoop poly m fuel (v ^^^ (poly <<< (msb v - m))) else v

/-- `bch(value, poly)` (R720). -/
def bch (value poly : Nat) : Nat :=
  let v := value <<< (msb poly - 1)
  bchLoop poly (msb poly) (msb v) v

/-- `CODE[ecl]`, the two-bit code of an EC level: L 01, M 00, Q 11, H 10 (R721). -/
def ecCode (ecl : Nat) : Nat := [0b01, 0b00, 0b11, 0b10].getD ecl 0

/-- `type_bits(ecl, mask)`; a mask above 7 fails (R722). -/
def typeBits (ecl mask : Nat) : Except Failure Nat := do
  check (decide (mask ≤ 7)) .typeMask
  let ti := (ecCode ecl <<< 3) ||| mask
  return ((ti <<< 10) ||| bch ti 0x537) ^^^ 0x5412

/-- `version_bits(v)` (R724). -/
def versionBits (v : Nat) : Nat := (v <<< 12) ||| bch v 0x1F25

/-- `TYPE1[i]` (R723). -/
def typeCell1 (i : Nat) : Nat × Nat :=
  [(8, 0), (8, 1), (8, 2), (8, 3), (8, 4), (8, 5), (8, 7), (8, 8), (7, 8), (5, 8), (4, 8), (3, 8), (2, 8), (1, 8),
   (0, 8)].getD i (0, 0)

/-- `TYPE2(i)` (R723). -/
def typeCell2 (n i : Nat) : Nat × Nat := if i < 8 then (n - 1 - i, 8) else (8, n - 7 + (i - 8))

/-- The type word `t`, written at its two places without testing the cells (R723). -/
def embedType (n t : Nat) (g : Grid) : Grid :=
  g.putAll <| (List.range 15).flatMap fun i =>
    let c := Cell.ofBool (t.testBit i)
    [((typeCell1 i).1, (typeCell1 i).2, c), ((typeCell2 n i).1, (typeCell2 n i).2, c)]

/-- The version word of version `v`, written at its two places without testing the cells, for v ≥ 7 only (R725). -/
def embedVersion (v n : Nat) (g : Grid) : Grid :=
  if v < 7 then g
  else
    g.putAll <| (List.range 6).flatMap fun i => (List.range 3).flatMap fun j =>
      let c := Cell.ofBool ((versionBits v).testBit (3 * i + j))
      [(i, n - 11 + j, c), (n - 11 + j, i, c)]

/-- `maskbit(m, x, y)` as a truth value (47_mask.md R800). -/
def maskBit (m x y : Nat) : Bool :=
  let p := y * x
  match m with
  | 0 => decide ((y + x) % 2 = 0)
  | 1 => decide (y % 2 = 0)
  | 2 => decide (x % 3 = 0)
  | 3 => decide ((y + x) % 3 = 0)
  | 4 => decide ((y / 2 + x / 3) % 2 = 0)
  | 5 => decide (p % 2 + p % 3 = 0)
  | 6 => decide ((p % 2 + p % 3) % 2 = 0)
  | 7 => decide ((p % 3 + (y + x) % 2) % 2 = 0)
  | _ => false

/-- The right columns of the column pairs from column `x` leftward, column 6 being skipped; `fuel = x + 1` is enough (R726). DESIGN CHOICE
(assumption 20): an empty cell of column 6 is never visited and stays empty, as the pseudocode of R726 has it; the prose of R726, R742,
R746 and R805 says that every empty cell is filled. -/
def pairColumns : (fuel x : Nat) → List Nat
  | 0, _ => []
  | fuel + 1, x =>
    if x = 0 then []
    else
      let x := if x = 6 then 5 else x
      x :: pairColumns fuel (x - 2)

/-- The cells of a symbol in the order of the data traversal: column pairs from the right, the first upward, then in
turns, the right cell of each pair first (R726). -/
def dataPath (n : Nat) : List (Nat × Nat) :=
  (pairColumns n (n - 1)).zipIdx.flatMap fun c =>
    (if c.2 % 2 = 0 then (List.range n).reverse else List.range n).flatMap fun y => [(c.1, y), (c.1 - 1, y)]

/-- Data bits go into the empty cells of the path, masked; when they run out the bit is 0 before masking. The answer is
the bits left over and the grid (R726). A cell that the path leaves out, as `dataPath` does those of column 6, keeps its value
(assumption 20). -/
def placeData (mask : Nat) : List (Nat × Nat) → List Bool → Grid → List Bool × Grid
  | [], bits, g => (bits, g)
  | (x, y) :: rest, bits, g =>
    if g.cell x y = .empty then
      let b := Bool.xor (bits.headD false) (decide (mask ≠ 15) && maskBit mask x y)
      placeData mask rest bits.tail (g.put x y (Cell.ofBool b))
    else placeData mask rest bits g

/-- `embed_data` of a bank's bits; a bit left over fails (R726). -/
def embedData (n mask : Nat) (bits : List Bool) (g : Grid) : Except Failure Grid :=
  let r := placeData mask (dataPath n) bits g
  if r.1 = [] then .ok r.2 else .error .dataBitsLeft

/-- `build(Y, ecl, v, mask)` from an all-empty matrix, on the bits of the bank (R728). -/
def buildSymbol (bits : List Bool) (ecl v mask : Nat) : Except Failure Grid := do
  let n := 4 * v + 17
  let g ← embedBasic v n (Grid.blank n)
  let t ← typeBits ecl mask
  embedData n mask bits (embedVersion v n (embedType n t g))

end Sys2Proof.Machine
end

