-- ==== Sys2Proof/Machine/Penalty.lean ====
section
/-! DEFINITION. The four penalty rules (47_mask.md R801 to R806) and the selection of a mask (R807). `n` is `SYMN`. -/

namespace Sys2Proof.Machine

/-- The cells of row `y`. -/
def Grid.row (g : Grid) (n y : Nat) : List Cell := (List.range n).map fun x => g.cell x y

/-- The cells of column `x`. -/
def Grid.column (g : Grid) (n x : Nat) : List Cell := (List.range n).map fun y => g.cell x y

/-- The penalty of a maximal run of length `l` (R801). -/
def runPenalty (l : Nat) : Nat := if 5 ≤ l then 3 + (l - 5) else 0

/-- The penalty of a line: each maximal run of equal cell values scores (R801). -/
def linePenalty (line : List Cell) : Nat := ((line.splitBy fun a b => decide (a = b)).map fun run => runPenalty run.length).sum

/-- Rule 1, runs, over every row and every column (R801). -/
def rule1 (n : Nat) (g : Grid) : Nat :=
  ((List.range n).map fun y => linePenalty (g.row n y)).sum + ((List.range n).map fun x => linePenalty (g.column n x)).sum

/-- The places (x, y) with x, y below `n`. -/
def places (n : Nat) : List (Nat × Nat) := (List.range n).flatMap fun y => (List.range n).map fun x => (x, y)

/-- The 2×2 block with top left cell (x, y) is uniform (R802). -/
def uniformBlock (g : Grid) (x y : Nat) : Bool :=
  decide (g.cell x y = g.cell (x + 1) y) && decide (g.cell x y = g.cell x (y + 1))
    && decide (g.cell x y = g.cell (x + 1) (y + 1))

/-- Rule 2, blocks (R802). -/
def rule2 (n : Nat) (g : Grid) : Nat := 3 * ((places (n - 1)).countP fun p => uniformBlock g p.1 p.2)

/-- A line's entry `i` is light: not black, or outside the symbol, which the quiet zone surrounds (R803). An index that
is negative in the rule is `none`. -/
def lightAt (n : Nat) (line : Nat → Cell) (i : Option Nat) : Bool :=
  match i with
  | none => true
  | some i => !(decide (i < n) && decide (line i = .black))

/-- `P`, the finder-like pattern (R803). -/
def finderLike : List Nat := [1, 0, 1, 1, 1, 0, 1]

/-- The finder-like pattern starts at index `i` of a line, with four light entries before it or after it (R803). -/
def finderLikeAt (n : Nat) (line : Nat → Cell) (i : Nat) : Bool :=
  decide (i + 6 < n)
    && (finderLike.zipIdx.all fun p => decide (line (i + p.2) = Cell.ofBool (decide (p.1 = 1))))
    && (((List.range 4).all fun k => lightAt n line (if k + 1 ≤ i then some (i - (k + 1)) else none))
      || ((List.range 4).all fun k => lightAt n line (some (i + 7 + k))))

/-- Rule 3, finder-like patterns, in rows and in columns (R803). -/
def rule3 (n : Nat) (g : Grid) : Nat :=
  40 * (((places n).countP fun p => finderLikeAt n (fun x => g.cell x p.2) p.1)
    + (places n).countP fun p => finderLikeAt n (fun y => g.cell p.1 y) p.2)

/-- Rule 4, balance (R804). -/
def rule4 (n : Nat) (g : Grid) : Nat :=
  let dark := (places n).countP fun p => decide (g.cell p.1 p.2 = .black)
  let total := n * n
  (((2 * dark : Int) - total).natAbs * 10 / total) * 10

/-- The total penalty (R806). -/
def penalty (n : Nat) (g : Grid) : Nat := rule1 n g + rule2 n g + rule3 n g + rule4 n g

/-- The index and value of the first minimum of a list, from candidate `best`, whose entries are numbered from `i` on (R807). -/
def firstMin : (best : Nat × Nat) → (i : Nat) → List Nat → Nat × Nat
  | best, _, [] => best
  | best, i, p :: ps => firstMin (if p < best.2 then (i, p) else best) (i + 1) ps

/-- What a mask selection finds: the index, its penalty, the eight totals, and the symbol built with the index. -/
structure Selection where
  best : Nat
  minimum : Nat
  totals : List Nat
  grid : Grid

/-- `select(Y, ecl, v)` on the bits of the bank (R807). -/
def selectMask (bits : List Bool) (ecl v : Nat) : Except Failure Selection := do
  let totals ← (List.range 8).mapM fun m => do
    let g ← buildSymbol bits ecl v m
    return penalty (4 * v + 17) g
  let best := firstMin (0, totals.headD 0) 1 totals.tail
  let g ← buildSymbol bits ecl v best.1
  return ⟨best.1, best.2, totals, g⟩

end Sys2Proof.Machine
end

