-- ==== Sys2Proof/Machine/MaskCommands.lean ====
section
/-! DEFINITION. The mask and BCH commands (47_mask.md R810 to R814). -/

namespace Sys2Proof.Machine

/-- `MASK_BIT` (R810): no symbol is needed. -/
def execMaskBit (s : State) : Host.Outcome State Fault Refusal :=
  s.complete do
    let m := s.operand 0
    let x := s.operand 1
    let y := s.operand 2
    check (decide (m ≤ 7)) .maskIndex
    check (decide (x ≤ 255) && decide (y ≤ 255)) .coordinate
    return s.setResult 0 (Word.ofBool (maskBit m x y))

/-- `MASK_PENALTY` (R811): the four components and their sum. -/
def execMaskPenalty (s : State) : Host.Outcome State Fault Refusal :=
  s.complete do
    check (decide (s.symN ≠ 0)) .noSymbol
    let g := s.symGrid
    let t := (s.setResult 1 (Word.ofNat (rule1 s.symN g))).setResult 2 (Word.ofNat (rule2 s.symN g))
    let t := (t.setResult 3 (Word.ofNat (rule3 s.symN g))).setResult 4 (Word.ofNat (rule4 s.symN g))
    return t.setResult 0 (Word.ofNat (penalty s.symN g))

/-- `MASK_SELECT Y` (R812). -/
def execMaskSelect (y : Bank) (s : State) : Host.Outcome State Fault Refusal :=
  s.complete do
    let ecl := s.operand 0
    let v := s.operand 1
    check (decide (1 ≤ v) && decide (v ≤ 40)) .version
    check (decide (ecl ≤ 3)) .ecLevel
    let r ← selectMask (s.bvBits y) ecl v
    let t := s.setPens (Vector.ofFn fun m => Word.ofNat (r.totals.getD m.val 0))
    let t := (t.setSymV v).setSymGrid r.grid
    return (t.setResult 0 (Word.ofNat r.best)).setResult 1 (Word.ofNat r.minimum)

/-- `BCH_TYPE` (R813). -/
def execBchType (s : State) : Host.Outcome State Fault Refusal :=
  s.complete do
    check (decide (s.operand 0 ≤ 3)) .ecLevel
    let t ← typeBits (s.operand 0) (s.operand 1)
    return s.setResult 0 (Word.ofNat t)

/-- `BCH_VERSION` (R814). -/
def execBchVersion (s : State) : Host.Outcome State Fault Refusal :=
  s.complete do
    let v := s.operand 0
    check (decide (1 ≤ v) && decide (v ≤ 40)) .version
    return s.setResult 0 (Word.ofNat (versionBits v))

end Sys2Proof.Machine
end

