-- ==== Sys2Proof/Machine/PolyCommands.lean ====
section
/-! DEFINITION. The polynomial commands (42_poly.md R470 to R481). Every source register is read before a destination is
written, so a destination may equal a source (10_state.md R130). -/

namespace Sys2Proof.Machine

/-- `P_ZERO rd` (R470). -/
def execPZero (rd : Nat) (s : State) : Host.Outcome State Fault Refusal :=
  s.complete (s.setPoly rd [0])

/-- `P_MONO rd` (R471). The capacity check that R471 spells out stands before the list is built, as the degree may be
any 32-bit number. -/
def execPMono (rd : Nat) (s : State) : Host.Outcome State Fault Refusal :=
  s.complete do
    let c ← s.fieldOperand 1
    check (decide (c = 0 ∨ s.operand 0 + 1 ≤ 512)) .polyCapacity
    s.setPoly rd (mono (s.operand 0) c)

/-- `P_COPY rd, ra` (R472). -/
def execPCopy (rd ra : Nat) (s : State) : Host.Outcome State Fault Refusal :=
  s.complete do
    let p ← s.poly ra
    s.setPoly rd p

/-- `P_NORM rd` (R473). -/
def execPNorm (rd : Nat) (s : State) : Host.Outcome State Fault Refusal :=
  s.complete do
    let p ← s.poly rd
    s.setPoly rd p

/-- `P_ADD rd, ra, rb` (R474). -/
def execPAdd (rd ra rb : Nat) (s : State) : Host.Outcome State Fault Refusal :=
  s.complete do
    let a ← s.poly ra
    let b ← s.poly rb
    s.setPoly rd (padd a b)

/-- `P_MUL rd, ra, rb` (R475). -/
def execPMul (rd ra rb : Nat) (s : State) : Host.Outcome State Fault Refusal :=
  s.complete do
    let a ← s.poly ra
    let b ← s.poly rb
    s.setPoly rd (pmul s.gfPrim a b)

/-- `P_SCALE rd, ra` (R476). -/
def execPScale (rd ra : Nat) (s : State) : Host.Outcome State Fault Refusal :=
  s.complete do
    let c ← s.fieldOperand 0
    let a ← s.poly ra
    s.setPoly rd (pscale s.gfPrim a c)

/-- `P_MULMONO rd, ra` (R477). The capacity check stands before the list is built: the product of a nonzero `a` by `c·x^d`
with `c ≠ 0` has `len(a) + d` coefficients, and that of a zero `a` is `[0]`. -/
def execPMulmono (rd ra : Nat) (s : State) : Host.Outcome State Fault Refusal :=
  s.complete do
    let c ← s.fieldOperand 1
    let a ← s.poly ra
    if c = 0 ∨ isZero a then s.setPoly rd [0]
    else do
      check (decide (a.length + s.operand 0 ≤ 512)) .polyCapacity
      s.setPoly rd (pmulmono s.gfPrim a (s.operand 0) c)

/-- `P_DIV rd, rc, ra, rb` (R478). -/
def execPDiv (rd rc ra rb : Nat) (s : State) : Host.Outcome State Fault Refusal :=
  s.complete do
    check (decide (rd ≠ rc)) .sameDestination
    let a ← s.poly ra
    let b ← s.poly rb
    let qr ← pdiv s.gfPrim a b
    let t ← s.setPoly rd qr.1
    t.setPoly rc qr.2

/-- `P_EVAL ra` (R479). -/
def execPEval (ra : Nat) (s : State) : Host.Outcome State Fault Refusal :=
  s.complete do
    let x ← s.fieldOperand 0
    let p ← s.poly ra
    return s.setResult 0 (Byte.toWord (peval s.gfPrim p x))

/-- `P_COEF ra` (R480). -/
def execPCoef (ra : Nat) (s : State) : Host.Outcome State Fault Refusal :=
  s.complete do
    let p ← s.poly ra
    return s.setResult 0 (Byte.toWord (coef p (s.operand 0)))

/-- `P_DEG ra` (R481). -/
def execPDeg (ra : Nat) (s : State) : Host.Outcome State Fault Refusal :=
  s.complete do
    let p ← s.poly ra
    return ((s.setResult 0 (Word.ofNat (deg p))).setResult 1 (Byte.toWord (lead p))).setResult 2 (Word.ofBool (isZero p))

end Sys2Proof.Machine
end

