-- ==== Sys2Proof/Machine/ReedSolomon.lean ====
section
/-! DEFINITION. Reed-Solomon: generators, encoder, syndromes, key-equation solver, Chien search, Forney magnitudes and
correction (43_rs.md R500 to R510). `prim` is `GF_PRIM` and `base` is `GF_BASE`; a block is the list `CW[0..n-1]`. -/

namespace Sys2Proof.Machine

/-- `α^(i + GF_BASE)`, the root number `i` of the generators and the point of syndrome `i` (R500, R503). -/
def rsRoot (prim : BitVec 9) (base i : Nat) : Byte := gfExp prim ((i + base) % 255)

/-- The generator polynomial of degree `d` (R500). -/
def gen (prim : BitVec 9) (base : Nat) : Nat → Poly
  | 0 => [1]
  | d + 1 => pmul prim (gen prim base d) [1, rsRoot prim base d]

/-- The `e` EC codewords of the data codewords `data`: the remainder of `data·x^e` by `gen(e)`, padded on the left with
zeros (R502). -/
def rsEncode (prim : BitVec 9) (base : Nat) (data : List Byte) (e : Nat) : Except Failure (List Byte) := do
  let qr ← pdiv prim (pmulmono prim (norm data) e 1) (gen prim base e)
  return List.replicate (e - qr.2.length) 0 ++ qr.2

/-- The list of syndromes, `S_{twoS-1}` first, `S_0` last (R503). -/
def syndromeList (prim : BitVec 9) (base : Nat) (block : List Byte) (twoS : Nat) : List Byte :=
  (List.range twoS).reverse.map fun i => peval prim (norm block) (rsRoot prim base i)

/-- The syndrome polynomial: the coefficient of `x^i` is `S_i` (R503). -/
def syndromes (prim : BitVec 9) (base : Nat) (block : List Byte) (twoS : Nat) : Poly :=
  if twoS = 0 then [0] else norm (syndromeList prim base block twoS)

/-- "If all syndromes are zero, no error is present" (R503). -/
def noErrors (prim : BitVec 9) (base : Nat) (block : List Byte) (twoS : Nat) : Bool :=
  (syndromeList prim base block twoS).all fun x => decide (x = 0)

/-- The loop of the extended Euclidean algorithm (R504) from remainders `rLast`, `r` and cofactors `tLast`, `t`; it answers
`(t, r)`. Each round lowers the degree of `r`, or fails, so `fuel` rounds are enough when `fuel` exceeds `r`'s degree; running out
of fuel is reported as a division that did not reduce. -/
def keyLoop (prim : BitVec 9) (R : Nat) : (fuel : Nat) → (rLast r tLast t : Poly) → Except Failure (Poly × Poly)
  | 0, _, _, _, _ => .error .notReduced
  | fuel + 1, rLast, r, tLast, t =>
    if R ≤ 2 * deg r then do
      if isZero r then throw .remainderZero
      let inv ← gfInv prim (lead r)
      let qr := divLoop prim r inv rLast.length [0] rLast
      if deg r ≤ deg qr.2 then throw .notReduced
      keyLoop prim R fuel r qr.2 t (padd (pmul prim qr.1 t) tLast)
    else .ok (t, r)

/-- The key-equation solver on `a`, `b` with stop degree `R / 2`: the error locator σ and the error evaluator ω, both divided
by σ(0) (R504). -/
def rsKey (prim : BitVec 9) (a b : Poly) (R : Nat) : Except Failure (Poly × Poly) := do
  let ab := if deg a < deg b then (b, a) else (a, b)
  let tr ← keyLoop prim R (ab.2.length + 1) ab.1 ab.2 [0] [1]
  let s0 := coef tr.1 0
  if s0 = 0 then throw .sigmaZero
  let inv ← gfInv prim s0
  return (pscale prim tr.1 inv, pscale prim tr.2 inv)

/-- The roots of σ among the nonzero elements, in ascending order (R507). -/
def chienRoots (prim : BitVec 9) (sigma : Poly) : List Byte :=
  ((List.range 255).map fun i => BitVec.ofNat 8 (i + 1)).filter fun x => decide (peval prim sigma x = 0)

/-- Chien search: the inverses of the roots; as many as σ's degree, or the block is uncorrectable (R507). -/
def chien (prim : BitVec 9) (sigma : Poly) : Except Failure (List Byte) :=
  let locators := (chienRoots prim sigma).map (gfInvNonzero prim)
  if locators.length = deg sigma then .ok locators else .error .rootCount

/-- The denominator of Forney's formula for a locator whose inverse is `xi`, over the other locators (R508). -/
def forneyDen (prim : BitVec 9) (xi : Byte) (others : List Byte) : Byte :=
  others.foldl (fun den l => gfMul prim den (gfMul prim l xi ^^^ 1)) 1

/-- The magnitude of the error at locator number `i` of `locators` (R508). -/
def forneyAt (prim : BitVec 9) (base : Nat) (omega : Poly) (locators : List Byte) (i : Nat) : Except Failure Byte := do
  let xi ← gfInv prim (locators.getD i 0)
  let den ← gfInv prim (forneyDen prim xi (locators.eraseIdx i))
  let m := gfMul prim (peval prim omega xi) den
  return if base ≠ 0 then gfMul prim m xi else m

/-- Forney's magnitudes, one for each locator (R508). -/
def forney (prim : BitVec 9) (base : Nat) (omega : Poly) (locators : List Byte) : Except Failure (List Byte) :=
  (List.range locators.length).mapM (forneyAt prim base omega locators)

/-- Correction of a block of `n` codewords, entry by entry in list order (R509). DESIGN CHOICE (assumption 19): of 256 codewords the first, of
power 255, has the locator 1 of the last, so that an error there is corrected at the last; R509 and R510 say so and R511 claims that the block
is restored, and the model follows R509 and R510. -/
def rsCorrect (prim : BitVec 9) (n : Nat) : List (Byte × Byte) → List Byte → Except Failure (List Byte)
  | [], block => .ok block
  | (l, m) :: rest, block =>
    if l = 0 then .error .logZero
    else if n < gfLog prim l + 1 then .error .badLocation
    else rsCorrect prim n rest (block.modify (n - 1 - gfLog prim l) (· ^^^ m))

/-- What a decode found: the corrected block, the locators and their magnitudes. -/
structure Decoded where
  block : List Byte
  locators : List Byte
  magnitudes : List Byte
deriving DecidableEq, Repr

/-- The decode of a block whose syndromes are not all zero (R510). -/
def rsDecode (prim : BitVec 9) (base : Nat) (block : List Byte) (twoS : Nat) : Except Failure Decoded := do
  let so ← rsKey prim (mono twoS 1) (syndromes prim base block twoS) twoS
  let locators ← chien prim so.1
  let magnitudes ← forney prim base so.2 locators
  let corrected ← rsCorrect prim block.length (locators.zip magnitudes) block
  return ⟨corrected, locators, magnitudes⟩

end Sys2Proof.Machine
end

