-- ==== Sys2Proof/Machine/RsCommands.lean ====
section
/-! DEFINITION. The Reed-Solomon commands (43_rs.md R520 to R527). -/

namespace Sys2Proof.Machine

/-- `RS_GEN rd` (R520). -/
def execRsGen (rd : Nat) (s : State) : Host.Outcome State Fault Refusal :=
  s.complete do
    check (decide (s.operand 0 ≤ 255)) .rsCapacity
    s.setPoly rd (gen s.gfPrim s.base (s.operand 0))

/-- `RS_ENC` (R521): the EC codewords go to `CW[n-e..n-1]`. -/
def execRsEnc (s : State) : Host.Outcome State Fault Refusal :=
  s.complete do
    let n := s.operand 0
    let e := s.operand 1
    check (decide (n ≤ 256)) .cwCapacity
    check (decide (e ≠ 0)) .zeroEcCount
    check (decide (e < n)) .noDataCodeword
    let ec ← rsEncode s.gfPrim s.base (s.cw (n - e)) e
    return s.setCw (n - e) ec

/-- `RS_SYND rd` (R522). -/
def execRsSynd (rd : Nat) (s : State) : Host.Outcome State Fault Refusal :=
  s.complete do
    let n := s.operand 0
    let twoS := s.operand 1
    check (decide (n ≤ 256)) .cwCapacity
    check (decide (1 ≤ n)) .zeroLength
    check (decide (twoS ≤ 255)) .rsCapacity
    let t ← s.setPoly rd (syndromes s.gfPrim s.base (s.cw n) twoS)
    return t.setResult 0 (Word.ofBool (noErrors s.gfPrim s.base (s.cw n) twoS))

/-- `RS_KEY rd, rc, ra` (R523). -/
def execRsKey (rd rc ra : Nat) (s : State) : Host.Outcome State Fault Refusal :=
  s.complete do
    let twoS := s.operand 0
    check (decide (rd ≠ rc)) .sameDestination
    check (decide (twoS ≠ 0)) .zeroTwoS
    check (decide (twoS ≤ 255)) .rsCapacity
    let synd ← s.poly ra
    let so ← rsKey s.gfPrim (mono twoS 1) synd twoS
    let t ← s.setPoly rd so.1
    let u ← t.setPoly rc so.2
    return u.setResult 0 (Word.ofNat (deg so.1))

/-- `RS_CHIEN ra` (R524). -/
def execRsChien (ra : Nat) (s : State) : Host.Outcome State Fault Refusal :=
  s.complete do
    let sigma ← s.poly ra
    let locators ← chien s.gfPrim sigma
    return ((s.setLocs locators).setLocCnt locators.length).setResult 0 (Word.ofNat locators.length)

/-- `RS_FORNEY ra` (R525). -/
def execRsForney (ra : Nat) (s : State) : Host.Outcome State Fault Refusal :=
  s.complete do
    let omega ← s.poly ra
    let magnitudes ← forney s.gfPrim s.base omega s.locs
    return (s.setMags magnitudes).setResult 0 (Word.ofNat s.locCnt)

/-- `RS_CORR` (R526). -/
def execRsCorr (s : State) : Host.Outcome State Fault Refusal :=
  s.complete do
    let n := s.operand 0
    check (decide (n ≤ 256)) .cwCapacity
    check (decide (1 ≤ n)) .zeroLength
    let block ← rsCorrect s.gfPrim n (s.locs.zip s.mags) (s.cw n)
    return s.setCw 0 block

/-- `RS_DEC` (R527). -/
def execRsDec (s : State) : Host.Outcome State Fault Refusal :=
  s.complete do
    let n := s.operand 0
    let twoS := s.operand 1
    check (decide (n ≤ 256)) .cwCapacity
    check (decide (1 ≤ n)) .zeroLength
    check (decide (twoS ≤ 255)) .rsCapacity
    if noErrors s.gfPrim s.base (s.cw n) twoS then
      return ((s.setLocCnt 0).setResult 0 0).setResult 1 1
    else do
      let d ← rsDecode s.gfPrim s.base (s.cw n) twoS
      let t := ((s.setCw 0 d.block).setLocs d.locators).setMags d.magnitudes
      return ((t.setLocCnt d.locators.length).setResult 0 (Word.ofNat d.locators.length)).setResult 1 0

end Sys2Proof.Machine
end

