-- ==== Sys2Proof/Machine/SymbolCommands.lean ====
section
/-! DEFINITION. The symbol commands (46_symbol.md R740 to R748). -/

namespace Sys2Proof.Machine

/-- `SYM_INIT` (R740). -/
def execSymInit (s : State) : Host.Outcome State Fault Refusal :=
  s.complete do
    let v := s.operand 0
    check (decide (1 ≤ v) && decide (v ≤ 40)) .version
    return (s.setSymV v).setSymGrid (Grid.blank (4 * v + 17))

/-- `SYM_GET` (R741). -/
def execSymGet (s : State) : Host.Outcome State Fault Refusal :=
  s.complete do
    let x := s.operand 0
    let y := s.operand 1
    check (decide (s.symN ≠ 0)) .noSymbol
    check (decide (x < s.symN) && decide (y < s.symN)) .coordinate
    return s.setResult 0 (s.symCell x y).toWord

/-- `SYM_SET` (R742). -/
def execSymSet (s : State) : Host.Outcome State Fault Refusal :=
  s.complete do
    let x := s.operand 0
    let y := s.operand 1
    check (decide (s.symN ≠ 0)) .noSymbol
    check (decide (x < s.symN) && decide (y < s.symN)) .coordinate
    match Cell.ofWord (s.latch.getD 2 0) with
    | none => .error .cellValue
    | some c => return s.setSymCell x y c

/-- `EMB_BASIC` (R743). -/
def execEmbBasic (s : State) : Host.Outcome State Fault Refusal :=
  s.complete do
    check (decide (s.symN ≠ 0)) .noSymbol
    let g ← embedBasic s.symV s.symN s.symGrid
    return s.setSymGrid g

/-- `EMB_TYPE` (R744). -/
def execEmbType (s : State) : Host.Outcome State Fault Refusal :=
  s.complete do
    let ecl := s.operand 0
    let mask := s.operand 1
    check (decide (s.symN ≠ 0)) .noSymbol
    check (decide (ecl ≤ 3)) .ecLevel
    let t ← typeBits ecl mask
    return s.setSymGrid (embedType s.symN t s.symGrid)

/-- `EMB_VERSION` (R745). -/
def execEmbVersion (s : State) : Host.Outcome State Fault Refusal :=
  s.complete do
    check (decide (s.symN ≠ 0)) .noSymbol
    return s.setSymGrid (embedVersion s.symV s.symN s.symGrid)

/-- `EMB_DATA Y` (R746): mask 15 is the "no masking" sentinel. -/
def execEmbData (y : Bank) (s : State) : Host.Outcome State Fault Refusal :=
  s.complete do
    let mask := s.operand 0
    check (decide (s.symN ≠ 0)) .noSymbol
    check (decide (mask ≤ 7) || decide (mask = 15)) .maskIndex
    let g ← embedData s.symN mask (s.bvBits y) s.symGrid
    return s.setSymGrid g

/-- `SYM_BUILD Y` (R747). -/
def execSymBuild (y : Bank) (s : State) : Host.Outcome State Fault Refusal :=
  s.complete do
    let ecl := s.operand 0
    let v := s.operand 1
    let mask := s.operand 2
    check (decide (1 ≤ v) && decide (v ≤ 40)) .version
    check (decide (ecl ≤ 3)) .ecLevel
    check (decide (mask ≤ 7)) .typeMask
    let g ← buildSymbol (s.bvBits y) ecl v mask
    return (s.setSymV v).setSymGrid g

/-- `SYM_EXPORT` (R748): the bit matrix becomes the symbol, a set cell being a black module. -/
def execSymExport (s : State) : Host.Outcome State Fault Refusal :=
  s.complete do
    check (decide (s.symN ≠ 0)) .noSymbol
    let g := s.symGrid
    return (List.range s.symN).foldl (fun u y => u.setBmRow 0 y s.symN fun x => decide (g.cell x y = .black))
      (s.newMatrix s.symN s.symN)

end Sys2Proof.Machine
end

