-- ==== Sys2Proof/Machine/Dispatch.lean ====
section
/-! DEFINITION. The meaning of every command, one arm for each row of 30_encoding.md R321: what the engine does when the
running command completes (60_exceptions.md R901). -/

namespace Sys2Proof.Machine

def exec (i : Instr) (s : State) : Host.Outcome State Fault Refusal :=
  match i with
  | .nop => Sys2Proof.Machine.execNop s
  | .gfAdd => Sys2Proof.Machine.execGfAdd s
  | .gfMul => Sys2Proof.Machine.execGfMul s
  | .gfInv => Sys2Proof.Machine.execGfInv s
  | .gfExp => Sys2Proof.Machine.execGfExp s
  | .gfLog => Sys2Proof.Machine.execGfLog s
  | .pZero rd => Sys2Proof.Machine.execPZero rd s
  | .pMono rd => Sys2Proof.Machine.execPMono rd s
  | .pCopy rd ra => Sys2Proof.Machine.execPCopy rd ra s
  | .pNorm rd => Sys2Proof.Machine.execPNorm rd s
  | .pAdd rd ra rb => Sys2Proof.Machine.execPAdd rd ra rb s
  | .pMul rd ra rb => Sys2Proof.Machine.execPMul rd ra rb s
  | .pScale rd ra => Sys2Proof.Machine.execPScale rd ra s
  | .pMulmono rd ra => Sys2Proof.Machine.execPMulmono rd ra s
  | .pDiv rd rc ra rb => Sys2Proof.Machine.execPDiv rd rc ra rb s
  | .pEval ra => Sys2Proof.Machine.execPEval ra s
  | .pCoef ra => Sys2Proof.Machine.execPCoef ra s
  | .pDeg ra => Sys2Proof.Machine.execPDeg ra s
  | .rsGen rd => Sys2Proof.Machine.execRsGen rd s
  | .rsEnc => Sys2Proof.Machine.execRsEnc s
  | .rsSynd rd => Sys2Proof.Machine.execRsSynd rd s
  | .rsKey rd rc ra => Sys2Proof.Machine.execRsKey rd rc ra s
  | .rsChien ra => Sys2Proof.Machine.execRsChien ra s
  | .rsForney ra => Sys2Proof.Machine.execRsForney ra s
  | .rsCorr => Sys2Proof.Machine.execRsCorr s
  | .rsDec => Sys2Proof.Machine.execRsDec s
  | .bvClear x => Sys2Proof.Machine.execBvClear x s
  | .bvAppend x => Sys2Proof.Machine.execBvAppend x s
  | .bvGet y => Sys2Proof.Machine.execBvGet y s
  | .bvSet x => Sys2Proof.Machine.execBvSet x s
  | .bvXor x y => Sys2Proof.Machine.execBvXor x y s
  | .bvTobytes y => Sys2Proof.Machine.execBvTobytes y s
  | .bvSetsize x => Sys2Proof.Machine.execBvSetsize x s
  | .bmInit => Sys2Proof.Machine.execBmInit s
  | .bmClear => Sys2Proof.Machine.execBmClear s
  | .bmGet => Sys2Proof.Machine.execBmGet s
  | .bmSet => Sys2Proof.Machine.execBmSet s
  | .bmSetregion => Sys2Proof.Machine.execBmSetregion s
  | .bmTopleft => Sys2Proof.Machine.execBmTopleft s
  | .bmBotright => Sys2Proof.Machine.execBmBotright s
  | .bmRow x => Sys2Proof.Machine.execBmRow x s
  | .bmCol x => Sys2Proof.Machine.execBmCol x s
  | .symInit => Sys2Proof.Machine.execSymInit s
  | .symGet => Sys2Proof.Machine.execSymGet s
  | .symSet => Sys2Proof.Machine.execSymSet s
  | .embBasic => Sys2Proof.Machine.execEmbBasic s
  | .embType => Sys2Proof.Machine.execEmbType s
  | .embVersion => Sys2Proof.Machine.execEmbVersion s
  | .embData y => Sys2Proof.Machine.execEmbData y s
  | .symBuild y => Sys2Proof.Machine.execSymBuild y s
  | .symExport => Sys2Proof.Machine.execSymExport s
  | .maskBit => Sys2Proof.Machine.execMaskBit s
  | .maskPenalty => Sys2Proof.Machine.execMaskPenalty s
  | .maskSelect y => Sys2Proof.Machine.execMaskSelect y s
  | .bchType => Sys2Proof.Machine.execBchType s
  | .bchVersion => Sys2Proof.Machine.execBchVersion s

end Sys2Proof.Machine
end

