-- ==== Sys2Proof/Machine/HostPort.lean ====
section
/-! DEFINITION. The host's port: the address map (10_state.md R103, 20_memory.md R204), what a read returns and what a write
does, idle and while a command runs (10_state.md R105 to R131, R180; 20_memory.md R201 to R206; 70_reset_and_hazards.md R960
to R963). -/

namespace Sys2Proof.Machine

/-- The offset of a bus address in the block's window, if it lies there (20_memory.md R200). -/
def offsetOfBus (a : Nat) : Option (BitVec 16) :=
  if Config.zxqBase ≤ a ∧ a < Config.zxqBase + 0x10000 then some (BitVec.ofNat 16 (a - Config.zxqBase)) else none

/-- The bus address of an offset: `ZXQ_BASE + offset` (00_scope.md R8, 20_memory.md R200). -/
def busOfOffset (offset : BitVec 16) : Nat := Config.zxqBase + offset.toNat

/-- What a word of the window is (10_state.md R103, 20_memory.md R204). A window word carries its word number, a symbol word
its row too. -/
inductive Place where
  | id
  | status
  | errcode
  | cmd
  | arg (i : Nat)
  | result (i : Nat)
  | gfPrim
  | gfBase
  | bvSize (b : Bank)
  | bmDim
  | symDim
  | locCnt
  | plen (r : Nat)
  | pen (m : Nat)
  | cw (w : Nat)
  | loc (k : Nat)
  | mag (k : Nat)
  | bank (b : Bank) (w : Nat)
  | bmWord (w : Nat)
  | coef (w : Nat)
  | sym (y w : Nat)
  | reserved
deriving DecidableEq, Repr

/-- The control register number `w`, at offset `4 * w` (10_state.md R103). -/
def controlPlace (w : Nat) : Place :=
  if w = 0 then .id
  else if w = 1 then .status
  else if w = 2 then .errcode
  else if w = 3 then .cmd
  else if w < 8 then .arg (w - 4)
  else if w < 16 then .result (w - 8)
  else if w = 16 then .gfPrim
  else if w = 17 then .gfBase
  else if w = 18 then .bvSize .A
  else if w = 19 then .bvSize .B
  else if w = 20 then .bmDim
  else if w = 21 then .symDim
  else if w = 22 then .locCnt
  else if w = 23 then .reserved
  else if w < 32 then .plen (w - 24)
  else if w < 40 then .pen (w - 32)
  else .reserved

/-- What the word at offset `a`, a multiple of 4, is (20_memory.md R203, R204). -/
def placeAt (a : Nat) : Place :=
  if a < 0x0400 then controlPlace (a / 4)
  else if a < 0x0500 then .cw ((a - 0x0400) / 4)
  else if a < 0x0800 then .reserved
  else if a < 0x0BFC then .loc ((a - 0x0800) / 4)
  else if a < 0x0C00 then .reserved
  else if a < 0x0FFC then .mag ((a - 0x0C00) / 4)
  else if a < 0x1000 then .reserved
  else if a < 0x2000 then .bank .A ((a - 0x1000) / 4)
  else if a < 0x3000 then .bank .B ((a - 0x2000) / 4)
  else if a < 0x4000 then .reserved
  else if a < 0x6000 then .bmWord ((a - 0x4000) / 4)
  else if a < 0x8000 then .reserved
  else if a < 0x9000 then .coef ((a - 0x8000) / 4)
  else if a < 0xA000 then .reserved
  else if a < 0xC130 then .sym ((a - 0xA000) / 48) ((a - 0xA000) % 48 / 4)
  else .reserved

/-- `ID` (10_state.md R104). -/
def idWord : Word := 0x5A510007

/-- `BMDIM`: `BMW` in bits [8:0], `BMH` in bits [24:16] (10_state.md R160). -/
def State.bmDimWord (s : State) : Word := Word.ofNat (s.bmW + s.bmH * 0x10000)

/-- `SYMDIM`: `SYMN` in bits [7:0], `SYMV` in bits [13:8] (10_state.md R170). -/
def State.symDimWord (s : State) : Word := Word.ofNat (s.symN + s.symV * 0x100)

/-- The symbol window's word `w` of row `y`: sixteen two-bit cell codes (20_memory.md R204). -/
def State.symWord (s : State) (y w : Nat) : Word := wordOfBits fun k => (s.symCell (16 * w + k / 2) y).codeBit (k % 2)

/-- What a place holds, where reading it is defined (R103, R204; 70_reset_and_hazards.md R963). -/
def State.readPlace (s : State) : Place → Word
  | .id => idWord
  | .status => s.status.toWord
  | .errcode => s.errWord
  | .cmd => s.cmd
  | .arg i => s.arg.getD i 0
  | .result i => s.result.getD i 0
  | .gfPrim => s.gfPrim.setWidth 32
  | .gfBase => s.gfBase.setWidth 32
  | .bvSize b => Word.ofNat (s.bvSize b)
  | .bmDim => s.bmDimWord
  | .symDim => s.symDimWord
  | .locCnt => Word.ofNat s.locCnt
  | .plen r => Word.ofNat (s.plenOf r)
  | .pen m => s.pen.getD m 0
  | .cw w => s.mem.word (cwAddr (4 * w))
  | .loc k => Byte.toWord (s.mem.read (locAddr k))
  | .mag k => Byte.toWord (s.mem.read (magAddr k))
  | .bank b w => s.mem.word (bankBase b + 4 * w)
  | .bmWord w => s.bmWord w
  | .coef w => s.mem.word (coefAddr 0 (4 * w))
  | .sym y w => s.symWord y w
  | .reserved => 0

/-- The state that commands write, whose reads while `BUSY` = 1 return an unspecified value (70_reset_and_hazards.md R962). -/
def Place.commandWritten : Place → Bool
  | .result _ | .pen _ | .plen _ | .bvSize _ | .bmDim | .symDim | .locCnt | .cw _ | .loc _ | .mag _ | .bank _ _
  | .bmWord _ | .coef _ | .sym _ _ => true
  | .id | .status | .errcode | .cmd | .arg _ | .gfPrim | .gfBase | .reserved => false

/-- A host read: the value goes to `rdata` and nothing else changes but, for an unspecified value, the number of free
values drawn (20_memory.md R206; 70_reset_and_hazards.md R962, R963). -/
def State.hostRead (s : State) (p : Place) : State :=
  if s.status.busy && p.commandWritten then { s with rdata := Config.busyRead s.draws, draws := s.draws + 1 }
  else { s with rdata := s.readPlace p }

/-- The value that a host write of `v` offers to `GF_PRIM`: bit 8 is read-only 1 (10_state.md R110). -/
def primOfWord (v : Word) : BitVec 9 := 0x100 ||| (v.extractLsb' 0 8).setWidth 9

/-- A write to `GF_PRIM` while idle: WARL (10_state.md R110). -/
def State.writeGfPrim (s : State) (v : Word) : State :=
  if primOfWord v ∈ Config.primitivePolys then { s with gfPrim := primOfWord v } else s.setCfgErr

/-- A write to `PLEN[r]` while idle: WARL, 0 to 512 (10_state.md R131). -/
def State.writePlen (s : State) (r : Nat) (v : Word) : State :=
  if v.toNat ≤ 512 then s.setPlen r v.toNat else s.setCfgErr

/-- A write to `LOCCNT` while idle: WARL, 0 to 255 (10_state.md R180). -/
def State.writeLocCnt (s : State) (v : Word) : State := if v.toNat ≤ 255 then s.setLocCnt v.toNat else s.setCfgErr

/-- A write to `BMWORD[w]` while idle: bits that are not cells are discarded (20_memory.md R204, 45_bitmatrix.md R651). -/
def State.writeBmWord (s : State) (w : Nat) (v : Word) : State :=
  let old := s.mem.word (bmBase + 4 * w)
  s.setMem (s.mem.write (bmBase + 4 * w) (bytesOfWord ((v &&& s.bmCellMask w) ||| (old &&& ~~~ s.bmCellMask w))))

/-- A write to word `w` of symbol row `y` while idle: cells outside the symbol ignore it, and 11 stores 10
(20_memory.md R204). -/
def State.writeSymWord (s : State) (y w : Nat) (v : Word) : State :=
  s.setMem <| s.mem.writeBits (symRowBase y) (32 * w) 32 fun k =>
    if 16 * w + k / 2 < s.symN ∧ y < s.symN then
      (Cell.ofCode (v.getLsbD (2 * (k / 2))) (v.getLsbD (2 * (k / 2) + 1))).codeBit (k % 2)
    else s.mem.bit (symRowBase y) (32 * w + k)

/-- A host write while idle (70_reset_and_hazards.md R963). A write to `CMD` is accepted; its latency is a free value
(60_exceptions.md R900, 70_reset_and_hazards.md R970). -/
def State.writeIdle (s : State) (p : Place) (v : Word) : State :=
  match p with
  | .status => { s with status := s.status.clearedBy v }
  | .cmd => { s.accept v (Config.latency v s.draws) with draws := s.draws + 1 }
  | .arg i => { s with arg := s.arg.setIfInBounds i v }
  | .gfPrim => s.writeGfPrim v
  | .gfBase => { s with gfBase := v.extractLsb' 0 1 }
  | .locCnt => s.writeLocCnt v
  | .plen r => s.writePlen r v
  | .cw w => s.setMem (s.mem.write (cwAddr (4 * w)) (bytesOfWord v))
  | .loc k => s.setMem (s.mem.write (locAddr k) [v.extractLsb' 0 8])
  | .mag k => s.setMem (s.mem.write (magAddr k) [v.extractLsb' 0 8])
  | .bank b w => s.setMem (s.mem.write (bankBase b + 4 * w) (bytesOfWord v))
  | .bmWord w => s.writeBmWord w v
  | .coef w => s.setMem (s.mem.write (coefAddr 0 (4 * w)) (bytesOfWord v))
  | .sym y w => s.writeSymWord y w v
  | .id | .errcode | .result _ | .bvSize _ | .bmDim | .symDim | .pen _ | .reserved => s

/-- A host write while a command runs (70_reset_and_hazards.md R960, R961). -/
def State.writeBusy (s : State) (p : Place) (v : Word) : State :=
  match p with
  | .status => { s with status := s.status.clearedBy v }
  | .cmd => s.setOvr
  | .arg i => { s with arg := s.arg.setIfInBounds i v }
  | .gfPrim | .gfBase | .locCnt | .plen _ | .cw _ | .loc _ | .mag _ | .bank _ _ | .bmWord _ | .coef _ | .sym _ _ => s.setHaz
  | .id | .errcode | .result _ | .bvSize _ | .bmDim | .symDim | .pen _ | .reserved => s

/-- A host write. -/
def State.hostWrite (s : State) (p : Place) (v : Word) : State :=
  if s.status.busy then s.writeBusy p v else s.writeIdle p v

/-- Why a host access is outside the spec, if it is: not 32 bits, or not aligned (20_memory.md R202). -/
def accessProblem (width : AccessWidth) (offset : BitVec 16) : Option Refusal :=
  match width with
  | .byte => some .narrowAccess
  | .half => some .narrowAccess
  | .word => if offset.toNat % 4 = 0 then none else some .misalignedAccess

/-- The block serves what the outside world asks. -/
def State.serve (s : State) (h : HostInput) : Host.Outcome State Fault Refusal :=
  match h with
  | .reset => .next s.platformReset
  | .read width offset =>
    match accessProblem width offset with
    | some r => .refused r
    | none => .next (s.hostRead (placeAt offset.toNat))
  | .write width offset v =>
    match accessProblem width offset with
    | some r => .refused r
    | none => .next (s.hostWrite (placeAt offset.toNat) v)

/-- The next thing asked is taken from the list; while a command runs, one access less comes before its completion. -/
def State.take (s : State) (rest : List HostInput) : State := { s with host := rest, wait := s.wait - 1 }

/-- The engine completes the running command in this step: its latency is over, or the host asks for nothing more before
it ends (70_reset_and_hazards.md R970: the latency is finite). -/
def State.due (s : State) : Bool := s.status.busy && (decide (s.wait = 0) || s.host.isEmpty)

/-- The state in which the command word `w` has just been accepted and is due: the engine runs the word in `CMD` on the
operands in the latch (60_exceptions.md R900, R901). -/
def State.holding (s : State) (w : Word) : State := s.accept w 0

end Sys2Proof.Machine
end

