-- ==== Sys2Proof/Machine/Step.lean ====
section
/-! DEFINITION. One step of the block: the engine completes the running command when it is due, and otherwise the block
serves the next thing that the outside world asks. -/

namespace Sys2Proof.Machine

/-- Completion of the command in `CMD`: it is decoded and executed, and a word that is no command fails with
`ILLEGAL_COMMAND` (30_encoding.md R310, 60_exceptions.md R901). -/
def State.runCommand (s : State) : Host.Outcome State Fault Refusal :=
  match decode s.cmd with
  | .ok i => exec i s
  | .error e => .next (s.fail (Failure.ofDecode e))

/-- One step. An idle block of which nothing is asked stays as it is. -/
def step (s : State) : Host.Outcome State Fault Refusal :=
  if s.due then s.runCommand
  else
    match s.host with
    | [] => .next s
    | h :: rest => (s.take rest).serve h

/-- `s` with the table row's word accepted into `CMD` and its operands latched from `ARG`, due at the very next step. The
block fetches no instruction stream: it runs the word in `CMD` (20_memory.md R213; assumption 3). -/
def State.withFetchWord (s : State) (nbits w : Nat) : State := s.holding (BitVec.ofNat 32 (w % 2 ^ nbits))

end Sys2Proof.Machine
end

