-- ==== Sys2Proof/Safety.lean ====
section
/-! DEFINITION. The terms in which statements about the block are made: the invariant of its states, the reported failures,
what each command may write, the frames of stores, and the parts of a symbol and of a block that statements speak of. -/

namespace Sys2Proof.Machine

/-! Failures. -/

/-- Every code and subcode that 60_exceptions.md R910 lists, in its order. -/
def errorPairs : List (Byte × Byte) :=
  [(0x01, 0x01), (0x01, 0x02), (0x01, 0x03), (0x01, 0x04), (0x01, 0x05), (0x01, 0x06), (0x01, 0x07), (0x01, 0x08),
   (0x01, 0x09), (0x01, 0x0A), (0x01, 0x0B), (0x01, 0x0C), (0x01, 0x0D), (0x01, 0x0E), (0x01, 0x0F), (0x01, 0x10),
   (0x01, 0x11), (0x01, 0x12), (0x02, 0x01), (0x02, 0x02), (0x02, 0x03)]
  ++ [(0x03, 0x01), (0x03, 0x02), (0x03, 0x03), (0x03, 0x04), (0x03, 0x05), (0x04, 0x01), (0x04, 0x02), (0x04, 0x03),
   (0x04, 0x04), (0x05, 0x01), (0x05, 0x02), (0x05, 0x03), (0x05, 0x04), (0x05, 0x05), (0x06, 0x01), (0x06, 0x02)]

/-- The 56 opcodes of 30_encoding.md R321. -/
def definedOpcodes : List Nat :=
  [0x00, 0x10, 0x11, 0x12, 0x13, 0x14, 0x20, 0x21, 0x22, 0x23, 0x24, 0x25, 0x26, 0x27, 0x28, 0x29, 0x2A, 0x2B]
  ++ [0x30, 0x31, 0x32, 0x33, 0x34, 0x35, 0x36, 0x37, 0x40, 0x41, 0x42, 0x43, 0x44, 0x45, 0x46]
  ++ [0x50, 0x51, 0x52, 0x53, 0x54, 0x55, 0x56, 0x57, 0x58, 0x60, 0x61, 0x62, 0x63, 0x64, 0x65, 0x66, 0x67, 0x68]
  ++ [0x70, 0x71, 0x72, 0x73, 0x74]

/-- The codes and subcodes that each command raises, by the column "raised by" of 60_exceptions.md R910. -/
def raisedBy : Instr → List (Byte × Byte)
  | .nop => []
  | .gfAdd | .gfMul | .gfExp => [(0x02, 0x03)]
  | .gfInv => [(0x02, 0x02), (0x02, 0x03)]
  | .gfLog => [(0x02, 0x01), (0x02, 0x03)]
  | .pZero _ => []
  | .pMono _ => [(0x02, 0x03), (0x05, 0x02)]
  | .pCopy _ _ | .pNorm _ | .pAdd _ _ _ | .pCoef _ | .pDeg _ => [(0x01, 0x01)]
  | .pMul _ _ _ => [(0x01, 0x01), (0x05, 0x02)]
  | .pScale _ _ | .pEval _ => [(0x01, 0x01), (0x02, 0x03)]
  | .pMulmono _ _ => [(0x01, 0x01), (0x02, 0x03), (0x05, 0x02)]
  | .pDiv _ _ _ _ => [(0x01, 0x01), (0x01, 0x02), (0x01, 0x0D)]
  | .rsGen _ => [(0x05, 0x05)]
  | .rsEnc => [(0x01, 0x03), (0x01, 0x04), (0x05, 0x03)]
  | .rsSynd _ => [(0x01, 0x10), (0x05, 0x03), (0x05, 0x05)]
  | .rsKey _ _ _ => [(0x01, 0x01), (0x01, 0x0D), (0x01, 0x0E), (0x03, 0x01), (0x03, 0x04), (0x03, 0x05), (0x05, 0x05)]
  | .rsChien _ => [(0x01, 0x01), (0x03, 0x02)]
  | .rsForney _ => [(0x01, 0x01), (0x02, 0x02)]
  | .rsCorr => [(0x01, 0x10), (0x02, 0x01), (0x03, 0x03), (0x05, 0x03)]
  | .rsDec => [(0x01, 0x10), (0x03, 0x01), (0x03, 0x02), (0x03, 0x03), (0x03, 0x04), (0x03, 0x05), (0x05, 0x03), (0x05, 0x05)]
  | .bvClear _ => []
  | .bvAppend _ => [(0x01, 0x05), (0x05, 0x01)]
  | .bvGet _ | .bvSet _ => [(0x01, 0x06)]
  | .bvXor _ _ => [(0x01, 0x11)]
  | .bvTobytes _ => [(0x01, 0x06), (0x05, 0x03)]
  | .bvSetsize _ => [(0x05, 0x01)]
  | .bmInit => [(0x01, 0x0A), (0x05, 0x04)]
  | .bmClear | .bmTopleft | .bmBotright => []
  | .bmGet | .bmSet | .bmRow _ | .bmCol _ => [(0x01, 0x08)]
  | .bmSetregion => [(0x01, 0x09)]
  | .symInit => [(0x01, 0x0B)]
  | .symGet => [(0x01, 0x08), (0x01, 0x0F)]
  | .symSet => [(0x01, 0x08), (0x01, 0x0F), (0x01, 0x12)]
  | .embBasic => [(0x01, 0x0F), (0x04, 0x02), (0x04, 0x03)]
  | .embType => [(0x01, 0x0C), (0x01, 0x0F), (0x04, 0x01)]
  | .embVersion | .symExport | .maskPenalty => [(0x01, 0x0F)]
  | .embData _ => [(0x01, 0x07), (0x01, 0x0F), (0x04, 0x04)]
  | .symBuild _ => [(0x01, 0x0B), (0x01, 0x0C), (0x04, 0x01), (0x04, 0x04)]
  | .maskBit => [(0x01, 0x07), (0x01, 0x08)]
  | .maskSelect _ => [(0x01, 0x0B), (0x01, 0x0C), (0x04, 0x04)]
  | .bchType => [(0x01, 0x0C), (0x04, 0x01)]
  | .bchVersion => [(0x01, 0x0B)]

/-- The state after a failed command: the completion bits and `ERRCODE` are written and nothing else
(60_exceptions.md R901, R902). -/
def State.failed (s : State) (code sub : Byte) : State :=
  { s with status := { s.status with busy := false, done := true, err := true }, errCode := code, errSub := sub }

/-! The invariant. -/

/-- What holds of every state of the block that its steps can reach (10_state.md R105 to R180; 44_bitvec.md R605). -/
structure State.Inv (s : State) : Prop where
  /-- The memories are in canonical form. -/
  memory : s.mem.wf = true
  /-- `GF_PRIM` is a primitive polynomial (10_state.md R110). -/
  prim : s.gfPrim ∈ Config.primitivePolys
  /-- `PLEN[r]` is 0 to 512 (10_state.md R131). -/
  plen : ∀ r, s.plenOf r ≤ 512
  /-- A bank's size is 0 to 32768 (10_state.md R140, 44_bitvec.md R605). -/
  bvSize : ∀ b, s.bvSize b ≤ 32768
  /-- `BMW` is 0 to 256 (10_state.md R160). -/
  bmW : s.bmW ≤ 256
  /-- `BMH` is 0 to 256 (10_state.md R160). -/
  bmH : s.bmH ≤ 256
  /-- A matrix without columns has no rows, and the other way round (10_state.md R160, 45_bitmatrix.md R660). -/
  bmEmpty : s.bmW = 0 ↔ s.bmH = 0
  /-- `SYMV` is 0 to 40 (10_state.md R170). -/
  symV : s.symV ≤ 40
  /-- `LOCCNT` is 0 to 255 (10_state.md R180). -/
  locCnt : s.locCnt ≤ 255
  /-- While a command runs, `DONE`, `ERR` and `ERRCODE` are 0 (60_exceptions.md R900). -/
  running : s.status.busy = true → s.status.done = false ∧ s.status.err = false ∧ s.errCode = 0 ∧ s.errSub = 0
  /-- `ERRCODE` is 0 or a listed code and subcode (60_exceptions.md R910). -/
  code : (s.errCode, s.errSub) = (0, 0) ∨ (s.errCode, s.errSub) ∈ errorPairs
  /-- `ERR` = 1 goes with a listed code and subcode (60_exceptions.md R901, R910). -/
  failed : s.status.err = true → (s.errCode, s.errSub) ∈ errorPairs

/-- Every register holds its reset value (70_reset_and_hazards.md R950). -/
structure State.RegistersReset (t : State) : Prop where
  id : t.readPlace .id = 0x5A510007
  status : t.status = ⟨false, false, false, false, false, false⟩
  errcode : t.errCode = 0 ∧ t.errSub = 0
  cmd : t.cmd = 0
  arg : ∀ i, i < 4 → t.arg.getD i 1 = 0
  result : ∀ i, i < 8 → t.result.getD i 1 = 0
  gfPrim : t.gfPrim = 0x11D
  gfBase : t.gfBase = 0
  plen : ∀ r, r < 8 → t.plen.getD r 1 = 0
  bvSize : ∀ b, t.bvSize b = 0
  matrix : t.bmW = 0 ∧ t.bmH = 0
  symbol : t.symN = 0 ∧ t.symV = 0
  locCnt : t.locCnt = 0
  pen : ∀ m, m < 8 → t.pen.getD m 1 = 0

/-! The outside world. -/

/-- The outside world asks only what the spec defines: a reset, or an aligned 32-bit access (20_memory.md R202). -/
def HostInput.defined : HostInput → Bool
  | .reset => true
  | .read width offset => decide (width = .word) && decide (offset.toNat % 4 = 0)
  | .write width offset _ => decide (width = .word) && decide (offset.toNat % 4 = 0)

/-- `k` steps, up to the first refusal. -/
def runFor : Nat → State → Host.Outcome State Fault Refusal
  | 0, s => .next s
  | k + 1, s =>
    match step s with
    | .next t => runFor k t
    | .fault f => .fault f
    | .refused r => .refused r

/-- The offsets of the memory windows (20_memory.md R204). -/
def windowOffset (a : Nat) : Bool :=
  (decide (0x0400 ≤ a) && decide (a < 0x0500)) || (decide (0x0800 ≤ a) && decide (a ≤ 0x0BF8))
    || (decide (0x0C00 ≤ a) && decide (a ≤ 0x0FF8)) || (decide (0x1000 ≤ a) && decide (a < 0x3000))
    || (decide (0x4000 ≤ a) && decide (a < 0x6000)) || (decide (0x8000 ≤ a) && decide (a < 0x9000))
    || (decide (0xA000 ≤ a) && decide (a < 0xC130))

/-- The offsets at which a write while `BUSY` = 1 is dropped and sets `HAZ`: `GF_PRIM`, `GF_BASE`, `LOCCNT`, `PLEN0` to
`PLEN7` and the windows (70_reset_and_hazards.md R960). -/
def hazardOffset (a : Nat) : Bool :=
  decide (a = 0x040) || decide (a = 0x044) || decide (a = 0x058) || (decide (0x060 ≤ a) && decide (a < 0x080))
    || windowOffset a

/-- The offsets whose reads while `BUSY` = 1 return an unspecified value: `RESULT0` to `RESULT7`, `BVSIZE_A`, `BVSIZE_B`, `BMDIM`,
`SYMDIM`, `LOCCNT`, `PLEN0` to `PLEN7`, `PEN0` to `PEN7` and the windows (70_reset_and_hazards.md R962). -/
def unspecifiedOffset (a : Nat) : Bool :=
  (decide (0x020 ≤ a) && decide (a < 0x040)) || (decide (0x048 ≤ a) && decide (a < 0x05C))
    || (decide (0x060 ≤ a) && decide (a < 0x0A0)) || windowOffset a

/-- The reserved offsets: those that 10_state.md R103 and 20_memory.md R204 assign to nothing (20_memory.md R203). -/
def reservedOffset (a : Nat) : Bool :=
  !(windowOffset a || decide (a < 0x05C) || (decide (0x060 ≤ a) && decide (a < 0x0A0)))

/-- The offsets of the read-only registers `ID`, `ERRCODE`, `RESULT0` to `RESULT7`, `BVSIZE_A`, `BVSIZE_B`, `BMDIM`, `SYMDIM` and
`PEN0` to `PEN7` (10_state.md R103). -/
def readOnlyOffset (a : Nat) : Bool :=
  decide (a < 0x004) || (decide (0x008 ≤ a) && decide (a < 0x00C)) || (decide (0x020 ≤ a) && decide (a < 0x040))
    || (decide (0x048 ≤ a) && decide (a < 0x058)) || (decide (0x080 ≤ a) && decide (a < 0x0A0))

/-! What a command may write. -/

/-- The polynomial registers that a command writes (42_poly.md R470 to R478, 43_rs.md R520 to R523). -/
def polyDestinations : Instr → List Nat
  | .pZero rd | .pMono rd | .pCopy rd _ | .pNorm rd | .pAdd rd _ _ | .pMul rd _ _ | .pScale rd _ | .pMulmono rd _
  | .rsGen rd | .rsSynd rd => [rd]
  | .pDiv rd rc _ _ | .rsKey rd rc _ => [rd, rc]
  | _ => []

/-- The result registers that a successful command writes: each rule names its own (10_state.md R121). -/
def resultDestinations : Instr → List Nat
  | .gfAdd | .gfMul | .gfInv | .gfExp | .gfLog | .pEval _ | .pCoef _ | .rsSynd _ | .rsKey _ _ _ | .rsChien _ | .rsForney _
  | .bvGet _ | .bmGet | .symGet | .maskBit | .bchType | .bchVersion => [0]
  | .rsDec | .maskSelect _ => [0, 1]
  | .pDeg _ | .bmTopleft | .bmBotright => [0, 1, 2]
  | .maskPenalty => [0, 1, 2, 3, 4]
  | _ => []

/-- The banks whose size a successful command writes (44_bitvec.md R610, R611, R616; 45_bitmatrix.md R667, R668). -/
def sizeDestinations : Instr → List Bank
  | .bvClear x | .bvAppend x | .bvSetsize x | .bmRow x | .bmCol x => [x]
  | _ => []

/-- The ranges of offsets, first and one past the last, in which a command may store (20_memory.md R204). -/
def storeRanges : Instr → List (Nat × Nat)
  | .pZero rd | .pMono rd | .pCopy rd _ | .pNorm rd | .pAdd rd _ _ | .pMul rd _ _ | .pScale rd _ | .pMulmono rd _
  | .rsGen rd | .rsSynd rd => [(coefAddr rd 0, coefAddr rd 512)]
  | .pDiv rd rc _ _ | .rsKey rd rc _ => [(coefAddr rd 0, coefAddr rd 512), (coefAddr rc 0, coefAddr rc 512)]
  | .rsEnc | .rsCorr | .bvTobytes _ => [(0x0400, 0x0500)]
  | .rsChien _ => [(0x0800, 0x0BF9)]
  | .rsForney _ => [(0x0C00, 0x0FF9)]
  | .rsDec => [(0x0400, 0x0500), (0x0800, 0x0BF9), (0x0C00, 0x0FF9)]
  | .bvClear x | .bvAppend x | .bvSet x | .bvXor x _ | .bmRow x | .bmCol x => [(bankBase x, bankBase x + 0x1000)]
  | .bmInit | .bmClear | .bmSet | .bmSetregion | .symExport => [(0x4000, 0x6000)]
  | .symInit | .symSet | .embBasic | .embType | .embVersion | .embData _ | .symBuild _ | .maskSelect _ => [(0xA000, 0xC130)]
  | _ => []

/-! The frames of stores: what every byte of the memories reads after a store, the stored ones and all others. -/

/-- From `m` to `m'`, exactly the bytes `vs` are stored, from offset `a` on. -/
def StoresBytes (m m' : Memory) (a : Nat) (vs : List Byte) : Prop :=
  ∀ b, m'.read b = if a ≤ b ∧ b < a + vs.length then vs.getD (b - a) 0 else m.read b

/-- From `m` to `m'`, exactly the bytes `vs` are stored, the first at offset `a` and each next one 4 further on: the layout of
`LOC` and `MAG` (20_memory.md R204). -/
def StoresEvery4 (m m' : Memory) (a : Nat) (vs : List Byte) : Prop :=
  ∀ b, m'.read b =
    if a ≤ b ∧ (b - a) % 4 = 0 ∧ (b - a) / 4 < vs.length then vs.getD ((b - a) / 4) 0 else m.read b

/-- From `m` to `m'`, exactly `n` bits are stored in the bit store at `base`: bit `i + k` becomes `f k` (20_memory.md R205). -/
def StoresBits (m m' : Memory) (base i n : Nat) (f : Nat → Bool) : Prop :=
  ∀ a j, j < 8 → (m'.read a).getLsbD j =
    if 8 * base + i ≤ 8 * a + j ∧ 8 * a + j < 8 * base + i + n then f (8 * a + j - (8 * base + i))
    else (m.read a).getLsbD j

/-- From `m` to `m'`, exactly the cells of a symbol of dimension `n` are stored: the two bits of (x, y) become the code of
`c x y` (20_memory.md R204). -/
def StoresCells (m m' : Memory) (n : Nat) (c : Nat → Nat → Cell) : Prop :=
  ∀ a j, j < 8 → (m'.read a).getLsbD j =
    if 0xA000 ≤ a ∧ (a - 0xA000) / 48 < n ∧ 8 * ((a - 0xA000) % 48) + j < 2 * n then
      (c ((8 * ((a - 0xA000) % 48) + j) / 2) ((a - 0xA000) / 48)).codeBit ((8 * ((a - 0xA000) % 48) + j) % 2)
    else (m.read a).getLsbD j

/-- From `m` to `m'`, nothing is stored outside the bit matrix's window (20_memory.md R204). -/
def StoresMatrixOnly (m m' : Memory) : Prop := ∀ a, ¬ (0x4000 ≤ a ∧ a < 0x6000) → m'.read a = m.read a

/-! Parts of the symbol (46_symbol.md). -/

/-- Cell (x, y) lies in one of the three finders of a symbol of dimension `n` (R710). -/
def inFinder (n x y : Nat) : Bool :=
  decide (x < 7 ∧ y < 7) || decide (n - 7 ≤ x ∧ x < n ∧ y < 7) || decide (x < 7 ∧ n - 7 ≤ y ∧ y < n)

/-- At the centre (cx, cy) `EMB_BASIC` writes an alignment pattern: it is a pair of the version's centres whose cell is empty and lies
outside the finders (R712, R713). -/
def State.alignsAt (s : State) (cx cy : Nat) : Bool :=
  decide (cx ∈ alignCentres s.symV) && decide (cy ∈ alignCentres s.symV) && !inFinder s.symN cx cy
    && decide (s.symCell cx cy = .empty)

/-- Cell (x, y) lies in the 5 × 5 square of an alignment pattern that `EMB_BASIC` writes (R713). -/
def State.inAlignment (s : State) (x y : Nat) : Bool :=
  (alignCentres s.symV).any fun cx => (alignCentres s.symV).any fun cy =>
    s.alignsAt cx cy && decide (cx ≤ x + 2 ∧ x ≤ cx + 2 ∧ cy ≤ y + 2 ∧ y ≤ cy + 2)

/-- The finder-like pattern of 47_mask.md R803 starts at entry `i` of a line of `n` cells: dark, light and dark entries 1:1:3:1:1 with four light
ones before or after, everything outside the line being light. -/
abbrev FinderLike (n : Nat) (line : Nat → Cell) (i : Nat) : Prop :=
  i + 6 < n ∧ line i = .black ∧ line (i + 1) = .white ∧ line (i + 2) = .black ∧ line (i + 3) = .black ∧ line (i + 4) = .black
    ∧ line (i + 5) = .white ∧ line (i + 6) = .black
    ∧ ((∀ k, k < 4 → k < i → line (i - 1 - k) ≠ .black) ∨ (∀ k, k < 4 → i + 7 + k < n → line (i + 7 + k) ≠ .black))

/-- The number of cells of a square of dimension `n` for which `f` holds. -/
def cellCount (n : Nat) (f : Nat → Nat → Bool) : Nat := ((List.range n).map fun y => (List.range n).countP fun x => f x y).sum

/-- The product over GF(2) of the polynomials whose coefficients are the bits of `p` and the low `k` bits of `q`: the multiples of a BCH
generator `p` are these products (46_symbol.md R720). -/
def gf2Product (p q k : Nat) : Nat := (List.range k).foldl (fun w i => if q.testBit i then w ^^^ (p <<< i) else w) 0

/-- The number of places at which two blocks of codewords differ. -/
def differences (a b : List Byte) : Nat := (List.range a.length).countP fun p => decide (a.getD p 0 ≠ b.getD p 0)

/-! Operands and values. -/

/-- A field-element operand as a byte; the statements that use it bound the operand by 255. -/
def State.byteOperand (s : State) (i : Nat) : Byte := BitVec.ofNat 8 (s.operand i)

/-- The value of a polynomial register that is not empty (10_state.md R130). -/
def State.polyValue (s : State) (r : Nat) : Poly := norm (s.coefs r (s.plenOf r))

/-- A polynomial as 42_poly.md R450 has it: not empty, and without leading zeros unless it is `[0]`. -/
def NormalPoly (p : Poly) : Prop := p ≠ [] ∧ norm p = p

/-- `q` and `r` are a quotient and a remainder of `a` by `b` (42_poly.md R459). -/
def IsQuotientAndRemainder (prim : BitVec 9) (a b q r : Poly) : Prop :=
  NormalPoly q ∧ NormalPoly r ∧ a = padd (pmul prim q b) r ∧ (isZero r = true ∨ deg r < deg b)

/-- `exec` completes with success, having written polynomial `p` to register `r` and nothing else: `PLEN[r]` is its length, its
coefficients are stored from `COEF[r][0]` on, and every other register and byte keeps its value (10_state.md R130). -/
def CompletesWithPoly (s : State) (i : Instr) (r : Nat) (p : Poly) : Prop :=
  ∃ m, exec i s = .next (State.succeed { s with plen := s.plen.setIfInBounds r p.length, mem := m })
    ∧ StoresBytes s.mem m (coefAddr r 0) p

/-- The grid that data placement starts from in a build: basic patterns, type and version information on an all-empty symbol
(46_symbol.md R728). -/
def preparedGrid (ecl v mask : Nat) : Except Failure Grid := do
  let n := 4 * v + 17
  let g ← embedBasic v n (Grid.blank n)
  let t ← typeBits ecl mask
  return embedVersion v n (embedType n t g)

/-- The number of cells that data placement fills in a build of version `v` (46_symbol.md R727). -/
def dataCells (v : Nat) : Nat :=
  match preparedGrid 0 v 0 with
  | .ok g => (dataPath (4 * v + 17)).countP fun p => decide (g.cell p.1 p.2 = .empty)
  | .error _ => 0

/-- The empty cells that data placement visits in the current symbol, in its order (46_symbol.md R726). -/
def State.emptyPath (s : State) : List (Nat × Nat) :=
  (dataPath s.symN).filter fun p => decide (s.symCell p.1 p.2 = .empty)

/-- Multiplication by the schoolbook method, for comparison with the tables' (41_gf.md R403): the bits of `a` from the highest
down, doubling and reducing at each, over `k` bits. -/
def schoolMul (prim : BitVec 9) (a b : Byte) : (k : Nat) → Nat
  | 0 => 0
  | k + 1 => gfDouble prim.toNat (schoolMul prim a b k) ^^^ (if a.getLsbD (7 - k) then b.toNat else 0)

end Sys2Proof.Machine
end

