-- ==== Sys2Proof/Certificates/Slice0/Obligations.lean ====
section
/-! DEFINITION. The statements for the provers, in the order of OBLIGATIONS.json. A statement about a command says, for every
state and operands that meet its hypotheses, which next state `exec` answers: fields that a record update does not list keep
their values, and a store's frame speaks of every byte of the memories. `State.succeed` is the completion with success of
60_exceptions.md R901, which `Obligations.CommandsComplete` states in full. -/

open Sys2Proof Sys2Proof.Machine

/-! Encoding (30_encoding.md). -/

/-- Decoding the word of any well-formed command gives that command back, with every register number and bank
(30_encoding.md R310, R320). -/
def Obligations.DecodeInvertsEncode : Prop := ∀ i : Instr, i.wellFormed = true → decode (encode i) = .ok i

/-- Every word that decodes is the one encoding of a well-formed command: no bit of a command word is ignored
(30_encoding.md R310, R311). -/
def Obligations.EncodeInvertsDecode : Prop :=
  ∀ (w : Word) (i : Instr), decode w = .ok i → i.wellFormed = true ∧ encode i = w

/-- Words written out from 30_encoding.md R301 and R321 decode to the commands they stand for. -/
def Obligations.SpecWordsDecode : Prop :=
  decode 0x00000000 = .ok .nop ∧ decode 0x00000011 = .ok .gfMul ∧ decode 0x00010224 = .ok (.pAdd 2 0 1)
    ∧ decode 0x00510428 = .ok (.pDiv 4 5 0 1) ∧ decode 0x00200133 = .ok (.rsKey 1 2 0)
    ∧ decode 0x00001044 = .ok (.bvXor .A .B) ∧ decode 0x00000158 = .ok (.bmCol .B) ∧ decode 0x00001066 = .ok (.embData .B)
    ∧ decode 0x00001072 = .ok (.maskSelect .B)

/-- A word with an opcode outside the 56 fails with code 6, subcode 1; any other word that encodes no command fails with
subcode 2; either way nothing but the completion bits and `ERRCODE` changes (30_encoding.md R310, R311). -/
def Obligations.IllegalWordsFail : Prop :=
  ∀ s : State, s.status.busy = true → (s.wait = 0 ∨ s.host = []) →
    (fieldOPC s.cmd ∉ definedOpcodes → step s = .next (s.failed 0x06 0x01))
    ∧ (fieldOPC s.cmd ∈ definedOpcodes → (∀ i : Instr, i.wellFormed = true → encode i ≠ s.cmd) →
        step s = .next (s.failed 0x06 0x02))

/-! The life of a command (60_exceptions.md). -/

/-- A step of a block whose running command is due is `exec` of the command that `CMD` decodes to, at that state; `NOP` does
nothing but complete; an idle block of which nothing is asked stays as it is. The list of what is asked and the count of accesses to come
are the model's (assumptions 4 and 5). -/
def Obligations.StepRunsDecodedCommand : Prop :=
  (∀ (s : State) (i : Instr), s.status.busy = true → (s.wait = 0 ∨ s.host = []) → decode s.cmd = .ok i → step s = exec i s)
    ∧ (∀ s : State, exec .nop s = .next s.succeed)
    ∧ (∀ s : State, s.status.busy = false → s.host = [] → step s = .next s)

/-- Acceptance: a host write of `w` to `CMD` while `BUSY` = 0 (60_exceptions.md R900). The latency that the step draws, `n`, is free
(70_reset_and_hazards.md R970; assumption 5). -/
def Obligations.CommandIsAccepted : Prop :=
  ∀ (s : State) (w : Word) (rest : List HostInput), s.status.busy = false → s.host = .write .word 0x00C w :: rest →
    ∃ n, step s = .next { s with
      cmd := w
      latch := s.arg
      status := { s.status with busy := true, done := false, err := false }
      errCode := 0
      errSub := 0
      wait := n
      draws := s.draws + 1
      host := rest }

/-- Every command completes in one step from every state, with success or with a listed failure: `BUSY` 0, `DONE` 1, `ERR` 1 exactly for
a failure, `ERRCODE` 0 after success; `OVR`, `HAZ` and `CFGERR` stay (60_exceptions.md R901, R910, R931). -/
def Obligations.CommandsComplete : Prop :=
  ∀ (i : Instr) (s : State), ∃ t, exec i s = .next t
    ∧ t.status = { s.status with busy := false, done := true, err := t.status.err }
    ∧ (t.status.err = false → t.errCode = 0 ∧ t.errSub = 0)
    ∧ (t.status.err = true → (t.errCode, t.errSub) ∈ errorPairs)

/-- A failing command writes nothing but `DONE`, `ERR`, `BUSY` and `ERRCODE` (60_exceptions.md R902). -/
def Obligations.FailureChangesNothingElse : Prop :=
  ∀ (i : Instr) (s t : State), exec i s = .next t → t.status.err = true → t = s.failed t.errCode t.errSub

/-- No command reports a failure that 60_exceptions.md R910 does not list for it. -/
def Obligations.OnlyListedFailures : Prop :=
  ∀ (i : Instr) (s t : State), s.Inv → i.wellFormed = true → exec i s = .next t → t.status.err = true →
    (t.errCode, t.errSub) ∈ raisedBy i

/-- What a command does depends on no `ARG` register (only on the latch), on nothing that the host asks or has read, and on no drawn free
value (`Config.busyRead`, `Config.latency`): neither on the number of draws made nor on the accesses still to come; and it changes none of
them. The unspecified contents of memory bytes that nothing has written are part of the state that it reads (assumption 2)
(60_exceptions.md R903, 10_state.md R120). -/
def Obligations.CommandsIgnoreTheHost : Prop :=
  ∀ (i : Instr) (s t : State) (arg : Vector Word 4) (host : List HostInput) (rdata : Word) (wait draws : Nat),
    exec i s = .next t →
      exec i { s with arg := arg, host := host, rdata := rdata, wait := wait, draws := draws }
        = .next { t with arg := arg, host := host, rdata := rdata, wait := wait, draws := draws }

/-- Which registers a command may write: no command writes `CMD`, `ARG`, the latch, `GF_PRIM`, `GF_BASE`, `OVR`, `HAZ` or `CFGERR`,
and each of the others is written by the commands whose rules name it only (10_state.md R106 to R180). -/
def Obligations.RegisterOwnership : Prop :=
  ∀ (i : Instr) (s t : State), exec i s = .next t →
    t.cmd = s.cmd ∧ t.arg = s.arg ∧ t.latch = s.latch ∧ t.gfPrim = s.gfPrim ∧ t.gfBase = s.gfBase
    ∧ t.host = s.host ∧ t.rdata = s.rdata ∧ t.wait = s.wait ∧ t.draws = s.draws
    ∧ t.status.ovr = s.status.ovr ∧ t.status.haz = s.status.haz ∧ t.status.cfgErr = s.status.cfgErr
    ∧ (t.pen = s.pen ∨ ∃ y, i = .maskSelect y)
    ∧ (t.locCnt = s.locCnt ∨ (∃ ra, i = .rsChien ra) ∨ i = .rsDec)
    ∧ (t.bmW = s.bmW ∧ t.bmH = s.bmH ∨ i = .bmInit ∨ i = .symExport)
    ∧ (t.symV = s.symV ∨ i = .symInit ∨ ∃ y, i = .symBuild y ∨ i = .maskSelect y)
    ∧ (∀ b, b ∉ sizeDestinations i → t.bvSize b = s.bvSize b)
    ∧ (∀ r, r ∉ polyDestinations i → t.plenOf r = s.plenOf r)
    ∧ (∀ k, k ∉ resultDestinations i → t.result.getD k 0 = s.result.getD k 0)

/-- Which bytes a command may write: outside the windows of its destinations every byte of the memories reads as before
(20_memory.md R204, 10_state.md R130 to R180). -/
def Obligations.MemoryOwnership : Prop :=
  ∀ (i : Instr) (s t : State), s.Inv → i.wellFormed = true → exec i s = .next t →
    ∀ a, (∀ r ∈ storeRanges i, ¬ (r.1 ≤ a ∧ a < r.2)) → t.mem.read a = s.mem.read a

/-- `BUSY` always returns to 0: after at most one step more than the accesses still to come before the completion, whatever
defined accesses the host makes meanwhile (70_reset_and_hazards.md R970, R971). That latency is counted in host accesses is the model's
choice (assumption 5). -/
def Obligations.BusyAlwaysEnds : Prop :=
  ∀ s : State, s.status.busy = true → (∀ h ∈ s.host, h.defined = true) →
    ∃ k t, k ≤ s.wait + 1 ∧ runFor k s = .next t ∧ t.status.busy = false

/-! Reset and the invariant (70_reset_and_hazards.md, 10_state.md). -/

/-- A reset gives every register its reset value, abandons a running command and leaves the memories as they are; the model's
`State.reset` has the same register values (70_reset_and_hazards.md R950, R952). That the memories stay on a reset of an idle block too is
the model's reading: R952 says it of a reset while `BUSY` = 1 (assumption 17). -/
def Obligations.ResetGivesResetValues : Prop :=
  State.reset.RegistersReset
    ∧ ∀ (s : State) (rest : List HostInput), s.due = false → s.host = .reset :: rest →
        ∃ t, step s = .next t ∧ t.RegistersReset ∧ t.mem = s.mem

/-- The invariant holds after reset, of the model's reset state and of a block reset in any state with it. -/
def Obligations.InvariantAtReset : Prop :=
  State.reset.Inv ∧ ∀ s : State, s.mem.wf = true → s.platformReset.Inv

/-- Every step keeps the invariant, from every state that has it: `GF_PRIM` stays primitive, lengths, sizes and counts stay in range,
the memories stay canonical, and `ERRCODE` stays a listed code (10_state.md R105 to R180, 44_bitvec.md R605). -/
def Obligations.StepKeepsInvariant : Prop := ∀ s t : State, s.Inv → step s = .next t → t.Inv

/-! The host's accesses (10_state.md, 20_memory.md, 70_reset_and_hazards.md). -/

/-- Register writes while `BUSY` = 0: `STATUS` is write-1-to-clear and its `BUSY` bit ignores writes, `ARG` and `GF_BASE` take the value,
the WARL registers take a legal value and otherwise stay and set `CFGERR` (10_state.md R105, R106, R110, R111, R120, R131, R180). That all
32 bits of a value written to `PLEN` or `LOCCNT` decide whether it is legal is the model's reading (assumption 7). -/
def Obligations.IdleRegisterWrites : Prop :=
  ∀ (s : State) (offset : BitVec 16) (v : Word) (rest : List HostInput),
    s.status.busy = false → s.host = .write .word offset v :: rest →
    let u := { s with host := rest, wait := s.wait - 1 }
    let refused := { u with status := { s.status with cfgErr := true } }
    (offset.toNat = 0x004 → step s = .next { u with status := ⟨s.status.busy, s.status.done && !v.getLsbD 1,
        s.status.err && !v.getLsbD 2, s.status.ovr && !v.getLsbD 3, s.status.haz && !v.getLsbD 4,
        s.status.cfgErr && !v.getLsbD 5⟩ })
    ∧ (∀ i, i < 4 → offset.toNat = 0x010 + 4 * i → step s = .next { u with arg := s.arg.setIfInBounds i v })
    ∧ (offset.toNat = 0x040 → step s = .next
        (if 0x100 ||| (v.extractLsb' 0 8).setWidth 9 ∈ Config.primitivePolys then
          { u with gfPrim := 0x100 ||| (v.extractLsb' 0 8).setWidth 9 } else refused))
    ∧ (offset.toNat = 0x044 → step s = .next { u with gfBase := v.extractLsb' 0 1 })
    ∧ (offset.toNat = 0x058 → step s = .next (if v.toNat ≤ 255 then { u with locCnt := v.toNat } else refused))
    ∧ (∀ r, r < 8 → offset.toNat = 0x060 + 4 * r →
        step s = .next (if v.toNat ≤ 512 then { u with plen := s.plen.setIfInBounds r v.toNat } else refused))

/-- Writes to read-only registers and to reserved offsets change nothing, idle or busy (10_state.md R104, R105; 20_memory.md R203). -/
def Obligations.IgnoredWrites : Prop :=
  ∀ (s : State) (offset : BitVec 16) (v : Word) (rest : List HostInput),
    s.due = false → s.host = .write .word offset v :: rest → offset.toNat % 4 = 0 →
    (readOnlyOffset offset.toNat = true ∨ reservedOffset offset.toNat = true) →
    step s = .next { s with host := rest, wait := s.wait - 1 }

/-- Writes while `BUSY` = 1: `ARG` and `STATUS` are written as when idle, a configuration register or memory window drops the write and
sets `HAZ`, a read-only or reserved place ignores it, and `CMD` drops it and sets `OVR`: command, latch and everything else stay
(70_reset_and_hazards.md R960, R961). `host` and `wait` are the model's (assumptions 4 and 5). -/
def Obligations.BusyWrites : Prop :=
  ∀ (s : State) (offset : BitVec 16) (v : Word) (rest : List HostInput),
    s.status.busy = true → s.wait ≠ 0 → s.host = .write .word offset v :: rest → offset.toNat % 4 = 0 →
    let u := { s with host := rest, wait := s.wait - 1 }
    (∀ i, i < 4 → offset.toNat = 0x010 + 4 * i → step s = .next { u with arg := s.arg.setIfInBounds i v })
    ∧ (offset.toNat = 0x004 → step s = .next { u with status := ⟨true, s.status.done && !v.getLsbD 1,
        s.status.err && !v.getLsbD 2, s.status.ovr && !v.getLsbD 3, s.status.haz && !v.getLsbD 4,
        s.status.cfgErr && !v.getLsbD 5⟩ })
    ∧ (hazardOffset offset.toNat = true → step s = .next { u with status := { s.status with haz := true } })
    ∧ (readOnlyOffset offset.toNat = true ∨ reservedOffset offset.toNat = true → step s = .next u)
    ∧ (offset.toNat = 0x00C → step s = .next { u with status := { s.status with ovr := true } })

/-- A host read changes nothing but the value read, and for an unspecified value the count of free values. Unless `BUSY` = 1 and the place
is written by commands, the value is the register's, or of a memory window the bytes, bits or cells that the map lays at the word
(10_state.md R103 to R180; 20_memory.md R201, R203 to R206; 45_bitmatrix.md R651; 70_reset_and_hazards.md R962, R963). Where the value
goes, and that an unspecified one is a counted draw, is the model's (assumptions 4 and 6). -/
def Obligations.HostReads : Prop :=
  ∀ (s : State) (offset : BitVec 16) (rest : List HostInput),
    s.due = false → s.host = .read .word offset :: rest → offset.toNat % 4 = 0 →
    ∃ v d, step s = .next { s with host := rest, wait := s.wait - 1, rdata := v, draws := d }
    ∧ ((s.status.busy = false ∨ unspecifiedOffset offset.toNat = false) → d = s.draws
      ∧ (offset.toNat = 0x000 → v = 0x5A510007)
      ∧ (offset.toNat = 0x004 → v.toNat = s.status.busy.toNat + 2 * s.status.done.toNat + 4 * s.status.err.toNat
          + 8 * s.status.ovr.toNat + 16 * s.status.haz.toNat + 32 * s.status.cfgErr.toNat)
      ∧ (offset.toNat = 0x008 → v = 0#16 ++ s.errSub ++ s.errCode)
      ∧ (offset.toNat = 0x00C → v = s.cmd)
      ∧ (∀ i, i < 4 → offset.toNat = 0x010 + 4 * i → v = s.arg.getD i 0)
      ∧ (∀ i, i < 8 → offset.toNat = 0x020 + 4 * i → v = s.result.getD i 0)
      ∧ (offset.toNat = 0x040 → v = s.gfPrim.setWidth 32)
      ∧ (offset.toNat = 0x044 → v = s.gfBase.setWidth 32)
      ∧ (offset.toNat = 0x048 → v = BitVec.ofNat 32 s.bvSizeA)
      ∧ (offset.toNat = 0x04C → v = BitVec.ofNat 32 s.bvSizeB)
      ∧ (offset.toNat = 0x050 → v = BitVec.ofNat 32 (s.bmW + 2 ^ 16 * s.bmH))
      ∧ (offset.toNat = 0x054 → v = BitVec.ofNat 32 (s.symN + 2 ^ 8 * s.symV))
      ∧ (offset.toNat = 0x058 → v = BitVec.ofNat 32 s.locCnt)
      ∧ (∀ r, r < 8 → offset.toNat = 0x060 + 4 * r → v = BitVec.ofNat 32 (s.plenOf r))
      ∧ (∀ k, k < 8 → offset.toNat = 0x080 + 4 * k → v = s.pen.getD k 0)
      ∧ (reservedOffset offset.toNat = true → v = 0)
      ∧ (∀ w, w < 64 → offset.toNat = 0x0400 + 4 * w →
          ∀ j, j < 4 → v.extractLsb' (8 * j) 8 = s.mem.read (0x0400 + (4 * w + j)))
      ∧ (∀ k, k < 255 → (offset.toNat = 0x0800 + 4 * k → v = (s.mem.read (0x0800 + 4 * k)).setWidth 32)
          ∧ (offset.toNat = 0x0C00 + 4 * k → v = (s.mem.read (0x0C00 + 4 * k)).setWidth 32))
      ∧ (∀ b w, w < 1024 → offset.toNat = bankBase b + 4 * w →
          ∀ j, j < 32 → v.getLsbD j = s.mem.bit (bankBase b) (32 * w + j))
      ∧ (∀ o, o < 2048 → offset.toNat = 0x4000 + 4 * o →
          ∀ j, j < 32 → v.getLsbD j = s.bmCell (32 * (o % s.bmRowSize) + j) (o / s.bmRowSize))
      ∧ (∀ r w, r < 8 → w < 128 → offset.toNat = 0x8000 + 0x200 * r + 4 * w →
          ∀ j, j < 4 → v.extractLsb' (8 * j) 8 = s.mem.read (coefAddr r (4 * w + j)))
      ∧ (∀ y w, y < 177 → w < 12 → offset.toNat = 0xA000 + 4 * (12 * y + w) →
          ∀ j b, j < 16 → b < 2 → v.getLsbD (2 * j + b) = (s.symCell (16 * w + j) y).codeBit b))

/-- An access that is not 32 bits wide or not aligned is refused (20_memory.md R202). The names of the two refusals, and which of them an
access that is both narrow and misaligned gets, are the model's (assumption 15). -/
def Obligations.UndefinedAccessesAreRefused : Prop :=
  ∀ (s : State) (width : AccessWidth) (offset : BitVec 16) (v : Word) (rest : List HostInput), s.due = false →
    (s.host = .read width offset :: rest ∨ s.host = .write width offset v :: rest) →
    (width ≠ .word → step s = .refused .narrowAccess)
    ∧ (width = .word → offset.toNat % 4 ≠ 0 → step s = .refused .misalignedAccess)

/-- The byte and bit windows while `BUSY` = 0: a word written to `CW`, `COEF` or a bank reads back, its bytes stored little-endian and bank
bit 32w + j being bit j; of a word written to `LOC` or `MAG` the low byte is stored and the rest reads 0; no other byte changes
(20_memory.md R201, R204, R205). -/
def Obligations.ByteWindows : Prop :=
  ∀ (s : State) (offset : BitVec 16) (v : Word) (rest : List HostInput),
    s.status.busy = false → s.host = .write .word offset v :: .read .word offset :: rest → offset.toNat % 4 = 0 →
    let a := offset.toNat
    let bytes : List Byte := [v.extractLsb' 0 8, v.extractLsb' 8 8, v.extractLsb' 16 8, v.extractLsb' 24 8]
    let after (m : Memory) (x : Word) : Prop :=
      ∃ t, step s = .next t ∧ step t = .next { s with mem := m, rdata := x, host := rest, wait := s.wait - 2 }
    ((0x0400 ≤ a ∧ a < 0x0500 ∨ 0x1000 ≤ a ∧ a < 0x3000 ∨ 0x8000 ≤ a ∧ a < 0x9000) →
      ∃ m, after m v ∧ StoresBytes s.mem m a bytes
        ∧ ∀ b w j, j < 32 → a = bankBase b + 4 * w → m.bit (bankBase b) (32 * w + j) = v.getLsbD j)
    ∧ ((0x0800 ≤ a ∧ a ≤ 0x0BF8 ∨ 0x0C00 ≤ a ∧ a ≤ 0x0FF8) →
      ∃ m, after m ((v.extractLsb' 0 8).setWidth 32) ∧ StoresBytes s.mem m a [v.extractLsb' 0 8])

/-- The cell windows while `BUSY` = 0. A word written to `BMWORD` sets the cells it covers and nothing else, and its other bits read 0. A
word written to a symbol row sets the cells inside the symbol, of which 11 reads back as 10, and its other cells read 00
(20_memory.md R204, 45_bitmatrix.md R651). -/
def Obligations.CellWindows : Prop :=
  ∀ (s : State) (offset : BitVec 16) (v : Word) (rest : List HostInput),
    s.Inv → s.status.busy = false → s.host = .write .word offset v :: .read .word offset :: rest → offset.toNat % 4 = 0 →
    let after (m : Memory) (x : Word) : Prop :=
      ∃ t, step s = .next t ∧ step t = .next { s with mem := m, rdata := x, host := rest, wait := s.wait - 2 }
    (∀ o, o < 2048 → offset.toNat = 0x4000 + 4 * o →
      ∃ m x, after m x
        ∧ (∀ j, j < 32 → x.getLsbD j
            = (v.getLsbD j && decide (32 * (o % s.bmRowSize) + j < s.bmW) && decide (o / s.bmRowSize < s.bmH)))
        ∧ (∀ i j, State.bmCell { s with mem := m } i j
            = if i < s.bmW ∧ j < s.bmH ∧ s.bmRowSize * j + i / 32 = o then v.getLsbD (i % 32) else s.bmCell i j)
        ∧ StoresMatrixOnly s.mem m)
    ∧ (∀ y w, y < 177 → w < 12 → offset.toNat = 0xA000 + 4 * (12 * y + w) →
      ∃ m x, after m x
        ∧ (∀ j b, j < 16 → b < 2 → x.getLsbD (2 * j + b) =
            (if 16 * w + j < s.symN ∧ y < s.symN then Cell.ofCode (v.getLsbD (2 * j)) (v.getLsbD (2 * j + 1)) else .white).codeBit b)
        ∧ StoresBits s.mem m (0xA000 + 48 * y) (32 * w) 32 fun k =>
            if 16 * w + k / 2 < s.symN ∧ y < s.symN then
              (Cell.ofCode (v.getLsbD (2 * (k / 2))) (v.getLsbD (2 * (k / 2) + 1))).codeBit (k % 2)
            else s.mem.bit (0xA000 + 48 * y) (32 * w + k))

/-! The field (41_gf.md). -/

/-- The five field commands complete on operands in their domain and write `RESULT0` only: `GF_INV` the element whose product with the
operand is 1, `GF_LOG` the index 0 to 254 at which the exponent table holds the operand (41_gf.md R410 to R414). -/
def Obligations.FieldCommandsComplete : Prop :=
  ∀ s : State, s.gfPrim ∈ Config.primitivePolys → s.operand 0 ≤ 255 →
    let answers (i : Instr) (v : Word) : Prop :=
      exec i s = .next (State.succeed { s with result := s.result.setIfInBounds 0 v })
    (s.operand 1 ≤ 255 → answers .gfAdd (BitVec.ofNat 32 (s.operand 0 ^^^ s.operand 1)))
    ∧ (s.operand 1 ≤ 255 → answers .gfMul ((gfMul s.gfPrim (s.byteOperand 0) (s.byteOperand 1)).setWidth 32))
    ∧ (s.operand 0 ≠ 0 → ∃ b : Byte, gfMul s.gfPrim (s.byteOperand 0) b = 1 ∧ answers .gfInv (b.setWidth 32))
    ∧ answers .gfExp ((gfExp s.gfPrim (s.operand 0)).setWidth 32)
    ∧ (s.operand 0 ≠ 0 → ∃ k, k ≤ 254 ∧ gfExp s.gfPrim k = s.byteOperand 0 ∧ answers .gfLog (BitVec.ofNat 32 k))

/-- When the field commands fail: an operand above 255 (2, 3), `inverse(0)` (2, 2), `log(0)` (2, 1) (41_gf.md R404, R406, R410 to R414). -/
def Obligations.FieldCommandsFail : Prop :=
  ∀ s : State,
    ((255 < s.operand 0 ∨ 255 < s.operand 1) →
      exec .gfAdd s = .next (s.failed 0x02 0x03) ∧ exec .gfMul s = .next (s.failed 0x02 0x03))
    ∧ (255 < s.operand 0 → exec .gfInv s = .next (s.failed 0x02 0x03) ∧ exec .gfExp s = .next (s.failed 0x02 0x03)
        ∧ exec .gfLog s = .next (s.failed 0x02 0x03))
    ∧ (s.operand 0 = 0 → exec .gfInv s = .next (s.failed 0x02 0x02) ∧ exec .gfLog s = .next (s.failed 0x02 0x01))

/-- The tables of every legal `GF_PRIM`: the exponents start at 1, each entry is the double of the one before, reduced; entries 0 to 254 are
distinct and entry 255 is 1; the logarithm of a nonzero element is the unique index 0 to 254 of its entry; and the values that the
spec lists for 0x11D (41_gf.md R400, R401). -/
def Obligations.ExponentAndLogarithmTables : Prop :=
  (∀ prim ∈ Config.primitivePolys,
    gfExp prim 0 = 1
    ∧ (∀ i, i < 255 → (gfExp prim (i + 1)).toNat =
        if (gfExp prim i).toNat < 128 then 2 * (gfExp prim i).toNat
        else ((2 * (gfExp prim i).toNat) ^^^ prim.toNat) % 256)
    ∧ (∀ i j, i < 255 → j < 255 → gfExp prim i = gfExp prim j → i = j)
    ∧ gfExp prim 255 = 1
    ∧ ∀ a : Byte, a ≠ 0 → gfLog prim a ≤ 254 ∧ gfExp prim (gfLog prim a) = a
        ∧ ∀ i, i ≤ 254 → gfExp prim i = a → i = gfLog prim a)
  ∧ (List.range 16).map (gfExp 0x11D) = [1, 2, 4, 8, 16, 32, 64, 128, 29, 58, 116, 232, 205, 135, 19, 38]
  ∧ ((List.range 16).map fun k => gfLog 0x11D (BitVec.ofNat 8 (k + 1)))
      = [0, 1, 25, 2, 50, 26, 198, 3, 223, 51, 238, 27, 104, 199, 75, 4]

/-- The inverse of a nonzero element is the unique element whose product with it is 1, and inverting twice gives it back; zero has no
inverse and fails (41_gf.md R404, R412). -/
def Obligations.InverseIsUnique : Prop :=
  ∀ prim ∈ Config.primitivePolys,
    gfInv prim 0 = .error .inverseZero
    ∧ ∀ a : Byte, a ≠ 0 → ∃ b, gfInv prim a = .ok b ∧ gfMul prim a b = 1 ∧ (∀ c, gfMul prim a c = 1 → c = b)
        ∧ gfInv prim b = .ok a

/-- The field laws, for every legal `GF_PRIM`: addition and multiplication, and division, which is multiplication by the inverse and fails for
zero (41_gf.md R405). -/
def Obligations.FieldLaws : Prop :=
  ∀ prim ∈ Config.primitivePolys, ∀ a b c : Byte,
    gfMul prim a b = gfMul prim b a
    ∧ gfMul prim (gfMul prim a b) c = gfMul prim a (gfMul prim b c)
    ∧ gfMul prim a (b ^^^ c) = gfMul prim a b ^^^ gfMul prim a c
    ∧ gfMul prim 1 a = a ∧ gfMul prim 0 a = 0
    ∧ (a ^^^ b) ^^^ c = a ^^^ (b ^^^ c) ∧ a ^^^ b = b ^^^ a ∧ a ^^^ 0 = a ∧ a ^^^ a = 0
    ∧ (a ≠ 0 → b ≠ 0 → gfMul prim a b ≠ 0)
    ∧ (b ≠ 0 → ∃ i, gfInv prim b = .ok i ∧ gfMul prim (gfMul prim a b) i = a) ∧ gfInv prim 0 = .error .inverseZero

/-- Multiplication through the logarithm tables is multiplication of polynomials over GF(2) modulo `GF_PRIM`, for every legal `GF_PRIM`
(41_gf.md R400, R403). -/
def Obligations.TableProductIsSchoolProduct : Prop :=
  ∀ prim ∈ Config.primitivePolys, ∀ a b : Byte, (gfMul prim a b).toNat = schoolMul prim a b 8

/-! Polynomials (42_poly.md). -/

/-- The commands that write one polynomial register complete, with `PLEN` and the coefficients of the result in the destination and
nothing else changed; a destination may be a source (42_poly.md R470 to R477, 10_state.md R130). -/
def Obligations.PolyWritesComplete : Prop :=
  ∀ (s : State) (rd ra rb : Nat), s.Inv → rd < 8 → ra < 8 → rb < 8 →
    CompletesWithPoly s (.pZero rd) rd [0]
    ∧ (s.operand 1 ≤ 255 → (s.operand 1 = 0 ∨ s.operand 0 < 512) →
        CompletesWithPoly s (.pMono rd) rd
          (if s.operand 1 = 0 then [0] else s.byteOperand 1 :: List.replicate (s.operand 0) 0))
    ∧ (s.plenOf rd ≠ 0 → CompletesWithPoly s (.pNorm rd) rd (s.polyValue rd))
    ∧ (s.plenOf ra ≠ 0 →
        CompletesWithPoly s (.pCopy rd ra) rd (s.polyValue ra)
        ∧ (s.operand 0 ≤ 255 →
            CompletesWithPoly s (.pScale rd ra) rd (pscale s.gfPrim (s.polyValue ra) (s.byteOperand 0)))
        ∧ (s.operand 1 ≤ 255 →
            (s.operand 1 = 0 ∨ isZero (s.polyValue ra) = true ∨ (s.polyValue ra).length + s.operand 0 ≤ 512) →
            CompletesWithPoly s (.pMulmono rd ra) rd
              (pmulmono s.gfPrim (s.polyValue ra) (s.operand 0) (s.byteOperand 1)))
        ∧ (s.plenOf rb ≠ 0 →
            CompletesWithPoly s (.pAdd rd ra rb) rd (padd (s.polyValue ra) (s.polyValue rb))
            ∧ ((isZero (s.polyValue ra) = true ∨ isZero (s.polyValue rb) = true
                  ∨ (s.polyValue ra).length + (s.polyValue rb).length - 1 ≤ 512) →
                CompletesWithPoly s (.pMul rd ra rb) rd (pmul s.gfPrim (s.polyValue ra) (s.polyValue rb)))))

/-- `P_DIV` completes with the quotient and the remainder of the dividend by a divisor that is not zero: the one pair `q`, `r` of
polynomials with `a = q·b + r` and `r` zero or of lower degree than `b` (42_poly.md R459, R478). -/
def Obligations.DivisionCompletes : Prop :=
  ∀ (s : State) (rd rc ra rb : Nat), s.Inv → rd < 8 → rc < 8 → ra < 8 → rb < 8 → rd ≠ rc →
    s.plenOf ra ≠ 0 → s.plenOf rb ≠ 0 → isZero (s.polyValue rb) = false →
    ∃ (q r : Poly) (m m' : Memory),
      exec (.pDiv rd rc ra rb) s = .next (State.succeed
        { s with plen := (s.plen.setIfInBounds rd q.length).setIfInBounds rc r.length, mem := m' })
      ∧ StoresBytes s.mem m (coefAddr rd 0) q ∧ StoresBytes m m' (coefAddr rc 0) r
      ∧ IsQuotientAndRemainder s.gfPrim (s.polyValue ra) (s.polyValue rb) q r
      ∧ ∀ q' r', IsQuotientAndRemainder s.gfPrim (s.polyValue ra) (s.polyValue rb) q' r' → q' = q ∧ r' = r

/-- `P_EVAL`, `P_COEF` and `P_DEG` complete and write their result registers only (42_poly.md R451 to R453, R479 to R481). -/
def Obligations.PolyReadsComplete : Prop :=
  ∀ (s : State) (ra : Nat), ra < 8 → s.plenOf ra ≠ 0 →
    let p := s.polyValue ra
    let answers (i : Instr) (v : Vector Word 8) : Prop := exec i s = .next (State.succeed { s with result := v })
    (s.operand 0 ≤ 255 →
      answers (.pEval ra) (s.result.setIfInBounds 0 ((peval s.gfPrim p (s.byteOperand 0)).setWidth 32)))
    ∧ answers (.pCoef ra) (s.result.setIfInBounds 0
        (if s.operand 0 < p.length then (p.getD (p.length - 1 - s.operand 0) 0).setWidth 32 else 0))
    ∧ answers (.pDeg ra) (((s.result.setIfInBounds 0 (BitVec.ofNat 32 (p.length - 1))).setIfInBounds 1
        ((p.headD 0).setWidth 32)).setIfInBounds 2 (if p.headD 0 = 0 then 1 else 0))

/-- When the polynomial commands fail, and that the first failing check is the one reported (42_poly.md R470 to R481; 10_state.md R130;
60_exceptions.md R930). -/
def Obligations.PolyCommandsFail : Prop :=
  ∀ (s : State) (rd rc ra rb : Nat), s.Inv → rd < 8 → rc < 8 → ra < 8 → rb < 8 →
    let fails (i : Instr) (code sub : Byte) : Prop := exec i s = .next (s.failed code sub)
    (255 < s.operand 1 → fails (.pMono rd) 0x02 0x03 ∧ fails (.pMulmono rd ra) 0x02 0x03)
    ∧ (255 < s.operand 0 → fails (.pScale rd ra) 0x02 0x03 ∧ fails (.pEval ra) 0x02 0x03)
    ∧ (s.operand 1 ≤ 255 → s.operand 1 ≠ 0 → 512 ≤ s.operand 0 → fails (.pMono rd) 0x05 0x02)
    ∧ fails (.pDiv rd rd ra rb) 0x01 0x0D
    ∧ (s.plenOf ra = 0 →
        fails (.pCopy rd ra) 0x01 0x01 ∧ fails (.pNorm ra) 0x01 0x01 ∧ fails (.pCoef ra) 0x01 0x01 ∧ fails (.pDeg ra) 0x01 0x01
        ∧ (s.operand 0 ≤ 255 → fails (.pScale rd ra) 0x01 0x01 ∧ fails (.pEval ra) 0x01 0x01)
        ∧ (s.operand 1 ≤ 255 → fails (.pMulmono rd ra) 0x01 0x01))
    ∧ ((s.plenOf ra = 0 ∨ s.plenOf rb = 0) →
        fails (.pAdd rd ra rb) 0x01 0x01 ∧ fails (.pMul rd ra rb) 0x01 0x01 ∧ (rd ≠ rc → fails (.pDiv rd rc ra rb) 0x01 0x01))
    ∧ (s.plenOf ra ≠ 0 → s.plenOf rb ≠ 0 →
        (rd ≠ rc → isZero (s.polyValue rb) = true → fails (.pDiv rd rc ra rb) 0x01 0x02)
        ∧ (isZero (s.polyValue ra) = false →
            (isZero (s.polyValue rb) = false → 512 < (s.polyValue ra).length + (s.polyValue rb).length - 1 →
              fails (.pMul rd ra rb) 0x05 0x02)
            ∧ (s.operand 1 ≤ 255 → s.operand 1 ≠ 0 → 512 < (s.polyValue ra).length + s.operand 0 →
              fails (.pMulmono rd ra) 0x05 0x02)))

/-- Addition XORs the coefficients of the same power and answers a normalised polynomial; it is commutative and associative, and
`padd(a, a) = [0]` (42_poly.md R455). -/
def Obligations.SumIsCoefficientwise : Prop :=
  ∀ a b : Poly, NormalPoly a → NormalPoly b →
    NormalPoly (padd a b) ∧ (∀ d, coef (padd a b) d = coef a d ^^^ coef b d) ∧ padd a b = padd b a ∧ padd a a = [0]
    ∧ ∀ c, NormalPoly c → padd (padd a b) c = padd a (padd b c)

/-- Multiplication answers a normalised polynomial whose coefficients are those of the convolution; the degrees of nonzero factors add;
multiplication by a scalar answers a normalised polynomial whose coefficients are the products with the scalar; and multiplication by a
monomial is multiplication by `mono` (42_poly.md R456, R457, R458). -/
def Obligations.ProductIsConvolution : Prop :=
  ∀ prim ∈ Config.primitivePolys, ∀ a b : Poly, NormalPoly a → NormalPoly b →
    NormalPoly (pmul prim a b)
    ∧ (∀ d, coef (pmul prim a b) d =
        ((List.range (d + 1)).map fun i => gfMul prim (coef a i) (coef b (d - i))).foldl (· ^^^ ·) 0)
    ∧ (isZero a = false → isZero b = false → deg (pmul prim a b) = deg a + deg b)
    ∧ (∀ c, NormalPoly (pscale prim a c) ∧ ∀ d, coef (pscale prim a c) d = gfMul prim (coef a d) c)
    ∧ pscale prim a 0 = [0] ∧ pscale prim a 1 = a
    ∧ (∀ d c, pmulmono prim a d c = pmul prim a (mono d c))

/-- Evaluation is Horner's method at every point, the fast paths included (42_poly.md R460). -/
def Obligations.EvaluationIsHorner : Prop :=
  ∀ prim ∈ Config.primitivePolys, ∀ (p : Poly) (x : Byte), NormalPoly p →
    peval prim p x = p.foldl (fun v c => gfMul prim x v ^^^ c) 0

/-! Reed-Solomon (43_rs.md). -/

/-- `gen(d)` for d ≤ 255 is a monic polynomial of degree d whose roots are exactly the d distinct elements α^base to α^(base+d-1)
(43_rs.md R500). -/
def Obligations.GeneratorHasItsRoots : Prop :=
  ∀ prim ∈ Config.primitivePolys, ∀ base d, base ≤ 1 → d ≤ 255 →
    (gen prim base d).length = d + 1 ∧ (gen prim base d).headD 0 = 1
    ∧ (∀ x, peval prim (gen prim base d) x = 0 ↔ ∃ i, i < d ∧ x = rsRoot prim base i)
    ∧ ∀ i j, i < d → j < d → rsRoot prim base i = rsRoot prim base j → i = j

/-- `RS_GEN`, `RS_ENC` and `RS_SYND` complete on operands in range: the generator in the destination; the EC codewords in `CW[n-e..n-1]`; the
syndromes in the destination, `S_i` being the value of the block at α^(i+base), with `RESULT0` telling whether all are zero;
no syndromes are asked for by operand 1 = 0, which gives `[0]` and `RESULT0` = 1 (43_rs.md R502, R503, R520 to R522). -/
def Obligations.EncoderAndSyndromesComplete : Prop :=
  ∀ (s : State) (rd : Nat), s.Inv → rd < 8 →
    (s.operand 0 ≤ 255 → CompletesWithPoly s (.rsGen rd) rd (gen s.gfPrim s.base (s.operand 0)))
    ∧ (s.operand 0 ≤ 256 → s.operand 1 ≠ 0 → s.operand 1 < s.operand 0 →
        ∃ ec m, rsEncode s.gfPrim s.base (s.cw (s.operand 0 - s.operand 1)) (s.operand 1) = .ok ec ∧ ec.length = s.operand 1
          ∧ exec .rsEnc s = .next (State.succeed { s with mem := m })
          ∧ StoresBytes s.mem m (0x0400 + (s.operand 0 - s.operand 1)) ec)
    ∧ (1 ≤ s.operand 0 → s.operand 0 ≤ 256 → s.operand 1 ≤ 255 →
        ∃ p m, NormalPoly p ∧ p.length ≤ max 1 (s.operand 1) ∧ (s.operand 1 = 0 → p = [0])
          ∧ (∀ i, i < s.operand 1 →
              coef p i = peval s.gfPrim (norm (s.cw (s.operand 0))) (gfExp s.gfPrim ((i + s.base) % 255)))
          ∧ exec (.rsSynd rd) s = .next (State.succeed { s with
              plen := s.plen.setIfInBounds rd p.length
              result := s.result.setIfInBounds 0 (if isZero p then 1 else 0)
              mem := m })
          ∧ StoresBytes s.mem m (coefAddr rd 0) p)

/-- Encoding any data by `e` ≥ 1 EC codewords makes a block of which all `e` syndromes are zero, and decoding restores that block from any
block that differs from it in at most `e`/2 places, with as many locators as there are such places, for every legal `GF_PRIM` and both
bases (43_rs.md R502, R503, R510, R511). In a block of 256 codewords the first, of power 255, has the locator of the last: an error there is
corrected at the last codeword, where R509 and R510 put it against the words of R511; that the model follows the former is its choice
(assumption 19). -/
def Obligations.EncodedBlocksHaveZeroSyndromes : Prop :=
  ∀ prim ∈ Config.primitivePolys, ∀ (base e : Nat) (data : List Byte),
    base ≤ 1 → 1 ≤ e → data ≠ [] → data.length + e ≤ 256 →
    ∃ ec, rsEncode prim base data e = .ok ec ∧ ec.length = e ∧ noErrors prim base (data ++ ec) e = true
      ∧ (∀ received : List Byte, received.length = data.length + e →
          0 < differences received (data ++ ec) → 2 * differences received (data ++ ec) ≤ e →
          (received.length = 256 → received.getD 0 0 = (data ++ ec).getD 0 0) →
          noErrors prim base received e = false
            ∧ ∃ d, rsDecode prim base received e = .ok d ∧ d.block = data ++ ec
              ∧ d.locators.length = differences received (data ++ ec))
      ∧ (data.length + e = 256 → 2 ≤ e → ∀ x : Byte, x ≠ 0 →
          ∃ d, rsDecode prim base ((data ++ ec).modify 0 (· ^^^ x)) e = .ok d ∧ d.locators = [1]
            ∧ d.block = ((data ++ ec).modify 0 (· ^^^ x)).modify 255 (· ^^^ x))

/-- `RS_KEY` with operands in range completes with the σ and ω of the key-equation solver, σ(0) being 1, unless the solver finds σ(0) = 0, which is
its only failure: subcodes 4 and 5 cannot occur. For syndromes S of degree at most `twoS` they solve the key equation: σ·S and ω agree modulo
x^twoS, σ being of degree at most and ω of degree below `twoS`/2 (43_rs.md R504, R505, R523). -/
def Obligations.KeySolverCompletes : Prop :=
  ∀ (s : State) (rd rc ra : Nat), s.Inv → rd < 8 → rc < 8 → ra < 8 → rd ≠ rc →
    s.operand 0 ≠ 0 → s.operand 0 ≤ 255 → s.plenOf ra ≠ 0 →
    (∃ (sigma omega : Poly) (m m' : Memory), rsKey s.gfPrim (mono (s.operand 0) 1) (s.polyValue ra) (s.operand 0) = .ok (sigma, omega)
      ∧ coef sigma 0 = 1 ∧ 2 * deg omega < s.operand 0
      ∧ (deg (s.polyValue ra) ≤ s.operand 0 → 2 * deg sigma ≤ s.operand 0
          ∧ ∀ d, d < s.operand 0 → coef (pmul s.gfPrim sigma (s.polyValue ra)) d = coef omega d)
      ∧ exec (.rsKey rd rc ra) s = .next (State.succeed { s with
          plen := (s.plen.setIfInBounds rd sigma.length).setIfInBounds rc omega.length
          result := s.result.setIfInBounds 0 (BitVec.ofNat 32 (deg sigma))
          mem := m' })
      ∧ StoresBytes s.mem m (coefAddr rd 0) sigma ∧ StoresBytes m m' (coefAddr rc 0) omega)
    ∨ (rsKey s.gfPrim (mono (s.operand 0) 1) (s.polyValue ra) (s.operand 0) = .error .sigmaZero
      ∧ exec (.rsKey rd rc ra) s = .next (s.failed 0x03 0x01))

/-- `RS_CHIEN` completes when σ has as many nonzero roots as its degree, with their inverses in `LOC`, in ascending order of the roots, and
fails otherwise (43_rs.md R507, R524). -/
def Obligations.ChienSearchCompletes : Prop :=
  ∀ (s : State) (ra : Nat), s.Inv → ra < 8 → s.plenOf ra ≠ 0 →
    let roots := ((List.range 255).map fun k => BitVec.ofNat 8 (k + 1)).filter fun x =>
      decide (peval s.gfPrim (s.polyValue ra) x = 0)
    (roots.length = deg (s.polyValue ra) →
      ∃ (l : List Byte) (m : Memory), l.length = roots.length
        ∧ (∀ k, k < l.length → gfMul s.gfPrim (l.getD k 0) (roots.getD k 0) = 1)
        ∧ exec (.rsChien ra) s = .next (State.succeed { s with
            locCnt := l.length
            result := s.result.setIfInBounds 0 (BitVec.ofNat 32 l.length)
            mem := m })
        ∧ StoresEvery4 s.mem m 0x0800 l)
    ∧ (roots.length ≠ deg (s.polyValue ra) → exec (.rsChien ra) s = .next (s.failed 0x03 0x02))

/-- `RS_FORNEY` completes when the locators are nonzero and distinct, with the magnitudes of Forney's formula in `MAG`; a zero or a repeated
locator fails (43_rs.md R508, R525). -/
def Obligations.ForneyCompletes : Prop :=
  ∀ (s : State) (ra : Nat), s.Inv → ra < 8 → s.plenOf ra ≠ 0 →
    ((∀ k, k < s.locCnt → s.mem.read (0x0800 + 4 * k) ≠ 0) ∧
        (∀ j k, j < k → k < s.locCnt → s.mem.read (0x0800 + 4 * j) ≠ s.mem.read (0x0800 + 4 * k)) →
      ∃ (l : List Byte) (m : Memory), l.length = s.locCnt
        ∧ (∀ k, k < s.locCnt → forneyAt s.gfPrim s.base (s.polyValue ra) s.locs k = .ok (l.getD k 0))
        ∧ exec (.rsForney ra) s = .next (State.succeed { s with
            result := s.result.setIfInBounds 0 (BitVec.ofNat 32 s.locCnt)
            mem := m })
        ∧ StoresEvery4 s.mem m 0x0C00 l)
    ∧ (((∃ k, k < s.locCnt ∧ s.mem.read (0x0800 + 4 * k) = 0) ∨
        (∃ j k, j < k ∧ k < s.locCnt ∧ s.mem.read (0x0800 + 4 * j) = s.mem.read (0x0800 + 4 * k))) →
      exec (.rsForney ra) s = .next (s.failed 0x02 0x02))

/-- `RS_CORR` completes when every locator is nonzero and its position lies in the block: the codeword at each position is XORed with all
magnitudes of that position; the first locator that is not so decides the failure (43_rs.md R509, R526). -/
def Obligations.CorrectionCompletes : Prop :=
  ∀ s : State, s.Inv → 1 ≤ s.operand 0 → s.operand 0 ≤ 256 →
    let n := s.operand 0
    let locator (k : Nat) : Byte := s.mem.read (0x0800 + 4 * k)
    let good (k : Nat) : Prop := locator k ≠ 0 ∧ gfLog s.gfPrim (locator k) < n
    ((∀ k, k < s.locCnt → good k) →
      ∃ m, exec .rsCorr s = .next (State.succeed { s with mem := m })
        ∧ StoresBytes s.mem m 0x0400 ((List.range n).map fun p =>
            ((List.range s.locCnt).filter fun k => decide (gfLog s.gfPrim (locator k) + p + 1 = n)).foldl
              (fun x k => x ^^^ s.mem.read (0x0C00 + 4 * k)) (s.mem.read (0x0400 + p))))
    ∧ ∀ k, k < s.locCnt → (∀ j, j < k → good j) →
        (locator k = 0 → exec .rsCorr s = .next (s.failed 0x02 0x01))
        ∧ (locator k ≠ 0 → n ≤ gfLog s.gfPrim (locator k) → exec .rsCorr s = .next (s.failed 0x03 0x03))

/-- `RS_DEC` with operands in range: a block without an error is left as it is; a block that decodes is corrected and the lists are written; a
block that does not decode fails with the decoder's failure; and nonzero syndromes of degree below twoS/2 complete without a correction
(43_rs.md R506, R510, R527). -/
def Obligations.DecodeCompletes : Prop :=
  ∀ s : State, s.Inv → 1 ≤ s.operand 0 → s.operand 0 ≤ 256 → s.operand 1 ≤ 255 →
    let block := s.cw (s.operand 0)
    let ends (corrections : Nat) (clean : Word) (m : Memory) : Prop :=
      exec .rsDec s = .next (State.succeed { s with
        locCnt := corrections
        result := (s.result.setIfInBounds 0 (BitVec.ofNat 32 corrections)).setIfInBounds 1 clean
        mem := m })
    (noErrors s.gfPrim s.base block (s.operand 1) = true → ends 0 1 s.mem)
    ∧ (noErrors s.gfPrim s.base block (s.operand 1) = false →
      (∀ d, rsDecode s.gfPrim s.base block (s.operand 1) = .ok d →
        ∃ m1 m2 m, ends d.locators.length 0 m ∧ d.block.length = s.operand 0 ∧ d.magnitudes.length = d.locators.length
          ∧ StoresBytes s.mem m1 0x0400 d.block ∧ StoresEvery4 m1 m2 0x0800 d.locators ∧ StoresEvery4 m2 m 0x0C00 d.magnitudes)
      ∧ (∀ f, rsDecode s.gfPrim s.base block (s.operand 1) = .error f →
          (f = .sigmaZero ∨ f = .rootCount ∨ f = .badLocation) ∧ exec .rsDec s = .next (s.failed f.code f.sub))
      ∧ (2 * deg (syndromes s.gfPrim s.base block (s.operand 1)) < s.operand 1 →
          ∃ m, ends 0 0 m ∧ ∀ a, m.read a = s.mem.read a))

/-- When the Reed-Solomon commands fail on their operands, in the order of their checks (43_rs.md R520 to R527; 60_exceptions.md R930). -/
def Obligations.ReedSolomonOperandsFail : Prop :=
  ∀ (s : State) (rd rc ra : Nat), rd < 8 → rc < 8 → ra < 8 →
    let fails (i : Instr) (code sub : Byte) : Prop := exec i s = .next (s.failed code sub)
    (255 < s.operand 0 → fails (.rsGen rd) 0x05 0x05)
    ∧ (256 < s.operand 0 → fails .rsEnc 0x05 0x03 ∧ fails (.rsSynd rd) 0x05 0x03 ∧ fails .rsCorr 0x05 0x03 ∧ fails .rsDec 0x05 0x03)
    ∧ (s.operand 0 ≤ 256 → (s.operand 1 = 0 → fails .rsEnc 0x01 0x03)
        ∧ (s.operand 1 ≠ 0 → s.operand 0 ≤ s.operand 1 → fails .rsEnc 0x01 0x04))
    ∧ (s.operand 0 = 0 → fails (.rsSynd rd) 0x01 0x10 ∧ fails .rsCorr 0x01 0x10 ∧ fails .rsDec 0x01 0x10)
    ∧ (1 ≤ s.operand 0 → s.operand 0 ≤ 256 → 255 < s.operand 1 → fails (.rsSynd rd) 0x05 0x05 ∧ fails .rsDec 0x05 0x05)
    ∧ fails (.rsKey rd rd ra) 0x01 0x0D
    ∧ (rd ≠ rc → (s.operand 0 = 0 → fails (.rsKey rd rc ra) 0x01 0x0E) ∧ (255 < s.operand 0 → fails (.rsKey rd rc ra) 0x05 0x05)
        ∧ (s.operand 0 ≠ 0 → s.operand 0 ≤ 255 → s.plenOf ra = 0 → fails (.rsKey rd rc ra) 0x01 0x01))
    ∧ (s.plenOf ra = 0 → fails (.rsChien ra) 0x01 0x01 ∧ fails (.rsForney ra) 0x01 0x01)

/-! Bit vectors (44_bitvec.md). -/

/-- The bit-vector commands complete on operands in range: what they store, the size they leave, and nothing else
(44_bitvec.md R601, R604, R610 to R616). -/
def Obligations.BankCommandsComplete : Prop :=
  ∀ (s : State) (x y : Bank), s.Inv →
    let ends (i : Instr) (m : Memory) (size : Nat) : Prop :=
      exec i s = .next (State.succeed (State.setBvSize { s with mem := m } x size))
    (∃ m, ends (.bvClear x) m 0 ∧ StoresBits s.mem m (bankBase x) 0 32768 fun _ => false)
    ∧ (s.operand 1 ≤ 32 → s.bvSize x + s.operand 1 ≤ 32768 →
        ∃ m, ends (.bvAppend x) m (s.bvSize x + s.operand 1)
          ∧ StoresBits s.mem m (bankBase x) (s.bvSize x) (s.operand 1) fun k => (s.latch.getD 0 0).getLsbD (s.operand 1 - 1 - k))
    ∧ (s.operand 0 < s.bvSize y → exec (.bvGet y) s = .next (State.succeed { s with
        result := s.result.setIfInBounds 0 (if s.mem.bit (bankBase y) (s.operand 0) then 1 else 0) }))
    ∧ (s.operand 0 < 32768 →
        ∃ m, ends (.bvSet x) m (s.bvSize x) ∧ StoresBits s.mem m (bankBase x) (s.operand 0) 1 fun _ => true)
    ∧ (s.bvSize x = s.bvSize y →
        ∃ m, ends (.bvXor x y) m (s.bvSize x)
          ∧ StoresBits s.mem m (bankBase x) 0 (s.bvSize x) fun k => s.mem.bit (bankBase x) k != s.mem.bit (bankBase y) k)
    ∧ (s.operand 0 + 8 * s.operand 2 ≤ s.bvSize y → s.operand 1 + s.operand 2 ≤ 256 →
        ∃ bytes m, exec (.bvTobytes y) s = .next (State.succeed { s with mem := m })
          ∧ StoresBytes s.mem m (0x0400 + s.operand 1) bytes ∧ bytes.length = s.operand 2
          ∧ ∀ i j, i < s.operand 2 → j < 8 →
              (bytes.getD i 0).getLsbD (7 - j) = s.mem.bit (bankBase y) (s.operand 0 + 8 * i + j))
    ∧ (s.operand 0 ≤ 32768 → ends (.bvSetsize x) s.mem (s.operand 0))

/-- Appending v with width n to a bank and reading the n new bits, the first as the highest, gives v back (44_bitvec.md R602). -/
def Obligations.AppendedBitsReadBack : Prop :=
  ∀ (s : State) (x : Bank), 0 < s.operand 1 → s.operand 1 ≤ 32 → s.operand 0 < 2 ^ s.operand 1 →
    s.bvSize x + s.operand 1 ≤ 32768 →
    ∃ t, exec (.bvAppend x) s = .next t ∧ t.bvSize x = s.bvSize x + s.operand 1
      ∧ ((List.range (s.operand 1)).map fun k =>
          (t.mem.bit (bankBase x) (s.bvSize x + k)).toNat * 2 ^ (s.operand 1 - 1 - k)).sum = s.operand 0

/-! The bit matrix (45_bitmatrix.md). -/

/-- The bit-matrix commands complete on operands in range: the cells and dimensions they leave, what they store, and nothing else
(45_bitmatrix.md R652, R660 to R664, R667, R668). -/
def Obligations.MatrixCommandsComplete : Prop :=
  ∀ (s : State) (b : Bank), s.Inv →
    let ends (i : Instr) (m : Memory) : Prop := exec i s = .next (State.succeed { s with mem := m })
    (1 ≤ s.operand 0 → 1 ≤ s.operand 1 → s.operand 0 ≤ 256 → s.operand 1 ≤ 256 →
      ∃ m, exec .bmInit s = .next (State.succeed { s with bmW := s.operand 0, bmH := s.operand 1, mem := m })
        ∧ StoresBits s.mem m 0x4000 0 65536 fun _ => false)
    ∧ (∃ m, ends .bmClear m ∧ StoresBits s.mem m 0x4000 0 65536 fun _ => false)
    ∧ (s.operand 0 < s.bmW → s.operand 1 < s.bmH →
        exec .bmGet s = .next (State.succeed { s with
          result := s.result.setIfInBounds 0 (if s.bmCell (s.operand 0) (s.operand 1) then 1 else 0) })
        ∧ ∃ m, ends .bmSet m
          ∧ (∀ x y, State.bmCell { s with mem := m } x y = (s.bmCell x y || decide (x = s.operand 0 ∧ y = s.operand 1)))
          ∧ StoresBits s.mem m 0x4000 (32 * (((s.bmW + 31) / 32) * s.operand 1) + s.operand 0) 1 fun _ => true)
    ∧ (1 ≤ s.operand 2 → 1 ≤ s.operand 3 → s.operand 0 + s.operand 2 ≤ s.bmW → s.operand 1 + s.operand 3 ≤ s.bmH →
        ∃ m, ends .bmSetregion m
          ∧ (∀ x y, State.bmCell { s with mem := m } x y = (s.bmCell x y
              || decide (s.operand 0 ≤ x ∧ x < s.operand 0 + s.operand 2 ∧ s.operand 1 ≤ y ∧ y < s.operand 1 + s.operand 3)))
          ∧ (∀ k, k < 65536 → m.bit 0x4000 k ≠ s.mem.bit 0x4000 k →
              ∃ x y, k = 32 * (((s.bmW + 31) / 32) * y) + x ∧ s.operand 0 ≤ x ∧ x < s.operand 0 + s.operand 2
                ∧ s.operand 1 ≤ y ∧ y < s.operand 1 + s.operand 3)
          ∧ StoresMatrixOnly s.mem m)
    ∧ (s.operand 0 < s.bmH →
        ∃ m, exec (.bmRow b) s = .next (State.succeed (State.setBvSize { s with mem := m } b s.bmW))
          ∧ StoresBits s.mem m (bankBase b) 0 s.bmW fun x => s.bmCell x (s.operand 0))
    ∧ (s.operand 0 < s.bmW →
        ∃ m, exec (.bmCol b) s = .next (State.succeed (State.setBvSize { s with mem := m } b s.bmH))
          ∧ StoresBits s.mem m (bankBase b) 0 s.bmH fun y => s.bmCell (s.operand 0) y)

/-- The scans of the backing words find the first and the last set cell in row-major order, or report that there is none
(45_bitmatrix.md R653, R665, R666). -/
def Obligations.ScansFindFirstAndLastCell : Prop :=
  ∀ s : State, s.Inv →
    let answers (i : Instr) (found x y : Nat) : Prop := exec i s = .next (State.succeed { s with
      result := ((s.result.setIfInBounds 0 (BitVec.ofNat 32 found)).setIfInBounds 1 (BitVec.ofNat 32 x)).setIfInBounds 2
        (BitVec.ofNat 32 y) })
    ((∀ x y, s.bmCell x y = false) → answers .bmTopleft 0 0 0 ∧ answers .bmBotright 0 0 0)
    ∧ ∀ x y, s.bmCell x y = true →
        ((∀ x' y', s.bmCell x' y' = true → y < y' ∨ y = y' ∧ x ≤ x') → answers .bmTopleft 1 x y)
        ∧ ((∀ x' y', s.bmCell x' y' = true → y' < y ∨ y' = y ∧ x' ≤ x) → answers .bmBotright 1 x y)

/-- When the bit-vector and bit-matrix commands fail (44_bitvec.md R611 to R616, 45_bitmatrix.md R660 to R668; 60_exceptions.md R930). -/
def Obligations.BankAndMatrixCommandsFail : Prop :=
  ∀ (s : State) (x y : Bank),
    let fails (i : Instr) (code sub : Byte) : Prop := exec i s = .next (s.failed code sub)
    (32 < s.operand 1 → fails (.bvAppend x) 0x01 0x05)
    ∧ (s.operand 1 ≤ 32 → 32768 < s.bvSize x + s.operand 1 → fails (.bvAppend x) 0x05 0x01)
    ∧ (s.bvSize y ≤ s.operand 0 → fails (.bvGet y) 0x01 0x06)
    ∧ (32768 ≤ s.operand 0 → fails (.bvSet x) 0x01 0x06)
    ∧ (s.bvSize x ≠ s.bvSize y → fails (.bvXor x y) 0x01 0x11)
    ∧ (s.bvSize y < s.operand 0 + 8 * s.operand 2 → fails (.bvTobytes y) 0x01 0x06)
    ∧ (s.operand 0 + 8 * s.operand 2 ≤ s.bvSize y → 256 < s.operand 1 + s.operand 2 → fails (.bvTobytes y) 0x05 0x03)
    ∧ (32768 < s.operand 0 → fails (.bvSetsize x) 0x05 0x01)
    ∧ ((s.operand 0 = 0 ∨ s.operand 1 = 0) → fails .bmInit 0x01 0x0A)
    ∧ (s.operand 0 ≠ 0 → s.operand 1 ≠ 0 → (256 < s.operand 0 ∨ 256 < s.operand 1) → fails .bmInit 0x05 0x04)
    ∧ ((s.bmW ≤ s.operand 0 ∨ s.bmH ≤ s.operand 1) → fails .bmGet 0x01 0x08 ∧ fails .bmSet 0x01 0x08)
    ∧ ((s.operand 2 = 0 ∨ s.operand 3 = 0 ∨ s.bmW < s.operand 0 + s.operand 2 ∨ s.bmH < s.operand 1 + s.operand 3) →
        fails .bmSetregion 0x01 0x09)
    ∧ (s.bmH ≤ s.operand 0 → fails (.bmRow x) 0x01 0x08)
    ∧ (s.bmW ≤ s.operand 0 → fails (.bmCol x) 0x01 0x08)

/-! The symbol (46_symbol.md). -/

/-- `SYM_INIT`, `SYM_GET`, `SYM_SET` and `SYM_EXPORT` complete on operands in range: the cells, what is stored, and nothing else
(46_symbol.md R701, R702, R740 to R742, R748). -/
def Obligations.SymbolCellCommandsComplete : Prop :=
  ∀ s : State, s.Inv →
    (1 ≤ s.operand 0 → s.operand 0 ≤ 40 →
      ∃ m, exec .symInit s = .next (State.succeed { s with symV := s.operand 0, mem := m })
        ∧ StoresCells s.mem m (4 * s.operand 0 + 17) fun _ _ => .empty)
    ∧ (s.symN ≠ 0 → s.operand 0 < s.symN → s.operand 1 < s.symN →
        (let v : Word :=
          match s.symCell (s.operand 0) (s.operand 1) with
          | .empty => 0xFFFFFFFF
          | .white => 0
          | .black => 1
        exec .symGet s = .next (State.succeed { s with result := s.result.setIfInBounds 0 v }))
        ∧ ∀ c : Cell, c.toWord = s.latch.getD 2 0 →
            ∃ m, exec .symSet s = .next (State.succeed { s with mem := m })
              ∧ (∀ x y, State.symCell { s with mem := m } x y
                  = if x = s.operand 0 ∧ y = s.operand 1 then c else s.symCell x y)
              ∧ StoresBits s.mem m (0xA000 + 48 * s.operand 1) (2 * s.operand 0) 2 c.codeBit)
    ∧ (s.symN ≠ 0 →
        ∃ m, exec .symExport s = .next (State.succeed { s with bmW := s.symN, bmH := s.symN, mem := m })
          ∧ (∀ x y, State.bmCell { s with bmW := s.symN, bmH := s.symN, mem := m } x y = decide (s.symCell x y = .black))
          ∧ StoresMatrixOnly s.mem m)

/-- `EMB_BASIC` completes when the separator cells are empty and the dark module's cell is not white: the symbol becomes the grid of
`embedBasic`, in which the finders stand at their three corners, the separators are white, the dark module is black, an alignment pattern
stands at every pair of centres whose cell was empty outside the finders, the timing cells that were empty alternate, and every other cell
keeps its value; a second `EMB_BASIC` fails. A separator cell that is not empty, or a white dark module, fails. The centres of a version
are as many as `v`/7 + 2 for v ≥ 2, the first 6, the last 4v + 10, the others from the second on at equal distances
(46_symbol.md R710 to R716, R743). -/
def Obligations.BasicPatternsComplete : Prop :=
  (∀ s : State, s.Inv → s.symV ≠ 0 →
    let n := s.symN
    (∀ x y, (x, y) ∈ separatorCells n ↔
        (y = 7 ∧ (x < 8 ∨ n - 8 ≤ x ∧ x < n)) ∨ (y = n - 8 ∧ x < 8) ∨ (x = 7 ∧ (y < 7 ∨ n - 7 ≤ y ∧ y < n)) ∨ (x = n - 8 ∧ y < 7))
    ∧ ((∀ p ∈ separatorCells n, s.symCell p.1 p.2 = .empty) → s.symCell 8 (n - 8) ≠ .white →
      ∃ m g, embedBasic s.symV n s.symGrid = .ok g
        ∧ exec .embBasic s = .next (State.succeed { s with mem := m }) ∧ StoresCells s.mem m n (fun x y => g.cell x y)
        ∧ (∀ dx dy, dx < 7 → dy < 7 →
            let f := Cell.ofBool (decide (dx = 0 ∨ dx = 6 ∨ dy = 0 ∨ dy = 6 ∨ (2 ≤ dx ∧ dx ≤ 4 ∧ 2 ≤ dy ∧ dy ≤ 4)))
            g.cell dx dy = f ∧ g.cell (n - 7 + dx) dy = f ∧ g.cell dx (n - 7 + dy) = f)
        ∧ (∀ p ∈ separatorCells n, g.cell p.1 p.2 = .white)
        ∧ g.cell 8 (n - 8) = .black
        ∧ (∀ cx cy, s.alignsAt cx cy = true → ∀ dx dy, dx < 5 → dy < 5 →
            g.cell (cx - 2 + dx) (cy - 2 + dy)
              = Cell.ofBool (decide (dx = 0 ∨ dx = 4 ∨ dy = 0 ∨ dy = 4 ∨ (dx = 2 ∧ dy = 2))))
        ∧ (∀ i, 8 ≤ i → i ≤ n - 9 →
            (s.inAlignment i 6 = false →
              g.cell i 6 = if s.symCell i 6 = .empty then Cell.ofBool (decide (i % 2 = 0)) else s.symCell i 6)
            ∧ (s.inAlignment 6 i = false →
              g.cell 6 i = if s.symCell 6 i = .empty then Cell.ofBool (decide (i % 2 = 0)) else s.symCell 6 i))
        ∧ ((∀ x y, x < n → y < n → s.symCell x y = .empty) → ∀ i, 8 ≤ i → i ≤ n - 9 →
            g.cell i 6 = Cell.ofBool (decide (i % 2 = 0)) ∧ g.cell 6 i = Cell.ofBool (decide (i % 2 = 0)))
        ∧ (∀ x y, x < n → y < n → inFinder n x y = false → (x, y) ∉ separatorCells n → (x, y) ≠ (8, n - 8) →
            s.inAlignment x y = false → ¬ (y = 6 ∧ 8 ≤ x ∧ x ≤ n - 9) → ¬ (x = 6 ∧ 8 ≤ y ∧ y ≤ n - 9) →
            g.cell x y = s.symCell x y)
        ∧ exec .embBasic { s with mem := m } = .next (State.failed { s with mem := m } 0x04 0x02))
    ∧ ((∃ p ∈ separatorCells n, s.symCell p.1 p.2 ≠ .empty) → exec .embBasic s = .next (s.failed 0x04 0x02))
    ∧ ((∀ p ∈ separatorCells n, s.symCell p.1 p.2 = .empty) → s.symCell 8 (n - 8) = .white →
        exec .embBasic s = .next (s.failed 0x04 0x03)))
  ∧ alignCentres 1 = []
  ∧ (∀ v, 2 ≤ v → v ≤ 40 →
      (alignCentres v).length = v / 7 + 2 ∧ (alignCentres v).getD 0 0 = 6 ∧ (alignCentres v).getD (v / 7 + 1) 0 = 4 * v + 10
      ∧ ∀ i, 1 ≤ i → i < v / 7 →
          (alignCentres v).getD (i + 1) 0 - (alignCentres v).getD i 0 = (alignCentres v).getD (i + 2) 0 - (alignCentres v).getD (i + 1) 0)
  ∧ ((List.range 39).map fun k => (alignCentres (k + 2)).getD 1 0)
      = [18, 22, 26, 30, 34, 22, 24, 26, 28, 30, 32, 34, 26, 26, 26, 30, 30, 30, 34, 28]
        ++ [26, 30, 28, 32, 30, 34, 26, 30, 26, 30, 34, 30, 34, 30, 24, 28, 32, 26, 30]

/-- `EMB_TYPE` and `EMB_VERSION` complete on any symbol: each bit of the word goes to its two cells, at the coordinates that the spec lists,
whatever they held, and every other cell keeps its value; below version 7 no version word is written (46_symbol.md R722 to R725, R744, R745). -/
def Obligations.TypeAndVersionInformation : Prop :=
  ∀ s : State, s.Inv → s.symV ≠ 0 →
    let n := s.symN
    ((List.range 15).map typeCell1 = [(8, 0), (8, 1), (8, 2), (8, 3), (8, 4), (8, 5), (8, 7), (8, 8), (7, 8), (5, 8), (4, 8),
        (3, 8), (2, 8), (1, 8), (0, 8)]
      ∧ (∀ i, i < 8 → typeCell2 n i = (n - 1 - i, 8)) ∧ ∀ i, 8 ≤ i → i < 15 → typeCell2 n i = (8, n - 7 + (i - 8)))
    ∧ (∀ t, s.operand 0 ≤ 3 → s.operand 1 ≤ 7 → typeBits (s.operand 0) (s.operand 1) = .ok t →
      ∃ m c, exec .embType s = .next (State.succeed { s with mem := m }) ∧ StoresCells s.mem m n c
        ∧ (∀ i, i < 15 → c (typeCell1 i).1 (typeCell1 i).2 = Cell.ofBool (t.testBit i)
            ∧ c (typeCell2 n i).1 (typeCell2 n i).2 = Cell.ofBool (t.testBit i))
        ∧ ∀ x y, x < n → y < n → (∀ i, i < 15 → (x, y) ≠ typeCell1 i ∧ (x, y) ≠ typeCell2 n i) → c x y = s.symCell x y)
    ∧ ∃ m c, exec .embVersion s = .next (State.succeed { s with mem := m }) ∧ StoresCells s.mem m n c
        ∧ (7 ≤ s.symV → ∀ i j, i < 6 → j < 3 →
            c i (n - 11 + j) = Cell.ofBool ((versionBits s.symV).testBit (3 * i + j))
            ∧ c (n - 11 + j) i = Cell.ofBool ((versionBits s.symV).testBit (3 * i + j)))
        ∧ ∀ x y, x < n → y < n →
            (s.symV < 7 ∨ ∀ i j, i < 6 → j < 3 → (x, y) ≠ (i, n - 11 + j) ∧ (x, y) ≠ (n - 11 + j, i)) → c x y = s.symCell x y

/-- `EMB_DATA` completes exactly when the bank holds no more bits than the traversal has empty cells: the k-th empty cell takes bit k, or 0 when
the bits have run out, inverted where the mask says so; every other cell keeps its value; otherwise it fails
(46_symbol.md R726, R746). That an empty cell of column 6, which the traversal leaves out, stays empty is the model's choice: it follows
the pseudocode of R726 against the words of R726 and R746 that every empty cell is filled (assumption 20). -/
def Obligations.DataPlacementCompletes : Prop :=
  ∀ (s : State) (b : Bank), s.Inv → s.symV ≠ 0 → (s.operand 0 ≤ 7 ∨ s.operand 0 = 15) →
    (s.bvSize b ≤ s.emptyPath.length →
      ∃ m c, exec (.embData b) s = .next (State.succeed { s with mem := m }) ∧ StoresCells s.mem m s.symN c
        ∧ (∀ k p, s.emptyPath[k]? = some p → c p.1 p.2 = Cell.ofBool
            ((decide (k < s.bvSize b) && s.mem.bit (bankBase b) k)
              != (decide (s.operand 0 ≠ 15) && maskBit (s.operand 0) p.1 p.2)))
        ∧ ∀ x y, x < s.symN → y < s.symN → (x, y) ∉ s.emptyPath → c x y = s.symCell x y)
    ∧ (s.emptyPath.length < s.bvSize b → exec (.embData b) s = .next (s.failed 0x04 0x04))

/-- The data traversal of a symbol of any version visits every cell outside column 6 exactly once: pair after pair of columns from the right,
column 6 left out, the first upward and each next one the other way, and in each row the right cell of the pair first. The versions that the
spec lists have the numbers of data cells that it gives (46_symbol.md R726, R727). That column 6 is left out although other words of the
spec say that every empty cell is filled is the model's choice (assumption 20). -/
def Obligations.DataPathAndCapacities : Prop :=
  (∀ v, 1 ≤ v → v ≤ 40 →
    let n := 4 * v + 17
    (dataPath n).Nodup ∧ (∀ x y, (x, y) ∈ dataPath n ↔ x < n ∧ y < n ∧ x ≠ 6)
    ∧ (dataPath n).length = n * (n - 1)
    ∧ ∀ p r i, p < (n - 1) / 2 → r < n → i < 2 →
        (dataPath n)[2 * (n * p + r) + i]? =
          some ((if 6 < n - 1 - 2 * p then n - 1 - 2 * p else n - 2 - 2 * p) - i, if p % 2 = 0 then n - 1 - r else r))
  ∧ dataCells 1 = 208 ∧ dataCells 2 = 359 ∧ dataCells 3 = 567 ∧ dataCells 4 = 807 ∧ dataCells 5 = 1079 ∧ dataCells 6 = 1383
  ∧ dataCells 7 = 1568 ∧ dataCells 14 = 4651 ∧ dataCells 21 = 9252 ∧ dataCells 40 = 29648

/-- `SYM_BUILD` completes when the bank holds no more bits than the version has data cells, whatever symbol there was: the new symbol has no empty
cell; with more bits it fails (46_symbol.md R727, R728, R747; 47_mask.md R805). -/
def Obligations.SymbolBuildCompletes : Prop :=
  ∀ (s : State) (b : Bank), s.Inv → s.operand 0 ≤ 3 → 1 ≤ s.operand 1 → s.operand 1 ≤ 40 → s.operand 2 ≤ 7 →
    (s.bvSize b ≤ dataCells (s.operand 1) →
      ∃ g m, buildSymbol (s.bvBits b) (s.operand 0) (s.operand 1) (s.operand 2) = .ok g
        ∧ exec (.symBuild b) s = .next (State.succeed { s with symV := s.operand 1, mem := m })
        ∧ StoresCells s.mem m (4 * s.operand 1 + 17) (fun x y => g.cell x y)
        ∧ ∀ x y, g.cell x y ≠ .empty)
    ∧ (dataCells (s.operand 1) < s.bvSize b → exec (.symBuild b) s = .next (s.failed 0x04 0x04))

/-! Masks, penalties and BCH words (47_mask.md). -/

/-- `MASK_BIT`, `BCH_TYPE` and `BCH_VERSION` complete on operands in range and write `RESULT0` only; the mask functions are those of
47_mask.md R800. Every type word, before the fixed mask 0x5412, has the level's code and the mask index in its bits 14 to 10 and is a multiple of
the generator 0x537 over GF(2); every version word has the version in its bits 17 to 12 and is a multiple of 0x1F25; and the words that
the spec gives as examples (46_symbol.md R720 to R722, R724; 47_mask.md R810, R813, R814). -/
def Obligations.MaskAndBchWordsComplete : Prop :=
  (∀ s : State,
    let answers (i : Instr) (v : Word) : Prop :=
      exec i s = .next (State.succeed { s with result := s.result.setIfInBounds 0 v })
    (s.operand 0 ≤ 7 → s.operand 1 ≤ 255 → s.operand 2 ≤ 255 →
      answers .maskBit (if maskBit (s.operand 0) (s.operand 1) (s.operand 2) then 1 else 0))
    ∧ (s.operand 0 ≤ 3 → s.operand 1 ≤ 7 →
        ∃ t, t < 2 ^ 15 ∧ typeBits (s.operand 0) (s.operand 1) = .ok t ∧ answers .bchType (BitVec.ofNat 32 t))
    ∧ (1 ≤ s.operand 0 → s.operand 0 ≤ 40 →
        versionBits (s.operand 0) < 2 ^ 18 ∧ answers .bchVersion (BitVec.ofNat 32 (versionBits (s.operand 0)))))
  ∧ (∀ x y,
      maskBit 0 x y = decide ((y + x) &&& 1 = 0) ∧ maskBit 1 x y = decide (y &&& 1 = 0) ∧ maskBit 2 x y = decide (x % 3 = 0)
      ∧ maskBit 3 x y = decide ((y + x) % 3 = 0) ∧ maskBit 4 x y = decide ((y / 2 + x / 3) &&& 1 = 0)
      ∧ maskBit 5 x y = decide (((y * x) &&& 1) + (y * x) % 3 = 0)
      ∧ maskBit 6 x y = decide ((((y * x) &&& 1) + (y * x) % 3) &&& 1 = 0)
      ∧ maskBit 7 x y = decide (((y * x) % 3 + ((y + x) &&& 1)) &&& 1 = 0))
  ∧ (∀ ecl mask, ecl ≤ 3 → mask ≤ 7 →
      ∃ t q, typeBits ecl mask = .ok (t ^^^ 0x5412) ∧ t / 2 ^ 10 = 8 * [0b01, 0b00, 0b11, 0b10].getD ecl 0 + mask
        ∧ q < 2 ^ 5 ∧ t = gf2Product 0x537 q 5)
  ∧ (∀ v, 1 ≤ v → v ≤ 40 →
      versionBits v / 2 ^ 12 = v ∧ ∃ q, q < 2 ^ 6 ∧ versionBits v = gf2Product 0x1F25 q 6)
  ∧ typeBits 1 0 = .ok 0x5412 ∧ typeBits 0 0 = .ok 0x77C4 ∧ versionBits 7 = 0x07C94 ∧ versionBits 40 = 0x28C69

/-- `MASK_PENALTY` completes on any symbol with the four components and their sum, none of which overflows a result register. Rule 1 scores
every row and every column: a maximal run of k equal cells adds k - 2 when k ≥ 5. Rule 2 counts the uniform 2 × 2 blocks, rule 3 the
finder-like patterns in rows and columns, rule 4 the deviation of the dark cells from one half. A uniform symbol of version 1, all-empty ones
included, scores 798 + 1200 + 0 + 100, a checkerboard 0 (47_mask.md R801 to R806, R811). -/
def Obligations.PenaltyCompletes : Prop :=
  linePenalty [] = 0
  ∧ (∀ (k : Nat) (c : Cell) (line : List Cell), 0 < k → line.head? ≠ some c →
      linePenalty (List.replicate k c ++ line) = (if 5 ≤ k then k - 2 else 0) + linePenalty line)
  ∧ ∀ s : State, s.Inv → s.symV ≠ 0 →
    let n := s.symN
    let g := s.symGrid
    let total := rule1 n g + rule2 n g + rule3 n g + rule4 n g
    let dark := cellCount n fun x y => decide (s.symCell x y = .black)
    total < 2 ^ 32 ∧ (∀ x y, x < n → y < n → g.cell x y = s.symCell x y)
    ∧ exec .maskPenalty s = .next (State.succeed { s with
        result := ((((s.result.setIfInBounds 1 (BitVec.ofNat 32 (rule1 n g))).setIfInBounds 2
          (BitVec.ofNat 32 (rule2 n g))).setIfInBounds 3 (BitVec.ofNat 32 (rule3 n g))).setIfInBounds 4
          (BitVec.ofNat 32 (rule4 n g))).setIfInBounds 0 (BitVec.ofNat 32 total) })
    ∧ rule1 n g = ((List.range n).map fun y => linePenalty ((List.range n).map fun x => s.symCell x y)).sum
        + ((List.range n).map fun x => linePenalty ((List.range n).map fun y => s.symCell x y)).sum
    ∧ rule2 n g = 3 * cellCount (n - 1) (fun x y => decide (s.symCell x y = s.symCell (x + 1) y
        ∧ s.symCell x y = s.symCell x (y + 1) ∧ s.symCell x y = s.symCell (x + 1) (y + 1)))
    ∧ rule3 n g = 40 * (cellCount n (fun x y => decide (FinderLike n (fun i => s.symCell i y) x))
        + cellCount n fun x y => decide (FinderLike n (fun i => s.symCell x i) y))
    ∧ rule4 n g = ((if n * n ≤ 2 * dark then 2 * dark - n * n else n * n - 2 * dark) * 10 / (n * n)) * 10
    ∧ (s.symV = 1 → ∀ c, (∀ x y, x < 21 → y < 21 → s.symCell x y = c) →
        rule1 n g = 798 ∧ rule2 n g = 1200 ∧ rule3 n g = 0 ∧ rule4 n g = 100)
    ∧ (s.symV = 1 → (∀ x y, x < 21 → y < 21 → s.symCell x y = Cell.ofBool (decide ((x + y) % 2 = 1))) → total = 0)

/-- `MASK_SELECT` completes when the bank holds no more bits than the version has data cells: it builds the symbol with the first of the masks whose
penalty is least, and leaves the eight totals in `PEN`, the index and its penalty in `RESULT0` and `RESULT1`; with more bits it fails
(47_mask.md R807, R812). -/
def Obligations.SelectionKeepsFirstMinimum : Prop :=
  ∀ (s : State) (b : Bank), s.Inv → s.operand 0 ≤ 3 → 1 ≤ s.operand 1 → s.operand 1 ≤ 40 →
    let n := 4 * s.operand 1 + 17
    (s.bvSize b ≤ dataCells (s.operand 1) →
      ∃ (p : Nat → Nat) (best : Nat) (g : Grid) (m : Memory), best ≤ 7
        ∧ (∀ k, k ≤ 7 → ∃ h, buildSymbol (s.bvBits b) (s.operand 0) (s.operand 1) k = .ok h ∧ p k = penalty n h)
        ∧ (∀ k, k ≤ 7 → p best ≤ p k) ∧ (∀ k, k < best → p best < p k)
        ∧ buildSymbol (s.bvBits b) (s.operand 0) (s.operand 1) best = .ok g
        ∧ exec (.maskSelect b) s = .next (State.succeed { s with
            symV := s.operand 1
            pen := Vector.ofFn fun k => BitVec.ofNat 32 (p k.val)
            result := (s.result.setIfInBounds 0 (BitVec.ofNat 32 best)).setIfInBounds 1 (BitVec.ofNat 32 (p best))
            mem := m })
        ∧ StoresCells s.mem m n (fun x y => g.cell x y))
    ∧ (dataCells (s.operand 1) < s.bvSize b → exec (.maskSelect b) s = .next (s.failed 0x04 0x04))

/-- When the symbol, mask and BCH commands fail on their operands, in the order of their checks (46_symbol.md R740 to R748; 47_mask.md R810 to
R814; 60_exceptions.md R930). -/
def Obligations.SymbolAndMaskCommandsFail : Prop :=
  ∀ (s : State) (b : Bank),
    let fails (i : Instr) (code sub : Byte) : Prop := exec i s = .next (s.failed code sub)
    (s.symV = 0 →
      fails .symGet 0x01 0x0F ∧ fails .symSet 0x01 0x0F ∧ fails .embBasic 0x01 0x0F ∧ fails .embType 0x01 0x0F
      ∧ fails .embVersion 0x01 0x0F ∧ fails (.embData b) 0x01 0x0F ∧ fails .symExport 0x01 0x0F ∧ fails .maskPenalty 0x01 0x0F)
    ∧ (s.symV ≠ 0 → (s.symN ≤ s.operand 0 ∨ s.symN ≤ s.operand 1) → fails .symGet 0x01 0x08 ∧ fails .symSet 0x01 0x08)
    ∧ (s.operand 0 < s.symN → s.operand 1 < s.symN → s.operand 2 ≠ 0 → s.operand 2 ≠ 1 → s.operand 2 ≠ 0xFFFFFFFF →
        fails .symSet 0x01 0x12)
    ∧ (s.symV ≠ 0 → 3 < s.operand 0 → fails .embType 0x01 0x0C)
    ∧ (s.symV ≠ 0 → s.operand 0 ≤ 3 → 7 < s.operand 1 → fails .embType 0x04 0x01)
    ∧ (s.symV ≠ 0 → 7 < s.operand 0 → s.operand 0 ≠ 15 → fails (.embData b) 0x01 0x07)
    ∧ ((s.operand 0 = 0 ∨ 40 < s.operand 0) → fails .symInit 0x01 0x0B ∧ fails .bchVersion 0x01 0x0B)
    ∧ ((s.operand 1 = 0 ∨ 40 < s.operand 1) → fails (.symBuild b) 0x01 0x0B ∧ fails (.maskSelect b) 0x01 0x0B)
    ∧ (1 ≤ s.operand 1 → s.operand 1 ≤ 40 → 3 < s.operand 0 → fails (.symBuild b) 0x01 0x0C ∧ fails (.maskSelect b) 0x01 0x0C)
    ∧ (1 ≤ s.operand 1 → s.operand 1 ≤ 40 → s.operand 0 ≤ 3 → 7 < s.operand 2 → fails (.symBuild b) 0x04 0x01)
    ∧ (7 < s.operand 0 → fails .maskBit 0x01 0x07)
    ∧ (s.operand 0 ≤ 7 → (255 < s.operand 1 ∨ 255 < s.operand 2) → fails .maskBit 0x01 0x08)
    ∧ (3 < s.operand 0 → fails .bchType 0x01 0x0C)
    ∧ (s.operand 0 ≤ 3 → 7 < s.operand 1 → fails .bchType 0x04 0x01)
end

