-- ==== Sys2Proof/Laws/Memory.lean ====
section
/-! SUPPORT. The memories: what a byte and a bit read as after each write, and that every write keeps the canonical form. -/

namespace Sys2Proof.Machine

/-! Reading through the parts of a memory. -/

@[simp] theorem Memory.read_nil (a : Nat) : Memory.read [] a = Config.unwritten a := rfl

/-- What precedes an entry of another offset does not matter to a read. -/
theorem Memory.read_append_right {m n : Memory} {a : Nat} (h : ∀ c ∈ m, c.1 ≠ a) :
    Memory.read (m ++ n) a = n.read a := by
  induction m with
  | nil => rfl
  | cons c m ih =>
    simp only [List.cons_append, Memory.read, if_neg (h c List.mem_cons_self)]
    exact ih fun d hd => h d (List.mem_cons_of_mem _ hd)

/-- An offset that a memory does not list reads as its unspecified byte. -/
theorem Memory.read_absent {m : Memory} {a : Nat} (h : ∀ c ∈ m, c.1 ≠ a) : m.read a = Config.unwritten a := by
  simpa using Memory.read_append_right (n := []) h

theorem Memory.read_append_left {m n : Memory} {a : Nat} (h : ∀ c ∈ n, c.1 ≠ a) :
    Memory.read (m ++ n) a = m.read a := by
  induction m with
  | nil => exact Memory.read_absent h
  | cons c m ih => simp only [List.cons_append, Memory.read, ih]

theorem Memory.read_filter {m : Memory} {p : Nat → Bool} {a : Nat} (h : p a = true) :
    Memory.read (m.filter fun c => p c.1) a = m.read a := by
  induction m with
  | nil => rfl
  | cons c m ih =>
    by_cases hc : p c.1 = true
    · simp [hc, Memory.read, ih]
    · have : c.1 ≠ a := fun e => hc (e ▸ h)
      simp [hc, Memory.read, ih, this]

/-- A scan of a window reads inside the window what the whole memory reads. -/
theorem Memory.read_window (m : Memory) {lo hi a : Nat} (h : lo ≤ a ∧ a < hi) : (m.window lo hi).read a = m.read a :=
  Memory.read_filter (p := fun k => decide (lo ≤ k) && decide (k < hi)) (by simp [h])

/-- The written bytes' entries lie in their range, in rising order. -/
theorem Memory.entries_pairwise (a : Nat) (vs : List Byte) :
    (Memory.entries a vs).Pairwise (fun c d => c.1 < d.1) ∧ ∀ c ∈ Memory.entries a vs, a ≤ c.1 ∧ c.1 < a + vs.length := by
  induction vs generalizing a with
  | nil => exact ⟨.nil, fun _ h => nomatch h⟩
  | cons v vs ih =>
    obtain ⟨hp, hr⟩ := ih (a + 1)
    refine ⟨.cons (fun c hc => (hr c hc).1) hp, fun c hc => ?_⟩
    rcases List.mem_cons.mp hc with rfl | hc
    · simp
    · have := hr c hc
      simp only [List.length_cons]
      omega

theorem Memory.read_entries {a b : Nat} {vs : List Byte} (h : a ≤ b ∧ b < a + vs.length) :
    (Memory.entries a vs).read b = vs.getD (b - a) 0 := by
  induction vs generalizing a with
  | nil => simp at h; omega
  | cons v vs ih =>
    rw [Memory.entries, Memory.read]
    by_cases hab : a = b
    · simp [hab]
    · rw [List.length_cons] at h
      rw [if_neg hab, ih (by omega), show b - a = (b - (a + 1)) + 1 by omega, List.getD_cons_succ]

/-- A byte after a write of bytes: the written one in their range, the old one outside it. -/
theorem Memory.read_write (m : Memory) (a : Nat) (vs : List Byte) (b : Nat) :
    (m.write a vs).read b = if a ≤ b ∧ b < a + vs.length then vs.getD (b - a) 0 else m.read b := by
  have hlo : ∀ c ∈ m.filter (fun c => decide (c.1 < a)), c.1 < a := fun c hc => by simpa using (List.mem_filter.mp hc).2
  have hmid := (Memory.entries_pairwise a vs).2
  have hhi : ∀ c ∈ m.filter (fun c => decide (a + vs.length ≤ c.1)), a + vs.length ≤ c.1 := fun c hc => by
    simpa using (List.mem_filter.mp hc).2
  rw [Memory.write]
  rcases Nat.lt_or_ge b a with h | h
  · rw [if_neg (by omega), Memory.read_append_left fun c hc => by have := hhi c hc; omega,
      Memory.read_append_left fun c hc => by have := hmid c hc; omega,
      Memory.read_filter (p := fun k => decide (k < a)) (by simpa using h)]
  rw [List.append_assoc, Memory.read_append_right fun c hc => by have := hlo c hc; omega]
  rcases Nat.lt_or_ge b (a + vs.length) with h' | h'
  · rw [if_pos ⟨h, h'⟩, Memory.read_append_left fun c hc => by have := hhi c hc; omega, Memory.read_entries ⟨h, h'⟩]
  · rw [if_neg (by omega), Memory.read_append_right fun c hc => by have := hmid c hc; omega,
      Memory.read_filter (p := fun k => decide (a + vs.length ≤ k)) (by simpa using h')]

/-- A byte after a fill. -/
theorem Memory.read_fill (m : Memory) (a n : Nat) (v : Byte) (b : Nat) :
    (m.fill a n v).read b = if a ≤ b ∧ b < a + n then v else m.read b := by
  rw [Memory.fill, Memory.read_write, List.length_replicate]
  split
  · rename_i h
    have : b - a < n := by omega
    simp [this]
  · rfl

/-- A byte after the byte-by-byte write of every fourth place. -/
theorem Memory.read_writeEvery4 (m : Memory) (a : Nat) (vs : List Byte) (b : Nat) :
    (m.writeEvery4 a vs).read b =
      if a ≤ b ∧ (b - a) % 4 = 0 ∧ (b - a) / 4 < vs.length then vs.getD ((b - a) / 4) 0 else m.read b := by
  induction vs generalizing m a with
  | nil => simp [Memory.writeEvery4]
  | cons v vs ih =>
    rw [Memory.writeEvery4, ih, Memory.read_write]
    by_cases h : a = b
    · subst h
      simp
    · by_cases h4 : a + 4 ≤ b
      · have e1 : (b - (a + 4)) % 4 = (b - a) % 4 := by omega
        have e2 : (b - a) / 4 = (b - (a + 4)) / 4 + 1 := by omega
        have e3 : ¬ (a ≤ b ∧ b < a + [v].length) := by simp; omega
        have e4 : a ≤ b := by omega
        rw [e1, e2, if_neg e3]
        simp [h4, e4]
      · have e1 : ¬ (a + 4 ≤ b ∧ (b - (a + 4)) % 4 = 0 ∧ (b - (a + 4)) / 4 < vs.length) := by omega
        have e2 : ¬ (a ≤ b ∧ (b - a) % 4 = 0 ∧ (b - a) / 4 < (v :: vs).length) := by omega
        have e3 : ¬ (a ≤ b ∧ b < a + [v].length) := by simp; omega
        rw [if_neg e1, if_neg e2, if_neg e3]

@[simp] theorem Memory.readBytes_length (m : Memory) (a n : Nat) : (m.readBytes a n).length = n := by
  simp [Memory.readBytes]

theorem Memory.readBytes_getD (m : Memory) (a n i : Nat) (h : i < n) : (m.readBytes a n).getD i 0 = m.read (a + i) := by
  simp [Memory.readBytes, h]

/-- Bytes just written read back as the list that was written. -/
theorem Memory.readBytes_write (m : Memory) (a : Nat) (vs : List Byte) :
    (m.write a vs).readBytes a vs.length = vs := by
  apply List.ext_getElem
  · simp
  · intro i h1 h2
    simp only [Memory.readBytes, List.getElem_map, List.getElem_range, Memory.read_write]
    rw [if_pos ⟨by omega, by omega⟩]
    simp [h2]

/-! Bits. -/

/-- The eight bits of a byte, and nothing else. -/
theorem byteOfBits_aux : ∀ b0 b1 b2 b3 b4 b5 b6 b7 : Bool,
    let v : Byte := BitVec.ofNat 8 (b0.toNat + b1.toNat * 2 + b2.toNat * 4 + b3.toNat * 8 + b4.toNat * 16
      + b5.toNat * 32 + b6.toNat * 64 + b7.toNat * 128)
    v.getLsbD 0 = b0 ∧ v.getLsbD 1 = b1 ∧ v.getLsbD 2 = b2 ∧ v.getLsbD 3 = b3 ∧ v.getLsbD 4 = b4 ∧ v.getLsbD 5 = b5
      ∧ v.getLsbD 6 = b6 ∧ v.getLsbD 7 = b7 := by
  decide +kernel

theorem byteOfBits_getLsbD (f : Nat → Bool) (j : Nat) (h : j < 8) : (byteOfBits f).getLsbD j = f j := by
  obtain ⟨h0, h1, h2, h3, h4, h5, h6, h7⟩ := byteOfBits_aux (f 0) (f 1) (f 2) (f 3) (f 4) (f 5) (f 6) (f 7)
  match j, h with
  | 0, _ => exact h0
  | 1, _ => exact h1
  | 2, _ => exact h2
  | 3, _ => exact h3
  | 4, _ => exact h4
  | 5, _ => exact h5
  | 6, _ => exact h6
  | 7, _ => exact h7

/-- Two bytes are equal when their eight bits are. -/
theorem byte_ext {x y : Byte} (h : ∀ j, j < 8 → x.getLsbD j = y.getLsbD j) : x = y :=
  BitVec.eq_of_getLsbD_eq fun j hj => h j hj

theorem wordOfBits_getLsbD (f : Nat → Bool) (j : Nat) (h : j < 32) : (wordOfBits f).getLsbD j = f j := by
  unfold wordOfBits
  simp only [BitVec.getLsbD_append]
  split
  · exact byteOfBits_getLsbD f j ‹_›
  · split
    · rw [byteOfBits_getLsbD _ _ ‹_›, Nat.add_sub_cancel' (by omega)]
    · split
      · rw [byteOfBits_getLsbD _ _ ‹_›]
        congr 1
        omega
      · rw [byteOfBits_getLsbD _ _ (by omega)]
        congr 1
        omega

/-- A bit of any byte after a write of bits: the written one in their range, the old one outside it. -/
theorem Memory.read_writeBits (m : Memory) (base i n : Nat) (f : Nat → Bool) (a j : Nat) (hj : j < 8) :
    ((m.writeBits base i n f).read a).getLsbD j =
      if 8 * base + i ≤ 8 * a + j ∧ 8 * a + j < 8 * base + i + n then f (8 * a + j - (8 * base + i))
      else (m.read a).getLsbD j := by
  rw [Memory.writeBits, Memory.read_write]
  simp only [List.length_map, List.length_range]
  by_cases h : base + i / 8 ≤ a ∧ a < base + i / 8 + (i % 8 + n + 7) / 8
  · rw [if_pos h]
    have hk : a - (base + i / 8) < (i % 8 + n + 7) / 8 := by omega
    rw [List.getD_eq_getElem?_getD, List.getElem?_map, List.getElem?_range hk]
    simp only [Option.map_some, Option.getD_some]
    rw [byteOfBits_getLsbD _ _ hj]
    have e : 8 * (i / 8 + (a - (base + i / 8))) + j = 8 * (a - base) + j := by omega
    rw [e]
    by_cases hin : 8 * base + i ≤ 8 * a + j ∧ 8 * a + j < 8 * base + i + n
    · rw [if_pos hin, if_pos (by omega)]
      congr 1; omega
    · rw [if_neg hin, if_neg (by omega), Memory.bit]
      have e1 : base + (8 * (a - base) + j) / 8 = a := by omega
      have e2 : (8 * (a - base) + j) % 8 = j := by omega
      rw [e1, e2]
  · rw [if_neg h, if_neg (by omega)]

/-- A bit of the same store after a write of bits. -/
theorem Memory.bit_writeBits (m : Memory) (base i n : Nat) (f : Nat → Bool) (k : Nat) :
    (m.writeBits base i n f).bit base k = if i ≤ k ∧ k < i + n then f (k - i) else m.bit base k := by
  rw [Memory.bit, Memory.read_writeBits _ _ _ _ _ _ _ (Nat.mod_lt _ (by decide))]
  by_cases h : i ≤ k ∧ k < i + n
  · rw [if_pos h, if_pos (by omega)]
    congr 1; omega
  · rw [if_neg h, if_neg (by omega), Memory.bit]

/-- The bytes outside the written bits' bytes keep their values. -/
theorem Memory.read_writeBits_outside (m : Memory) (base i n : Nat) (f : Nat → Bool) (a : Nat)
    (h : 8 * a + 8 ≤ 8 * base + i ∨ 8 * base + i + n ≤ 8 * a) : (m.writeBits base i n f).read a = m.read a :=
  byte_ext fun j hj => by rw [Memory.read_writeBits _ _ _ _ _ _ _ hj, if_neg (by omega)]

/-! Words. -/

theorem bytesOfWord_length (v : Word) : (bytesOfWord v).length = 4 := rfl

/-- The word just written reads back (20_memory.md R201). -/
theorem Memory.word_write (m : Memory) (a : Nat) (v : Word) : (m.write a (bytesOfWord v)).word a = v := by
  simp only [Memory.word, Memory.read_write, bytesOfWord_length]
  simp only [show a ≤ a + 3 ∧ a + 3 < a + 4 from by omega, show a ≤ a + 2 ∧ a + 2 < a + 4 from by omega,
    show a ≤ a + 1 ∧ a + 1 < a + 4 from by omega, show a ≤ a ∧ a < a + 4 from by omega, and_self, if_true,
    Nat.add_sub_cancel_left, Nat.sub_self, bytesOfWord, List.getD_cons_zero, List.getD_cons_succ]
  apply BitVec.eq_of_getLsbD_eq
  intro j hj
  simp only [BitVec.getLsbD_append, BitVec.getLsbD_extractLsb']
  by_cases h1 : j < 8
  · simp [h1]
  · by_cases h2 : j < 16
    · have e : j - 8 < 8 := by omega
      have e' : 8 + (j - 8) = j := by omega
      simp [h1, e, e']
    · by_cases h3 : j < 24
      · have e1 : ¬ j - 8 < 8 := by omega
        have e2 : j - 8 - 8 < 8 := by omega
        have e' : 16 + (j - 8 - 8) = j := by omega
        simp [h1, e1, e2, e']
      · have e1 : ¬ j - 8 < 8 := by omega
        have e2 : ¬ j - 8 - 8 < 8 := by omega
        have e3 : j - 8 - 8 - 8 < 8 := by omega
        have e' : 24 + (j - 8 - 8 - 8) = j := by omega
        simp [h1, e1, e2, e3, e']

/-! The canonical form. -/

/-- The canonical form, as a statement about all entries. -/
theorem Memory.wf_iff (m : Memory) : m.wf = true ↔ m.Pairwise fun c d => c.1 < d.1 := by
  induction m with
  | nil => exact ⟨fun _ => .nil, fun _ => rfl⟩
  | cons c m ih =>
    cases m with
    | nil => exact ⟨fun _ => List.pairwise_singleton _ _, fun _ => rfl⟩
    | cons d m =>
      rw [Memory.wf, Bool.and_eq_true, decide_eq_true_eq, ih]
      refine ⟨fun ⟨hlt, hp⟩ => .cons (fun e he => ?_) hp, fun hp => ?_⟩
      · rcases List.mem_cons.mp he with rfl | he
        · exact hlt
        · exact Nat.lt_trans hlt ((List.pairwise_cons.mp hp).1 e he)
      · exact ⟨(List.pairwise_cons.mp hp).1 d List.mem_cons_self, (List.pairwise_cons.mp hp).2⟩

/-- A write keeps the canonical form: what lies below, the written bytes, and what lies above. -/
theorem Memory.write_wf {m : Memory} (h : m.wf = true) (a : Nat) (vs : List Byte) : (m.write a vs).wf = true := by
  have hp := (Memory.wf_iff m).mp h
  obtain ⟨he, hmid⟩ := Memory.entries_pairwise a vs
  have hlo : ∀ c ∈ m.filter (fun c => decide (c.1 < a)), c.1 < a := fun c hc => by simpa using (List.mem_filter.mp hc).2
  have hhi : ∀ c ∈ m.filter (fun c => decide (a + vs.length ≤ c.1)), a + vs.length ≤ c.1 := fun c hc => by
    simpa using (List.mem_filter.mp hc).2
  refine (Memory.wf_iff _).mpr (List.pairwise_append.mpr ⟨List.pairwise_append.mpr ⟨hp.filter _, he, fun c hc d hd => ?_⟩,
    hp.filter _, fun c hc d hd => ?_⟩)
  · have := hlo c hc
    have := hmid d hd
    omega
  · have := hhi d hd
    rcases List.mem_append.mp hc with hc | hc
    · have := hlo c hc
      omega
    · have := hmid c hc
      omega

theorem Memory.fill_wf {m : Memory} (h : m.wf = true) (a n : Nat) (v : Byte) : (m.fill a n v).wf = true :=
  Memory.write_wf h a _

theorem Memory.writeEvery4_wf {m : Memory} (h : m.wf = true) (a : Nat) (vs : List Byte) :
    (m.writeEvery4 a vs).wf = true := by
  induction vs generalizing m a with
  | nil => exact h
  | cons v vs ih => exact ih (Memory.write_wf h a [v]) (a + 4)

theorem Memory.writeBits_wf {m : Memory} (h : m.wf = true) (base i n : Nat) (f : Nat → Bool) :
    (m.writeBits base i n f).wf = true := Memory.write_wf h _ _

theorem Memory.storeGrid_wf {m : Memory} (h : m.wf = true) (n : Nat) (g : Grid) : (m.storeGrid n g).wf = true := by
  unfold Memory.storeGrid
  generalize List.range n = l
  induction l generalizing m with
  | nil => exact h
  | cons y l ih => exact ih (Memory.writeBits_wf h _ _ _ _)

end Sys2Proof.Machine
end

