-- ==== Sys2Proof/Laws/State.lean ====
section
/-! SUPPORT. One lemma for each field of the state under each update, and the completion of a command said once. -/

namespace Sys2Proof.Machine

variable (s : State)

/-! Fields after `State.setResult`: a result register. -/

@[simp] theorem State.setResult_status (i : Nat) (v : Word) : (s.setResult i v).status = s.status := rfl
@[simp] theorem State.setResult_errCode (i : Nat) (v : Word) : (s.setResult i v).errCode = s.errCode := rfl
@[simp] theorem State.setResult_errSub (i : Nat) (v : Word) : (s.setResult i v).errSub = s.errSub := rfl
@[simp] theorem State.setResult_cmd (i : Nat) (v : Word) : (s.setResult i v).cmd = s.cmd := rfl
@[simp] theorem State.setResult_arg (i : Nat) (v : Word) : (s.setResult i v).arg = s.arg := rfl
@[simp] theorem State.setResult_latch (i : Nat) (v : Word) : (s.setResult i v).latch = s.latch := rfl
@[simp] theorem State.setResult_result (i : Nat) (v : Word) : (s.setResult i v).result = s.result.setIfInBounds i v := rfl
@[simp] theorem State.setResult_gfPrim (i : Nat) (v : Word) : (s.setResult i v).gfPrim = s.gfPrim := rfl
@[simp] theorem State.setResult_gfBase (i : Nat) (v : Word) : (s.setResult i v).gfBase = s.gfBase := rfl
@[simp] theorem State.setResult_plen (i : Nat) (v : Word) : (s.setResult i v).plen = s.plen := rfl
@[simp] theorem State.setResult_bvSizeA (i : Nat) (v : Word) : (s.setResult i v).bvSizeA = s.bvSizeA := rfl
@[simp] theorem State.setResult_bvSizeB (i : Nat) (v : Word) : (s.setResult i v).bvSizeB = s.bvSizeB := rfl
@[simp] theorem State.setResult_bmW (i : Nat) (v : Word) : (s.setResult i v).bmW = s.bmW := rfl
@[simp] theorem State.setResult_bmH (i : Nat) (v : Word) : (s.setResult i v).bmH = s.bmH := rfl
@[simp] theorem State.setResult_symV (i : Nat) (v : Word) : (s.setResult i v).symV = s.symV := rfl
@[simp] theorem State.setResult_locCnt (i : Nat) (v : Word) : (s.setResult i v).locCnt = s.locCnt := rfl
@[simp] theorem State.setResult_pen (i : Nat) (v : Word) : (s.setResult i v).pen = s.pen := rfl
@[simp] theorem State.setResult_mem (i : Nat) (v : Word) : (s.setResult i v).mem = s.mem := rfl
@[simp] theorem State.setResult_host (i : Nat) (v : Word) : (s.setResult i v).host = s.host := rfl
@[simp] theorem State.setResult_rdata (i : Nat) (v : Word) : (s.setResult i v).rdata = s.rdata := rfl
@[simp] theorem State.setResult_wait (i : Nat) (v : Word) : (s.setResult i v).wait = s.wait := rfl
@[simp] theorem State.setResult_draws (i : Nat) (v : Word) : (s.setResult i v).draws = s.draws := rfl

/-! Fields after `State.setPlen`: a polynomial length. -/

@[simp] theorem State.setPlen_status (r n : Nat) : (s.setPlen r n).status = s.status := rfl
@[simp] theorem State.setPlen_errCode (r n : Nat) : (s.setPlen r n).errCode = s.errCode := rfl
@[simp] theorem State.setPlen_errSub (r n : Nat) : (s.setPlen r n).errSub = s.errSub := rfl
@[simp] theorem State.setPlen_cmd (r n : Nat) : (s.setPlen r n).cmd = s.cmd := rfl
@[simp] theorem State.setPlen_arg (r n : Nat) : (s.setPlen r n).arg = s.arg := rfl
@[simp] theorem State.setPlen_latch (r n : Nat) : (s.setPlen r n).latch = s.latch := rfl
@[simp] theorem State.setPlen_result (r n : Nat) : (s.setPlen r n).result = s.result := rfl
@[simp] theorem State.setPlen_gfPrim (r n : Nat) : (s.setPlen r n).gfPrim = s.gfPrim := rfl
@[simp] theorem State.setPlen_gfBase (r n : Nat) : (s.setPlen r n).gfBase = s.gfBase := rfl
@[simp] theorem State.setPlen_plen (r n : Nat) : (s.setPlen r n).plen = s.plen.setIfInBounds r n := rfl
@[simp] theorem State.setPlen_bvSizeA (r n : Nat) : (s.setPlen r n).bvSizeA = s.bvSizeA := rfl
@[simp] theorem State.setPlen_bvSizeB (r n : Nat) : (s.setPlen r n).bvSizeB = s.bvSizeB := rfl
@[simp] theorem State.setPlen_bmW (r n : Nat) : (s.setPlen r n).bmW = s.bmW := rfl
@[simp] theorem State.setPlen_bmH (r n : Nat) : (s.setPlen r n).bmH = s.bmH := rfl
@[simp] theorem State.setPlen_symV (r n : Nat) : (s.setPlen r n).symV = s.symV := rfl
@[simp] theorem State.setPlen_locCnt (r n : Nat) : (s.setPlen r n).locCnt = s.locCnt := rfl
@[simp] theorem State.setPlen_pen (r n : Nat) : (s.setPlen r n).pen = s.pen := rfl
@[simp] theorem State.setPlen_mem (r n : Nat) : (s.setPlen r n).mem = s.mem := rfl
@[simp] theorem State.setPlen_host (r n : Nat) : (s.setPlen r n).host = s.host := rfl
@[simp] theorem State.setPlen_rdata (r n : Nat) : (s.setPlen r n).rdata = s.rdata := rfl
@[simp] theorem State.setPlen_wait (r n : Nat) : (s.setPlen r n).wait = s.wait := rfl
@[simp] theorem State.setPlen_draws (r n : Nat) : (s.setPlen r n).draws = s.draws := rfl

/-! Fields after `State.setMem`: the memories. -/

@[simp] theorem State.setMem_status (m : Memory) : (s.setMem m).status = s.status := rfl
@[simp] theorem State.setMem_errCode (m : Memory) : (s.setMem m).errCode = s.errCode := rfl
@[simp] theorem State.setMem_errSub (m : Memory) : (s.setMem m).errSub = s.errSub := rfl
@[simp] theorem State.setMem_cmd (m : Memory) : (s.setMem m).cmd = s.cmd := rfl
@[simp] theorem State.setMem_arg (m : Memory) : (s.setMem m).arg = s.arg := rfl
@[simp] theorem State.setMem_latch (m : Memory) : (s.setMem m).latch = s.latch := rfl
@[simp] theorem State.setMem_result (m : Memory) : (s.setMem m).result = s.result := rfl
@[simp] theorem State.setMem_gfPrim (m : Memory) : (s.setMem m).gfPrim = s.gfPrim := rfl
@[simp] theorem State.setMem_gfBase (m : Memory) : (s.setMem m).gfBase = s.gfBase := rfl
@[simp] theorem State.setMem_plen (m : Memory) : (s.setMem m).plen = s.plen := rfl
@[simp] theorem State.setMem_bvSizeA (m : Memory) : (s.setMem m).bvSizeA = s.bvSizeA := rfl
@[simp] theorem State.setMem_bvSizeB (m : Memory) : (s.setMem m).bvSizeB = s.bvSizeB := rfl
@[simp] theorem State.setMem_bmW (m : Memory) : (s.setMem m).bmW = s.bmW := rfl
@[simp] theorem State.setMem_bmH (m : Memory) : (s.setMem m).bmH = s.bmH := rfl
@[simp] theorem State.setMem_symV (m : Memory) : (s.setMem m).symV = s.symV := rfl
@[simp] theorem State.setMem_locCnt (m : Memory) : (s.setMem m).locCnt = s.locCnt := rfl
@[simp] theorem State.setMem_pen (m : Memory) : (s.setMem m).pen = s.pen := rfl
@[simp] theorem State.setMem_mem (m : Memory) : (s.setMem m).mem = m := rfl
@[simp] theorem State.setMem_host (m : Memory) : (s.setMem m).host = s.host := rfl
@[simp] theorem State.setMem_rdata (m : Memory) : (s.setMem m).rdata = s.rdata := rfl
@[simp] theorem State.setMem_wait (m : Memory) : (s.setMem m).wait = s.wait := rfl
@[simp] theorem State.setMem_draws (m : Memory) : (s.setMem m).draws = s.draws := rfl

/-! Fields after `State.setLocCnt`: the location count. -/

@[simp] theorem State.setLocCnt_status (n : Nat) : (s.setLocCnt n).status = s.status := rfl
@[simp] theorem State.setLocCnt_errCode (n : Nat) : (s.setLocCnt n).errCode = s.errCode := rfl
@[simp] theorem State.setLocCnt_errSub (n : Nat) : (s.setLocCnt n).errSub = s.errSub := rfl
@[simp] theorem State.setLocCnt_cmd (n : Nat) : (s.setLocCnt n).cmd = s.cmd := rfl
@[simp] theorem State.setLocCnt_arg (n : Nat) : (s.setLocCnt n).arg = s.arg := rfl
@[simp] theorem State.setLocCnt_latch (n : Nat) : (s.setLocCnt n).latch = s.latch := rfl
@[simp] theorem State.setLocCnt_result (n : Nat) : (s.setLocCnt n).result = s.result := rfl
@[simp] theorem State.setLocCnt_gfPrim (n : Nat) : (s.setLocCnt n).gfPrim = s.gfPrim := rfl
@[simp] theorem State.setLocCnt_gfBase (n : Nat) : (s.setLocCnt n).gfBase = s.gfBase := rfl
@[simp] theorem State.setLocCnt_plen (n : Nat) : (s.setLocCnt n).plen = s.plen := rfl
@[simp] theorem State.setLocCnt_bvSizeA (n : Nat) : (s.setLocCnt n).bvSizeA = s.bvSizeA := rfl
@[simp] theorem State.setLocCnt_bvSizeB (n : Nat) : (s.setLocCnt n).bvSizeB = s.bvSizeB := rfl
@[simp] theorem State.setLocCnt_bmW (n : Nat) : (s.setLocCnt n).bmW = s.bmW := rfl
@[simp] theorem State.setLocCnt_bmH (n : Nat) : (s.setLocCnt n).bmH = s.bmH := rfl
@[simp] theorem State.setLocCnt_symV (n : Nat) : (s.setLocCnt n).symV = s.symV := rfl
@[simp] theorem State.setLocCnt_locCnt (n : Nat) : (s.setLocCnt n).locCnt = n := rfl
@[simp] theorem State.setLocCnt_pen (n : Nat) : (s.setLocCnt n).pen = s.pen := rfl
@[simp] theorem State.setLocCnt_mem (n : Nat) : (s.setLocCnt n).mem = s.mem := rfl
@[simp] theorem State.setLocCnt_host (n : Nat) : (s.setLocCnt n).host = s.host := rfl
@[simp] theorem State.setLocCnt_rdata (n : Nat) : (s.setLocCnt n).rdata = s.rdata := rfl
@[simp] theorem State.setLocCnt_wait (n : Nat) : (s.setLocCnt n).wait = s.wait := rfl
@[simp] theorem State.setLocCnt_draws (n : Nat) : (s.setLocCnt n).draws = s.draws := rfl

/-! Fields after `State.setPens`: the penalties. -/

@[simp] theorem State.setPens_status (p : Vector Word 8) : (s.setPens p).status = s.status := rfl
@[simp] theorem State.setPens_errCode (p : Vector Word 8) : (s.setPens p).errCode = s.errCode := rfl
@[simp] theorem State.setPens_errSub (p : Vector Word 8) : (s.setPens p).errSub = s.errSub := rfl
@[simp] theorem State.setPens_cmd (p : Vector Word 8) : (s.setPens p).cmd = s.cmd := rfl
@[simp] theorem State.setPens_arg (p : Vector Word 8) : (s.setPens p).arg = s.arg := rfl
@[simp] theorem State.setPens_latch (p : Vector Word 8) : (s.setPens p).latch = s.latch := rfl
@[simp] theorem State.setPens_result (p : Vector Word 8) : (s.setPens p).result = s.result := rfl
@[simp] theorem State.setPens_gfPrim (p : Vector Word 8) : (s.setPens p).gfPrim = s.gfPrim := rfl
@[simp] theorem State.setPens_gfBase (p : Vector Word 8) : (s.setPens p).gfBase = s.gfBase := rfl
@[simp] theorem State.setPens_plen (p : Vector Word 8) : (s.setPens p).plen = s.plen := rfl
@[simp] theorem State.setPens_bvSizeA (p : Vector Word 8) : (s.setPens p).bvSizeA = s.bvSizeA := rfl
@[simp] theorem State.setPens_bvSizeB (p : Vector Word 8) : (s.setPens p).bvSizeB = s.bvSizeB := rfl
@[simp] theorem State.setPens_bmW (p : Vector Word 8) : (s.setPens p).bmW = s.bmW := rfl
@[simp] theorem State.setPens_bmH (p : Vector Word 8) : (s.setPens p).bmH = s.bmH := rfl
@[simp] theorem State.setPens_symV (p : Vector Word 8) : (s.setPens p).symV = s.symV := rfl
@[simp] theorem State.setPens_locCnt (p : Vector Word 8) : (s.setPens p).locCnt = s.locCnt := rfl
@[simp] theorem State.setPens_pen (p : Vector Word 8) : (s.setPens p).pen = p := rfl
@[simp] theorem State.setPens_mem (p : Vector Word 8) : (s.setPens p).mem = s.mem := rfl
@[simp] theorem State.setPens_host (p : Vector Word 8) : (s.setPens p).host = s.host := rfl
@[simp] theorem State.setPens_rdata (p : Vector Word 8) : (s.setPens p).rdata = s.rdata := rfl
@[simp] theorem State.setPens_wait (p : Vector Word 8) : (s.setPens p).wait = s.wait := rfl
@[simp] theorem State.setPens_draws (p : Vector Word 8) : (s.setPens p).draws = s.draws := rfl

/-! Fields after `State.setSymV`: the symbol version. -/

@[simp] theorem State.setSymV_status (v : Nat) : (s.setSymV v).status = s.status := rfl
@[simp] theorem State.setSymV_errCode (v : Nat) : (s.setSymV v).errCode = s.errCode := rfl
@[simp] theorem State.setSymV_errSub (v : Nat) : (s.setSymV v).errSub = s.errSub := rfl
@[simp] theorem State.setSymV_cmd (v : Nat) : (s.setSymV v).cmd = s.cmd := rfl
@[simp] theorem State.setSymV_arg (v : Nat) : (s.setSymV v).arg = s.arg := rfl
@[simp] theorem State.setSymV_latch (v : Nat) : (s.setSymV v).latch = s.latch := rfl
@[simp] theorem State.setSymV_result (v : Nat) : (s.setSymV v).result = s.result := rfl
@[simp] theorem State.setSymV_gfPrim (v : Nat) : (s.setSymV v).gfPrim = s.gfPrim := rfl
@[simp] theorem State.setSymV_gfBase (v : Nat) : (s.setSymV v).gfBase = s.gfBase := rfl
@[simp] theorem State.setSymV_plen (v : Nat) : (s.setSymV v).plen = s.plen := rfl
@[simp] theorem State.setSymV_bvSizeA (v : Nat) : (s.setSymV v).bvSizeA = s.bvSizeA := rfl
@[simp] theorem State.setSymV_bvSizeB (v : Nat) : (s.setSymV v).bvSizeB = s.bvSizeB := rfl
@[simp] theorem State.setSymV_bmW (v : Nat) : (s.setSymV v).bmW = s.bmW := rfl
@[simp] theorem State.setSymV_bmH (v : Nat) : (s.setSymV v).bmH = s.bmH := rfl
@[simp] theorem State.setSymV_symV (v : Nat) : (s.setSymV v).symV = v := rfl
@[simp] theorem State.setSymV_locCnt (v : Nat) : (s.setSymV v).locCnt = s.locCnt := rfl
@[simp] theorem State.setSymV_pen (v : Nat) : (s.setSymV v).pen = s.pen := rfl
@[simp] theorem State.setSymV_mem (v : Nat) : (s.setSymV v).mem = s.mem := rfl
@[simp] theorem State.setSymV_host (v : Nat) : (s.setSymV v).host = s.host := rfl
@[simp] theorem State.setSymV_rdata (v : Nat) : (s.setSymV v).rdata = s.rdata := rfl
@[simp] theorem State.setSymV_wait (v : Nat) : (s.setSymV v).wait = s.wait := rfl
@[simp] theorem State.setSymV_draws (v : Nat) : (s.setSymV v).draws = s.draws := rfl

/-! Fields after `State.newMatrix`: a new bit matrix. -/

@[simp] theorem State.newMatrix_status (w h : Nat) : (s.newMatrix w h).status = s.status := rfl
@[simp] theorem State.newMatrix_errCode (w h : Nat) : (s.newMatrix w h).errCode = s.errCode := rfl
@[simp] theorem State.newMatrix_errSub (w h : Nat) : (s.newMatrix w h).errSub = s.errSub := rfl
@[simp] theorem State.newMatrix_cmd (w h : Nat) : (s.newMatrix w h).cmd = s.cmd := rfl
@[simp] theorem State.newMatrix_arg (w h : Nat) : (s.newMatrix w h).arg = s.arg := rfl
@[simp] theorem State.newMatrix_latch (w h : Nat) : (s.newMatrix w h).latch = s.latch := rfl
@[simp] theorem State.newMatrix_result (w h : Nat) : (s.newMatrix w h).result = s.result := rfl
@[simp] theorem State.newMatrix_gfPrim (w h : Nat) : (s.newMatrix w h).gfPrim = s.gfPrim := rfl
@[simp] theorem State.newMatrix_gfBase (w h : Nat) : (s.newMatrix w h).gfBase = s.gfBase := rfl
@[simp] theorem State.newMatrix_plen (w h : Nat) : (s.newMatrix w h).plen = s.plen := rfl
@[simp] theorem State.newMatrix_bvSizeA (w h : Nat) : (s.newMatrix w h).bvSizeA = s.bvSizeA := rfl
@[simp] theorem State.newMatrix_bvSizeB (w h : Nat) : (s.newMatrix w h).bvSizeB = s.bvSizeB := rfl
@[simp] theorem State.newMatrix_bmW (w h : Nat) : (s.newMatrix w h).bmW = w := rfl
@[simp] theorem State.newMatrix_bmH (w h : Nat) : (s.newMatrix w h).bmH = h := rfl
@[simp] theorem State.newMatrix_symV (w h : Nat) : (s.newMatrix w h).symV = s.symV := rfl
@[simp] theorem State.newMatrix_locCnt (w h : Nat) : (s.newMatrix w h).locCnt = s.locCnt := rfl
@[simp] theorem State.newMatrix_pen (w h : Nat) : (s.newMatrix w h).pen = s.pen := rfl
@[simp] theorem State.newMatrix_mem (w h : Nat) : (s.newMatrix w h).mem = s.mem.fill bmBase 0x2000 0 := rfl
@[simp] theorem State.newMatrix_host (w h : Nat) : (s.newMatrix w h).host = s.host := rfl
@[simp] theorem State.newMatrix_rdata (w h : Nat) : (s.newMatrix w h).rdata = s.rdata := rfl
@[simp] theorem State.newMatrix_wait (w h : Nat) : (s.newMatrix w h).wait = s.wait := rfl
@[simp] theorem State.newMatrix_draws (w h : Nat) : (s.newMatrix w h).draws = s.draws := rfl

/-! Fields after `State.succeed`: completion with success. -/

@[simp] theorem State.succeed_status : s.succeed.status = { s.status with busy := false, done := true, err := false } := rfl
@[simp] theorem State.succeed_errCode : s.succeed.errCode = 0 := rfl
@[simp] theorem State.succeed_errSub : s.succeed.errSub = 0 := rfl
@[simp] theorem State.succeed_cmd : s.succeed.cmd = s.cmd := rfl
@[simp] theorem State.succeed_arg : s.succeed.arg = s.arg := rfl
@[simp] theorem State.succeed_latch : s.succeed.latch = s.latch := rfl
@[simp] theorem State.succeed_result : s.succeed.result = s.result := rfl
@[simp] theorem State.succeed_gfPrim : s.succeed.gfPrim = s.gfPrim := rfl
@[simp] theorem State.succeed_gfBase : s.succeed.gfBase = s.gfBase := rfl
@[simp] theorem State.succeed_plen : s.succeed.plen = s.plen := rfl
@[simp] theorem State.succeed_bvSizeA : s.succeed.bvSizeA = s.bvSizeA := rfl
@[simp] theorem State.succeed_bvSizeB : s.succeed.bvSizeB = s.bvSizeB := rfl
@[simp] theorem State.succeed_bmW : s.succeed.bmW = s.bmW := rfl
@[simp] theorem State.succeed_bmH : s.succeed.bmH = s.bmH := rfl
@[simp] theorem State.succeed_symV : s.succeed.symV = s.symV := rfl
@[simp] theorem State.succeed_locCnt : s.succeed.locCnt = s.locCnt := rfl
@[simp] theorem State.succeed_pen : s.succeed.pen = s.pen := rfl
@[simp] theorem State.succeed_mem : s.succeed.mem = s.mem := rfl
@[simp] theorem State.succeed_host : s.succeed.host = s.host := rfl
@[simp] theorem State.succeed_rdata : s.succeed.rdata = s.rdata := rfl
@[simp] theorem State.succeed_wait : s.succeed.wait = s.wait := rfl
@[simp] theorem State.succeed_draws : s.succeed.draws = s.draws := rfl

/-! Fields after `State.fail`: completion with a failure. -/

@[simp] theorem State.fail_status (f : Failure) : (s.fail f).status = { s.status with busy := false, done := true, err := true } := rfl
@[simp] theorem State.fail_errCode (f : Failure) : (s.fail f).errCode = f.code := rfl
@[simp] theorem State.fail_errSub (f : Failure) : (s.fail f).errSub = f.sub := rfl
@[simp] theorem State.fail_cmd (f : Failure) : (s.fail f).cmd = s.cmd := rfl
@[simp] theorem State.fail_arg (f : Failure) : (s.fail f).arg = s.arg := rfl
@[simp] theorem State.fail_latch (f : Failure) : (s.fail f).latch = s.latch := rfl
@[simp] theorem State.fail_result (f : Failure) : (s.fail f).result = s.result := rfl
@[simp] theorem State.fail_gfPrim (f : Failure) : (s.fail f).gfPrim = s.gfPrim := rfl
@[simp] theorem State.fail_gfBase (f : Failure) : (s.fail f).gfBase = s.gfBase := rfl
@[simp] theorem State.fail_plen (f : Failure) : (s.fail f).plen = s.plen := rfl
@[simp] theorem State.fail_bvSizeA (f : Failure) : (s.fail f).bvSizeA = s.bvSizeA := rfl
@[simp] theorem State.fail_bvSizeB (f : Failure) : (s.fail f).bvSizeB = s.bvSizeB := rfl
@[simp] theorem State.fail_bmW (f : Failure) : (s.fail f).bmW = s.bmW := rfl
@[simp] theorem State.fail_bmH (f : Failure) : (s.fail f).bmH = s.bmH := rfl
@[simp] theorem State.fail_symV (f : Failure) : (s.fail f).symV = s.symV := rfl
@[simp] theorem State.fail_locCnt (f : Failure) : (s.fail f).locCnt = s.locCnt := rfl
@[simp] theorem State.fail_pen (f : Failure) : (s.fail f).pen = s.pen := rfl
@[simp] theorem State.fail_mem (f : Failure) : (s.fail f).mem = s.mem := rfl
@[simp] theorem State.fail_host (f : Failure) : (s.fail f).host = s.host := rfl
@[simp] theorem State.fail_rdata (f : Failure) : (s.fail f).rdata = s.rdata := rfl
@[simp] theorem State.fail_wait (f : Failure) : (s.fail f).wait = s.wait := rfl
@[simp] theorem State.fail_draws (f : Failure) : (s.fail f).draws = s.draws := rfl

/-! Fields after `State.accept`: acceptance. -/

@[simp] theorem State.accept_status (w : Word) (n : Nat) : (s.accept w n).status = { s.status with busy := true, done := false, err := false } := rfl
@[simp] theorem State.accept_errCode (w : Word) (n : Nat) : (s.accept w n).errCode = 0 := rfl
@[simp] theorem State.accept_errSub (w : Word) (n : Nat) : (s.accept w n).errSub = 0 := rfl
@[simp] theorem State.accept_cmd (w : Word) (n : Nat) : (s.accept w n).cmd = w := rfl
@[simp] theorem State.accept_arg (w : Word) (n : Nat) : (s.accept w n).arg = s.arg := rfl
@[simp] theorem State.accept_latch (w : Word) (n : Nat) : (s.accept w n).latch = s.arg := rfl
@[simp] theorem State.accept_result (w : Word) (n : Nat) : (s.accept w n).result = s.result := rfl
@[simp] theorem State.accept_gfPrim (w : Word) (n : Nat) : (s.accept w n).gfPrim = s.gfPrim := rfl
@[simp] theorem State.accept_gfBase (w : Word) (n : Nat) : (s.accept w n).gfBase = s.gfBase := rfl
@[simp] theorem State.accept_plen (w : Word) (n : Nat) : (s.accept w n).plen = s.plen := rfl
@[simp] theorem State.accept_bvSizeA (w : Word) (n : Nat) : (s.accept w n).bvSizeA = s.bvSizeA := rfl
@[simp] theorem State.accept_bvSizeB (w : Word) (n : Nat) : (s.accept w n).bvSizeB = s.bvSizeB := rfl
@[simp] theorem State.accept_bmW (w : Word) (n : Nat) : (s.accept w n).bmW = s.bmW := rfl
@[simp] theorem State.accept_bmH (w : Word) (n : Nat) : (s.accept w n).bmH = s.bmH := rfl
@[simp] theorem State.accept_symV (w : Word) (n : Nat) : (s.accept w n).symV = s.symV := rfl
@[simp] theorem State.accept_locCnt (w : Word) (n : Nat) : (s.accept w n).locCnt = s.locCnt := rfl
@[simp] theorem State.accept_pen (w : Word) (n : Nat) : (s.accept w n).pen = s.pen := rfl
@[simp] theorem State.accept_mem (w : Word) (n : Nat) : (s.accept w n).mem = s.mem := rfl
@[simp] theorem State.accept_host (w : Word) (n : Nat) : (s.accept w n).host = s.host := rfl
@[simp] theorem State.accept_rdata (w : Word) (n : Nat) : (s.accept w n).rdata = s.rdata := rfl
@[simp] theorem State.accept_wait (w : Word) (n : Nat) : (s.accept w n).wait = n := rfl
@[simp] theorem State.accept_draws (w : Word) (n : Nat) : (s.accept w n).draws = s.draws := rfl

/-! Fields after `State.setCfgErr`: a refused WARL write. -/

@[simp] theorem State.setCfgErr_status : s.setCfgErr.status = { s.status with cfgErr := true } := rfl
@[simp] theorem State.setCfgErr_errCode : s.setCfgErr.errCode = s.errCode := rfl
@[simp] theorem State.setCfgErr_errSub : s.setCfgErr.errSub = s.errSub := rfl
@[simp] theorem State.setCfgErr_cmd : s.setCfgErr.cmd = s.cmd := rfl
@[simp] theorem State.setCfgErr_arg : s.setCfgErr.arg = s.arg := rfl
@[simp] theorem State.setCfgErr_latch : s.setCfgErr.latch = s.latch := rfl
@[simp] theorem State.setCfgErr_result : s.setCfgErr.result = s.result := rfl
@[simp] theorem State.setCfgErr_gfPrim : s.setCfgErr.gfPrim = s.gfPrim := rfl
@[simp] theorem State.setCfgErr_gfBase : s.setCfgErr.gfBase = s.gfBase := rfl
@[simp] theorem State.setCfgErr_plen : s.setCfgErr.plen = s.plen := rfl
@[simp] theorem State.setCfgErr_bvSizeA : s.setCfgErr.bvSizeA = s.bvSizeA := rfl
@[simp] theorem State.setCfgErr_bvSizeB : s.setCfgErr.bvSizeB = s.bvSizeB := rfl
@[simp] theorem State.setCfgErr_bmW : s.setCfgErr.bmW = s.bmW := rfl
@[simp] theorem State.setCfgErr_bmH : s.setCfgErr.bmH = s.bmH := rfl
@[simp] theorem State.setCfgErr_symV : s.setCfgErr.symV = s.symV := rfl
@[simp] theorem State.setCfgErr_locCnt : s.setCfgErr.locCnt = s.locCnt := rfl
@[simp] theorem State.setCfgErr_pen : s.setCfgErr.pen = s.pen := rfl
@[simp] theorem State.setCfgErr_mem : s.setCfgErr.mem = s.mem := rfl
@[simp] theorem State.setCfgErr_host : s.setCfgErr.host = s.host := rfl
@[simp] theorem State.setCfgErr_rdata : s.setCfgErr.rdata = s.rdata := rfl
@[simp] theorem State.setCfgErr_wait : s.setCfgErr.wait = s.wait := rfl
@[simp] theorem State.setCfgErr_draws : s.setCfgErr.draws = s.draws := rfl

/-! Fields after `State.setHaz`: a dropped host write. -/

@[simp] theorem State.setHaz_status : s.setHaz.status = { s.status with haz := true } := rfl
@[simp] theorem State.setHaz_errCode : s.setHaz.errCode = s.errCode := rfl
@[simp] theorem State.setHaz_errSub : s.setHaz.errSub = s.errSub := rfl
@[simp] theorem State.setHaz_cmd : s.setHaz.cmd = s.cmd := rfl
@[simp] theorem State.setHaz_arg : s.setHaz.arg = s.arg := rfl
@[simp] theorem State.setHaz_latch : s.setHaz.latch = s.latch := rfl
@[simp] theorem State.setHaz_result : s.setHaz.result = s.result := rfl
@[simp] theorem State.setHaz_gfPrim : s.setHaz.gfPrim = s.gfPrim := rfl
@[simp] theorem State.setHaz_gfBase : s.setHaz.gfBase = s.gfBase := rfl
@[simp] theorem State.setHaz_plen : s.setHaz.plen = s.plen := rfl
@[simp] theorem State.setHaz_bvSizeA : s.setHaz.bvSizeA = s.bvSizeA := rfl
@[simp] theorem State.setHaz_bvSizeB : s.setHaz.bvSizeB = s.bvSizeB := rfl
@[simp] theorem State.setHaz_bmW : s.setHaz.bmW = s.bmW := rfl
@[simp] theorem State.setHaz_bmH : s.setHaz.bmH = s.bmH := rfl
@[simp] theorem State.setHaz_symV : s.setHaz.symV = s.symV := rfl
@[simp] theorem State.setHaz_locCnt : s.setHaz.locCnt = s.locCnt := rfl
@[simp] theorem State.setHaz_pen : s.setHaz.pen = s.pen := rfl
@[simp] theorem State.setHaz_mem : s.setHaz.mem = s.mem := rfl
@[simp] theorem State.setHaz_host : s.setHaz.host = s.host := rfl
@[simp] theorem State.setHaz_rdata : s.setHaz.rdata = s.rdata := rfl
@[simp] theorem State.setHaz_wait : s.setHaz.wait = s.wait := rfl
@[simp] theorem State.setHaz_draws : s.setHaz.draws = s.draws := rfl

/-! Fields after `State.setOvr`: a dropped command. -/

@[simp] theorem State.setOvr_status : s.setOvr.status = { s.status with ovr := true } := rfl
@[simp] theorem State.setOvr_errCode : s.setOvr.errCode = s.errCode := rfl
@[simp] theorem State.setOvr_errSub : s.setOvr.errSub = s.errSub := rfl
@[simp] theorem State.setOvr_cmd : s.setOvr.cmd = s.cmd := rfl
@[simp] theorem State.setOvr_arg : s.setOvr.arg = s.arg := rfl
@[simp] theorem State.setOvr_latch : s.setOvr.latch = s.latch := rfl
@[simp] theorem State.setOvr_result : s.setOvr.result = s.result := rfl
@[simp] theorem State.setOvr_gfPrim : s.setOvr.gfPrim = s.gfPrim := rfl
@[simp] theorem State.setOvr_gfBase : s.setOvr.gfBase = s.gfBase := rfl
@[simp] theorem State.setOvr_plen : s.setOvr.plen = s.plen := rfl
@[simp] theorem State.setOvr_bvSizeA : s.setOvr.bvSizeA = s.bvSizeA := rfl
@[simp] theorem State.setOvr_bvSizeB : s.setOvr.bvSizeB = s.bvSizeB := rfl
@[simp] theorem State.setOvr_bmW : s.setOvr.bmW = s.bmW := rfl
@[simp] theorem State.setOvr_bmH : s.setOvr.bmH = s.bmH := rfl
@[simp] theorem State.setOvr_symV : s.setOvr.symV = s.symV := rfl
@[simp] theorem State.setOvr_locCnt : s.setOvr.locCnt = s.locCnt := rfl
@[simp] theorem State.setOvr_pen : s.setOvr.pen = s.pen := rfl
@[simp] theorem State.setOvr_mem : s.setOvr.mem = s.mem := rfl
@[simp] theorem State.setOvr_host : s.setOvr.host = s.host := rfl
@[simp] theorem State.setOvr_rdata : s.setOvr.rdata = s.rdata := rfl
@[simp] theorem State.setOvr_wait : s.setOvr.wait = s.wait := rfl
@[simp] theorem State.setOvr_draws : s.setOvr.draws = s.draws := rfl

/-! Fields after `State.take`: taking the next thing asked. -/

@[simp] theorem State.take_status (rest : List HostInput) : (s.take rest).status = s.status := rfl
@[simp] theorem State.take_errCode (rest : List HostInput) : (s.take rest).errCode = s.errCode := rfl
@[simp] theorem State.take_errSub (rest : List HostInput) : (s.take rest).errSub = s.errSub := rfl
@[simp] theorem State.take_cmd (rest : List HostInput) : (s.take rest).cmd = s.cmd := rfl
@[simp] theorem State.take_arg (rest : List HostInput) : (s.take rest).arg = s.arg := rfl
@[simp] theorem State.take_latch (rest : List HostInput) : (s.take rest).latch = s.latch := rfl
@[simp] theorem State.take_result (rest : List HostInput) : (s.take rest).result = s.result := rfl
@[simp] theorem State.take_gfPrim (rest : List HostInput) : (s.take rest).gfPrim = s.gfPrim := rfl
@[simp] theorem State.take_gfBase (rest : List HostInput) : (s.take rest).gfBase = s.gfBase := rfl
@[simp] theorem State.take_plen (rest : List HostInput) : (s.take rest).plen = s.plen := rfl
@[simp] theorem State.take_bvSizeA (rest : List HostInput) : (s.take rest).bvSizeA = s.bvSizeA := rfl
@[simp] theorem State.take_bvSizeB (rest : List HostInput) : (s.take rest).bvSizeB = s.bvSizeB := rfl
@[simp] theorem State.take_bmW (rest : List HostInput) : (s.take rest).bmW = s.bmW := rfl
@[simp] theorem State.take_bmH (rest : List HostInput) : (s.take rest).bmH = s.bmH := rfl
@[simp] theorem State.take_symV (rest : List HostInput) : (s.take rest).symV = s.symV := rfl
@[simp] theorem State.take_locCnt (rest : List HostInput) : (s.take rest).locCnt = s.locCnt := rfl
@[simp] theorem State.take_pen (rest : List HostInput) : (s.take rest).pen = s.pen := rfl
@[simp] theorem State.take_mem (rest : List HostInput) : (s.take rest).mem = s.mem := rfl
@[simp] theorem State.take_host (rest : List HostInput) : (s.take rest).host = rest := rfl
@[simp] theorem State.take_rdata (rest : List HostInput) : (s.take rest).rdata = s.rdata := rfl
@[simp] theorem State.take_wait (rest : List HostInput) : (s.take rest).wait = s.wait - 1 := rfl
@[simp] theorem State.take_draws (rest : List HostInput) : (s.take rest).draws = s.draws := rfl

/-! Fields after `State.setBvSize`: a bank's size. -/

@[simp] theorem State.setBvSize_status (b : Bank) (n : Nat) : (s.setBvSize b n).status = s.status := by cases b <;> rfl
@[simp] theorem State.setBvSize_errCode (b : Bank) (n : Nat) : (s.setBvSize b n).errCode = s.errCode := by cases b <;> rfl
@[simp] theorem State.setBvSize_errSub (b : Bank) (n : Nat) : (s.setBvSize b n).errSub = s.errSub := by cases b <;> rfl
@[simp] theorem State.setBvSize_cmd (b : Bank) (n : Nat) : (s.setBvSize b n).cmd = s.cmd := by cases b <;> rfl
@[simp] theorem State.setBvSize_arg (b : Bank) (n : Nat) : (s.setBvSize b n).arg = s.arg := by cases b <;> rfl
@[simp] theorem State.setBvSize_latch (b : Bank) (n : Nat) : (s.setBvSize b n).latch = s.latch := by cases b <;> rfl
@[simp] theorem State.setBvSize_result (b : Bank) (n : Nat) : (s.setBvSize b n).result = s.result := by cases b <;> rfl
@[simp] theorem State.setBvSize_gfPrim (b : Bank) (n : Nat) : (s.setBvSize b n).gfPrim = s.gfPrim := by cases b <;> rfl
@[simp] theorem State.setBvSize_gfBase (b : Bank) (n : Nat) : (s.setBvSize b n).gfBase = s.gfBase := by cases b <;> rfl
@[simp] theorem State.setBvSize_plen (b : Bank) (n : Nat) : (s.setBvSize b n).plen = s.plen := by cases b <;> rfl
@[simp] theorem State.setBvSize_bmW (b : Bank) (n : Nat) : (s.setBvSize b n).bmW = s.bmW := by cases b <;> rfl
@[simp] theorem State.setBvSize_bmH (b : Bank) (n : Nat) : (s.setBvSize b n).bmH = s.bmH := by cases b <;> rfl
@[simp] theorem State.setBvSize_symV (b : Bank) (n : Nat) : (s.setBvSize b n).symV = s.symV := by cases b <;> rfl
@[simp] theorem State.setBvSize_locCnt (b : Bank) (n : Nat) : (s.setBvSize b n).locCnt = s.locCnt := by cases b <;> rfl
@[simp] theorem State.setBvSize_pen (b : Bank) (n : Nat) : (s.setBvSize b n).pen = s.pen := by cases b <;> rfl
@[simp] theorem State.setBvSize_mem (b : Bank) (n : Nat) : (s.setBvSize b n).mem = s.mem := by cases b <;> rfl
@[simp] theorem State.setBvSize_host (b : Bank) (n : Nat) : (s.setBvSize b n).host = s.host := by cases b <;> rfl
@[simp] theorem State.setBvSize_rdata (b : Bank) (n : Nat) : (s.setBvSize b n).rdata = s.rdata := by cases b <;> rfl
@[simp] theorem State.setBvSize_wait (b : Bank) (n : Nat) : (s.setBvSize b n).wait = s.wait := by cases b <;> rfl
@[simp] theorem State.setBvSize_draws (b : Bank) (n : Nat) : (s.setBvSize b n).draws = s.draws := by cases b <;> rfl

@[simp] theorem State.setBvSize_bvSize (b c : Bank) (n : Nat) :
    (s.setBvSize b n).bvSize c = if c = b then n else s.bvSize c := by cases b <;> cases c <;> rfl

/-! The stores of commands are replacements of the memories. -/

@[simp] theorem State.setCw_eq (i : Nat) (vs : List Byte) : s.setCw i vs = s.setMem (s.mem.write (cwAddr i) vs) := rfl
@[simp] theorem State.setLocs_eq (vs : List Byte) : s.setLocs vs = s.setMem (s.mem.writeEvery4 (locAddr 0) vs) := rfl
@[simp] theorem State.setMags_eq (vs : List Byte) : s.setMags vs = s.setMem (s.mem.writeEvery4 (magAddr 0) vs) := rfl
@[simp] theorem State.setBvBits_eq (b : Bank) (i n : Nat) (f : Nat → Bool) :
    s.setBvBits b i n f = s.setMem (s.mem.writeBits (bankBase b) i n f) := rfl
@[simp] theorem State.setBmRow_eq (x y n : Nat) (f : Nat → Bool) :
    s.setBmRow x y n f = s.setMem (s.mem.writeBits bmBase (s.bmBitIndex x y) n f) := rfl
@[simp] theorem State.setSymCell_eq (x y : Nat) (c : Cell) :
    s.setSymCell x y c = s.setMem (s.mem.writeBits (symRowBase y) (2 * x) 2 c.codeBit) := rfl
@[simp] theorem State.setSymGrid_eq (g : Grid) : s.setSymGrid g = s.setMem (s.mem.storeGrid s.symN g) := rfl

/-! The views of the state see only the fields they read. -/

@[simp] theorem State.setMem_setMem (m n : Memory) : (s.setMem m).setMem n = s.setMem n := rfl
@[simp] theorem State.setMem_symN (m : Memory) : (s.setMem m).symN = s.symN := rfl
@[simp] theorem State.setMem_bmBitIndex (m : Memory) (x y : Nat) : (s.setMem m).bmBitIndex x y = s.bmBitIndex x y := rfl
@[simp] theorem State.setMem_bvSize (m : Memory) (b : Bank) : (s.setMem m).bvSize b = s.bvSize b := by cases b <;> rfl
@[simp] theorem State.setSymV_symN (v : Nat) : (s.setSymV v).symN = if v = 0 then 0 else 4 * v + 17 := rfl

/-- An entry of a vector, as core's lemmas speak of it. -/
theorem vector_getD {α : Type} {n : Nat} (v : Vector α n) (i : Nat) (d : α) : v.getD i d = v[i]?.getD d := by
  rcases v with ⟨l, rfl⟩
  simp [Vector.getD]

/-- Reading a register of a file after a write of one of them. -/
theorem vector_getD_set {α : Type} {n : Nat} (v : Vector α n) (i j : Nat) (x d : α) (hi : i < n) :
    (v.setIfInBounds i x).getD j d = if j = i then x else v.getD j d := by
  simp only [vector_getD, Vector.getElem?_setIfInBounds]
  by_cases h : j = i
  · simp [h, hi]
  · simp [h, Ne.symm h]

theorem State.setPlen_plenOf (r n q : Nat) (hr : r < 8) :
    (s.setPlen r n).plenOf q = if q = r then n else s.plenOf q := vector_getD_set s.plen r q n 0 hr

theorem State.setResult_getD (i j : Nat) (v : Word) (hi : i < 8) :
    (s.setResult i v).result.getD j 0 = if j = i then v else s.result.getD j 0 := vector_getD_set s.result i j v 0 hi

/-! Completion of a command (60_exceptions.md R901, R902). -/

@[simp] theorem State.complete_ok (t : State) : s.complete (.ok t) = .next t.succeed := rfl
@[simp] theorem State.complete_error (f : Failure) : s.complete (.error f) = .next (s.fail f) := rfl

/-- A completion answers a next state: that of the writes, or the old one with the failure reported. -/
theorem State.complete_next {r : Except Failure State} {t : State} (h : s.complete r = .next t) :
    (∃ u, r = .ok u ∧ t = u.succeed) ∨ (∃ f, r = .error f ∧ t = s.fail f) := by
  cases r with
  | ok u => exact .inl ⟨u, rfl, (Host.Outcome.next.inj h).symm⟩
  | error f => exact .inr ⟨f, rfl, (Host.Outcome.next.inj h).symm⟩

/-- No completion is a fault or a refusal. -/
theorem State.complete_isNext (r : Except Failure State) : ∃ t, s.complete r = .next t := by
  cases r <;> exact ⟨_, rfl⟩

end Sys2Proof.Machine
end

