-- ==== Sys2Proof/Laws/Completion.lean ====
section
/-! SUPPORT. How a command's computation ends: its checks, its reads and its register writes one after the other. Each lemma says once
all that one of them can do, so that a proof about a command takes its parts off in order. -/

namespace Sys2Proof.Machine

variable {s t : State}

/-! Checks. -/

@[simp] theorem check_true (f : Failure) : check true f = .ok () := rfl
@[simp] theorem check_false (f : Failure) : check false f = .error f := rfl

theorem check_cases (c : Bool) (f : Failure) : (c = true ∧ check c f = .ok ()) ∨ (c = false ∧ check c f = .error f) := by
  cases c <;> simp

theorem check_ok {c : Bool} {f : Failure} {u : Unit} (h : check c f = .ok u) : c = true := by
  cases c
  · cases h
  · rfl

theorem check_error {c : Bool} {f g : Failure} (h : check c f = .error g) : c = false ∧ g = f := by
  cases c
  · exact ⟨rfl, (Except.error.inj h).symm⟩
  · cases h

/-! Computations in sequence. -/

@[simp] theorem bind_ok {α β : Type} (a : α) (k : α → Except Failure β) : (Except.ok a >>= k) = k a := rfl
@[simp] theorem bind_error {α β : Type} (f : Failure) (k : α → Except Failure β) :
    ((Except.error f : Except Failure α) >>= k) = .error f := rfl
@[simp] theorem pure_eq_ok {α : Type} (a : α) : (pure a : Except Failure α) = .ok a := rfl

/-- The first part of a computation fails and the command fails with it, or it answers a value and the rest goes on from it. -/
theorem State.complete_bind {α : Type} {x : Except Failure α} {k : α → Except Failure State}
    (h : s.complete (x >>= k) = .next t) :
    (∃ f, x = .error f ∧ t = s.fail f) ∨ ∃ a, x = .ok a ∧ s.complete (k a) = .next t := by
  cases x with
  | error f => exact .inl ⟨f, rfl, (Host.Outcome.next.inj h).symm⟩
  | ok a => exact .inr ⟨a, rfl, h⟩

theorem State.complete_pure {u : State} (h : s.complete (.ok u) = .next t) : t = u.succeed := (Host.Outcome.next.inj h).symm

/-! Operands and registers. -/

theorem State.fieldOperand_of_le {i : Nat} (h : s.operand i ≤ 255) : s.fieldOperand i = .ok (BitVec.ofNat 8 (s.operand i)) := by
  simp [State.fieldOperand, h]

theorem State.fieldOperand_of_gt {i : Nat} (h : 255 < s.operand i) : s.fieldOperand i = .error .fieldOperand := by
  simp [State.fieldOperand, Nat.not_le.mpr h]

theorem State.fieldOperand_error {i : Nat} {f : Failure} (h : s.fieldOperand i = .error f) : f = .fieldOperand := by
  by_cases hi : s.operand i ≤ 255
  · rw [State.fieldOperand_of_le hi] at h
    cases h
  · rw [State.fieldOperand_of_gt (by omega)] at h
    exact (Except.error.inj h).symm

theorem State.poly_of_ne {r : Nat} (h : s.plenOf r ≠ 0) : s.poly r = .ok (norm (s.coefs r (s.plenOf r))) := by
  simp [State.poly, h]

theorem State.poly_of_empty {r : Nat} (h : s.plenOf r = 0) : s.poly r = .error .emptyPoly := by
  simp [State.poly, h]

theorem State.poly_ok {r : Nat} {p : Poly} (h : s.poly r = .ok p) :
    s.plenOf r ≠ 0 ∧ p = norm (s.coefs r (s.plenOf r)) := by
  by_cases hr : s.plenOf r = 0
  · rw [State.poly_of_empty hr] at h
    cases h
  · rw [State.poly_of_ne hr] at h
    exact ⟨hr, (Except.ok.inj h).symm⟩

theorem State.poly_error {r : Nat} {f : Failure} (h : s.poly r = .error f) : s.plenOf r = 0 ∧ f = .emptyPoly := by
  by_cases hr : s.plenOf r = 0
  · rw [State.poly_of_empty hr] at h
    exact ⟨hr, (Except.error.inj h).symm⟩
  · rw [State.poly_of_ne hr] at h
    cases h

theorem State.setPoly_of_le {r : Nat} {p : Poly} (h : p.length ≤ 512) :
    s.setPoly r p = .ok ((s.setPlen r p.length).setMem (s.mem.write (coefAddr r 0) p)) := by
  simp [State.setPoly, h]

theorem State.setPoly_of_gt {r : Nat} {p : Poly} (h : 512 < p.length) : s.setPoly r p = .error .polyCapacity := by
  simp [State.setPoly, Nat.not_le.mpr h]

theorem State.setPoly_ok {r : Nat} {p : Poly} (h : s.setPoly r p = .ok t) :
    p.length ≤ 512 ∧ t = (s.setPlen r p.length).setMem (s.mem.write (coefAddr r 0) p) := by
  by_cases hp : p.length ≤ 512
  · rw [State.setPoly_of_le hp] at h
    exact ⟨hp, (Except.ok.inj h).symm⟩
  · rw [State.setPoly_of_gt (by omega)] at h
    cases h

theorem State.setPoly_error {r : Nat} {p : Poly} {f : Failure} (h : s.setPoly r p = .error f) :
    512 < p.length ∧ f = .polyCapacity := by
  by_cases hp : p.length ≤ 512
  · rw [State.setPoly_of_le hp] at h
    cases h
  · rw [State.setPoly_of_gt (by omega)] at h
    exact ⟨by omega, (Except.error.inj h).symm⟩

/-- A polynomial written to a register reads back (10_state.md R130). -/
theorem State.poly_setPoly {r : Nat} {p : Poly} (hr : r < 8) (hp : p ≠ []) (h : s.setPoly r p = .ok t) :
    t.poly r = .ok (norm p) := by
  obtain ⟨-, rfl⟩ := State.setPoly_ok h
  have hl : State.plenOf ((s.setPlen r p.length).setMem (s.mem.write (coefAddr r 0) p)) r = p.length := by
    show (s.setPlen r p.length).plenOf r = _
    rw [State.setPlen_plenOf s r _ r hr, if_pos rfl]
  rw [State.poly_of_ne (by simpa [hl] using hp), hl]
  simp only [State.coefs, State.setMem_mem, Memory.readBytes_write]

/-! Rows stored one after the other. -/

/-- Stores in sequence leave a state that differs in the memories only. -/
theorem State.foldl_setMem {α : Type} (l : List α) (f : State → α → State) (hf : ∀ u a, ∃ m, f u a = u.setMem m) (s : State) :
    ∃ m, l.foldl f s = s.setMem m := by
  induction l generalizing s with
  | nil => exact ⟨s.mem, rfl⟩
  | cons a l ih =>
    obtain ⟨m, hm⟩ := hf s a
    obtain ⟨m', hm'⟩ := ih (f s a)
    exact ⟨m', by rw [List.foldl_cons, hm', hm]; rfl⟩

end Sys2Proof.Machine
end

