-- ==== Sys2Proof/Laws/Commands.lean ====
section
/-! SUPPORT. What each command's meaning can do, said once: it fails and changes nothing but the completion bits and `ERRCODE`, or it
succeeds with the writes named here. Proofs about commands cite these and do not unfold the meanings. -/

namespace Sys2Proof.Machine

variable {s t : State}

/-- A register write at the end of a command. -/
theorem State.complete_setPoly {r : Nat} {p : Poly} (h : s.complete (s.setPoly r p) = .next t) :
    (∃ f, t = s.fail f) ∨ p.length ≤ 512 ∧
      t = ((s.setPlen r p.length).setMem (s.mem.write (coefAddr r 0) p)).succeed := by
  by_cases hp : p.length ≤ 512
  · rw [State.setPoly_of_le hp] at h
    exact .inr ⟨hp, State.complete_pure h⟩
  · rw [State.setPoly_of_gt (by omega)] at h
    exact .inl ⟨_, (Host.Outcome.next.inj h).symm⟩

theorem execNop_eq : execNop s = .next s.succeed := rfl

/-! Commands that write `RESULT0` only. -/

theorem execGfAdd_cases (h : execGfAdd s = .next t) :
    (∃ f, t = s.fail f) ∨ ∃ v, t = (s.setResult 0 v).succeed := by
  unfold execGfAdd at h
  rcases State.complete_bind h with ⟨f, -, rfl⟩ | ⟨_, _, h⟩
  · exact .inl ⟨f, rfl⟩
  rcases State.complete_bind h with ⟨f, -, rfl⟩ | ⟨_, _, h⟩
  · exact .inl ⟨f, rfl⟩
  exact .inr ⟨_, State.complete_pure h⟩

theorem execGfMul_cases (h : execGfMul s = .next t) :
    (∃ f, t = s.fail f) ∨ ∃ v, t = (s.setResult 0 v).succeed := by
  unfold execGfMul at h
  rcases State.complete_bind h with ⟨f, -, rfl⟩ | ⟨_, _, h⟩
  · exact .inl ⟨f, rfl⟩
  rcases State.complete_bind h with ⟨f, -, rfl⟩ | ⟨_, _, h⟩
  · exact .inl ⟨f, rfl⟩
  exact .inr ⟨_, State.complete_pure h⟩

theorem execGfInv_cases (h : execGfInv s = .next t) :
    (∃ f, t = s.fail f) ∨ ∃ v, t = (s.setResult 0 v).succeed := by
  unfold execGfInv at h
  rcases State.complete_bind h with ⟨f, -, rfl⟩ | ⟨_, _, h⟩
  · exact .inl ⟨f, rfl⟩
  rcases State.complete_bind h with ⟨f, -, rfl⟩ | ⟨_, _, h⟩
  · exact .inl ⟨f, rfl⟩
  exact .inr ⟨_, State.complete_pure h⟩

theorem execGfExp_cases (h : execGfExp s = .next t) :
    (∃ f, t = s.fail f) ∨ ∃ v, t = (s.setResult 0 v).succeed := by
  unfold execGfExp at h
  rcases State.complete_bind h with ⟨f, -, rfl⟩ | ⟨_, _, h⟩
  · exact .inl ⟨f, rfl⟩
  exact .inr ⟨_, State.complete_pure h⟩

theorem execGfLog_cases (h : execGfLog s = .next t) :
    (∃ f, t = s.fail f) ∨ ∃ v, t = (s.setResult 0 v).succeed := by
  unfold execGfLog at h
  rcases State.complete_bind h with ⟨f, -, rfl⟩ | ⟨_, _, h⟩
  · exact .inl ⟨f, rfl⟩
  rcases State.complete_bind h with ⟨f, -, rfl⟩ | ⟨_, _, h⟩
  · exact .inl ⟨f, rfl⟩
  exact .inr ⟨_, State.complete_pure h⟩

theorem execPEval_cases {ra : Nat} (h : execPEval ra s = .next t) :
    (∃ f, t = s.fail f) ∨ ∃ v, t = (s.setResult 0 v).succeed := by
  unfold execPEval at h
  rcases State.complete_bind h with ⟨f, -, rfl⟩ | ⟨_, _, h⟩
  · exact .inl ⟨f, rfl⟩
  rcases State.complete_bind h with ⟨f, -, rfl⟩ | ⟨_, _, h⟩
  · exact .inl ⟨f, rfl⟩
  exact .inr ⟨_, State.complete_pure h⟩

theorem execPCoef_cases {ra : Nat} (h : execPCoef ra s = .next t) :
    (∃ f, t = s.fail f) ∨ ∃ v, t = (s.setResult 0 v).succeed := by
  unfold execPCoef at h
  rcases State.complete_bind h with ⟨f, -, rfl⟩ | ⟨_, _, h⟩
  · exact .inl ⟨f, rfl⟩
  exact .inr ⟨_, State.complete_pure h⟩

theorem execBvGet_cases {y : Bank} (h : execBvGet y s = .next t) :
    (∃ f, t = s.fail f) ∨ ∃ v, t = (s.setResult 0 v).succeed := by
  unfold execBvGet at h
  rcases State.complete_bind h with ⟨f, -, rfl⟩ | ⟨_, _, h⟩
  · exact .inl ⟨f, rfl⟩
  exact .inr ⟨_, State.complete_pure h⟩

theorem execBmGet_cases (h : execBmGet s = .next t) :
    (∃ f, t = s.fail f) ∨ ∃ v, t = (s.setResult 0 v).succeed := by
  unfold execBmGet at h
  rcases State.complete_bind h with ⟨f, -, rfl⟩ | ⟨_, _, h⟩
  · exact .inl ⟨f, rfl⟩
  exact .inr ⟨_, State.complete_pure h⟩

theorem execSymGet_cases (h : execSymGet s = .next t) :
    (∃ f, t = s.fail f) ∨ ∃ v, t = (s.setResult 0 v).succeed := by
  unfold execSymGet at h
  rcases State.complete_bind h with ⟨f, -, rfl⟩ | ⟨_, _, h⟩
  · exact .inl ⟨f, rfl⟩
  rcases State.complete_bind h with ⟨f, -, rfl⟩ | ⟨_, _, h⟩
  · exact .inl ⟨f, rfl⟩
  exact .inr ⟨_, State.complete_pure h⟩

theorem execMaskBit_cases (h : execMaskBit s = .next t) :
    (∃ f, t = s.fail f) ∨ ∃ v, t = (s.setResult 0 v).succeed := by
  unfold execMaskBit at h
  rcases State.complete_bind h with ⟨f, -, rfl⟩ | ⟨_, _, h⟩
  · exact .inl ⟨f, rfl⟩
  rcases State.complete_bind h with ⟨f, -, rfl⟩ | ⟨_, _, h⟩
  · exact .inl ⟨f, rfl⟩
  exact .inr ⟨_, State.complete_pure h⟩

theorem execBchType_cases (h : execBchType s = .next t) :
    (∃ f, t = s.fail f) ∨ ∃ v, t = (s.setResult 0 v).succeed := by
  unfold execBchType at h
  rcases State.complete_bind h with ⟨f, -, rfl⟩ | ⟨_, _, h⟩
  · exact .inl ⟨f, rfl⟩
  rcases State.complete_bind h with ⟨f, -, rfl⟩ | ⟨_, _, h⟩
  · exact .inl ⟨f, rfl⟩
  exact .inr ⟨_, State.complete_pure h⟩

theorem execBchVersion_cases (h : execBchVersion s = .next t) :
    (∃ f, t = s.fail f) ∨ ∃ v, t = (s.setResult 0 v).succeed := by
  unfold execBchVersion at h
  rcases State.complete_bind h with ⟨f, -, rfl⟩ | ⟨_, _, h⟩
  · exact .inl ⟨f, rfl⟩
  exact .inr ⟨_, State.complete_pure h⟩

/-! Commands that write one polynomial register. -/

theorem execPZero_cases {rd : Nat} (h : execPZero rd s = .next t) :
    (∃ f, t = s.fail f) ∨ ∃ p : Poly, p.length ≤ 512 ∧
      t = ((s.setPlen rd p.length).setMem (s.mem.write (coefAddr rd 0) p)).succeed := by
  unfold execPZero at h
  rcases State.complete_setPoly h with ⟨f, rfl⟩ | ⟨hp, rfl⟩
  · exact .inl ⟨f, rfl⟩
  · exact .inr ⟨_, hp, rfl⟩

theorem execPMono_cases {rd : Nat} (h : execPMono rd s = .next t) :
    (∃ f, t = s.fail f) ∨ ∃ p : Poly, p.length ≤ 512 ∧
      t = ((s.setPlen rd p.length).setMem (s.mem.write (coefAddr rd 0) p)).succeed := by
  unfold execPMono at h
  rcases State.complete_bind h with ⟨f, -, rfl⟩ | ⟨_, _, h⟩
  · exact .inl ⟨f, rfl⟩
  rcases State.complete_bind h with ⟨f, -, rfl⟩ | ⟨_, _, h⟩
  · exact .inl ⟨f, rfl⟩
  rcases State.complete_setPoly h with ⟨f, rfl⟩ | ⟨hp, rfl⟩
  · exact .inl ⟨f, rfl⟩
  · exact .inr ⟨_, hp, rfl⟩

theorem execPCopy_cases {rd ra : Nat} (h : execPCopy rd ra s = .next t) :
    (∃ f, t = s.fail f) ∨ ∃ p : Poly, p.length ≤ 512 ∧
      t = ((s.setPlen rd p.length).setMem (s.mem.write (coefAddr rd 0) p)).succeed := by
  unfold execPCopy at h
  rcases State.complete_bind h with ⟨f, -, rfl⟩ | ⟨_, _, h⟩
  · exact .inl ⟨f, rfl⟩
  rcases State.complete_setPoly h with ⟨f, rfl⟩ | ⟨hp, rfl⟩
  · exact .inl ⟨f, rfl⟩
  · exact .inr ⟨_, hp, rfl⟩

theorem execPNorm_cases {rd : Nat} (h : execPNorm rd s = .next t) :
    (∃ f, t = s.fail f) ∨ ∃ p : Poly, p.length ≤ 512 ∧
      t = ((s.setPlen rd p.length).setMem (s.mem.write (coefAddr rd 0) p)).succeed := by
  unfold execPNorm at h
  rcases State.complete_bind h with ⟨f, -, rfl⟩ | ⟨_, _, h⟩
  · exact .inl ⟨f, rfl⟩
  rcases State.complete_setPoly h with ⟨f, rfl⟩ | ⟨hp, rfl⟩
  · exact .inl ⟨f, rfl⟩
  · exact .inr ⟨_, hp, rfl⟩

theorem execPAdd_cases {rd ra rb : Nat} (h : execPAdd rd ra rb s = .next t) :
    (∃ f, t = s.fail f) ∨ ∃ p : Poly, p.length ≤ 512 ∧
      t = ((s.setPlen rd p.length).setMem (s.mem.write (coefAddr rd 0) p)).succeed := by
  unfold execPAdd at h
  rcases State.complete_bind h with ⟨f, -, rfl⟩ | ⟨_, _, h⟩
  · exact .inl ⟨f, rfl⟩
  rcases State.complete_bind h with ⟨f, -, rfl⟩ | ⟨_, _, h⟩
  · exact .inl ⟨f, rfl⟩
  rcases State.complete_setPoly h with ⟨f, rfl⟩ | ⟨hp, rfl⟩
  · exact .inl ⟨f, rfl⟩
  · exact .inr ⟨_, hp, rfl⟩

theorem execPMul_cases {rd ra rb : Nat} (h : execPMul rd ra rb s = .next t) :
    (∃ f, t = s.fail f) ∨ ∃ p : Poly, p.length ≤ 512 ∧
      t = ((s.setPlen rd p.length).setMem (s.mem.write (coefAddr rd 0) p)).succeed := by
  unfold execPMul at h
  rcases State.complete_bind h with ⟨f, -, rfl⟩ | ⟨_, _, h⟩
  · exact .inl ⟨f, rfl⟩
  rcases State.complete_bind h with ⟨f, -, rfl⟩ | ⟨_, _, h⟩
  · exact .inl ⟨f, rfl⟩
  rcases State.complete_setPoly h with ⟨f, rfl⟩ | ⟨hp, rfl⟩
  · exact .inl ⟨f, rfl⟩
  · exact .inr ⟨_, hp, rfl⟩

theorem execPScale_cases {rd ra : Nat} (h : execPScale rd ra s = .next t) :
    (∃ f, t = s.fail f) ∨ ∃ p : Poly, p.length ≤ 512 ∧
      t = ((s.setPlen rd p.length).setMem (s.mem.write (coefAddr rd 0) p)).succeed := by
  unfold execPScale at h
  rcases State.complete_bind h with ⟨f, -, rfl⟩ | ⟨_, _, h⟩
  · exact .inl ⟨f, rfl⟩
  rcases State.complete_bind h with ⟨f, -, rfl⟩ | ⟨_, _, h⟩
  · exact .inl ⟨f, rfl⟩
  rcases State.complete_setPoly h with ⟨f, rfl⟩ | ⟨hp, rfl⟩
  · exact .inl ⟨f, rfl⟩
  · exact .inr ⟨_, hp, rfl⟩

theorem execRsGen_cases {rd : Nat} (h : execRsGen rd s = .next t) :
    (∃ f, t = s.fail f) ∨ ∃ p : Poly, p.length ≤ 512 ∧
      t = ((s.setPlen rd p.length).setMem (s.mem.write (coefAddr rd 0) p)).succeed := by
  unfold execRsGen at h
  rcases State.complete_bind h with ⟨f, -, rfl⟩ | ⟨_, _, h⟩
  · exact .inl ⟨f, rfl⟩
  rcases State.complete_setPoly h with ⟨f, rfl⟩ | ⟨hp, rfl⟩
  · exact .inl ⟨f, rfl⟩
  · exact .inr ⟨_, hp, rfl⟩

theorem execPMulmono_cases {rd ra : Nat} (h : execPMulmono rd ra s = .next t) :
    (∃ f, t = s.fail f) ∨ ∃ p : Poly, p.length ≤ 512 ∧
      t = ((s.setPlen rd p.length).setMem (s.mem.write (coefAddr rd 0) p)).succeed := by
  unfold execPMulmono at h
  rcases State.complete_bind h with ⟨f, -, rfl⟩ | ⟨_, _, h⟩
  · exact .inl ⟨f, rfl⟩
  rcases State.complete_bind h with ⟨f, -, rfl⟩ | ⟨_, _, h⟩
  · exact .inl ⟨f, rfl⟩
  split at h
  · rcases State.complete_setPoly h with ⟨f, rfl⟩ | ⟨hp, rfl⟩
    · exact .inl ⟨f, rfl⟩
    · exact .inr ⟨_, hp, rfl⟩
  · rcases State.complete_bind h with ⟨f, -, rfl⟩ | ⟨_, _, h⟩
    · exact .inl ⟨f, rfl⟩
    rcases State.complete_setPoly h with ⟨f, rfl⟩ | ⟨hp, rfl⟩
    · exact .inl ⟨f, rfl⟩
    · exact .inr ⟨_, hp, rfl⟩

/-! Commands that write two polynomial registers, or one and a result. -/

theorem execPDiv_cases {rd rc ra rb : Nat} (h : execPDiv rd rc ra rb s = .next t) :
    (∃ f, t = s.fail f) ∨ ∃ p q : Poly, p.length ≤ 512 ∧ q.length ≤ 512 ∧ t = State.succeed
      ((((s.setPlen rd p.length).setMem (s.mem.write (coefAddr rd 0) p)).setPlen rc q.length).setMem
        ((s.mem.write (coefAddr rd 0) p).write (coefAddr rc 0) q)) := by
  unfold execPDiv at h
  rcases State.complete_bind h with ⟨f, -, rfl⟩ | ⟨_, _, h⟩
  · exact .inl ⟨f, rfl⟩
  rcases State.complete_bind h with ⟨f, -, rfl⟩ | ⟨_, _, h⟩
  · exact .inl ⟨f, rfl⟩
  rcases State.complete_bind h with ⟨f, -, rfl⟩ | ⟨_, _, h⟩
  · exact .inl ⟨f, rfl⟩
  rcases State.complete_bind h with ⟨f, -, rfl⟩ | ⟨_, _, h⟩
  · exact .inl ⟨f, rfl⟩
  rcases State.complete_bind h with ⟨f, -, rfl⟩ | ⟨u, hu, h⟩
  · exact .inl ⟨f, rfl⟩
  obtain ⟨hp, rfl⟩ := State.setPoly_ok hu
  by_cases hq : (Prod.snd ‹Poly × Poly›).length ≤ 512
  · rw [State.setPoly_of_le hq] at h
    exact .inr ⟨_, _, hp, hq, State.complete_pure h⟩
  · rw [State.setPoly_of_gt (by omega)] at h
    exact .inl ⟨_, (Host.Outcome.next.inj h).symm⟩

theorem execRsKey_cases {rd rc ra : Nat} (h : execRsKey rd rc ra s = .next t) :
    (∃ f, t = s.fail f) ∨ ∃ (p q : Poly) (v : Word), p.length ≤ 512 ∧ q.length ≤ 512 ∧ t = State.succeed
      (((((s.setPlen rd p.length).setMem (s.mem.write (coefAddr rd 0) p)).setPlen rc q.length).setMem
        ((s.mem.write (coefAddr rd 0) p).write (coefAddr rc 0) q)).setResult 0 v) := by
  unfold execRsKey at h
  rcases State.complete_bind h with ⟨f, -, rfl⟩ | ⟨_, _, h⟩
  · exact .inl ⟨f, rfl⟩
  rcases State.complete_bind h with ⟨f, -, rfl⟩ | ⟨_, _, h⟩
  · exact .inl ⟨f, rfl⟩
  rcases State.complete_bind h with ⟨f, -, rfl⟩ | ⟨_, _, h⟩
  · exact .inl ⟨f, rfl⟩
  rcases State.complete_bind h with ⟨f, -, rfl⟩ | ⟨_, _, h⟩
  · exact .inl ⟨f, rfl⟩
  rcases State.complete_bind h with ⟨f, -, rfl⟩ | ⟨_, _, h⟩
  · exact .inl ⟨f, rfl⟩
  rcases State.complete_bind h with ⟨f, -, rfl⟩ | ⟨u, hu, h⟩
  · exact .inl ⟨f, rfl⟩
  obtain ⟨hp, rfl⟩ := State.setPoly_ok hu
  rcases State.complete_bind h with ⟨f, -, rfl⟩ | ⟨w, hw, h⟩
  · exact .inl ⟨f, rfl⟩
  obtain ⟨hq, rfl⟩ := State.setPoly_ok hw
  exact .inr ⟨_, _, _, hp, hq, State.complete_pure h⟩

theorem execRsSynd_cases {rd : Nat} (h : execRsSynd rd s = .next t) :
    (∃ f, t = s.fail f) ∨ ∃ (p : Poly) (v : Word), p.length ≤ 512 ∧
      t = (((s.setPlen rd p.length).setMem (s.mem.write (coefAddr rd 0) p)).setResult 0 v).succeed := by
  unfold execRsSynd at h
  rcases State.complete_bind h with ⟨f, -, rfl⟩ | ⟨_, _, h⟩
  · exact .inl ⟨f, rfl⟩
  rcases State.complete_bind h with ⟨f, -, rfl⟩ | ⟨_, _, h⟩
  · exact .inl ⟨f, rfl⟩
  rcases State.complete_bind h with ⟨f, -, rfl⟩ | ⟨_, _, h⟩
  · exact .inl ⟨f, rfl⟩
  rcases State.complete_bind h with ⟨f, -, rfl⟩ | ⟨u, hu, h⟩
  · exact .inl ⟨f, rfl⟩
  obtain ⟨hp, rfl⟩ := State.setPoly_ok hu
  exact .inr ⟨_, _, hp, State.complete_pure h⟩

theorem execPDeg_cases {ra : Nat} (h : execPDeg ra s = .next t) :
    (∃ f, t = s.fail f) ∨ ∃ u v w, t = (((s.setResult 0 u).setResult 1 v).setResult 2 w).succeed := by
  unfold execPDeg at h
  rcases State.complete_bind h with ⟨f, -, rfl⟩ | ⟨_, _, h⟩
  · exact .inl ⟨f, rfl⟩
  exact .inr ⟨_, _, _, State.complete_pure h⟩

/-! The other Reed-Solomon commands. -/

theorem execRsEnc_cases (h : execRsEnc s = .next t) :
    (∃ f, t = s.fail f) ∨ ∃ ec, rsEncode s.gfPrim s.base (s.cw (s.operand 0 - s.operand 1)) (s.operand 1) = .ok ec
      ∧ s.operand 0 ≤ 256 ∧ s.operand 1 ≠ 0 ∧ s.operand 1 < s.operand 0
      ∧ t = (s.setCw (s.operand 0 - s.operand 1) ec).succeed := by
  unfold execRsEnc at h
  rcases State.complete_bind h with ⟨f, -, rfl⟩ | ⟨_, h1, h⟩
  · exact .inl ⟨f, rfl⟩
  rcases State.complete_bind h with ⟨f, -, rfl⟩ | ⟨_, h2, h⟩
  · exact .inl ⟨f, rfl⟩
  rcases State.complete_bind h with ⟨f, -, rfl⟩ | ⟨_, h3, h⟩
  · exact .inl ⟨f, rfl⟩
  rcases State.complete_bind h with ⟨f, -, rfl⟩ | ⟨ec, hec, h⟩
  · exact .inl ⟨f, rfl⟩
  exact .inr ⟨ec, hec, by simpa using check_ok h1, by simpa using check_ok h2, by simpa using check_ok h3, State.complete_pure h⟩

theorem execRsChien_cases {ra : Nat} (h : execRsChien ra s = .next t) :
    (∃ f, t = s.fail f) ∨ ∃ p l, s.poly ra = .ok p ∧ chien s.gfPrim p = .ok l
      ∧ t = (((s.setLocs l).setLocCnt l.length).setResult 0 (Word.ofNat l.length)).succeed := by
  unfold execRsChien at h
  rcases State.complete_bind h with ⟨f, -, rfl⟩ | ⟨p, hp, h⟩
  · exact .inl ⟨f, rfl⟩
  rcases State.complete_bind h with ⟨f, -, rfl⟩ | ⟨l, hl, h⟩
  · exact .inl ⟨f, rfl⟩
  exact .inr ⟨p, l, hp, hl, State.complete_pure h⟩

theorem execRsForney_cases {ra : Nat} (h : execRsForney ra s = .next t) :
    (∃ f, t = s.fail f) ∨ ∃ p l, s.poly ra = .ok p ∧ forney s.gfPrim s.base p s.locs = .ok l
      ∧ t = ((s.setMags l).setResult 0 (Word.ofNat s.locCnt)).succeed := by
  unfold execRsForney at h
  rcases State.complete_bind h with ⟨f, -, rfl⟩ | ⟨p, hp, h⟩
  · exact .inl ⟨f, rfl⟩
  rcases State.complete_bind h with ⟨f, -, rfl⟩ | ⟨l, hl, h⟩
  · exact .inl ⟨f, rfl⟩
  exact .inr ⟨p, l, hp, hl, State.complete_pure h⟩

theorem execRsCorr_cases (h : execRsCorr s = .next t) :
    (∃ f, t = s.fail f) ∨ ∃ block, s.operand 0 ≤ 256
      ∧ rsCorrect s.gfPrim (s.operand 0) (s.locs.zip s.mags) (s.cw (s.operand 0)) = .ok block ∧ t = (s.setCw 0 block).succeed := by
  unfold execRsCorr at h
  rcases State.complete_bind h with ⟨f, -, rfl⟩ | ⟨_, h1, h⟩
  · exact .inl ⟨f, rfl⟩
  rcases State.complete_bind h with ⟨f, -, rfl⟩ | ⟨_, _, h⟩
  · exact .inl ⟨f, rfl⟩
  rcases State.complete_bind h with ⟨f, -, rfl⟩ | ⟨block, hb, h⟩
  · exact .inl ⟨f, rfl⟩
  exact .inr ⟨block, by simpa using check_ok h1, hb, State.complete_pure h⟩

theorem execRsDec_cases (h : execRsDec s = .next t) :
    (∃ f, t = s.fail f) ∨ t = (((s.setLocCnt 0).setResult 0 0).setResult 1 1).succeed
      ∨ ∃ d, s.operand 0 ≤ 256 ∧ rsDecode s.gfPrim s.base (s.cw (s.operand 0)) (s.operand 1) = .ok d
        ∧ t = (((((((s.setCw 0 d.block).setLocs d.locators).setMags d.magnitudes).setLocCnt d.locators.length).setResult 0
          (Word.ofNat d.locators.length)).setResult 1 0)).succeed := by
  unfold execRsDec at h
  rcases State.complete_bind h with ⟨f, -, rfl⟩ | ⟨_, h1, h⟩
  · exact .inl ⟨f, rfl⟩
  rcases State.complete_bind h with ⟨f, -, rfl⟩ | ⟨_, _, h⟩
  · exact .inl ⟨f, rfl⟩
  rcases State.complete_bind h with ⟨f, -, rfl⟩ | ⟨_, _, h⟩
  · exact .inl ⟨f, rfl⟩
  split at h
  · exact .inr (.inl (State.complete_pure h))
  · rcases State.complete_bind h with ⟨f, -, rfl⟩ | ⟨d, hd, h⟩
    · exact .inl ⟨f, rfl⟩
    · exact .inr (.inr ⟨d, by simpa using check_ok h1, hd, State.complete_pure h⟩)

/-! The bit-vector commands. -/

theorem execBvClear_eq {x : Bank} :
    execBvClear x s = .next ((s.setMem (s.mem.fill (bankBase x) 0x1000 0)).setBvSize x 0).succeed := rfl

theorem execBvAppend_cases {x : Bank} (h : execBvAppend x s = .next t) :
    (∃ f, t = s.fail f) ∨ ∃ f, s.bvSize x + s.operand 1 ≤ 32768
      ∧ t = ((s.setBvBits x (s.bvSize x) (s.operand 1) f).setBvSize x (s.bvSize x + s.operand 1)).succeed := by
  unfold execBvAppend at h
  rcases State.complete_bind h with ⟨f, -, rfl⟩ | ⟨_, _, h⟩
  · exact .inl ⟨f, rfl⟩
  rcases State.complete_bind h with ⟨f, -, rfl⟩ | ⟨_, h1, h⟩
  · exact .inl ⟨f, rfl⟩
  exact .inr ⟨_, by simpa using check_ok h1, State.complete_pure h⟩

theorem execBvSet_cases {x : Bank} (h : execBvSet x s = .next t) :
    (∃ f, t = s.fail f) ∨ s.operand 0 < 32768 ∧ t = (s.setBvBits x (s.operand 0) 1 fun _ => true).succeed := by
  unfold execBvSet at h
  rcases State.complete_bind h with ⟨f, -, rfl⟩ | ⟨_, h1, h⟩
  · exact .inl ⟨f, rfl⟩
  exact .inr ⟨by simpa using check_ok h1, State.complete_pure h⟩

theorem execBvXor_cases {x y : Bank} (h : execBvXor x y s = .next t) :
    (∃ f, t = s.fail f) ∨ ∃ f, t = (s.setBvBits x 0 (s.bvSize x) f).succeed := by
  unfold execBvXor at h
  rcases State.complete_bind h with ⟨f, -, rfl⟩ | ⟨_, _, h⟩
  · exact .inl ⟨f, rfl⟩
  exact .inr ⟨_, State.complete_pure h⟩

theorem execBvTobytes_cases {y : Bank} (h : execBvTobytes y s = .next t) :
    (∃ f, t = s.fail f) ∨ s.operand 1 + s.operand 2 ≤ 256
      ∧ t = (s.setCw (s.operand 1) (s.toBytes y (s.operand 0) (s.operand 2))).succeed := by
  unfold execBvTobytes at h
  rcases State.complete_bind h with ⟨f, -, rfl⟩ | ⟨_, _, h⟩
  · exact .inl ⟨f, rfl⟩
  rcases State.complete_bind h with ⟨f, -, rfl⟩ | ⟨_, h1, h⟩
  · exact .inl ⟨f, rfl⟩
  exact .inr ⟨by simpa using check_ok h1, State.complete_pure h⟩

theorem execBvSetsize_cases {x : Bank} (h : execBvSetsize x s = .next t) :
    (∃ f, t = s.fail f) ∨ s.operand 0 ≤ 32768 ∧ t = (s.setBvSize x (s.operand 0)).succeed := by
  unfold execBvSetsize at h
  rcases State.complete_bind h with ⟨f, -, rfl⟩ | ⟨_, h1, h⟩
  · exact .inl ⟨f, rfl⟩
  exact .inr ⟨by simpa using check_ok h1, State.complete_pure h⟩

/-! The bit-matrix commands. -/

theorem execBmInit_cases (h : execBmInit s = .next t) :
    (∃ f, t = s.fail f) ∨ (1 ≤ s.operand 0 ∧ 1 ≤ s.operand 1) ∧ (s.operand 0 ≤ 256 ∧ s.operand 1 ≤ 256)
      ∧ t = (s.newMatrix (s.operand 0) (s.operand 1)).succeed := by
  unfold execBmInit at h
  rcases State.complete_bind h with ⟨f, -, rfl⟩ | ⟨_, h1, h⟩
  · exact .inl ⟨f, rfl⟩
  rcases State.complete_bind h with ⟨f, -, rfl⟩ | ⟨_, h2, h⟩
  · exact .inl ⟨f, rfl⟩
  exact .inr ⟨by simpa using check_ok h1, by simpa using check_ok h2, State.complete_pure h⟩

theorem execBmClear_eq : execBmClear s = .next (s.newMatrix s.bmW s.bmH).succeed := rfl

theorem execBmSet_cases (h : execBmSet s = .next t) :
    (∃ f, t = s.fail f) ∨ (s.operand 0 < s.bmW ∧ s.operand 1 < s.bmH)
      ∧ t = (s.setBmRow (s.operand 0) (s.operand 1) 1 fun _ => true).succeed := by
  unfold execBmSet at h
  rcases State.complete_bind h with ⟨f, -, rfl⟩ | ⟨_, h1, h⟩
  · exact .inl ⟨f, rfl⟩
  exact .inr ⟨by simpa using check_ok h1, State.complete_pure h⟩

theorem execBmSetregion_cases (h : execBmSetregion s = .next t) :
    (∃ f, t = s.fail f) ∨ (1 ≤ s.operand 2 ∧ 1 ≤ s.operand 3)
      ∧ (s.operand 0 + s.operand 2 ≤ s.bmW ∧ s.operand 1 + s.operand 3 ≤ s.bmH)
      ∧ t = State.succeed ((List.range (s.operand 3)).foldl
          (fun u k => u.setBmRow (s.operand 0) (s.operand 1 + k) (s.operand 2) fun _ => true) s) := by
  unfold execBmSetregion at h
  rcases State.complete_bind h with ⟨f, -, rfl⟩ | ⟨_, h1, h⟩
  · exact .inl ⟨f, rfl⟩
  rcases State.complete_bind h with ⟨f, -, rfl⟩ | ⟨_, h2, h⟩
  · exact .inl ⟨f, rfl⟩
  exact .inr ⟨by simpa using check_ok h1, by simpa using check_ok h2, State.complete_pure h⟩

theorem execBmTopleft_eq : execBmTopleft s = .next (s.setScan s.topLeft).succeed := rfl

theorem execBmBotright_eq : execBmBotright s = .next (s.setScan s.bottomRight).succeed := rfl

/-- A scan's report is three result registers. -/
theorem State.setScan_eq (s : State) (p : Option (Nat × Nat)) :
    ∃ u v w, s.setScan p = ((s.setResult 0 u).setResult 1 v).setResult 2 w := by
  rcases p with _ | ⟨x, y⟩ <;> exact ⟨_, _, _, rfl⟩

theorem execBmRow_cases {x : Bank} (h : execBmRow x s = .next t) :
    (∃ f, t = s.fail f) ∨ ∃ f, s.operand 0 < s.bmH ∧ t = ((s.setBvBits x 0 s.bmW f).setBvSize x s.bmW).succeed := by
  unfold execBmRow at h
  rcases State.complete_bind h with ⟨f, -, rfl⟩ | ⟨_, h1, h⟩
  · exact .inl ⟨f, rfl⟩
  exact .inr ⟨_, by simpa using check_ok h1, State.complete_pure h⟩

theorem execBmCol_cases {x : Bank} (h : execBmCol x s = .next t) :
    (∃ f, t = s.fail f) ∨ ∃ f, s.operand 0 < s.bmW ∧ t = ((s.setBvBits x 0 s.bmH f).setBvSize x s.bmH).succeed := by
  unfold execBmCol at h
  rcases State.complete_bind h with ⟨f, -, rfl⟩ | ⟨_, h1, h⟩
  · exact .inl ⟨f, rfl⟩
  exact .inr ⟨_, by simpa using check_ok h1, State.complete_pure h⟩

/-! The symbol commands and the mask commands. -/

theorem execSymInit_cases (h : execSymInit s = .next t) :
    (∃ f, t = s.fail f) ∨ (1 ≤ s.operand 0 ∧ s.operand 0 ≤ 40)
      ∧ t = ((s.setSymV (s.operand 0)).setSymGrid (Grid.blank (4 * s.operand 0 + 17))).succeed := by
  unfold execSymInit at h
  rcases State.complete_bind h with ⟨f, -, rfl⟩ | ⟨_, h1, h⟩
  · exact .inl ⟨f, rfl⟩
  exact .inr ⟨by simpa using check_ok h1, State.complete_pure h⟩

theorem execSymSet_cases (h : execSymSet s = .next t) :
    (∃ f, t = s.fail f) ∨ ∃ c, s.symN ≠ 0 ∧ (s.operand 0 < s.symN ∧ s.operand 1 < s.symN) ∧ Cell.ofWord (s.latch.getD 2 0) = some c
      ∧ t = (s.setSymCell (s.operand 0) (s.operand 1) c).succeed := by
  unfold execSymSet at h
  rcases State.complete_bind h with ⟨f, -, rfl⟩ | ⟨_, h1, h⟩
  · exact .inl ⟨f, rfl⟩
  rcases State.complete_bind h with ⟨f, -, rfl⟩ | ⟨_, h2, h⟩
  · exact .inl ⟨f, rfl⟩
  split at h
  · exact .inl ⟨_, (Host.Outcome.next.inj h).symm⟩
  · exact .inr ⟨_, by simpa using check_ok h1, by simpa using check_ok h2, ‹_›, State.complete_pure h⟩

theorem execEmbBasic_cases (h : execEmbBasic s = .next t) :
    (∃ f, t = s.fail f) ∨ ∃ g, embedBasic s.symV s.symN s.symGrid = .ok g ∧ t = (s.setSymGrid g).succeed := by
  unfold execEmbBasic at h
  rcases State.complete_bind h with ⟨f, -, rfl⟩ | ⟨_, _, h⟩
  · exact .inl ⟨f, rfl⟩
  rcases State.complete_bind h with ⟨f, -, rfl⟩ | ⟨g, hg, h⟩
  · exact .inl ⟨f, rfl⟩
  exact .inr ⟨g, hg, State.complete_pure h⟩

theorem execEmbType_cases (h : execEmbType s = .next t) :
    (∃ f, t = s.fail f) ∨ ∃ w, typeBits (s.operand 0) (s.operand 1) = .ok w
      ∧ t = (s.setSymGrid (embedType s.symN w s.symGrid)).succeed := by
  unfold execEmbType at h
  rcases State.complete_bind h with ⟨f, -, rfl⟩ | ⟨_, _, h⟩
  · exact .inl ⟨f, rfl⟩
  rcases State.complete_bind h with ⟨f, -, rfl⟩ | ⟨_, _, h⟩
  · exact .inl ⟨f, rfl⟩
  rcases State.complete_bind h with ⟨f, -, rfl⟩ | ⟨w, hw, h⟩
  · exact .inl ⟨f, rfl⟩
  exact .inr ⟨w, hw, State.complete_pure h⟩

theorem execEmbVersion_cases (h : execEmbVersion s = .next t) :
    (∃ f, t = s.fail f) ∨ t = (s.setSymGrid (embedVersion s.symV s.symN s.symGrid)).succeed := by
  unfold execEmbVersion at h
  rcases State.complete_bind h with ⟨f, -, rfl⟩ | ⟨_, _, h⟩
  · exact .inl ⟨f, rfl⟩
  exact .inr (State.complete_pure h)

theorem execEmbData_cases {y : Bank} (h : execEmbData y s = .next t) :
    (∃ f, t = s.fail f) ∨ ∃ g, embedData s.symN (s.operand 0) (s.bvBits y) s.symGrid = .ok g ∧ t = (s.setSymGrid g).succeed := by
  unfold execEmbData at h
  rcases State.complete_bind h with ⟨f, -, rfl⟩ | ⟨_, _, h⟩
  · exact .inl ⟨f, rfl⟩
  rcases State.complete_bind h with ⟨f, -, rfl⟩ | ⟨_, _, h⟩
  · exact .inl ⟨f, rfl⟩
  rcases State.complete_bind h with ⟨f, -, rfl⟩ | ⟨g, hg, h⟩
  · exact .inl ⟨f, rfl⟩
  exact .inr ⟨g, hg, State.complete_pure h⟩

theorem execSymBuild_cases {y : Bank} (h : execSymBuild y s = .next t) :
    (∃ f, t = s.fail f) ∨ ∃ g, (1 ≤ s.operand 1 ∧ s.operand 1 ≤ 40)
      ∧ buildSymbol (s.bvBits y) (s.operand 0) (s.operand 1) (s.operand 2) = .ok g
      ∧ t = ((s.setSymV (s.operand 1)).setSymGrid g).succeed := by
  unfold execSymBuild at h
  rcases State.complete_bind h with ⟨f, -, rfl⟩ | ⟨_, h1, h⟩
  · exact .inl ⟨f, rfl⟩
  rcases State.complete_bind h with ⟨f, -, rfl⟩ | ⟨_, _, h⟩
  · exact .inl ⟨f, rfl⟩
  rcases State.complete_bind h with ⟨f, -, rfl⟩ | ⟨_, _, h⟩
  · exact .inl ⟨f, rfl⟩
  rcases State.complete_bind h with ⟨f, -, rfl⟩ | ⟨g, hg, h⟩
  · exact .inl ⟨f, rfl⟩
  exact .inr ⟨g, by simpa using check_ok h1, hg, State.complete_pure h⟩

theorem execSymExport_cases (h : execSymExport s = .next t) :
    (∃ f, t = s.fail f) ∨ s.symN ≠ 0 ∧ t = State.succeed ((List.range s.symN).foldl
      (fun u y => u.setBmRow 0 y s.symN fun x => decide (s.symGrid.cell x y = .black)) (s.newMatrix s.symN s.symN)) := by
  unfold execSymExport at h
  rcases State.complete_bind h with ⟨f, -, rfl⟩ | ⟨_, h1, h⟩
  · exact .inl ⟨f, rfl⟩
  exact .inr ⟨by simpa using check_ok h1, State.complete_pure h⟩

theorem execMaskPenalty_cases (h : execMaskPenalty s = .next t) :
    (∃ f, t = s.fail f) ∨ ∃ a b c d e, t = State.succeed
      (((((s.setResult 1 a).setResult 2 b).setResult 3 c).setResult 4 d).setResult 0 e) := by
  unfold execMaskPenalty at h
  rcases State.complete_bind h with ⟨f, -, rfl⟩ | ⟨_, _, h⟩
  · exact .inl ⟨f, rfl⟩
  exact .inr ⟨_, _, _, _, _, State.complete_pure h⟩

theorem execMaskSelect_cases {y : Bank} (h : execMaskSelect y s = .next t) :
    (∃ f, t = s.fail f) ∨ ∃ r, (1 ≤ s.operand 1 ∧ s.operand 1 ≤ 40) ∧ selectMask (s.bvBits y) (s.operand 0) (s.operand 1) = .ok r
      ∧ t = State.succeed (((((s.setPens (Vector.ofFn fun m => Word.ofNat (r.totals.getD m.val 0))).setSymV
          (s.operand 1)).setSymGrid r.grid).setResult 0 (Word.ofNat r.best)).setResult 1 (Word.ofNat r.minimum)) := by
  unfold execMaskSelect at h
  rcases State.complete_bind h with ⟨f, -, rfl⟩ | ⟨_, h1, h⟩
  · exact .inl ⟨f, rfl⟩
  rcases State.complete_bind h with ⟨f, -, rfl⟩ | ⟨_, _, h⟩
  · exact .inl ⟨f, rfl⟩
  rcases State.complete_bind h with ⟨f, -, rfl⟩ | ⟨r, hr, h⟩
  · exact .inl ⟨f, rfl⟩
  exact .inr ⟨r, by simpa using check_ok h1, hr, State.complete_pure h⟩

end Sys2Proof.Machine
end

