-- ==== Sys2Proof/Laws/Grid.lean ====
section
/-! SUPPORT. Cells of the working grid after writes, cells as two-bit codes, and what storing a grid does to every bit of the memories
(20_memory.md R204, 46_symbol.md R700). -/

namespace Sys2Proof.Machine

/-! Cell codes. -/

@[simp] theorem Cell.ofCode_codeBit (c : Cell) : Cell.ofCode (c.codeBit 0) (c.codeBit 1) = c := by cases c <;> rfl

theorem Cell.codeBit_ofCode (b0 b1 : Bool) : (Cell.ofCode b0 b1).codeBit 1 = b1 ∧ (b1 = false → (Cell.ofCode b0 b1).codeBit 0 = b0) := by
  revert b0 b1
  decide

@[simp] theorem Cell.ofWord_toWord (c : Cell) : Cell.ofWord c.toWord = some c := by cases c <;> rfl

theorem Cell.toWord_of_ofWord {v : Word} {c : Cell} (h : Cell.ofWord v = some c) : c.toWord = v := by
  unfold Cell.ofWord at h
  split at h
  · cases h
    exact Eq.symm ‹_›
  split at h
  · cases h
    exact Eq.symm ‹_›
  split at h
  · cases h
    exact Eq.symm ‹_›
  · cases h

/-! Grids. -/

/-- A grid is `n` rows of `n` cells. -/
def Grid.isSquare (g : Grid) (n : Nat) : Prop := g.size = n ∧ ∀ y, y < n → (g.getD y #[]).size = n

theorem Grid.blank_isSquare (n : Nat) : (Grid.blank n).isSquare n := by
  refine ⟨by simp [Grid.blank], fun y hy => ?_⟩
  simp [Grid.blank, hy]

theorem Grid.blank_cell {n x y : Nat} (hx : x < n) (hy : y < n) : (Grid.blank n).cell x y = .empty := by
  simp [Grid.cell, Grid.blank, hx, hy]

theorem Grid.put_isSquare {g : Grid} {n : Nat} (h : g.isSquare n) (x y : Nat) (c : Cell) : (g.put x y c).isSquare n := by
  refine ⟨by simp [Grid.put, h.1], fun z hz => ?_⟩
  have hs : z < g.size := h.1 ▸ hz
  have hr := h.2 z hz
  simp only [Grid.put, Array.getD_eq_getD_getElem?, Array.getElem?_setIfInBounds] at hr ⊢
  by_cases hy : y = z
  · subst hy
    simpa [hs] using hr
  · simpa [hy] using hr

/-- Writing a cell of a grid changes that cell and no other. -/
theorem Grid.put_cell {g : Grid} {n x y : Nat} (h : g.isSquare n) (hx : x < n) (hy : y < n) (c : Cell) (i j : Nat) :
    (g.put x y c).cell i j = if i = x ∧ j = y then c else g.cell i j := by
  have hs : y < g.size := h.1 ▸ hy
  have hr := h.2 y hy
  simp only [Grid.cell, Grid.put, Array.getD_eq_getD_getElem?, Array.getElem?_setIfInBounds] at hr ⊢
  by_cases hj : y = j
  · subst hj
    by_cases hi : x = i
    · subst hi
      simp [hs] at hr ⊢
      simp [hr, hx]
    · simp [hs, hi, Ne.symm hi]
  · simp [hj, Ne.symm hj]

/-! Storing a grid. -/

/-- The rows of cells that `Memory.storeGrid` stores, one by one, and what every bit is after it. -/
theorem Memory.read_storeGrid (m : Memory) {n : Nat} (hn : n ≤ 177) (g : Grid) (a j : Nat) (hj : j < 8) :
    ((m.storeGrid n g).read a).getLsbD j =
      if 0xA000 ≤ a ∧ (a - 0xA000) / 48 < n ∧ 8 * ((a - 0xA000) % 48) + j < 2 * n then
        (g.cell ((8 * ((a - 0xA000) % 48) + j) / 2) ((a - 0xA000) / 48)).codeBit ((8 * ((a - 0xA000) % 48) + j) % 2)
      else (m.read a).getLsbD j := by
  have key : ∀ k, k ≤ n →
      (((List.range k).foldl (fun m y => m.writeBits (symRowBase y) 0 (2 * n) fun i => (g.cell (i / 2) y).codeBit (i % 2)) m).read
          a).getLsbD j =
        if 0xA000 ≤ a ∧ (a - 0xA000) / 48 < k ∧ 8 * ((a - 0xA000) % 48) + j < 2 * n then
          (g.cell ((8 * ((a - 0xA000) % 48) + j) / 2) ((a - 0xA000) / 48)).codeBit ((8 * ((a - 0xA000) % 48) + j) % 2)
        else (m.read a).getLsbD j := by
    intro k
    induction k with
    | zero => simp
    | succ k ih =>
      intro hk
      rw [List.range_succ, List.foldl_append, List.foldl_cons, List.foldl_nil, Memory.read_writeBits _ _ _ _ _ _ _ hj, ih (by omega)]
      have hbase : symRowBase k = 0xA000 + 48 * k := rfl
      have hb : (0xA000 ≤ a ∧ (a - 0xA000) / 48 = k ∧ 8 * ((a - 0xA000) % 48) + j < 2 * n) ↔
          (8 * symRowBase k + 0 ≤ 8 * a + j ∧ 8 * a + j < 8 * symRowBase k + 0 + 2 * n) := by omega
      by_cases hrow : 0xA000 ≤ a ∧ (a - 0xA000) / 48 = k ∧ 8 * ((a - 0xA000) % 48) + j < 2 * n
      · have hnew : 0xA000 ≤ a ∧ (a - 0xA000) / 48 < k + 1 ∧ 8 * ((a - 0xA000) % 48) + j < 2 * n := by omega
        have e : 8 * a + j - (8 * symRowBase k + 0) = 8 * ((a - 0xA000) % 48) + j := by omega
        rw [if_pos (hb.mp hrow), if_pos hnew, e, hrow.2.1]
      · rw [if_neg (fun h => hrow (hb.mpr h))]
        have hiff : (0xA000 ≤ a ∧ (a - 0xA000) / 48 < k ∧ 8 * ((a - 0xA000) % 48) + j < 2 * n) ↔
            (0xA000 ≤ a ∧ (a - 0xA000) / 48 < k + 1 ∧ 8 * ((a - 0xA000) % 48) + j < 2 * n) := by omega
        simp only [hiff]
  exact key n (Nat.le_refl n)

/-! The current symbol as a grid. -/

theorem State.symGrid_isSquare (s : State) : s.symGrid.isSquare s.symN := by
  refine ⟨by simp [State.symGrid], fun y hy => ?_⟩
  simp [State.symGrid, hy]

/-- A row's part of the memory shows the same cells as the whole. -/
theorem cellIn_window (m : Memory) {x y : Nat} (hx : x < 192) :
    cellIn (m.window (symRowBase y) (symRowBase (y + 1))) x y = cellIn m x y := by
  have hb (i : Nat) (hi : i < 384) :
      Memory.bit (m.window (symRowBase y) (symRowBase (y + 1))) (symRowBase y) i = m.bit (symRowBase y) i := by
    rw [Memory.bit, Memory.bit, Memory.read_window m]
    simp only [symRowBase]
    omega
  rw [cellIn, cellIn, hb _ (by omega), hb _ (by omega)]

/-- The working grid's cells are the symbol's, and both are white outside it. -/
theorem State.symGrid_cell (s : State) (h : s.symN ≤ 177) (x y : Nat) : s.symGrid.cell x y = s.symCell x y := by
  rw [Grid.cell, State.symGrid, State.symCell]
  by_cases hy : y < s.symN
  · by_cases hx : x < s.symN
    · simp only [Array.getD_eq_getD_getElem?, List.getElem?_toArray, List.getElem?_map, List.getElem?_range hy, Option.map_some,
        Option.getD_some, List.getElem?_range hx]
      rw [if_pos ⟨hx, hy⟩, cellIn_window _ (by omega)]
    · simp [hy, hx]
  · simp [hy]

end Sys2Proof.Machine
end

