-- ==== Sys2Proof/Laws/HostPort.lean ====
section
/-! SUPPORT. What one step is: a completion, an access that is served, or nothing; and which place each offset of the window is. -/

namespace Sys2Proof.Machine

variable {s : State}

/-! The step. -/

@[simp] theorem State.due_eq_false_of_idle (h : s.status.busy = false) : s.due = false := by simp [State.due, h]

theorem State.due_eq_false_of_waiting {x : HostInput} {rest : List HostInput} (hw : s.wait ≠ 0) (hh : s.host = x :: rest) :
    s.due = false := by simp [State.due, hw, hh]

theorem State.due_eq_true (hb : s.status.busy = true) (h : s.wait = 0 ∨ s.host = []) : s.due = true := by
  rcases h with h | h <;> simp [State.due, hb, h]

theorem State.due_eq_true_iff : s.due = true ↔ s.status.busy = true ∧ (s.wait = 0 ∨ s.host = []) := by
  simp [State.due]

/-- A step while the running command is due is its completion. -/
theorem step_of_due (h : s.due = true) : step s = s.runCommand := by simp [step, h]

/-- A step otherwise serves what the outside world asks next. -/
theorem step_of_asked {x : HostInput} {rest : List HostInput} (hd : s.due = false) (hh : s.host = x :: rest) :
    step s = (s.take rest).serve x := by simp [step, hd, hh]

/-- Of an idle block nothing is asked: nothing happens. -/
theorem step_of_quiet (hd : s.due = false) (hh : s.host = []) : step s = .next s := by simp [step, hd, hh]

/-- All that a step can be. -/
theorem step_cases (s : State) :
    (s.due = true ∧ step s = s.runCommand) ∨ (s.due = false ∧ s.host = [] ∧ step s = .next s)
      ∨ (s.due = false ∧ ∃ x rest, s.host = x :: rest ∧ step s = (s.take rest).serve x) := by
  by_cases hd : s.due = true
  · exact .inl ⟨hd, step_of_due hd⟩
  · have hd : s.due = false := by simpa using hd
    cases hh : s.host with
    | nil => exact .inr (.inl ⟨hd, rfl, step_of_quiet hd hh⟩)
    | cons x rest => exact .inr (.inr ⟨hd, x, rest, rfl, step_of_asked hd hh⟩)

theorem serve_read {offset : BitVec 16} (h : offset.toNat % 4 = 0) :
    s.serve (.read .word offset) = .next (s.hostRead (placeAt offset.toNat)) := by
  simp [State.serve, accessProblem, h]

theorem serve_write {offset : BitVec 16} {v : Word} (h : offset.toNat % 4 = 0) :
    s.serve (.write .word offset v) = .next (s.hostWrite (placeAt offset.toNat) v) := by
  simp [State.serve, accessProblem, h]

/-- A write while idle. -/
theorem step_idle_write {o : BitVec 16} {v : Word} {rest : List HostInput} (hb : s.status.busy = false)
    (hh : s.host = .write .word o v :: rest) (h4 : o.toNat % 4 = 0) :
    step s = .next ((s.take rest).writeIdle (placeAt o.toNat) v) := by
  rw [step_of_asked (State.due_eq_false_of_idle hb) hh, serve_write h4, State.hostWrite]
  simp [hb]

/-- A write while a command runs. -/
theorem step_busy_write {o : BitVec 16} {v : Word} {rest : List HostInput} (hb : s.status.busy = true) (hw : s.wait ≠ 0)
    (hh : s.host = .write .word o v :: rest) (h4 : o.toNat % 4 = 0) :
    step s = .next ((s.take rest).writeBusy (placeAt o.toNat) v) := by
  rw [step_of_asked (State.due_eq_false_of_waiting hw hh) hh, serve_write h4, State.hostWrite]
  simp [hb]

/-- A read while idle. -/
theorem step_idle_read {o : BitVec 16} {rest : List HostInput} (hb : s.status.busy = false)
    (hh : s.host = .read .word o :: rest) (h4 : o.toNat % 4 = 0) :
    step s = .next { s.take rest with rdata := (s.take rest).readPlace (placeAt o.toNat) } := by
  rw [step_of_asked (State.due_eq_false_of_idle hb) hh, serve_read h4, State.hostRead]
  simp [hb]

/-- A served access answers a next state or a refusal, and a next state only for an access that the spec defines. -/
theorem serve_cases (s : State) (x : HostInput) :
    (x = .reset ∧ s.serve x = .next s.platformReset)
      ∨ (∃ o, x = .read .word o ∧ o.toNat % 4 = 0 ∧ s.serve x = .next (s.hostRead (placeAt o.toNat)))
      ∨ (∃ o v, x = .write .word o v ∧ o.toNat % 4 = 0 ∧ s.serve x = .next (s.hostWrite (placeAt o.toNat) v))
      ∨ (x.defined = false ∧ ∃ r, s.serve x = .refused r) := by
  cases x with
  | reset => exact .inl ⟨rfl, rfl⟩
  | read w o =>
    by_cases h : o.toNat % 4 = 0
    · cases w
      · exact .inr (.inr (.inr ⟨rfl, _, rfl⟩))
      · exact .inr (.inr (.inr ⟨rfl, _, rfl⟩))
      · exact .inr (.inl ⟨o, rfl, h, serve_read h⟩)
    · refine .inr (.inr (.inr ⟨by simp [HostInput.defined, h], ?_⟩))
      cases w <;> simp [State.serve, accessProblem, h]
  | write w o v =>
    by_cases h : o.toNat % 4 = 0
    · cases w
      · exact .inr (.inr (.inr ⟨rfl, _, rfl⟩))
      · exact .inr (.inr (.inr ⟨rfl, _, rfl⟩))
      · exact .inr (.inr (.inl ⟨o, v, rfl, h, serve_write h⟩))
    · refine .inr (.inr (.inr ⟨by simp [HostInput.defined, h], ?_⟩))
      cases w <;> simp [State.serve, accessProblem, h]

/-! The places of the window. -/

/-- The word of the window, by its offset, that each place stands for (10_state.md R103, 20_memory.md R204). -/
def Place.covers (a : Nat) : Place → Prop
  | .id => a = 0x000
  | .status => a = 0x004
  | .errcode => a = 0x008
  | .cmd => a = 0x00C
  | .arg i => i < 4 ∧ a = 0x010 + 4 * i
  | .result i => i < 8 ∧ a = 0x020 + 4 * i
  | .gfPrim => a = 0x040
  | .gfBase => a = 0x044
  | .bvSize .A => a = 0x048
  | .bvSize .B => a = 0x04C
  | .bmDim => a = 0x050
  | .symDim => a = 0x054
  | .locCnt => a = 0x058
  | .plen r => r < 8 ∧ a = 0x060 + 4 * r
  | .pen m => m < 8 ∧ a = 0x080 + 4 * m
  | .cw w => w < 64 ∧ a = 0x0400 + 4 * w
  | .loc k => k < 255 ∧ a = 0x0800 + 4 * k
  | .mag k => k < 255 ∧ a = 0x0C00 + 4 * k
  | .bank .A w => w < 1024 ∧ a = 0x1000 + 4 * w
  | .bank .B w => w < 1024 ∧ a = 0x2000 + 4 * w
  | .bmWord w => w < 2048 ∧ a = 0x4000 + 4 * w
  | .coef w => w < 1024 ∧ a = 0x8000 + 4 * w
  | .sym y w => y < 177 ∧ w < 12 ∧ a = 0xA000 + 4 * (12 * y + w)
  | .reserved => a = 0x05C ∨ (0x0A0 ≤ a ∧ a < 0x0400) ∨ (0x0500 ≤ a ∧ a < 0x0800) ∨ a = 0x0BFC ∨ a = 0x0FFC
      ∨ (0x3000 ≤ a ∧ a < 0x4000) ∨ (0x6000 ≤ a ∧ a < 0x8000) ∨ (0x9000 ≤ a ∧ a < 0xA000) ∨ 0xC130 ≤ a

theorem ite_elim {α : Type} {c : Prop} [Decidable c] {x y p : α} {Q : Prop} (h : (if c then x else y) = p)
    (h1 : c → x = p → Q) (h2 : ¬ c → y = p → Q) : Q := by
  by_cases hc : c
  · exact h1 hc (by simpa [hc] using h)
  · exact h2 hc (by simpa [hc] using h)

/-- Where each place lies: what follows of an aligned offset from its place. -/
theorem placeAt_cases (a : Nat) (h4 : a % 4 = 0) : (placeAt a).covers a := by
  generalize hp : placeAt a = p
  unfold placeAt controlPlace at hp
  repeat' refine ite_elim hp (fun _ hp => ?_) (fun _ hp => ?_)
  all_goals
    subst hp
    simp only [Place.covers]
    omega

theorem ite_intro {α : Type} {c : Prop} [Decidable c] {x y p : α} (h1 : c → x = p) (h2 : ¬ c → y = p) :
    (if c then x else y) = p := by
  by_cases hc : c
  · rw [if_pos hc, h1 hc]
  · rw [if_neg hc, h2 hc]

/-- No two places share a word of the window: an offset that a place stands for is that place. -/
theorem placeAt_of_covers {p : Place} {a : Nat} (hp : p.covers a) (h4 : a % 4 = 0) : placeAt a = p := by
  rcases p with _ | _ | _ | _ | i | i | _ | _ | (_ | _) | _ | _ | _ | i | i | _ | _ | _ | (_ | _) | _ | _ | _ | _ <;>
    simp only [Place.covers] at hp <;> unfold placeAt controlPlace <;>
    repeat' (first | (exfalso; omega) | refine ite_intro (fun _ => ?_) (fun _ => ?_))
  all_goals first | rfl | (congr 1 <;> omega)

/-- A reserved offset's place is reserved. -/
theorem placeAt_reserved {a : Nat} (h : reservedOffset a = true) (h4 : a % 4 = 0) : placeAt a = .reserved := by
  have hc := placeAt_cases a h4
  simp only [reservedOffset, windowOffset, Bool.not_eq_true', Bool.or_eq_false_iff, Bool.and_eq_false_iff,
    decide_eq_false_iff_not] at h
  generalize placeAt a = p at hc ⊢
  rcases p with _ | _ | _ | _ | _ | _ | _ | _ | (_ | _) | _ | _ | _ | _ | _ | _ | _ | _ | (_ | _) | _ | _ | _ | _ <;>
    first | rfl | (simp only [Place.covers] at hc; omega)

/-- A write to a read-only register or to a reserved offset changes nothing. -/
theorem hostWrite_ignored (s : State) {a : Nat} (v : Word) (h : readOnlyOffset a = true ∨ reservedOffset a = true)
    (h4 : a % 4 = 0) : s.hostWrite (placeAt a) v = s := by
  rcases h with h | h
  · have hc := placeAt_cases a h4
    simp only [readOnlyOffset, Bool.or_eq_true, Bool.and_eq_true, decide_eq_true_eq] at h
    generalize placeAt a = p at hc ⊢
    rcases p with _ | _ | _ | _ | _ | _ | _ | _ | (_ | _) | _ | _ | _ | _ | _ | _ | _ | _ | (_ | _) | _ | _ | _ | _ <;>
      first | (simp only [Place.covers] at hc; omega) | (unfold State.hostWrite State.writeBusy State.writeIdle; split <;> rfl)
  · rw [placeAt_reserved h h4]
    unfold State.hostWrite State.writeBusy State.writeIdle
    split <;> rfl

/-- A write to a configuration register or a window while a command runs only sets `HAZ`. -/
theorem writeBusy_hazard (s : State) {a : Nat} (v : Word) (h : hazardOffset a = true) (h4 : a % 4 = 0) :
    s.writeBusy (placeAt a) v = s.setHaz := by
  have hc := placeAt_cases a h4
  simp only [hazardOffset, windowOffset, Bool.or_eq_true, Bool.and_eq_true, decide_eq_true_eq] at h
  generalize placeAt a = p at hc ⊢
  rcases p with _ | _ | _ | _ | _ | _ | _ | _ | (_ | _) | _ | _ | _ | _ | _ | _ | _ | _ | (_ | _) | _ | _ | _ | _ <;>
    first | rfl | (simp only [Place.covers] at hc; omega)

/-- The places that commands write are those whose reads while busy are unspecified. -/
theorem commandWritten_placeAt {a : Nat} (h4 : a % 4 = 0) : (placeAt a).commandWritten = unspecifiedOffset a := by
  have hc := placeAt_cases a h4
  generalize placeAt a = p at hc ⊢
  symm
  rcases p with _ | _ | _ | _ | _ | _ | _ | _ | (_ | _) | _ | _ | _ | _ | _ | _ | _ | _ | (_ | _) | _ | _ | _ | _ <;>
    simp only [Place.covers] at hc <;> simp only [Place.commandWritten] <;>
    simp only [unspecifiedOffset, windowOffset, Bool.or_eq_true, Bool.and_eq_true, decide_eq_true_eq, Bool.or_eq_false_iff,
      Bool.and_eq_false_iff, decide_eq_false_iff_not] <;> omega

end Sys2Proof.Machine
end

