-- ==== Sys2Proof/Laws/PerInstr.lean ====
section
/-! SUPPORT. Lemmas made per command: family `Encoding`. The word of a well-formed command has zeros in bits 11, 15, 19 and 23 to 31,
which no field of 30_encoding.md R301 uses. -/

namespace Sys2Proof.Laws.Encoding

/-- The bits that no command's fields use are zero in its word. -/
def Statement (i : Instr) : Prop := i.wellFormed = true → encode i &&& 0xFF888800 = 0

theorem nop : Statement .nop := fun _ => by decide

theorem gfAdd : Statement .gfAdd := fun _ => by decide

theorem gfMul : Statement .gfMul := fun _ => by decide

theorem gfInv : Statement .gfInv := fun _ => by decide

theorem gfExp : Statement .gfExp := fun _ => by decide

theorem gfLog : Statement .gfLog := fun _ => by decide

theorem pZero (rd : Nat) : Statement (.pZero rd) := by
  intro h
  have key : ∀ r1 : Fin 8, encode (.pZero r1.val) &&& 0xFF888800 = 0 := by decide +kernel
  exact key ⟨rd, of_decide_eq_true h⟩

theorem pMono (rd : Nat) : Statement (.pMono rd) := by
  intro h
  have key : ∀ r1 : Fin 8, encode (.pMono r1.val) &&& 0xFF888800 = 0 := by decide +kernel
  exact key ⟨rd, of_decide_eq_true h⟩

theorem pCopy (rd ra : Nat) : Statement (.pCopy rd ra) := by
  intro h
  simp only [Instr.wellFormed, Bool.and_eq_true] at h
  obtain ⟨h1, h2⟩ := h
  have key : ∀ r1 r2 : Fin 8, encode (.pCopy r1.val r2.val) &&& 0xFF888800 = 0 := by decide +kernel
  exact key ⟨rd, of_decide_eq_true h1⟩ ⟨ra, of_decide_eq_true h2⟩

theorem pNorm (rd : Nat) : Statement (.pNorm rd) := by
  intro h
  have key : ∀ r1 : Fin 8, encode (.pNorm r1.val) &&& 0xFF888800 = 0 := by decide +kernel
  exact key ⟨rd, of_decide_eq_true h⟩

theorem pAdd (rd ra rb : Nat) : Statement (.pAdd rd ra rb) := by
  intro h
  simp only [Instr.wellFormed, Bool.and_eq_true] at h
  obtain ⟨⟨h1, h2⟩, h3⟩ := h
  have key : ∀ r1 r2 r3 : Fin 8, encode (.pAdd r1.val r2.val r3.val) &&& 0xFF888800 = 0 := by decide +kernel
  exact key ⟨rd, of_decide_eq_true h1⟩ ⟨ra, of_decide_eq_true h2⟩ ⟨rb, of_decide_eq_true h3⟩

theorem pMul (rd ra rb : Nat) : Statement (.pMul rd ra rb) := by
  intro h
  simp only [Instr.wellFormed, Bool.and_eq_true] at h
  obtain ⟨⟨h1, h2⟩, h3⟩ := h
  have key : ∀ r1 r2 r3 : Fin 8, encode (.pMul r1.val r2.val r3.val) &&& 0xFF888800 = 0 := by decide +kernel
  exact key ⟨rd, of_decide_eq_true h1⟩ ⟨ra, of_decide_eq_true h2⟩ ⟨rb, of_decide_eq_true h3⟩

theorem pScale (rd ra : Nat) : Statement (.pScale rd ra) := by
  intro h
  simp only [Instr.wellFormed, Bool.and_eq_true] at h
  obtain ⟨h1, h2⟩ := h
  have key : ∀ r1 r2 : Fin 8, encode (.pScale r1.val r2.val) &&& 0xFF888800 = 0 := by decide +kernel
  exact key ⟨rd, of_decide_eq_true h1⟩ ⟨ra, of_decide_eq_true h2⟩

theorem pMulmono (rd ra : Nat) : Statement (.pMulmono rd ra) := by
  intro h
  simp only [Instr.wellFormed, Bool.and_eq_true] at h
  obtain ⟨h1, h2⟩ := h
  have key : ∀ r1 r2 : Fin 8, encode (.pMulmono r1.val r2.val) &&& 0xFF888800 = 0 := by decide +kernel
  exact key ⟨rd, of_decide_eq_true h1⟩ ⟨ra, of_decide_eq_true h2⟩

theorem pDiv (rd rc ra rb : Nat) : Statement (.pDiv rd rc ra rb) := by
  intro h
  simp only [Instr.wellFormed, Bool.and_eq_true] at h
  obtain ⟨⟨⟨h1, h2⟩, h3⟩, h4⟩ := h
  have key : ∀ r1 r2 r3 r4 : Fin 8, encode (.pDiv r1.val r2.val r3.val r4.val) &&& 0xFF888800 = 0 := by decide +kernel
  exact key ⟨rd, of_decide_eq_true h1⟩ ⟨rc, of_decide_eq_true h2⟩ ⟨ra, of_decide_eq_true h3⟩ ⟨rb, of_decide_eq_true h4⟩

theorem pEval (ra : Nat) : Statement (.pEval ra) := by
  intro h
  have key : ∀ r1 : Fin 8, encode (.pEval r1.val) &&& 0xFF888800 = 0 := by decide +kernel
  exact key ⟨ra, of_decide_eq_true h⟩

theorem pCoef (ra : Nat) : Statement (.pCoef ra) := by
  intro h
  have key : ∀ r1 : Fin 8, encode (.pCoef r1.val) &&& 0xFF888800 = 0 := by decide +kernel
  exact key ⟨ra, of_decide_eq_true h⟩

theorem pDeg (ra : Nat) : Statement (.pDeg ra) := by
  intro h
  have key : ∀ r1 : Fin 8, encode (.pDeg r1.val) &&& 0xFF888800 = 0 := by decide +kernel
  exact key ⟨ra, of_decide_eq_true h⟩

theorem rsGen (rd : Nat) : Statement (.rsGen rd) := by
  intro h
  have key : ∀ r1 : Fin 8, encode (.rsGen r1.val) &&& 0xFF888800 = 0 := by decide +kernel
  exact key ⟨rd, of_decide_eq_true h⟩

theorem rsEnc : Statement .rsEnc := fun _ => by decide

theorem rsSynd (rd : Nat) : Statement (.rsSynd rd) := by
  intro h
  have key : ∀ r1 : Fin 8, encode (.rsSynd r1.val) &&& 0xFF888800 = 0 := by decide +kernel
  exact key ⟨rd, of_decide_eq_true h⟩

theorem rsKey (rd rc ra : Nat) : Statement (.rsKey rd rc ra) := by
  intro h
  simp only [Instr.wellFormed, Bool.and_eq_true] at h
  obtain ⟨⟨h1, h2⟩, h3⟩ := h
  have key : ∀ r1 r2 r3 : Fin 8, encode (.rsKey r1.val r2.val r3.val) &&& 0xFF888800 = 0 := by decide +kernel
  exact key ⟨rd, of_decide_eq_true h1⟩ ⟨rc, of_decide_eq_true h2⟩ ⟨ra, of_decide_eq_true h3⟩

theorem rsChien (ra : Nat) : Statement (.rsChien ra) := by
  intro h
  have key : ∀ r1 : Fin 8, encode (.rsChien r1.val) &&& 0xFF888800 = 0 := by decide +kernel
  exact key ⟨ra, of_decide_eq_true h⟩

theorem rsForney (ra : Nat) : Statement (.rsForney ra) := by
  intro h
  have key : ∀ r1 : Fin 8, encode (.rsForney r1.val) &&& 0xFF888800 = 0 := by decide +kernel
  exact key ⟨ra, of_decide_eq_true h⟩

theorem rsCorr : Statement .rsCorr := fun _ => by decide

theorem rsDec : Statement .rsDec := fun _ => by decide

theorem bvClear (x : Bank) : Statement (.bvClear x) := fun _ => by
  cases x <;> decide

theorem bvAppend (x : Bank) : Statement (.bvAppend x) := fun _ => by
  cases x <;> decide

theorem bvGet (y : Bank) : Statement (.bvGet y) := fun _ => by
  cases y <;> decide

theorem bvSet (x : Bank) : Statement (.bvSet x) := fun _ => by
  cases x <;> decide

theorem bvXor (x y : Bank) : Statement (.bvXor x y) := fun _ => by
  cases x <;> cases y <;> decide

theorem bvTobytes (y : Bank) : Statement (.bvTobytes y) := fun _ => by
  cases y <;> decide

theorem bvSetsize (x : Bank) : Statement (.bvSetsize x) := fun _ => by
  cases x <;> decide

theorem bmInit : Statement .bmInit := fun _ => by decide

theorem bmClear : Statement .bmClear := fun _ => by decide

theorem bmGet : Statement .bmGet := fun _ => by decide

theorem bmSet : Statement .bmSet := fun _ => by decide

theorem bmSetregion : Statement .bmSetregion := fun _ => by decide

theorem bmTopleft : Statement .bmTopleft := fun _ => by decide

theorem bmBotright : Statement .bmBotright := fun _ => by decide

theorem bmRow (x : Bank) : Statement (.bmRow x) := fun _ => by
  cases x <;> decide

theorem bmCol (x : Bank) : Statement (.bmCol x) := fun _ => by
  cases x <;> decide

theorem symInit : Statement .symInit := fun _ => by decide

theorem symGet : Statement .symGet := fun _ => by decide

theorem symSet : Statement .symSet := fun _ => by decide

theorem embBasic : Statement .embBasic := fun _ => by decide

theorem embType : Statement .embType := fun _ => by decide

theorem embVersion : Statement .embVersion := fun _ => by decide

theorem embData (y : Bank) : Statement (.embData y) := fun _ => by
  cases y <;> decide

theorem symBuild (y : Bank) : Statement (.symBuild y) := fun _ => by
  cases y <;> decide

theorem symExport : Statement .symExport := fun _ => by decide

theorem maskBit : Statement .maskBit := fun _ => by decide

theorem maskPenalty : Statement .maskPenalty := fun _ => by decide

theorem maskSelect (y : Bank) : Statement (.maskSelect y) := fun _ => by
  cases y <;> decide

theorem bchType : Statement .bchType := fun _ => by decide

theorem bchVersion : Statement .bchVersion := fun _ => by decide

/-- The family as one fact about every command. -/
theorem of_instr (i : Instr) : Statement i :=
  match i with
  | .nop => nop
  | .gfAdd => gfAdd
  | .gfMul => gfMul
  | .gfInv => gfInv
  | .gfExp => gfExp
  | .gfLog => gfLog
  | .pZero rd => pZero rd
  | .pMono rd => pMono rd
  | .pCopy rd ra => pCopy rd ra
  | .pNorm rd => pNorm rd
  | .pAdd rd ra rb => pAdd rd ra rb
  | .pMul rd ra rb => pMul rd ra rb
  | .pScale rd ra => pScale rd ra
  | .pMulmono rd ra => pMulmono rd ra
  | .pDiv rd rc ra rb => pDiv rd rc ra rb
  | .pEval ra => pEval ra
  | .pCoef ra => pCoef ra
  | .pDeg ra => pDeg ra
  | .rsGen rd => rsGen rd
  | .rsEnc => rsEnc
  | .rsSynd rd => rsSynd rd
  | .rsKey rd rc ra => rsKey rd rc ra
  | .rsChien ra => rsChien ra
  | .rsForney ra => rsForney ra
  | .rsCorr => rsCorr
  | .rsDec => rsDec
  | .bvClear x => bvClear x
  | .bvAppend x => bvAppend x
  | .bvGet y => bvGet y
  | .bvSet x => bvSet x
  | .bvXor x y => bvXor x y
  | .bvTobytes y => bvTobytes y
  | .bvSetsize x => bvSetsize x
  | .bmInit => bmInit
  | .bmClear => bmClear
  | .bmGet => bmGet
  | .bmSet => bmSet
  | .bmSetregion => bmSetregion
  | .bmTopleft => bmTopleft
  | .bmBotright => bmBotright
  | .bmRow x => bmRow x
  | .bmCol x => bmCol x
  | .symInit => symInit
  | .symGet => symGet
  | .symSet => symSet
  | .embBasic => embBasic
  | .embType => embType
  | .embVersion => embVersion
  | .embData y => embData y
  | .symBuild y => symBuild y
  | .symExport => symExport
  | .maskBit => maskBit
  | .maskPenalty => maskPenalty
  | .maskSelect y => maskSelect y
  | .bchType => bchType
  | .bchVersion => bchVersion

end Sys2Proof.Laws.Encoding
end

