-- ==== Sys2Proof/Laws/Polynomial.lean ====
section
/-! SUPPORT. The lengths and the normal form of polynomials, and that the value of a register that is not empty is in normal form
(42_poly.md R450 to R458). -/

namespace Sys2Proof.Machine

/-! Normalisation. -/

theorem norm_cons_zero (c : Byte) (cs : List Byte) : norm (0 :: c :: cs) = norm (c :: cs) := by rw [norm, if_pos rfl]

theorem norm_cons_of_ne {c : Byte} (h : c ≠ 0) (cs : List Byte) : norm (c :: cs) = c :: cs := by
  cases cs with
  | nil => rfl
  | cons d ds => rw [norm, if_neg h]

theorem norm_length_le (p : Poly) : (norm p).length ≤ p.length := by
  induction p with
  | nil => exact Nat.le_refl _
  | cons c cs ih =>
    cases cs with
    | nil => exact Nat.le_refl _
    | cons d ds =>
      rw [norm]
      split
      · exact Nat.le_succ_of_le ih
      · exact Nat.le_refl _

theorem norm_ne_nil {p : Poly} (h : p ≠ []) : norm p ≠ [] := by
  induction p with
  | nil => exact absurd rfl h
  | cons c cs ih =>
    cases cs with
    | nil => exact List.cons_ne_nil _ _
    | cons d ds =>
      rw [norm]
      split
      · exact ih (List.cons_ne_nil _ _)
      · exact List.cons_ne_nil _ _

@[simp] theorem norm_norm (p : Poly) : norm (norm p) = norm p := by
  induction p with
  | nil => rfl
  | cons c cs ih =>
    cases cs with
    | nil => rfl
    | cons d ds =>
      by_cases h : c = 0
      · rw [norm, if_pos h, ih]
      · rw [norm_cons_of_ne h, norm_cons_of_ne h]

theorem norm_zeros (n : Nat) : norm (0 :: List.replicate n 0) = [0] := by
  induction n with
  | zero => rfl
  | succ n ih => rw [List.replicate_succ, norm_cons_zero, ih]

/-- A normal polynomial whose leading coefficient is zero is the zero polynomial. -/
theorem eq_zero_of_isZero {p : Poly} (hne : p ≠ []) (hn : norm p = p) (hz : isZero p = true) : p = [0] := by
  cases p with
  | nil => exact absurd rfl hne
  | cons c cs =>
    have hc : c = 0 := of_decide_eq_true hz
    subst hc
    cases cs with
    | nil => rfl
    | cons d ds =>
      rw [norm_cons_zero] at hn
      have h1 := norm_length_le (d :: ds)
      rw [hn] at h1
      exact absurd h1 (by simp)

/-! Lengths. -/

theorem xorAligned_length {a b : Poly} (h : a.length ≤ b.length) : (xorAligned a b).length = b.length := by
  simp only [xorAligned, List.length_append, List.length_take, List.length_zipWith, List.length_drop]
  omega

theorem padd_length_le (a b : Poly) : (padd a b).length ≤ max a.length b.length := by
  unfold padd
  split
  · exact Nat.le_max_right _ _
  split
  · exact Nat.le_max_left _ _
  split
  · rename_i h
    exact Nat.le_trans (norm_length_le _) (by rw [xorAligned_length h]; exact Nat.le_max_right _ _)
  · rename_i h
    exact Nat.le_trans (norm_length_le _) (by rw [xorAligned_length (by omega)]; exact Nat.le_max_left _ _)

theorem xorLeft_length (a b : List Byte) : (xorLeft a b).length = max a.length b.length := by
  induction a generalizing b with
  | nil => simp [xorLeft]
  | cons x xs ih =>
    cases b with
    | nil => simp [xorLeft]
    | cons y ys => simp [xorLeft, ih]

theorem convolve_length (prim : BitVec 9) {a b : Poly} (ha : a ≠ []) (hb : b ≠ []) :
    (convolve prim a b).length = a.length + b.length - 1 := by
  have hb' : 1 ≤ b.length := List.length_pos_iff.mpr hb
  induction a with
  | nil => exact absurd rfl ha
  | cons x xs ih =>
    cases xs with
    | nil => simp [convolve, xorLeft_length]; omega
    | cons y ys =>
      have := ih (List.cons_ne_nil _ _)
      rw [convolve, xorLeft_length]
      simp [this]
      omega

theorem pmul_length_le (prim : BitVec 9) {a b : Poly} (ha : a ≠ []) (hb : b ≠ []) :
    (pmul prim a b).length ≤ a.length + b.length - 1 := by
  have h1 := List.length_pos_iff.mpr ha
  have h2 := List.length_pos_iff.mpr hb
  unfold pmul
  split
  · simp only [List.length_singleton]
    omega
  · exact Nat.le_trans (norm_length_le _) (by rw [convolve_length prim ha hb])

/-! Registers. -/

theorem State.coefs_length (s : State) (r n : Nat) : (s.coefs r n).length = n := by
  simp [State.coefs, Memory.readBytes]

theorem State.norm_coefs_ne_nil {s : State} {r : Nat} (h : s.plenOf r ≠ 0) : norm (s.coefs r (s.plenOf r)) ≠ [] := by
  refine norm_ne_nil fun h' => h ?_
  rw [← s.coefs_length r (s.plenOf r), h', List.length_nil]

theorem State.norm_coefs_length_le (s : State) (r : Nat) : (norm (s.coefs r (s.plenOf r))).length ≤ s.plenOf r :=
  Nat.le_trans (norm_length_le _) (Nat.le_of_eq (s.coefs_length r _))

end Sys2Proof.Machine
end

