-- ==== Sys2Proof/Tests/Slice0.lean ====
section
/-! SUPPORT. Tests on small states, each about one step, with results taken from the spec (95_test_vectors.md, or worked out by hand from
the rule named), and for every statement with hypotheses a named state and operands that meet them. -/

namespace Sys2Proof.Tests

set_option Elab.async false

open Sys2Proof Sys2Proof.Machine

/-! Helpers: states with operands latched, registers and windows loaded, and what a command leaves. -/

/-- The reset state with a command running that is due. -/
def ready : State := { State.reset with status := ⟨true, false, false, false, false, false⟩ }

def ops (s : State) (a b c d : Nat) : State :=
  { s with latch := #v[BitVec.ofNat 32 a, BitVec.ofNat 32 b, BitVec.ofNat 32 c, BitVec.ofNat 32 d] }

def withPoly (s : State) (r : Nat) (p : List Nat) : State :=
  { s with plen := s.plen.setIfInBounds r p.length, mem := s.mem.write (0x8000 + 0x200 * r) (p.map (BitVec.ofNat 8)) }

def withBytes (s : State) (a : Nat) (vs : List Nat) : State := { s with mem := s.mem.write a (vs.map (BitVec.ofNat 8)) }

def withList (s : State) (locs mags : List Nat) : State :=
  { s with
    locCnt := locs.length
    mem := (s.mem.writeEvery4 0x0800 (locs.map (BitVec.ofNat 8))).writeEvery4 0x0C00 (mags.map (BitVec.ofNat 8)) }

/-- The state after a command that succeeds. -/
def after (i : Instr) (s : State) : Option State :=
  match exec i s with
  | .next t => if t.status = ⟨false, true, false, false, false, false⟩ ∧ t.errCode = 0 ∧ t.errSub = 0 then some t else none
  | .fault _ => none
  | .refused _ => none

/-- `ERRCODE` after a command that fails and changes nothing else. -/
def failure (i : Instr) (s : State) : Option Nat :=
  match exec i s with
  | .next t => if t = s.failed t.errCode t.errSub then some (t.errSub.toNat * 256 + t.errCode.toNat) else none
  | .fault _ => none
  | .refused _ => none

def results (k : Nat) (t : State) : List Nat := (List.range k).map fun i => (t.result.getD i 0).toNat
def polyOf (r : Nat) (t : State) : List Nat := (t.mem.readBytes (0x8000 + 0x200 * r) (t.plenOf r)).map (·.toNat)
def bytesAt (a n : Nat) (t : State) : List Nat := (t.mem.readBytes a n).map (·.toNat)
def wordAt (a : Nat) (t : State) : Nat := (t.mem.word a).toNat

/-- `RESULT0` after a command with operands `a`, `b`, `c` that succeeds. -/
def result0 (i : Instr) (a b c : Nat) : Option Nat := (after i (ops ready a b c 0)).map fun t => (t.result.getD 0 0).toNat

/-! WellFormed: a register number that does not fit its three bits is refused, in each place. -/

theorem test_illFormed_destination :
    (Instr.pZero 8).wellFormed = false ∧ (Instr.pAdd 8 7 7).wellFormed = false ∧ (Instr.rsGen 8).wellFormed = false
    ∧ (Instr.pMono 8).wellFormed = false ∧ (Instr.pNorm 9).wellFormed = false ∧ (Instr.rsSynd 8).wellFormed = false
    ∧ (Instr.pCopy 8 0).wellFormed = false ∧ (Instr.pScale 8 0).wellFormed = false ∧ (Instr.pMulmono 8 0).wellFormed = false
    ∧ (Instr.pMul 8 0 0).wellFormed = false ∧ (Instr.pDiv 8 0 0 0).wellFormed = false ∧ (Instr.rsKey 8 0 0).wellFormed = false := by
  decide

theorem test_illFormed_source :
    (Instr.pCopy 7 8).wellFormed = false ∧ (Instr.pScale 7 8).wellFormed = false ∧ (Instr.pMulmono 7 8).wellFormed = false
    ∧ (Instr.pAdd 7 8 7).wellFormed = false ∧ (Instr.pAdd 7 7 8).wellFormed = false ∧ (Instr.pMul 7 8 7).wellFormed = false
    ∧ (Instr.pMul 7 7 8).wellFormed = false ∧ (Instr.pDiv 7 7 8 7).wellFormed = false ∧ (Instr.pDiv 7 7 7 8).wellFormed = false
    ∧ (Instr.pEval 8).wellFormed = false ∧ (Instr.pCoef 8).wellFormed = false ∧ (Instr.pDeg 8).wellFormed = false
    ∧ (Instr.rsKey 7 7 8).wellFormed = false ∧ (Instr.rsChien 8).wellFormed = false ∧ (Instr.rsForney 8).wellFormed = false := by
  decide

theorem test_illFormed_second_destination :
    (Instr.pDiv 7 8 7 7).wellFormed = false ∧ (Instr.rsKey 7 8 7).wellFormed = false ∧ (Instr.pDiv 7 7 7 7).wellFormed = true := by
  decide

/-! Decoding: the words of 30_encoding.md R301 and R321, written bit by bit: 000000000 RC 0 RB 0 RA 0 RD OPC. -/

theorem test_decode_control_and_field :
    decode 0b00000000000000000000000000000000 = .ok .nop ∧ decode 0b00000000000000000000000000010000 = .ok .gfAdd
    ∧ decode 0b00000000000000000000000000010001 = .ok .gfMul ∧ decode 0b00000000000000000000000000010010 = .ok .gfInv
    ∧ decode 0b00000000000000000000000000010011 = .ok .gfExp ∧ decode 0b00000000000000000000000000010100 = .ok .gfLog := by
  decide

theorem test_decode_poly :
    decode 0b00000000000000000000010100100000 = .ok (.pZero 5) ∧ decode 0b00000000000000000000011000100001 = .ok (.pMono 6)
    ∧ decode 0b00000000000000000010000100100010 = .ok (.pCopy 1 2) ∧ decode 0b00000000000000000000011100100011 = .ok (.pNorm 7)
    ∧ decode 0b00000000000000110010000100100100 = .ok (.pAdd 1 2 3) ∧ decode 0b00000000000001100101010000100101 = .ok (.pMul 4 5 6)
    ∧ decode 0b00000000000000000111000000100110 = .ok (.pScale 0 7)
    ∧ decode 0b00000000000000000001011000100111 = .ok (.pMulmono 6 1)
    ∧ decode 0b00000000010100100011010000101000 = .ok (.pDiv 4 5 3 2) ∧ decode 0b00000000000000000101000000101001 = .ok (.pEval 5)
    ∧ decode 0b00000000000000000110000000101010 = .ok (.pCoef 6) ∧ decode 0b00000000000000000011000000101011 = .ok (.pDeg 3) := by
  decide

theorem test_decode_rs :
    decode 0b00000000000000000000010000110000 = .ok (.rsGen 4) ∧ decode 0b00000000000000000000000000110001 = .ok .rsEnc
    ∧ decode 0b00000000000000000000001100110010 = .ok (.rsSynd 3) ∧ decode 0b00000000001000000000000100110011 = .ok (.rsKey 1 2 0)
    ∧ decode 0b00000000000000000001000000110100 = .ok (.rsChien 1) ∧ decode 0b00000000000000000010000000110101 = .ok (.rsForney 2)
    ∧ decode 0b00000000000000000000000000110110 = .ok .rsCorr ∧ decode 0b00000000000000000000000000110111 = .ok .rsDec := by
  decide

theorem test_decode_bits :
    decode 0b00000000000000000000000101000000 = .ok (.bvClear .B) ∧ decode 0b00000000000000000000000001000001 = .ok (.bvAppend .A)
    ∧ decode 0b00000000000000000001000001000010 = .ok (.bvGet .B) ∧ decode 0b00000000000000000000000101000011 = .ok (.bvSet .B)
    ∧ decode 0b00000000000000000001000001000100 = .ok (.bvXor .A .B) ∧ decode 0b00000000000000000000000101000100 = .ok (.bvXor .B .A)
    ∧ decode 0b00000000000000000001000001000101 = .ok (.bvTobytes .B)
    ∧ decode 0b00000000000000000000000001000110 = .ok (.bvSetsize .A) := by
  decide

theorem test_decode_matrix :
    decode 0b00000000000000000000000001010000 = .ok .bmInit ∧ decode 0b00000000000000000000000001010001 = .ok .bmClear
    ∧ decode 0b00000000000000000000000001010010 = .ok .bmGet ∧ decode 0b00000000000000000000000001010011 = .ok .bmSet
    ∧ decode 0b00000000000000000000000001010100 = .ok .bmSetregion ∧ decode 0b00000000000000000000000001010101 = .ok .bmTopleft
    ∧ decode 0b00000000000000000000000001010110 = .ok .bmBotright ∧ decode 0b00000000000000000000000101010111 = .ok (.bmRow .B)
    ∧ decode 0b00000000000000000000000001011000 = .ok (.bmCol .A) := by
  decide

theorem test_decode_symbol :
    decode 0b00000000000000000000000001100000 = .ok .symInit ∧ decode 0b00000000000000000000000001100001 = .ok .symGet
    ∧ decode 0b00000000000000000000000001100010 = .ok .symSet ∧ decode 0b00000000000000000000000001100011 = .ok .embBasic
    ∧ decode 0b00000000000000000000000001100100 = .ok .embType ∧ decode 0b00000000000000000000000001100101 = .ok .embVersion
    ∧ decode 0b00000000000000000001000001100110 = .ok (.embData .B) ∧ decode 0b00000000000000000000000001100111 = .ok (.symBuild .A)
    ∧ decode 0b00000000000000000000000001101000 = .ok .symExport := by
  decide

theorem test_decode_mask :
    decode 0b00000000000000000000000001110000 = .ok .maskBit ∧ decode 0b00000000000000000000000001110001 = .ok .maskPenalty
    ∧ decode 0b00000000000000000001000001110010 = .ok (.maskSelect .B) ∧ decode 0b00000000000000000000000001110011 = .ok .bchType
    ∧ decode 0b00000000000000000000000001110100 = .ok .bchVersion := by
  decide

theorem test_decode_illegal :
    decode 0x000000FF = .error .undefinedOpcode ∧ decode 0x0000002C = .error .undefinedOpcode
    ∧ decode 0x00000810 = .error .mustBeZero ∧ decode 0x00000110 = .error .mustBeZero ∧ decode 0x80000000 = .error .mustBeZero := by
  decide

/-! Commands (95_test_vectors.md 2 to 7). -/

theorem test_nop : after .nop ready = some { ready with status := ⟨false, true, false, false, false, false⟩ } := by decide +kernel
theorem test_gfAdd : result0 .gfAdd 0x53 0xCA 0 = some 0x99 := by decide +kernel
theorem test_gfAdd_range : failure .gfAdd (ops ready 0x100 0 0 0) = some 0x0302 := by decide +kernel
theorem test_gfMul : result0 .gfMul 0x53 0xCA 0 = some 0x8F := by decide +kernel
theorem test_gfMul_reduces : result0 .gfMul 2 0x80 0 = some 0x1D := by decide +kernel
theorem test_gfInv : result0 .gfInv 0x53 0 0 = some 0x8C := by decide +kernel
theorem test_gfInv_zero : failure .gfInv (ops ready 0 0 0 0) = some 0x0202 := by decide +kernel
theorem test_gfExp : result0 .gfExp 254 0 0 = some 142 := by decide +kernel
theorem test_gfExp_range : failure .gfExp (ops ready 256 0 0 0) = some 0x0302 := by decide +kernel
theorem test_gfLog : result0 .gfLog 0xFF 0 0 = some 175 := by decide +kernel
theorem test_gfLog_zero : failure .gfLog (ops ready 0 0 0 0) = some 0x0102 := by decide +kernel

theorem test_pZero : (after (.pZero 3) ready).map (polyOf 3) = some [0] := by decide +kernel
theorem test_pMono : (after (.pMono 2) (ops ready 3 1 0 0)).map (polyOf 2) = some [1, 0, 0, 0] := by decide +kernel
theorem test_pMono_zero : (after (.pMono 2) (ops ready 600 0 0 0)).map (polyOf 2) = some [0] := by decide +kernel
theorem test_pCopy_normalises : (after (.pCopy 1 0) (withPoly ready 0 [0, 0, 5])).map (polyOf 1) = some [5] := by decide +kernel
theorem test_pNorm : (after (.pNorm 2) (withPoly ready 2 [0, 0, 5, 0])).map (polyOf 2) = some [5, 0] := by decide +kernel
theorem test_pAdd : (after (.pAdd 2 0 1) (withPoly (withPoly ready 0 [1, 2, 3]) 1 [5, 6])).map (polyOf 2) = some [1, 7, 5] := by
  decide +kernel
theorem test_pAdd_cancels :
    (after (.pAdd 0 0 1) (withPoly (withPoly ready 0 [1, 2, 3]) 1 [1, 5, 3])).map (polyOf 0) = some [7, 0] := by decide +kernel
theorem test_pMul :
    (after (.pMul 2 0 1) (withPoly (withPoly ready 0 [0x53, 1]) 1 [0xCA, 1])).map (polyOf 2) = some [0x8F, 0x99, 1] := by
  decide +kernel
theorem test_pScale : (after (.pScale 2 0) (ops (withPoly ready 0 [1, 3, 2]) 2 0 0 0)).map (polyOf 2) = some [2, 6, 4] := by
  decide +kernel
theorem test_pMulmono : (after (.pMulmono 2 0) (ops (withPoly ready 0 [1, 3, 2]) 2 3 0 0)).map (polyOf 2) = some [3, 5, 6, 0, 0] := by
  decide +kernel
theorem test_pDiv :
    (after (.pDiv 2 3 0 1) (withPoly (withPoly ready 0 [1, 2, 3, 4, 5]) 1 [1, 7])).map (fun t => (polyOf 2 t, polyOf 3 t))
      = some ([1, 5, 24, 76], [252]) := by
  decide +kernel
theorem test_pDiv_same_destination : failure (.pDiv 6 6 3 2) ready = some 0x0D01 := by decide +kernel
theorem test_pEval :
    (after (.pEval 0) (ops (withPoly ready 0 [1, 3, 2]) 3 0 0 0)).map (results 1) = some [2] := by decide +kernel
theorem test_pCoef : (after (.pCoef 0) (ops (withPoly ready 0 [1, 3, 2]) 0 0 0 0)).map (results 1) = some [2] := by decide +kernel
theorem test_pCoef_above_degree :
    (after (.pCoef 0) (ops (withPoly ready 0 [1, 3, 2]) 7 0 0 0)).map (results 1) = some [0] := by decide +kernel
theorem test_pDeg : (after (.pDeg 0) (withPoly ready 0 [0, 0, 5, 0])).map (results 3) = some [1, 5, 0] := by decide +kernel
theorem test_pDeg_empty : failure (.pDeg 1) ready = some 0x0101 := by decide +kernel

theorem test_rsGen : (after (.rsGen 0) (ops ready 4 0 0 0)).map (polyOf 0) = some [1, 15, 54, 120, 64] := by decide +kernel
theorem test_rsGen_base1 :
    (after (.rsGen 0) (ops { ready with gfPrim := 0x12D, gfBase := 1 } 4 0 0 0)).map (polyOf 0) = some [1, 30, 216, 183, 180] := by
  decide +kernel
theorem test_rsEnc : (after .rsEnc (ops (withBytes ready 0x400 [0x12, 0x34, 9, 9]) 4 2 0 0)).map (bytesAt 0x400 4)
    = some [18, 52, 34, 4] := by
  decide +kernel
theorem test_rsEnc_no_data : failure .rsEnc (ops ready 17 17 0 0) = some 0x0401 := by decide +kernel
theorem test_rsSynd : (after (.rsSynd 0) (ops (withBytes ready 0x400 [18, 116, 34, 4]) 4 2 0 0)).map
    (fun t => (polyOf 0 t, results 1 t)) = some ([29, 64], [0]) := by
  decide +kernel
theorem test_rsKey : (after (.rsKey 1 2 0) (ops (withPoly ready 0 [29, 64]) 2 0 0 0)).map
    (fun t => (polyOf 1 t, polyOf 2 t, results 1 t)) = some ([4, 1], [64], [1]) := by
  decide +kernel
theorem test_rsChien : (after (.rsChien 1) (withPoly ready 1 [3, 6])).map (fun t => (t.locCnt, bytesAt 0x0800 1 t, results 1 t))
    = some (1, [142], [1]) := by
  decide +kernel
theorem test_rsChien_no_roots : failure (.rsChien 1) (withPoly ready 1 [0]) = some 0x0203 := by decide +kernel
theorem test_rsForney : (after (.rsForney 2) (withList (withPoly ready 2 [56, 66, 164]) [1, 180, 3] [])).map
    (fun t => (bytesAt 0x0C00 1 t, bytesAt 0x0C04 1 t, bytesAt 0x0C08 1 t, results 1 t)) = some ([90], [1], [255], [3]) := by
  decide +kernel
theorem test_rsCorr : (after .rsCorr (ops (withBytes (withList ready [4] [64]) 0x400 [18, 116, 34, 4]) 4 0 0 0)).map
    (bytesAt 0x400 4) = some [18, 52, 34, 4] := by
  decide +kernel
theorem test_rsCorr_beyond : failure .rsCorr (ops (withList ready [16] [1]) 4 0 0 0) = some 0x0303 := by decide +kernel
theorem test_rsDec : (after .rsDec (ops (withBytes ready 0x400 [18, 116, 34, 4]) 4 2 0 0)).map
    (fun t => (bytesAt 0x400 4 t, results 2 t, t.locCnt, bytesAt 0x0800 1 t, bytesAt 0x0C00 1 t))
    = some ([18, 52, 34, 4], [1, 0], 1, [4], [64]) := by
  decide +kernel
/-- In a block of 256 codewords an error in the first is corrected at the last: both have the locator 1 (43_rs.md R509; assumption 19). -/
theorem test_rsDec_first_of_256 : (rsDecode 0x11D 0 (7 :: List.replicate 255 0) 2).toOption
    = some ⟨7 :: List.replicate 254 0 ++ [7], [1], [7]⟩ := by
  decide +kernel
theorem test_rsDec_uncorrectable : failure .rsDec (ops (withBytes ready 0x400 [19, 53, 35, 4]) 4 2 0 0) = some 0x0303 := by
  decide +kernel

theorem test_bvClear : (after (.bvClear .A) { withBytes ready 0x1000 [0x48, 0x2C] with bvSizeA := 16 }).map
    (fun t => (t.bvSizeA, wordAt 0x1000 t)) = some (0, 0) := by
  decide +kernel
theorem test_bvAppend : (after (.bvAppend .A) (ops { withBytes ready 0x1000 [0x48] with bvSizeA := 8 } 0x34 8 0 0)).map
    (fun t => (t.bvSizeA, bytesAt 0x1000 2 t)) = some (16, [0x48, 0x2C]) := by
  decide +kernel
theorem test_bvAppend_low_bits : (after (.bvAppend .A) (ops (withBytes ready 0x1000 [0xF0]) 0x1F5 4 0 0)).map (bytesAt 0x1000 1)
    = some [0xFA] := by
  decide +kernel
theorem test_bvGet : (after (.bvGet .A) (ops { withBytes ready 0x1000 [0x48, 0x2C] with bvSizeA := 16 } 3 0 0 0)).map (results 1)
    = some [1] := by
  decide +kernel
theorem test_bvSet : (after (.bvSet .A) (ops { withBytes ready 0x1000 [0x48, 0x2C] with bvSizeA := 16 } 0 0 0 0)).map
    (fun t => (t.bvSizeA, bytesAt 0x1000 2 t)) = some (16, [0x49, 0x2C]) := by
  decide +kernel
theorem test_bvXor : (after (.bvXor .A .B)
    { withBytes (withBytes ready 0x1000 [0b0101]) 0x2000 [0b0110] with bvSizeA := 4, bvSizeB := 4 }).map (bytesAt 0x1000 1)
    = some [0b0011] := by
  decide +kernel
theorem test_bvTobytes : (after (.bvTobytes .A) (ops { withBytes ready 0x1000 [0x48, 0x2C] with bvSizeA := 16 } 4 0 1 0)).map
    (bytesAt 0x400 1) = some [0x23] := by
  decide +kernel
theorem test_bvSetsize : (after (.bvSetsize .B) (ops ready 32768 0 0 0)).map (fun t => (t.bvSizeB, t.mem)) = some (32768, []) := by
  decide +kernel

/-- The 40 × 3 matrix of 95_test_vectors.md 5.2 with (35, 0) and (2, 1) set. -/
def matrix : State := { withBytes ready 0x4000 ([0, 0, 0, 0, 0x08, 0, 0, 0, 0x04] ++ List.replicate 15 0) with bmW := 40, bmH := 3 }

theorem test_bmInit : (after .bmInit (ops (withBytes ready 0x4000 [0xFF]) 40 3 0 0)).map
    (fun t => (t.bmW, t.bmH, wordAt 0x4000 t)) = some (40, 3, 0) := by
  decide +kernel
theorem test_bmClear : (after .bmClear matrix).map (fun t => (t.bmW, t.bmH, wordAt 0x4004 t, wordAt 0x4008 t)) = some (40, 3, 0, 0) := by
  decide +kernel
theorem test_bmGet : (after .bmGet (ops matrix 35 0 0 0)).map (results 1) = some [1] := by decide +kernel
theorem test_bmGet_outside : failure .bmGet (ops matrix 40 0 0 0) = some 0x0801 := by decide +kernel
theorem test_bmSet : (after .bmSet (ops { withBytes ready 0x4008 [0] with bmW := 40, bmH := 3 } 2 1 0 0)).map (bytesAt 0x4008 1) = some [4] := by
  decide +kernel
theorem test_bmSetregion : (after .bmSetregion (ops { withBytes ready 0x4008 (List.replicate 16 0) with bmW := 8, bmH := 8 } 2 3 3 2)).map
    (fun t => (wordAt 0x4008 t, wordAt 0x400C t, wordAt 0x4010 t, wordAt 0x4014 t)) = some (0, 0x1C, 0x1C, 0) := by
  decide +kernel
theorem test_bmSetregion_too_wide : failure .bmSetregion (ops { ready with bmW := 8, bmH := 8 } 6 0 3 1) = some 0x0901 := by
  decide +kernel
theorem test_bmTopleft : (after .bmTopleft matrix).map (results 3) = some [1, 35, 0] := by decide +kernel
theorem test_bmBotright : (after .bmBotright matrix).map (results 3) = some [1, 2, 1] := by decide +kernel
theorem test_bmRow : (after (.bmRow .B) (ops matrix 0 0 0 0)).map (fun t => (t.bvSizeB, bytesAt 0x2004 1 t)) = some (40, [8]) := by
  decide +kernel
theorem test_bmCol : (after (.bmCol .A) (ops (withBytes matrix 0x1000 [0xF8]) 2 0 0 0)).map (fun t => (t.bvSizeA, bytesAt 0x1000 1 t))
    = some (3, [0b11111010]) := by
  decide +kernel

/-- A version-1 symbol whose even rows hold the cell codes `even` and whose odd rows hold `odd`. -/
def symbolOf (even odd : List Byte) : State :=
  { ready with symV := 1, mem := (List.range 21).foldl (fun m y => m.write (0xA000 + 48 * y) (if y % 2 = 0 then even else odd)) [] }

/-- A version-1 symbol of empty cells, as `SYM_INIT` leaves it. -/
def blank : State := symbolOf [0xAA, 0xAA, 0xAA, 0xAA, 0xAA, 0x02] [0xAA, 0xAA, 0xAA, 0xAA, 0xAA, 0x02]

/-- A version-1 symbol of white cells. -/
def white : State := symbolOf (List.replicate 6 0) (List.replicate 6 0)

/-- A version-1 checkerboard, cell (0, 0) white. -/
def checkerboard : State := symbolOf [0x44, 0x44, 0x44, 0x44, 0x44, 0] [0x11, 0x11, 0x11, 0x11, 0x11, 1]

/-- A version-2 symbol of empty cells. -/
def blank2 : State :=
  { ready with symV := 2, mem := (List.range 25).foldl (fun m y => m.write (0xA000 + 48 * y) [0xAA, 0xAA, 0xAA, 0xAA, 0xAA, 0xAA, 2]) [] }

/-- A row of the symbol as two-bit codes, 10 for an empty cell. -/
def rowCodes (y n : Nat) (t : State) : List Nat :=
  (List.range n).map fun x => (t.mem.bit (0xA000 + 48 * y) (2 * x)).toNat + 2 * (t.mem.bit (0xA000 + 48 * y) (2 * x + 1)).toNat

theorem test_symInit : (after .symInit (ops white 1 0 0 0)).map (fun t => (t.symN, bytesAt 0xA000 6 t, bytesAt 0xA3C0 6 t))
    = some (21, [0xAA, 0xAA, 0xAA, 0xAA, 0xAA, 2], [0xAA, 0xAA, 0xAA, 0xAA, 0xAA, 2]) := by
  decide +kernel
theorem test_symGet : (after .symGet (ops blank 10 10 0 0)).map (results 1) = some [0xFFFFFFFF] := by decide +kernel
theorem test_symSet : (after .symSet (ops blank 20 0 1 0)).map (bytesAt 0xA000 6) = some [0xAA, 0xAA, 0xAA, 0xAA, 0xAA, 1] := by
  decide +kernel
theorem test_symSet_value : failure .symSet (ops blank 20 0 2 0) = some 0x1201 := by decide +kernel
theorem test_embBasic : (after .embBasic blank).map (fun t => (rowCodes 6 21 t, rowCodes 7 21 t, rowCodes 13 21 t))
    = some ([1, 1, 1, 1, 1, 1, 1, 0, 1, 0, 1, 0, 1, 0, 1, 1, 1, 1, 1, 1, 1], [0, 0, 0, 0, 0, 0, 0, 0, 2, 2, 2, 2, 2, 0, 0, 0, 0, 0, 0, 0, 0],
      [0, 0, 0, 0, 0, 0, 0, 0, 1, 2, 2, 2, 2, 2, 2, 2, 2, 2, 2, 2, 2]) := by
  decide +kernel
theorem test_embType : (after .embType (ops blank 0 0 0 0)).map (rowCodes 8 21)
    = some [1, 1, 1, 0, 1, 1, 2, 1, 1, 2, 2, 2, 2, 1, 1, 0, 0, 0, 1, 0, 0] := by
  decide +kernel
/-- The grid of `EMB_VERSION` on a version-7 symbol: the lower left block's rows 34 to 36 (95_test_vectors.md 6.6). -/
theorem test_embVersion :
    (List.range 3).map (fun j => (List.range 6).map fun i => (embedVersion 7 45 (Grid.blank 45)).cell i (34 + j))
      = [[.white, .white, .white, .white, .black, .white], [.white, .black, .black, .black, .black, .white],
        [.black, .white, .white, .black, .black, .white]] := by
  decide +kernel
theorem test_embVersion_below_7 : (after .embVersion blank).map (·.mem) = some blank.mem := by decide +kernel
/-- By 46_symbol.md R726 the first two bits go to (20, 20) and (19, 20); mask 0 inverts where x + y is even; cell (6, 0) stays empty
(assumption 20). -/
theorem test_embData : (after (.embData .A) (ops { blank with bvSizeA := 0 } 0 0 0 0)).map
    (fun t => ((rowCodes 20 21 t).drop 17, (rowCodes 19 21 t).drop 17, (rowCodes 0 7 t).drop 5)) = some ([0, 1, 0, 1], [1, 0, 1, 0], [0, 2]) := by
  decide +kernel
theorem test_embData_mask : failure (.embData .A) (ops blank 8 0 0 0) = some 0x0701 := by decide +kernel
/-- The 26 codewords of `HELLO WORLD` 1-Q in bank A (95_test_vectors.md 5.1, 6.5). -/
def helloWorld : State :=
  { withBytes { blank with symV := 0 } 0x1000 [0x04, 0xDA, 0xD0, 0x1E, 0x8B, 0x4E, 0x3B, 0xB2, 0xC2, 0x02, 0x37, 0x88, 0x37, 0x15, 0x12, 0x68,
      0x4A, 0x9B, 0x6C, 0x39, 0x00, 0x74, 0xF0, 0x2D, 0x5E, 0x08] with bvSizeA := 208 }

theorem test_symBuild : (after (.symBuild .A) (ops helloWorld 2 1 0 0)).map (fun t => (t.symV, rowCodes 0 21 t, rowCodes 9 21 t))
    = some (1, [1, 1, 1, 1, 1, 1, 1, 0, 1, 1, 0, 0, 0, 0, 1, 1, 1, 1, 1, 1, 1],
      [0, 1, 0, 0, 0, 0, 0, 0, 1, 1, 1, 1, 0, 0, 0, 0, 1, 0, 0, 0, 1]) := by
  decide +kernel
theorem test_symBuild_range : failure (.symBuild .A) (ops ready 2 1 15 0) = some 0x0104 := by decide +kernel
theorem test_symExport : (after .symExport { withBytes blank 0xA000 [0b10010001] with bmW := 3, bmH := 1 }).map
    (fun t => (t.bmW, t.bmH, wordAt 0x4000 t, wordAt 0x4004 t)) = some (21, 21, 0b0101, 0) := by
  decide +kernel

theorem test_maskBit : result0 .maskBit 7 255 255 = some 1 := by decide +kernel
theorem test_maskBit_index : failure .maskBit (ops ready 8 0 0 0) = some 0x0701 := by decide +kernel
theorem test_maskPenalty : (after .maskPenalty blank).map (results 5) = some [2098, 798, 1200, 0, 100] := by decide +kernel
theorem test_maskPenalty_no_symbol : failure .maskPenalty ready = some 0x0F01 := by decide +kernel
/-- The first of equal minima is kept (47_mask.md R807). -/
theorem test_maskSelect_first_minimum : firstMin (0, 5) 1 [3, 4, 3] = (1, 3) ∧ firstMin (0, 1027) 1 [1110, 1146, 1027] = (0, 1027) := by
  decide
theorem test_maskSelect_version : failure (.maskSelect .A) (ops ready 0 0 0 0) = some 0x0B01 := by decide +kernel
theorem test_bchType : result0 .bchType 2 4 0 = some 0x24B4 := by decide +kernel
theorem test_bchType_mask : failure .bchType (ops ready 0 8 0 0) = some 0x0104 := by decide +kernel
theorem test_bchVersion : result0 .bchVersion 7 0 0 = some 0x07C94 := by decide +kernel

theorem test_maskPenalty_checkerboard : (after .maskPenalty checkerboard).map (results 1) = some [0] := by decide +kernel
/-- Rule 1: runs of 4, 5 and 7 cells score 0, 3 and 5 (47_mask.md R801). -/
theorem test_linePenalty :
    linePenalty (List.replicate 4 .black ++ List.replicate 5 .empty ++ List.replicate 7 .white) = 3 + 5 := by decide +kernel

/-! The host's port and the step (10_state.md, 20_memory.md, 70_reset_and_hazards.md). -/

/-- An idle block of which `hs` is asked. -/
def asked (hs : List HostInput) : State := { State.reset with host := hs }

/-- A block whose command completes after one more access, of which `hs` is asked. -/
def waiting (hs : List HostInput) : State := { ready with wait := 1, host := hs }

def stepped (s : State) : Option State :=
  match step s with
  | .next t => some t
  | .fault _ => none
  | .refused _ => none

theorem test_step_fetchWord : (stepped ({ State.reset with arg := #v[2, 0x80, 0, 0] }.withFetchWord 32 0x00000011)).map
    (fun t => (results 1 t, t.status.toWord, t.cmd)) = some ([0x1D], 2, 0x11) := by
  decide +kernel
theorem test_step_undefined_opcode : (stepped (State.reset.withFetchWord 32 0x000000FF)).map (fun t => (t.status.toWord, t.errWord))
    = some (6, 0x0106) := by
  decide +kernel
theorem test_step_mustBeZero : (stepped (State.reset.withFetchWord 32 0x00000810)).map (·.errWord) = some 0x0206 := by decide +kernel
theorem test_host_id : (stepped (asked [.read .word 0x000])).map (·.rdata) = some 0x5A510007 := by decide +kernel
theorem test_host_gfPrim : (stepped (asked [.write .word 0x040 0x2D])).map (fun t => (t.gfPrim, t.status.cfgErr)) = some (0x12D, false) := by
  decide +kernel
theorem test_host_gfPrim_refused : (stepped (asked [.write .word 0x040 0x12C])).map (fun t => (t.gfPrim, t.status.cfgErr))
    = some (0x11D, true) := by
  decide +kernel
theorem test_host_plen_refused : (stepped (asked [.write .word 0x060 513])).map (fun t => (t.plenOf 0, t.status.cfgErr)) = some (0, true) := by
  decide +kernel
theorem test_host_little_endian : (stepped (asked [.write .word 0x400 0x04030201])).map (bytesAt 0x400 4) = some [1, 2, 3, 4] := by
  decide +kernel
theorem test_host_busy_write_sets_haz : (stepped (waiting [.write .word 0x400 1])).map (fun t => (t.status.toWord, t.mem)) = some (0x11, []) := by
  decide +kernel
theorem test_host_busy_command_sets_ovr : (stepped (waiting [.write .word 0x00C 0x11])).map (fun t => (t.status.toWord, t.cmd))
    = some (0x09, 0) := by
  decide +kernel
theorem test_host_narrow_refused : step (asked [.read .half 0x000]) = .refused .narrowAccess := rfl

/-- At the ends of every range an aligned offset falls under exactly one of the cases that the statements about host writes tell apart. -/
theorem test_offsets_partition :
    ∀ a ∈ [0x000, 0x004, 0x008, 0x00C, 0x010, 0x01C, 0x020, 0x03C, 0x040, 0x044, 0x048, 0x054, 0x058, 0x05C, 0x060, 0x07C, 0x080, 0x09C, 0x0A0,
        0x3FC, 0x400, 0x4FC, 0x500, 0x7FC, 0x800, 0xBF8, 0xBFC, 0xC00, 0xFF8, 0xFFC]
      ++ [0x1000, 0x2FFC, 0x3000, 0x3FFC, 0x4000, 0x5FFC, 0x6000, 0x7FFC, 0x8000, 0x8FFC, 0x9000, 0x9FFC, 0xA000, 0xC12C, 0xC130, 0xFFFC],
      ([hazardOffset a, readOnlyOffset a, reservedOffset a, decide (a = 0x004), decide (a = 0x00C),
        decide (0x010 ≤ a ∧ a < 0x020)].filter id).length = 1 := by
  decide +kernel

/-! Witnesses: for each statement with hypotheses, concrete values that meet them, at the ends of their ranges. -/

/-- A check from which the invariant follows, for states in which no failure is reported. -/
def checkInv (s : State) : Bool :=
  s.mem.wf && decide (s.gfPrim ∈ Config.primitivePolys) && decide (∀ r : Fin 8, s.plenOf r.val ≤ 512)
    && decide (s.bvSizeA ≤ 32768 ∧ s.bvSizeB ≤ 32768 ∧ s.bmW ≤ 256 ∧ s.bmH ≤ 256 ∧ (s.bmW = 0 ↔ s.bmH = 0) ∧ s.symV ≤ 40 ∧ s.locCnt ≤ 255)
    && decide (s.status.done = false ∧ s.status.err = false ∧ s.errCode = 0 ∧ s.errSub = 0)

theorem inv_of {s : State} (h : checkInv s = true) : s.Inv := by
  simp only [checkInv, Bool.and_eq_true, decide_eq_true_eq] at h
  obtain ⟨⟨⟨⟨hm, hp⟩, hl⟩, ha, hb, hw, hh, he, hv, hc⟩, hd, hr, hcode, hsub⟩ := h
  refine ⟨hm, hp, fun r => ?_, fun b => ?_, hw, hh, he, hv, hc, fun _ => ⟨hd, hr, hcode, hsub⟩, .inl ?_, fun h => ?_⟩
  · by_cases h8 : r < 8
    · exact hl ⟨r, h8⟩
    · rw [State.plenOf, vector_getD, Vector.getElem?_eq_none (by omega)]
      exact Nat.zero_le _
  · cases b
    · exact ha
    · exact hb
  · rw [hcode, hsub]
  · rw [hr] at h
    cases h

theorem witness_DecodeInvertsEncode : (Instr.pDiv 7 0 7 0).wellFormed = true ∧ (Instr.bvXor .B .A).wellFormed = true := by decide
theorem witness_EncodeInvertsDecode : decode 0x00777728 = .ok (.pDiv 7 7 7 7) := by decide

theorem witness_IllegalWordsFail :
    ready.status.busy = true ∧ ready.wait = 0
    ∧ fieldOPC { ready with cmd := 0x0000002C }.cmd ∉ definedOpcodes ∧ fieldOPC { ready with cmd := 0x00000810 }.cmd ∈ definedOpcodes
    ∧ ∀ i : Instr, i.wellFormed = true → encode i ≠ { ready with cmd := 0x00000810 }.cmd :=
  ⟨rfl, rfl, by decide, by decide, fun i h heq => absurd (Laws.Encoding.of_instr i h) (by rw [heq]; decide)⟩

theorem witness_StepRunsDecodedCommand :
    (ready.status.busy = true ∧ ready.wait = 0 ∧ decode ready.cmd = .ok .nop)
    ∧ ({ ready with wait := 5 }.status.busy = true ∧ { ready with wait := 5 }.host = [])
    ∧ State.reset.status.busy = false ∧ State.reset.host = [] := by
  decide +kernel

theorem witness_CommandIsAccepted :
    (asked [.write .word 0x00C 0x11]).status.busy = false ∧ (asked [.write .word 0x00C 0x11]).host = .write .word 0x00C 0x11 :: [] := by
  decide +kernel

theorem witness_CommandsComplete :
    (∃ t, exec .nop ready = .next t ∧ t.status.err = false) ∧ ∃ t, exec .gfInv ready = .next t ∧ t.status.err = true :=
  ⟨⟨_, rfl, rfl⟩, ⟨_, rfl, rfl⟩⟩

theorem witness_FailureChangesNothingElse : ∃ t, exec .gfInv ready = .next t ∧ t.status.err = true := ⟨_, rfl, rfl⟩

theorem witness_OnlyListedFailures :
    ready.Inv ∧ Instr.gfInv.wellFormed = true ∧ ∃ t, exec .gfInv ready = .next t ∧ t.status.err = true :=
  ⟨inv_of (by decide +kernel), rfl, _, rfl, rfl⟩

theorem witness_CommandsIgnoreTheHost : ∃ t, exec (.bvSetsize .A) ready = .next t := ⟨_, rfl⟩
theorem witness_RegisterOwnership : ∃ t, exec (.pZero 7) ready = .next t ∧ 6 ∉ polyDestinations (.pZero 7) ∧ 0 ∉ resultDestinations (.pZero 7) :=
  ⟨_, rfl, by decide, by decide⟩

theorem witness_MemoryOwnership :
    ready.Inv ∧ (Instr.pZero 7).wellFormed = true ∧ (∃ t, exec (.pZero 7) ready = .next t)
    ∧ (∀ r ∈ storeRanges (.pZero 7), ¬ (r.1 ≤ 0x8DFF ∧ 0x8DFF < r.2)) ∧ ∀ r ∈ storeRanges (.pZero 7), ¬ (r.1 ≤ 0x9000 ∧ 0x9000 < r.2) :=
  ⟨inv_of (by decide +kernel), rfl, ⟨_, rfl⟩, by decide, by decide⟩

theorem witness_BusyAlwaysEnds :
    (waiting [.read .word 0x004, .reset]).status.busy = true ∧ ∀ h ∈ (waiting [.read .word 0x004, .reset]).host, h.defined = true := by
  decide +kernel

theorem witness_ResetGivesResetValues : (asked [.reset]).due = false ∧ (waiting [.reset]).due = false ∧ (waiting [.reset]).host = .reset :: [] := by
  decide +kernel

theorem witness_InvariantAtReset : { State.reset with mem := [(0x400, 7), (0xC12F, 1)] }.mem.wf = true := by decide

theorem witness_StepKeepsInvariant : ready.Inv ∧ ∃ t, step ready = .next t := ⟨inv_of (by decide +kernel), _, rfl⟩

theorem witness_IdleRegisterWrites :
    (∀ o ∈ [0x004, 0x010, 0x01C, 0x040, 0x044, 0x058, 0x060, 0x07C],
      (asked [.write .word (BitVec.ofNat 16 o) 255]).status.busy = false ∧ (asked [.write .word (BitVec.ofNat 16 o) 255]).host = .write .word (BitVec.ofNat 16 o) 255 :: [])
    ∧ (0x01C : BitVec 16).toNat = 0x010 + 4 * 3 ∧ (0x07C : BitVec 16).toNat = 0x060 + 4 * 7 := by
  decide +kernel

theorem witness_IgnoredWrites :
    (∀ o ∈ [0x000, 0x008, 0x020, 0x03C, 0x048, 0x054, 0x080, 0x09C],
      (asked [.write .word (BitVec.ofNat 16 o) 1]).due = false ∧ (waiting [.write .word (BitVec.ofNat 16 o) 1]).due = false ∧ (BitVec.ofNat 16 o).toNat % 4 = 0 ∧ readOnlyOffset (BitVec.ofNat 16 o).toNat = true)
    ∧ ∀ o ∈ [0x05C, 0x0A0, 0x3FC, 0x500, 0xBFC, 0xFFC, 0x3000, 0x6000, 0x9000, 0xC130, 0xFFFC],
      (asked [.write .word (BitVec.ofNat 16 o) 1]).due = false ∧ (BitVec.ofNat 16 o).toNat % 4 = 0 ∧ reservedOffset (BitVec.ofNat 16 o).toNat = true := by
  decide +kernel

theorem witness_BusyWrites :
    (waiting [.write .word 0x01C 1]).status.busy = true ∧ (waiting [.write .word 0x01C 1]).wait ≠ 0
    ∧ (0x01C : BitVec 16).toNat = 0x010 + 4 * 3
    ∧ ∀ o ∈ [0x040, 0x044, 0x058, 0x060, 0x07C, 0x400, 0x4FC, 0x800, 0xBF8, 0xC00, 0xFF8, 0x1000, 0x2FFC, 0x4000, 0x5FFC,
        0x8000, 0x8FFC, 0xA000, 0xC12C],
      hazardOffset (BitVec.ofNat 16 o).toNat = true ∧ (BitVec.ofNat 16 o).toNat % 4 = 0 := by
  decide +kernel

theorem witness_HostReads :
    (∀ o ∈ [0x000, 0x004, 0x008, 0x00C, 0x010, 0x01C, 0x020, 0x03C, 0x040, 0x044, 0x048, 0x04C, 0x050, 0x054, 0x058, 0x05C,
        0x060, 0x07C, 0x080, 0x09C, 0x400, 0x4FC, 0x800, 0xBF8, 0xC00, 0xFF8, 0x1000, 0x1FFC, 0x2000, 0x2FFC, 0x4000, 0x5FFC,
        0x8000, 0x8FFC, 0xA000, 0xC12C],
      (asked [.read .word (BitVec.ofNat 16 o)]).due = false ∧ (asked [.read .word (BitVec.ofNat 16 o)]).status.busy = false ∧ (BitVec.ofNat 16 o).toNat % 4 = 0)
    ∧ (waiting [.read .word 0x044]).due = false ∧ unspecifiedOffset 0x044 = false ∧ unspecifiedOffset 0x05C = false
    ∧ (0x4FC : BitVec 16).toNat = 0x0400 + 4 * 63 ∧ (0xBF8 : BitVec 16).toNat = 0x0800 + 4 * 254 ∧ (0xFF8 : BitVec 16).toNat = 0x0C00 + 4 * 254
    ∧ (0x2FFC : BitVec 16).toNat = bankBase .B + 4 * 1023 ∧ (0x5FFC : BitVec 16).toNat = 0x4000 + 4 * 2047
    ∧ (0x8FFC : BitVec 16).toNat = 0x8000 + 0x200 * 7 + 4 * 127 ∧ (0xC12C : BitVec 16).toNat = 0xA000 + 4 * (12 * 176 + 11) := by
  decide +kernel

theorem witness_UndefinedAccessesAreRefused :
    (asked [.read .byte 0x000]).due = false ∧ (asked [.write .half 0x002 1]).due = false ∧ (asked [.read .word 0x002]).due = false
    ∧ (0x002 : BitVec 16).toNat % 4 ≠ 0 ∧ AccessWidth.half ≠ .word := by
  decide +kernel

theorem witness_ByteWindows :
    (asked [.write .word 0x400 1, .read .word 0x400]).status.busy = false
    ∧ (∀ o ∈ [0x400, 0x4FC, 0x1000, 0x1FFC, 0x2000, 0x2FFC, 0x8000, 0x8FFC], (BitVec.ofNat 16 o).toNat % 4 = 0
        ∧ (0x0400 ≤ (BitVec.ofNat 16 o).toNat ∧ (BitVec.ofNat 16 o).toNat < 0x0500 ∨ 0x1000 ≤ (BitVec.ofNat 16 o).toNat ∧ (BitVec.ofNat 16 o).toNat < 0x3000 ∨ 0x8000 ≤ (BitVec.ofNat 16 o).toNat ∧ (BitVec.ofNat 16 o).toNat < 0x9000))
    ∧ (0x2FFC : BitVec 16).toNat = bankBase .B + 4 * 1023
    ∧ ∀ o ∈ [0x800, 0xBF8, 0xC00, 0xFF8], (BitVec.ofNat 16 o).toNat % 4 = 0
        ∧ (0x0800 ≤ (BitVec.ofNat 16 o).toNat ∧ (BitVec.ofNat 16 o).toNat ≤ 0x0BF8 ∨ 0x0C00 ≤ (BitVec.ofNat 16 o).toNat ∧ (BitVec.ofNat 16 o).toNat ≤ 0x0FF8) := by
  decide +kernel

theorem witness_CellWindows :
    (asked [.write .word 0x5FFC 1, .read .word 0x5FFC]).Inv ∧ (asked [.write .word 0x5FFC 1, .read .word 0x5FFC]).status.busy = false
    ∧ (0x4000 : BitVec 16).toNat = 0x4000 + 4 * 0 ∧ (0x5FFC : BitVec 16).toNat = 0x4000 + 4 * 2047
    ∧ (0xA000 : BitVec 16).toNat = 0xA000 + 4 * (12 * 0 + 0) ∧ (0xC12C : BitVec 16).toNat = 0xA000 + 4 * (12 * 176 + 11) :=
  ⟨inv_of (by decide +kernel), by decide +kernel⟩

theorem witness_FieldCommandsComplete :
    (ops ready 255 255 0 0).gfPrim ∈ Config.primitivePolys ∧ (ops ready 255 255 0 0).operand 0 ≤ 255
    ∧ (ops ready 255 255 0 0).operand 1 ≤ 255 ∧ (ops ready 255 255 0 0).operand 0 ≠ 0 := by
  decide +kernel

theorem witness_FieldCommandsFail :
    255 < (ops ready 256 0 0 0).operand 0 ∧ 255 < (ops ready 0 256 0 0).operand 1 ∧ (ops ready 0 0 0 0).operand 0 = 0 := by
  decide +kernel

theorem witness_primitive : (0x11D : BitVec 9) ∈ Config.primitivePolys ∧ (0x1F5 : BitVec 9) ∈ Config.primitivePolys ∧ (1 : Byte) ≠ 0 := by
  decide +kernel
theorem witness_ExponentAndLogarithmTables : (0x1F5 : BitVec 9) ∈ Config.primitivePolys ∧ 0 < 255 ∧ 254 < 255 ∧ (255 : Byte) ≠ 0 := by decide
theorem witness_InverseIsUnique : (0x1F5 : BitVec 9) ∈ Config.primitivePolys ∧ (255 : Byte) ≠ 0 := by decide
theorem witness_FieldLaws : (0x12B : BitVec 9) ∈ Config.primitivePolys ∧ (1 : Byte) ≠ 0 ∧ (255 : Byte) ≠ 0 := by decide
theorem witness_TableProductIsSchoolProduct : (0x12D : BitVec 9) ∈ Config.primitivePolys := by decide

/-- `P[0]` = [1, 2], `P[1]` = [3], `P[2]` = [0], `P[3]` of full length, the rest empty. -/
def polys : State := withPoly (withPoly (withPoly (withPoly ready 0 [1, 2]) 1 [3]) 2 [0]) 3 (List.replicate 512 1)

theorem witness_PolyWritesComplete :
    (ops polys 511 255 0 0).Inv
    ∧ ((ops polys 511 255 0 0).operand 1 ≤ 255 ∧ (ops polys 511 255 0 0).operand 0 < 512)
    ∧ ((ops polys 600 0 0 0).operand 1 ≤ 255 ∧ (ops polys 600 0 0 0).operand 1 = 0)
    ∧ ((ops polys 255 0 0 0).plenOf 0 ≠ 0 ∧ (ops polys 255 0 0 0).plenOf 1 ≠ 0 ∧ (ops polys 255 0 0 0).operand 0 ≤ 255)
    ∧ ((ops polys 510 255 0 0).operand 1 ≤ 255
        ∧ ((ops polys 510 255 0 0).polyValue 0).length + (ops polys 510 255 0 0).operand 0 ≤ 512)
    ∧ isZero (polys.polyValue 2) = true
    ∧ (polys.plenOf 3 ≠ 0 ∧ (polys.polyValue 3).length + (polys.polyValue 1).length - 1 ≤ 512) :=
  ⟨inv_of (by decide +kernel), by decide +kernel⟩

theorem witness_DivisionCompletes :
    polys.Inv ∧ polys.plenOf 3 ≠ 0 ∧ polys.plenOf 0 ≠ 0 ∧ isZero (polys.polyValue 0) = false ∧ (7 : Nat) ≠ 0 :=
  ⟨inv_of (by decide +kernel), by decide +kernel⟩

theorem witness_PolyReadsComplete : polys.plenOf 3 ≠ 0 ∧ (ops polys 255 0 0 0).operand 0 ≤ 255 := by decide +kernel

theorem witness_PolyCommandsFail :
    (ops polys 512 256 0 0).Inv ∧ 255 < (ops polys 512 256 0 0).operand 1 ∧ 255 < (ops polys 512 256 0 0).operand 0
    ∧ ((ops polys 512 1 0 0).operand 1 ≤ 255 ∧ (ops polys 512 1 0 0).operand 1 ≠ 0 ∧ 512 ≤ (ops polys 512 1 0 0).operand 0)
    ∧ (polys.plenOf 7 = 0 ∧ (ops polys 255 255 0 0).operand 0 ≤ 255 ∧ (ops polys 255 255 0 0).operand 1 ≤ 255)
    ∧ (polys.plenOf 0 ≠ 0 ∧ polys.plenOf 2 ≠ 0 ∧ isZero (polys.polyValue 2) = true)
    ∧ (isZero (polys.polyValue 0) = false ∧ isZero (polys.polyValue 3) = false
        ∧ 512 < (polys.polyValue 0).length + (polys.polyValue 3).length - 1)
    ∧ ((ops polys 511 1 0 0).operand 1 ≤ 255 ∧ (ops polys 511 1 0 0).operand 1 ≠ 0
        ∧ 512 < ((ops polys 511 1 0 0).polyValue 0).length + (ops polys 511 1 0 0).operand 0) :=
  ⟨inv_of (by decide +kernel), by decide +kernel⟩

theorem witness_SumIsCoefficientwise : NormalPoly [0] ∧ NormalPoly [1, 0, 2] := ⟨⟨by decide, by decide⟩, by decide, by decide⟩
theorem witness_ProductIsConvolution :
    (0x11D : BitVec 9) ∈ Config.primitivePolys ∧ NormalPoly [1, 0, 2] ∧ NormalPoly [3] ∧ isZero [1, 0, 2] = false ∧ isZero [3] = false :=
  ⟨by decide, ⟨by decide, by decide⟩, ⟨by decide, by decide⟩, by decide, by decide⟩
theorem witness_EvaluationIsHorner : (0x11D : BitVec 9) ∈ Config.primitivePolys ∧ NormalPoly [1, 0, 2] :=
  ⟨by decide, by decide, by decide⟩

theorem witness_GeneratorHasItsRoots : (0x11D : BitVec 9) ∈ Config.primitivePolys ∧ 1 ≤ 1 ∧ 255 ≤ 255 ∧ 254 < 255 := by decide

theorem witness_EncoderAndSyndromesComplete :
    (ops ready 255 0 0 0).Inv ∧ (ops ready 255 0 0 0).operand 0 ≤ 255
    ∧ ((ops ready 256 255 0 0).operand 0 ≤ 256 ∧ (ops ready 256 255 0 0).operand 1 ≠ 0
        ∧ (ops ready 256 255 0 0).operand 1 < (ops ready 256 255 0 0).operand 0)
    ∧ (1 ≤ (ops ready 1 255 0 0).operand 0 ∧ (ops ready 1 255 0 0).operand 0 ≤ 256 ∧ (ops ready 1 255 0 0).operand 1 ≤ 255)
    ∧ (ops ready 1 0 0 0).operand 1 = 0 :=
  ⟨inv_of (by decide +kernel), by decide +kernel⟩

/-- The block [18, 52, 34, 4] of 43_rs.md R521 with one codeword changed; a block of 256 codewords with the last one changed; and one in
which the first can change. -/
theorem witness_EncodedBlocksHaveZeroSyndromes :
    (0x1CF : BitVec 9) ∈ Config.primitivePolys ∧ 1 ≤ 1 ∧ 1 ≤ 255 ∧ ([0] : List Byte) ≠ [] ∧ ([0] : List Byte).length + 255 ≤ 256
    ∧ rsEncode 0x11D 0 [18, 52] 2 = .ok [34, 4]
    ∧ ([18, 116, 34, 4] : List Byte).length = [18, 52].length + 2 ∧ 0 < differences [18, 116, 34, 4] ([18, 52] ++ [34, 4])
    ∧ 2 * differences [18, 116, 34, 4] ([18, 52] ++ [34, 4]) ≤ 2
    ∧ (List.replicate 255 0 ++ [1] : List Byte).length = 256
    ∧ (List.replicate 255 0 ++ [1] : List Byte).getD 0 0 = (List.replicate 256 0 : List Byte).getD 0 0
    ∧ differences (List.replicate 255 0 ++ [1]) (List.replicate 256 0) = 1
    ∧ ((List.replicate 254 0 : List Byte).length + 2 = 256 ∧ 2 ≤ 2 ∧ (255 : Byte) ≠ 0) := by
  decide +kernel

theorem witness_KeySolverCompletes :
    (ops (withPoly ready 0 [29, 64]) 255 0 0 0).Inv ∧ (1 : Nat) ≠ 2 ∧ (ops (withPoly ready 0 [29, 64]) 255 0 0 0).operand 0 ≠ 0
    ∧ (ops (withPoly ready 0 [29, 64]) 255 0 0 0).operand 0 ≤ 255 ∧ (ops (withPoly ready 0 [29, 64]) 255 0 0 0).plenOf 0 ≠ 0
    ∧ deg ((ops (withPoly ready 0 [29, 64]) 1 0 0 0).polyValue 0) ≤ (ops (withPoly ready 0 [29, 64]) 1 0 0 0).operand 0
    ∧ (rsKey 0x11D (mono 2 1) [29, 64] 2).isOk = true :=
  ⟨inv_of (by decide +kernel), by decide +kernel⟩

/-- A constant has as many nonzero roots as its degree, none; the zero polynomial has 255. -/
theorem witness_ChienSearchCompletes :
    (withPoly ready 1 [5]).Inv ∧ (withPoly ready 1 [5]).plenOf 1 ≠ 0
    ∧ (((List.range 255).map fun k => BitVec.ofNat 8 (k + 1)).filter fun x => decide (peval 0x11D ((withPoly ready 1 [5]).polyValue 1) x = 0)).length
        = deg ((withPoly ready 1 [5]).polyValue 1)
    ∧ (((List.range 255).map fun k => BitVec.ofNat 8 (k + 1)).filter fun x => decide (peval 0x11D ((withPoly ready 1 [0]).polyValue 1) x = 0)).length
        ≠ deg ((withPoly ready 1 [0]).polyValue 1) :=
  ⟨inv_of (by decide +kernel), by decide +kernel⟩

theorem witness_ForneyCompletes :
    (withList (withPoly ready 2 [1]) [1, 180, 3] []).Inv ∧ (withList (withPoly ready 2 [1]) [1, 180, 3] []).plenOf 2 ≠ 0
    ∧ (withList (withPoly ready 2 [1]) [1, 180, 3] []).locCnt = 3
    ∧ (∀ k : Fin 3, (withList (withPoly ready 2 [1]) [1, 180, 3] []).mem.read (0x0800 + 4 * k.val) ≠ 0)
    ∧ (∀ j k : Fin 3, j < k → (withList (withPoly ready 2 [1]) [1, 180, 3] []).mem.read (0x0800 + 4 * j.val)
        ≠ (withList (withPoly ready 2 [1]) [1, 180, 3] []).mem.read (0x0800 + 4 * k.val))
    ∧ (0 < (withList ready [0] []).locCnt ∧ (withList ready [0] []).mem.read (0x0800 + 4 * 0) = 0)
    ∧ (1 < (withList ready [7, 7] []).locCnt ∧ (withList ready [7, 7] []).mem.read (0x0800 + 4 * 0)
        = (withList ready [7, 7] []).mem.read (0x0800 + 4 * 1)) :=
  ⟨inv_of (by decide +kernel), by decide +kernel⟩

theorem witness_CorrectionCompletes :
    (ops (withList ready [8, 0] [64, 1]) 4 0 0 0).Inv ∧ (ops (withList ready [8, 0] [64, 1]) 4 0 0 0).operand 0 = 4
    ∧ ((ops (withList ready [8, 0] [64, 1]) 4 0 0 0).mem.read (0x0800 + 4 * 0) ≠ 0
        ∧ gfLog 0x11D ((ops (withList ready [8, 0] [64, 1]) 4 0 0 0).mem.read (0x0800 + 4 * 0)) < 4)
    ∧ (1 < (withList ready [8, 0] [64, 1]).locCnt ∧ (withList ready [8, 0] [64, 1]).mem.read (0x0800 + 4 * 1) = 0)
    ∧ ((withList ready [16] [1]).mem.read (0x0800 + 4 * 0) ≠ 0 ∧ 4 ≤ gfLog 0x11D ((withList ready [16] [1]).mem.read (0x0800 + 4 * 0))) :=
  ⟨inv_of (by decide +kernel), by decide +kernel⟩

theorem witness_DecodeCompletes :
    (ops (withBytes ready 0x400 [18, 52, 34, 4]) 4 2 0 0).Inv
    ∧ (1 ≤ (ops ready 256 255 0 0).operand 0 ∧ (ops ready 256 255 0 0).operand 0 ≤ 256 ∧ (ops ready 256 255 0 0).operand 1 ≤ 255)
    ∧ noErrors 0x11D 0 [18, 52, 34, 4] 2 = true ∧ noErrors 0x11D 0 [18, 116, 34, 4] 2 = false
    ∧ (rsDecode 0x11D 0 [18, 116, 34, 4] 2).isOk = true ∧ (rsDecode 0x11D 0 [19, 53, 35, 4] 2).isOk = false
    ∧ (noErrors 0x11D 0 [0, 0, 1, 2] 2 = false ∧ 2 * deg (syndromes 0x11D 0 [0, 0, 1, 2] 2) < 2) :=
  ⟨inv_of (by decide +kernel), by decide +kernel⟩

theorem witness_ReedSolomonOperandsFail :
    255 < (ops ready 256 0 0 0).operand 0 ∧ 256 < (ops ready 257 0 0 0).operand 0
    ∧ ((ops ready 256 0 0 0).operand 0 ≤ 256 ∧ (ops ready 256 0 0 0).operand 1 = 0)
    ∧ ((ops ready 17 17 0 0).operand 1 ≠ 0 ∧ (ops ready 17 17 0 0).operand 0 ≤ (ops ready 17 17 0 0).operand 1)
    ∧ (ops ready 0 0 0 0).operand 0 = 0
    ∧ (1 ≤ (ops ready 1 256 0 0).operand 0 ∧ 255 < (ops ready 1 256 0 0).operand 1)
    ∧ ((1 : Nat) ≠ 2 ∧ (ops ready 255 0 0 0).operand 0 ≠ 0 ∧ (ops ready 255 0 0 0).operand 0 ≤ 255 ∧ (ops ready 255 0 0 0).plenOf 7 = 0) := by
  decide +kernel

theorem witness_BankCommandsComplete :
    { ops ready 5 32 0 0 with bvSizeA := 32736 }.Inv
    ∧ ({ ops ready 5 32 0 0 with bvSizeA := 32736 }.operand 1 ≤ 32
        ∧ { ops ready 5 32 0 0 with bvSizeA := 32736 }.bvSize .A + { ops ready 5 32 0 0 with bvSizeA := 32736 }.operand 1 ≤ 32768)
    ∧ { ops ready 15 0 0 0 with bvSizeA := 16 }.operand 0 < { ops ready 15 0 0 0 with bvSizeA := 16 }.bvSize .A
    ∧ (ops ready 32767 0 0 0).operand 0 < 32768 ∧ ready.bvSize .A = ready.bvSize .B
    ∧ ({ ops ready 8 255 1 0 with bvSizeA := 16 }.operand 0 + 8 * { ops ready 8 255 1 0 with bvSizeA := 16 }.operand 2 ≤ 16
        ∧ (ops ready 8 255 1 0).operand 1 + (ops ready 8 255 1 0).operand 2 ≤ 256)
    ∧ (ops ready 32768 0 0 0).operand 0 ≤ 32768 :=
  ⟨inv_of (by decide +kernel), by decide +kernel⟩

theorem witness_AppendedBitsReadBack :
    0 < (ops ready 0xFFFFFFFF 32 0 0).operand 1 ∧ (ops ready 0xFFFFFFFF 32 0 0).operand 1 ≤ 32
    ∧ (ops ready 0xFFFFFFFF 32 0 0).operand 0 < 2 ^ (ops ready 0xFFFFFFFF 32 0 0).operand 1
    ∧ ready.bvSize .A + (ops ready 0xFFFFFFFF 32 0 0).operand 1 ≤ 32768 := by
  decide +kernel

theorem witness_MatrixCommandsComplete :
    (ops matrix 39 2 1 1).Inv
    ∧ (1 ≤ (ops ready 256 256 0 0).operand 0 ∧ (ops ready 256 256 0 0).operand 0 ≤ 256 ∧ (ops ready 256 256 0 0).operand 1 ≤ 256)
    ∧ ((ops matrix 39 2 1 1).operand 0 < matrix.bmW ∧ (ops matrix 39 2 1 1).operand 1 < matrix.bmH)
    ∧ (1 ≤ (ops matrix 39 2 1 1).operand 2 ∧ 1 ≤ (ops matrix 39 2 1 1).operand 3
        ∧ (ops matrix 39 2 1 1).operand 0 + (ops matrix 39 2 1 1).operand 2 ≤ matrix.bmW
        ∧ (ops matrix 39 2 1 1).operand 1 + (ops matrix 39 2 1 1).operand 3 ≤ matrix.bmH)
    ∧ (ops matrix 2 0 0 0).operand 0 < matrix.bmH :=
  ⟨inv_of (by decide +kernel), by decide +kernel⟩

/-- A 3 × 2 matrix whose only set cell is (1, 1). -/
def oneCell : State := { withBytes ready 0x4000 [0, 0, 0, 0, 0b010] with bmW := 3, bmH := 2 }

theorem witness_ScansFindFirstAndLastCell :
    (ready.Inv ∧ ∀ x y, ready.bmCell x y = false)
    ∧ oneCell.Inv ∧ oneCell.bmCell 1 1 = true ∧ ∀ x y, oneCell.bmCell x y = true → x = 1 ∧ y = 1 := by
  refine ⟨⟨inv_of (by decide +kernel), fun x y => ?_⟩, inv_of (by decide +kernel), by decide +kernel, fun x y h => ?_⟩
  · simp [State.bmCell, ready, State.reset]
  · have hb : x < 3 ∧ y < 2 := by
      rw [State.bmCell, Bool.and_eq_true, Bool.and_eq_true, decide_eq_true_eq, decide_eq_true_eq] at h
      exact h.1
    have key : ∀ (i : Fin 3) (j : Fin 2), oneCell.bmCell i.val j.val = true → i.val = 1 ∧ j.val = 1 := by decide +kernel
    exact key ⟨x, hb.1⟩ ⟨y, hb.2⟩ h

theorem witness_BankAndMatrixCommandsFail :
    32 < (ops ready 0 33 0 0).operand 1
    ∧ ((ops ready 0 1 0 0).operand 1 ≤ 32 ∧ 32768 < { ready with bvSizeA := 32768 }.bvSize .A + (ops ready 0 1 0 0).operand 1)
    ∧ ready.bvSize .A ≤ (ops ready 0 0 0 0).operand 0 ∧ 32768 ≤ (ops ready 32768 0 0 0).operand 0
    ∧ { ready with bvSizeA := 4, bvSizeB := 5 }.bvSize .A ≠ { ready with bvSizeA := 4, bvSizeB := 5 }.bvSize .B
    ∧ { ready with bvSizeA := 16 }.bvSize .A < (ops ready 9 0 1 0).operand 0 + 8 * (ops ready 9 0 1 0).operand 2
    ∧ ((ops ready 0 255 2 0).operand 0 + 8 * (ops ready 0 255 2 0).operand 2 ≤ { ready with bvSizeA := 16 }.bvSize .A
        ∧ 256 < (ops ready 0 255 2 0).operand 1 + (ops ready 0 255 2 0).operand 2)
    ∧ 32768 < (ops ready 32769 0 0 0).operand 0 ∧ (ops ready 5 0 0 0).operand 1 = 0
    ∧ ((ops ready 257 1 0 0).operand 0 ≠ 0 ∧ (ops ready 257 1 0 0).operand 1 ≠ 0 ∧ 256 < (ops ready 257 1 0 0).operand 0)
    ∧ matrix.bmW ≤ (ops matrix 40 3 0 0).operand 0 ∧ matrix.bmH ≤ (ops matrix 40 3 0 0).operand 1
    ∧ matrix.bmW < (ops matrix 39 0 2 1).operand 0 + (ops matrix 39 0 2 1).operand 2
    ∧ ready.bmH ≤ (ops ready 0 0 0 0).operand 0 ∧ ready.bmW ≤ (ops ready 0 0 0 0).operand 0 := by
  decide +kernel

theorem witness_SymbolCellCommandsComplete :
    (ops blank 20 20 0 0).Inv ∧ (1 ≤ (ops ready 40 0 0 0).operand 0 ∧ (ops ready 40 0 0 0).operand 0 ≤ 40)
    ∧ (blank.symN ≠ 0 ∧ (ops blank 20 20 0 0).operand 0 < blank.symN ∧ (ops blank 20 20 0 0).operand 1 < blank.symN)
    ∧ Cell.empty.toWord = (ops blank 0 0 0xFFFFFFFF 0).latch.getD 2 0 ∧ Cell.black.toWord = (ops blank 0 0 1 0).latch.getD 2 0 :=
  ⟨inv_of (by decide +kernel), by decide +kernel⟩

/-- On an all-empty symbol the basic patterns can be embedded; on an all-white one a separator cell is taken; with (8, 13) alone white
the dark module's cell is. -/
theorem witness_BasicPatternsComplete :
    blank.Inv ∧ blank.symV ≠ 0
    ∧ ((∀ x y : Fin 21, blank.symCell x.val y.val = .empty) ∧ (∀ p ∈ separatorCells 21, blank.symCell p.1 p.2 = .empty)
        ∧ blank.symCell 8 (21 - 8) ≠ .white)
    ∧ ((0, 7) ∈ separatorCells 21 ∧ white.symCell 0 7 ≠ .empty)
    ∧ ((∀ p ∈ separatorCells 21, (withBytes blank (0xA000 + 48 * 13 + 2) [0xA8]).symCell p.1 p.2 = .empty)
        ∧ (withBytes blank (0xA000 + 48 * 13 + 2) [0xA8]).symCell 8 (21 - 8) = .white)
    ∧ (blank2.alignsAt 18 18 = true ∧ blank2.alignsAt 6 18 = false ∧ blank2.inAlignment 16 20 = true)
    ∧ (blank2.inAlignment 8 6 = false ∧ 8 ≤ 16 ∧ 16 ≤ blank2.symN - 9)
    ∧ (inFinder 25 15 20 = false ∧ (15, 20) ∉ separatorCells 25 ∧ ((15, 20) : Nat × Nat) ≠ (8, 25 - 8) ∧ blank2.inAlignment 15 20 = false)
    ∧ 2 ≤ 40 ∧ 1 < 14 / 7 ∧ 4 < 40 / 7 :=
  ⟨inv_of (by decide +kernel), by decide +kernel⟩

theorem witness_TypeAndVersionInformation :
    { ops blank 3 7 0 0 with symV := 7 }.Inv ∧ { ops blank 3 7 0 0 with symV := 7 }.symV ≠ 0
    ∧ (ops blank 3 7 0 0).operand 0 ≤ 3 ∧ (ops blank 3 7 0 0).operand 1 ≤ 7 ∧ typeBits 3 7 = .ok 0x083B
    ∧ 7 < 8 ∧ 8 ≤ 14 ∧ 14 < 15
    ∧ (∀ i : Fin 15, ((9, 9) : Nat × Nat) ≠ typeCell1 i.val ∧ ((9, 9) : Nat × Nat) ≠ typeCell2 45 i.val)
    ∧ (∀ (i : Fin 6) (j : Fin 3), ((9, 9) : Nat × Nat) ≠ (i.val, 45 - 11 + j.val) ∧ ((9, 9) : Nat × Nat) ≠ (45 - 11 + j.val, i.val)) :=
  ⟨inv_of (by decide +kernel), by decide +kernel⟩

/-- An all-white symbol has no empty cell: no bits fit it, and one bit is too many. The traversal of an all-empty one starts at its lower
right cell. -/
theorem witness_DataPlacementCompletes :
    (ops blank 15 0 0 0).Inv ∧ blank.symV ≠ 0 ∧ (ops blank 15 0 0 0).operand 0 = 15 ∧ (ops blank 7 0 0 0).operand 0 ≤ 7
    ∧ white.bvSize .A ≤ white.emptyPath.length ∧ { white with bvSizeA := 1 }.emptyPath.length < { white with bvSizeA := 1 }.bvSize .A
    ∧ blank.emptyPath[0]? = some (20, 20) ∧ ((6, 0) : Nat × Nat) ∉ blank.emptyPath :=
  ⟨inv_of (by decide +kernel), by decide +kernel⟩

theorem witness_DataPathAndCapacities : 1 ≤ 40 ∧ 40 ≤ 40 ∧ 87 < (4 * 40 + 17 - 1) / 2 ∧ 176 < 4 * 40 + 17 ∧ 1 < 2 := by decide

theorem witness_SymbolBuildCompletes :
    (ops helloWorld 3 1 7 0).Inv ∧ (ops helloWorld 3 1 7 0).operand 0 ≤ 3 ∧ 1 ≤ (ops helloWorld 3 1 7 0).operand 1
    ∧ (ops ready 3 40 7 0).operand 1 ≤ 40 ∧ (ops helloWorld 3 1 7 0).operand 2 ≤ 7
    ∧ (ops helloWorld 3 1 7 0).bvSize .A ≤ dataCells ((ops helloWorld 3 1 7 0).operand 1)
    ∧ dataCells ((ops ready 3 1 7 0).operand 1) < { ops ready 3 1 7 0 with bvSizeA := 209 }.bvSize .A :=
  ⟨inv_of (by decide +kernel), by decide +kernel⟩

theorem witness_MaskAndBchWordsComplete :
    ((ops ready 7 255 255 0).operand 0 ≤ 7 ∧ (ops ready 7 255 255 0).operand 1 ≤ 255 ∧ (ops ready 7 255 255 0).operand 2 ≤ 255)
    ∧ ((ops ready 3 7 0 0).operand 0 ≤ 3 ∧ (ops ready 3 7 0 0).operand 1 ≤ 7)
    ∧ (1 ≤ (ops ready 1 0 0 0).operand 0 ∧ (ops ready 40 0 0 0).operand 0 ≤ 40)
    ∧ (3 ≤ 3 ∧ 7 ≤ 7 ∧ 1 ≤ 40 ∧ 40 ≤ 40) := by
  decide +kernel

/-- Over GF(2), (x + 1)·(x² + 1) = x³ + x² + x + 1; the example word of version 7 is x² times its generator (46_symbol.md R724); the
type word of H with mask 7 (95_test_vectors.md 6) is a multiple of its generator once 0x5412 is taken off. -/
theorem test_gf2Product :
    gf2Product 0b11 0b101 3 = 0b1111 ∧ gf2Product 0x1F25 4 6 = 0x07C94 ∧ gf2Product 0x537 19 5 = 0x083B ^^^ 0x5412 := by decide

theorem witness_PenaltyCompletes :
    blank.Inv ∧ blank.symV = 1 ∧ (∀ x y : Fin 21, blank.symCell x.val y.val = .empty)
    ∧ (∀ x y : Fin 21, white.symCell x.val y.val = .white)
    ∧ (∀ x y : Fin 21, checkerboard.symCell x.val y.val = Cell.ofBool (decide ((x.val + y.val) % 2 = 1)))
    ∧ 0 < 5 ∧ [Cell.white].head? ≠ some .black ∧ ([] : List Cell).head? ≠ some .black :=
  ⟨inv_of (by decide +kernel), by decide +kernel⟩

theorem witness_SelectionKeepsFirstMinimum :
    (ops helloWorld 3 1 0 0).Inv ∧ (ops helloWorld 3 1 0 0).operand 0 ≤ 3 ∧ 1 ≤ (ops helloWorld 3 1 0 0).operand 1
    ∧ (ops ready 3 40 0 0).operand 1 ≤ 40 ∧ (ops helloWorld 3 1 0 0).bvSize .A = 208 ∧ 0 ≤ 7 ∧ 7 ≤ 7 :=
  ⟨inv_of (by decide +kernel), by decide +kernel⟩

theorem witness_SymbolAndMaskCommandsFail :
    ready.symV = 0
    ∧ (blank.symV ≠ 0 ∧ blank.symN ≤ (ops blank 21 0 0 0).operand 0 ∧ blank.symN ≤ (ops blank 0 21 0 0).operand 1)
    ∧ ((ops blank 20 20 2 0).operand 0 < blank.symN ∧ (ops blank 20 20 2 0).operand 1 < blank.symN ∧ (ops blank 20 20 2 0).operand 2 ≠ 0
        ∧ (ops blank 20 20 2 0).operand 2 ≠ 1 ∧ (ops blank 20 20 2 0).operand 2 ≠ 0xFFFFFFFF)
    ∧ 3 < (ops blank 4 0 0 0).operand 0 ∧ ((ops blank 3 8 0 0).operand 0 ≤ 3 ∧ 7 < (ops blank 3 8 0 0).operand 1)
    ∧ (7 < (ops blank 8 0 0 0).operand 0 ∧ (ops blank 8 0 0 0).operand 0 ≠ 15)
    ∧ (ops ready 0 0 0 0).operand 0 = 0 ∧ 40 < (ops ready 41 41 0 0).operand 1
    ∧ (1 ≤ (ops ready 4 1 0 0).operand 1 ∧ (ops ready 4 40 0 0).operand 1 ≤ 40 ∧ 3 < (ops ready 4 1 0 0).operand 0)
    ∧ ((ops ready 3 1 8 0).operand 0 ≤ 3 ∧ 7 < (ops ready 3 1 8 0).operand 2)
    ∧ ((ops ready 7 256 0 0).operand 0 ≤ 7 ∧ 255 < (ops ready 7 256 0 0).operand 1) := by
  decide +kernel

end Sys2Proof.Tests
end

section
/-! PROOFS. How long the lists are that the Reed-Solomon commands store: a search answers at most 255 locators, and the encoder exactly as
many EC codewords as it is asked for, because division by a monic polynomial leaves a remainder of lower degree. -/

namespace Sys2Proof.Machine

/-! Lengths of what the Reed-Solomon steps answer (43_rs.md R507 to R510). -/

/-- A computation in sequence that answers a value: its first part does too, and the rest goes on from there. -/
theorem bind_eq_ok {α β : Type} {x : Except Failure α} {k : α → Except Failure β} {r : β} (h : (x >>= k) = .ok r) :
    ∃ a, x = .ok a ∧ k a = .ok r := by
  cases x with
  | error f => cases h
  | ok a => exact ⟨a, rfl, h⟩

theorem mapM_ok_length {α β : Type} {f : α → Except Failure β} {l : List α} {r : List β} (h : l.mapM f = .ok r) :
    r.length = l.length := by
  induction l generalizing r with
  | nil => exact Except.ok.inj h ▸ rfl
  | cons a l ih =>
    rw [List.mapM_cons] at h
    obtain ⟨b, -, h⟩ := bind_eq_ok h
    obtain ⟨bs, hbs, h⟩ := bind_eq_ok h
    obtain rfl := Except.ok.inj h
    rw [List.length_cons, List.length_cons, ih hbs]

/-- A search finds at most 255 roots. -/
theorem chien_ok_length {prim : BitVec 9} {p : Poly} {l : List Byte} (h : chien prim p = .ok l) : l.length ≤ 255 := by
  have hroots : (chienRoots prim p).length ≤ 255 := (List.length_filter_le _ _).trans (by simp)
  rw [chien] at h
  split at h
  · obtain rfl := Except.ok.inj h
    rwa [List.length_map]
  · cases h

theorem forney_ok_length {prim : BitVec 9} {base : Nat} {omega : Poly} {locators l : List Byte}
    (h : forney prim base omega locators = .ok l) : l.length = locators.length := by
  simpa using mapM_ok_length h

theorem rsCorrect_ok_length {prim : BitVec 9} {n : Nat} {errors : List (Byte × Byte)} {block r : List Byte}
    (h : rsCorrect prim n errors block = .ok r) : r.length = block.length := by
  induction errors generalizing block with
  | nil => exact (Except.ok.inj h) ▸ rfl
  | cons e rest ih =>
    obtain ⟨l, m⟩ := e
    rw [rsCorrect] at h
    split at h
    · cases h
    · split at h
      · cases h
      · simpa using ih h

/-- What a decode answers: as many codewords as the block has, at most 255 locators, and a magnitude for each. -/
theorem rsDecode_ok_lengths {prim : BitVec 9} {base twoS : Nat} {block : List Byte} {d : Decoded}
    (h : rsDecode prim base block twoS = .ok d) :
    d.block.length = block.length ∧ d.locators.length ≤ 255 ∧ d.magnitudes.length = d.locators.length := by
  obtain ⟨so, -, h⟩ := bind_eq_ok h
  obtain ⟨locators, hl, h⟩ := bind_eq_ok h
  obtain ⟨magnitudes, hm, h⟩ := bind_eq_ok h
  obtain ⟨corrected, hc, h⟩ := bind_eq_ok h
  obtain rfl := Except.ok.inj h
  exact ⟨rsCorrect_ok_length hc, chien_ok_length hl, forney_ok_length hm⟩

/-! The powers of α under a legal `GF_PRIM` are all the nonzero elements (41_gf.md R400 to R404). -/

theorem gfPower_lt (prim i : Nat) : gfPower prim i < 256 := by
  cases i with
  | zero => exact Nat.one_lt_ofNat
  | succ i =>
    simp only [gfPower, gfDouble]
    split
    · exact Nat.lt_succ_of_le Nat.and_le_right
    · omega

theorem gfExp_toNat (prim : BitVec 9) (i : Nat) : (gfExp prim i).toNat = gfPower prim.toNat i := by
  rw [gfExp, BitVec.toNat_ofNat, Nat.mod_eq_of_lt (gfPower_lt _ i)]

/-- The set of the `n` powers from `x` on, as the bits of a number. -/
def powerMarks (prim : Nat) : (n x : Nat) → Nat
  | 0, _ => 0
  | n + 1, x => 1 <<< x ||| powerMarks prim n (gfDouble prim x)

theorem exists_power_of_mark {prim n i a : Nat} (h : (powerMarks prim n (gfPower prim i)).testBit a = true) :
    ∃ j, i ≤ j ∧ j < i + n ∧ gfPower prim j = a := by
  induction n generalizing i with
  | zero => simp [powerMarks] at h
  | succ n ih =>
    rw [powerMarks, Nat.testBit_or, Bool.or_eq_true, Nat.one_shiftLeft, Nat.testBit_two_pow, decide_eq_true_eq] at h
    rcases h with h | h
    · exact ⟨i, Nat.le_refl i, by omega, h⟩
    · obtain ⟨j, h1, h2, h3⟩ := ih (i := i + 1) h
      exact ⟨j, by omega, by omega, h3⟩

/-- The 255 powers of each legal polynomial are all the nonzero elements (10_state.md R110), and the next power is 1 again. -/
theorem powerMarks_of_primitive : ∀ p ∈ Config.primitivePolys,
    powerMarks p.toNat 255 1 = 2 ^ 256 - 2 ∧ gfPower p.toNat 255 = 1 := by decide +kernel

/-- A search of the table finds an element that stands in the part searched. -/
theorem gfFind_spec {prim a fuel i : Nat} (h : ∃ j, i ≤ j ∧ j < i + fuel ∧ gfPower prim j = a) :
    gfPower prim (gfFind prim a fuel i (gfPower prim i)) = a ∧ gfFind prim a fuel i (gfPower prim i) < i + fuel := by
  induction fuel generalizing i with
  | zero => obtain ⟨j, h1, h2, -⟩ := h; omega
  | succ fuel ih =>
    rw [gfFind]
    split
    · exact ⟨‹_›, by omega⟩
    · rename_i hne
      obtain ⟨j, h1, h2, h3⟩ := h
      have hj : j ≠ i := fun e => hne (e ▸ h3)
      obtain ⟨hpow, hlt⟩ := ih (i := i + 1) ⟨j, by omega, by omega, h3⟩
      rw [gfPower] at hpow hlt
      exact ⟨hpow, by omega⟩

theorem gfLog_one (prim : BitVec 9) : gfLog prim 1 = 0 := rfl

/-- Every nonzero element has a logarithm below 255, of which it is the power (41_gf.md R401). -/
theorem gfLog_spec {prim : BitVec 9} (hprim : prim ∈ Config.primitivePolys) {a : Byte} (ha : a ≠ 0) :
    gfExp prim (gfLog prim a) = a ∧ gfLog prim a < 255 := by
  have ha0 : a.toNat ≠ 0 := fun e => ha (BitVec.eq_of_toNat_eq e)
  have hmark : (powerMarks prim.toNat 255 (gfPower prim.toNat 0)).testBit a.toNat = true := by
    rw [gfPower, (powerMarks_of_primitive prim hprim).1]
    have key : ∀ n : Fin 256, n.val ≠ 0 → (2 ^ 256 - 2 : Nat).testBit n.val = true := by decide +kernel
    exact key ⟨a.toNat, a.isLt⟩ ha0
  obtain ⟨he, hlt⟩ := gfFind_spec (exists_power_of_mark hmark)
  rw [Nat.zero_add] at hlt
  exact ⟨BitVec.eq_of_toNat_eq ((gfExp_toNat _ _).trans he), hlt⟩

theorem gfMul_one {prim : BitVec 9} (hprim : prim ∈ Config.primitivePolys) (a : Byte) : gfMul prim a 1 = a := by
  rw [gfMul]
  by_cases ha : a = 0
  · rw [if_pos (.inl ha), ha]
  · obtain ⟨he, hlt⟩ := gfLog_spec hprim ha
    rw [if_neg (not_or.mpr ⟨ha, by decide⟩), gfLog_one, Nat.add_zero, Nat.mod_eq_of_lt hlt, he]

theorem gfMul_comm (prim : BitVec 9) (a b : Byte) : gfMul prim a b = gfMul prim b a := by
  simp only [gfMul, or_comm, Nat.add_comm]

theorem gfInv_one {prim : BitVec 9} (hprim : prim ∈ Config.primitivePolys) : gfInv prim 1 = .ok 1 := by
  rw [gfInv, if_neg (by decide), gfInvNonzero, gfLog_one, gfExp, (powerMarks_of_primitive prim hprim).2]
  rfl

/-! Long division, and the EC codewords that it gives the encoder (42_poly.md R459, 43_rs.md R500 to R502). -/

theorem lead_eq_headD (p : Poly) : lead p = p.headD 0 := by
  cases p <;> simp [lead, coef, deg]

theorem isZero_eq_false_iff {p : Poly} : isZero p = false ↔ lead p ≠ 0 := by
  rw [lead_eq_headD, isZero, decide_eq_false_iff_not]

theorem pmulmono_normal (prim : BitVec 9) {a : Poly} (ha : a ≠ []) (d : Nat) (c : Byte) : NormalPoly (pmulmono prim a d c) := by
  unfold pmulmono
  split
  · exact ⟨List.cons_ne_nil _ _, rfl⟩
  · exact ⟨norm_ne_nil (by simp [ha]), norm_norm _⟩

theorem padd_normal {a b : Poly} (ha : NormalPoly a) (hb : NormalPoly b) : NormalPoly (padd a b) := by
  have hlen {p q : Poly} (h : p.length ≤ q.length) (hq : q ≠ []) : NormalPoly (norm (xorAligned p q)) := by
    refine ⟨norm_ne_nil fun e => hq ?_, norm_norm _⟩
    rw [← List.length_eq_zero_iff, ← xorAligned_length h, e, List.length_nil]
  unfold padd
  split
  · exact hb
  split
  · exact ha
  split
  · exact hlen ‹_› hb.1
  · exact hlen (by omega) ha.1

/-- The sum of two nonzero polynomials of one length and one leading coefficient is shorter, or zero. -/
theorem padd_shorter {a b : Poly} (hlen : a.length = b.length) (hlead : lead a = lead b) (ha : isZero a = false) :
    isZero (padd a b) = true ∨ (padd a b).length < a.length := by
  have hb : isZero b = false := isZero_eq_false_iff.mpr (hlead ▸ isZero_eq_false_iff.mp ha)
  rw [padd, ha, hb, if_neg Bool.false_ne_true, if_neg Bool.false_ne_true, if_pos hlen.le]
  cases a with
  | nil => exact absurd (lead_eq_headD []) (isZero_eq_false_iff.mp ha)
  | cons x xs =>
    cases b with
    | nil => cases hlen
    | cons y ys =>
      rw [lead_eq_headD, lead_eq_headD, List.headD_cons, List.headD_cons] at hlead
      have hsum : xorAligned (x :: xs) (y :: ys) = 0 :: List.zipWith (· ^^^ ·) xs ys := by
        simp [xorAligned, hlead, Nat.succ.inj hlen]
      rw [hsum]
      cases hz : List.zipWith (· ^^^ ·) xs ys with
      | nil => exact .inl rfl
      | cons c cs =>
        have hlen' : (c :: cs).length ≤ xs.length := by rw [← hz]; simp
        rw [norm_cons_zero]
        exact .inr (Nat.lt_succ_of_le ((norm_length_le _).trans hlen'))

/-- A round of division subtracts a multiple of the divisor as long as the remainder and with its leading coefficient. -/
theorem pmulmono_lead_length {prim : BitVec 9} {b r : Poly} {inv : Byte} (hb : b ≠ [])
    (hinv : gfMul prim (lead b) (gfMul prim (lead r) inv) = lead r) (hdeg : deg b ≤ deg r) (hr : isZero r = false) :
    lead (pmulmono prim b (deg r - deg b) (gfMul prim (lead r) inv)) = lead r
      ∧ (pmulmono prim b (deg r - deg b) (gfMul prim (lead r) inv)).length = r.length := by
  have hne := isZero_eq_false_iff.mp hr
  have hs : gfMul prim (lead r) inv ≠ 0 := fun e => hne (by rw [← hinv, e]; simp [gfMul])
  cases b with
  | nil => exact absurd rfl hb
  | cons c cs =>
    have hc := hinv
    rw [lead_eq_headD (c :: cs), List.headD_cons] at hc
    cases r with
    | nil => exact absurd rfl hne
    | cons x xs =>
      simp only [pmulmono, if_neg hs, List.map_cons, List.cons_append, hc, norm_cons_of_ne hne]
      simp only [deg, List.length_cons] at hdeg ⊢
      refine ⟨lead_eq_headD _, ?_⟩
      simp only [List.length_append, List.length_map, List.length_replicate]
      omega

/-- Long division by a polynomial whose leading coefficient `inv` inverts ends with a remainder that is zero or shorter than the divisor
(42_poly.md R459). -/
theorem divLoop_remainder {prim : BitVec 9} {b : Poly} {inv : Byte} (hb : b ≠ [])
    (hinv : ∀ x, gfMul prim (lead b) (gfMul prim x inv) = x) {fuel : Nat} {q r : Poly} (hr : NormalPoly r)
    (hfuel : isZero r = true ∨ r.length ≤ fuel) :
    NormalPoly (divLoop prim b inv fuel q r).2
      ∧ (isZero (divLoop prim b inv fuel q r).2 = true ∨ deg (divLoop prim b inv fuel q r).2 < deg b) := by
  induction fuel generalizing q r with
  | zero =>
    refine ⟨hr, hfuel.imp_right fun h => ?_⟩
    exact absurd (List.length_eq_zero_iff.mp (Nat.le_zero.mp h)) hr.1
  | succ fuel ih =>
    rw [divLoop]
    split
    · rename_i hstep
      obtain ⟨hdeg, hz⟩ := hstep
      obtain ⟨hlead, hlen⟩ := pmulmono_lead_length hb (hinv (lead r)) hdeg hz
      refine ih (padd_normal hr (pmulmono_normal prim hb _ _)) ?_
      have hle : r.length ≤ fuel + 1 := hfuel.resolve_left (by simp [hz])
      exact (padd_shorter hlen.symm hlead.symm hz).imp_right fun h => by omega
    · rename_i hstop
      refine ⟨hr, ?_⟩
      by_cases hz : isZero r = true
      · exact .inl hz
      · exact .inr (Nat.lt_of_not_le fun h => hstop ⟨h, by simpa using hz⟩)

/-- The generator of degree `d` is monic and has `d + 1` coefficients (43_rs.md R500). -/
theorem gen_monic {prim : BitVec 9} (hprim : prim ∈ Config.primitivePolys) (base d : Nat) :
    ∃ cs, gen prim base d = 1 :: cs ∧ cs.length = d := by
  induction d with
  | zero => exact ⟨[], rfl, rfl⟩
  | succ d ih =>
    obtain ⟨cs, hcs, hlen⟩ := ih
    obtain ⟨ds, hds⟩ : ∃ ds, convolve prim (1 :: cs) [1, rsRoot prim base d] = 1 :: ds := by
      rw [convolve, List.map_cons, gfMul_one hprim, xorLeft]
      exact ⟨_, rfl⟩
    have hl := convolve_length prim (List.cons_ne_nil 1 cs) (List.cons_ne_nil 1 [rsRoot prim base d])
    refine ⟨ds, ?_, ?_⟩
    · rw [gen, hcs, pmul, if_neg (by simp [isZero]), hds, norm_cons_of_ne (by decide)]
    · rw [hds] at hl
      simp only [List.length_cons, List.length_nil] at hl
      omega

/-- Division by a monic polynomial does not fail. -/
theorem pdiv_monic {prim : BitVec 9} (hprim : prim ∈ Config.primitivePolys) (a cs : Poly) :
    pdiv prim a (1 :: cs) = .ok (divLoop prim (1 :: cs) 1 a.length [0] a) := by
  rw [pdiv, lead_eq_headD, List.headD_cons, gfInv_one hprim]
  rfl

/-- The encoder answers exactly `e` EC codewords (43_rs.md R502). -/
theorem rsEncode_ok_length {prim : BitVec 9} (hprim : prim ∈ Config.primitivePolys) {base e : Nat} {data ec : List Byte}
    (hdata : data ≠ []) (he : e ≠ 0) (h : rsEncode prim base data e = .ok ec) : ec.length = e := by
  obtain ⟨cs, hgen, hlen⟩ := gen_monic hprim base e
  have hinv (x : Byte) : gfMul prim (lead (1 :: cs)) (gfMul prim x 1) = x := by
    rw [gfMul_one hprim, lead_eq_headD, List.headD_cons, gfMul_comm, gfMul_one hprim]
  obtain ⟨⟨hne, hnorm⟩, hend⟩ := divLoop_remainder (q := [0]) (List.cons_ne_nil 1 cs) hinv
    (pmulmono_normal prim (norm_ne_nil hdata) e 1) (.inr (Nat.le_refl _))
  rw [rsEncode, hgen, pdiv_monic hprim] at h
  obtain rfl := Except.ok.inj h
  generalize (divLoop prim (1 :: cs) 1 _ [0] _).2 = rem at hne hnorm hend ⊢
  have hrem : rem.length ≤ e := by
    rcases hend with hz | hd
    · rw [eq_zero_of_isZero hne hnorm hz]
      exact Nat.one_le_iff_ne_zero.mpr he
    · simp only [deg, List.length_cons, hlen] at hd
      omega
  rw [List.length_append, List.length_replicate]
  exact Nat.sub_add_cancel hrem

end Sys2Proof.Machine
end

section
/-! PROOFS (10_state.md). The writes that a command may make: a chain of register writes and stores, each permitted to the command, and what
every such chain keeps: the invariant, the bytes outside the command's windows, and the registers that its rules do not name. -/

namespace Sys2Proof.Machine

/-- A store that leaves every byte outside the ranges `rs` as it was (20_memory.md R204). -/
def StoresWithin (rs : List (Nat × Nat)) (m m' : Memory) : Prop :=
  ∀ a, (∀ r ∈ rs, ¬ (r.1 ≤ a ∧ a < r.2)) → m'.read a = m.read a

namespace StoresWithin

variable {rs : List (Nat × Nat)} {lo hi : Nat}

theorem trans {m m' m'' : Memory} (h : StoresWithin rs m m') (h' : StoresWithin rs m' m'') : StoresWithin rs m m'' :=
  fun a ha => (h' a ha).trans (h a ha)

theorem write (hr : (lo, hi) ∈ rs) (m : Memory) {a : Nat} {vs : List Byte} (hlo : lo ≤ a) (hhi : a + vs.length ≤ hi) :
    StoresWithin rs m (m.write a vs) := by
  intro b hb
  have := hb _ hr
  rw [Memory.read_write, if_neg (by omega)]

theorem fill (hr : (lo, hi) ∈ rs) (m : Memory) {a n : Nat} {v : Byte} (hlo : lo ≤ a) (hhi : a + n ≤ hi) :
    StoresWithin rs m (m.fill a n v) :=
  write hr m hlo (by simpa using hhi)

theorem writeEvery4 (hr : (lo, hi) ∈ rs) (m : Memory) {a : Nat} {vs : List Byte} (hlo : lo ≤ a)
    (hhi : a + 4 * vs.length ≤ hi + 3) : StoresWithin rs m (m.writeEvery4 a vs) := by
  intro b hb
  have := hb _ hr
  rw [Memory.read_writeEvery4, if_neg (by omega)]

theorem writeBits (hr : (lo, hi) ∈ rs) (m : Memory) {base i n : Nat} {f : Nat → Bool} (hlo : 8 * lo ≤ 8 * base + i)
    (hhi : 8 * base + i + n ≤ 8 * hi) : StoresWithin rs m (m.writeBits base i n f) := by
  intro b hb
  have := hb _ hr
  exact Memory.read_writeBits_outside m base i n f b (by omega)

theorem storeGrid (hr : (0xA000, 0xC130) ∈ rs) (m : Memory) {n : Nat} (hn : n ≤ 177) (g : Grid) :
    StoresWithin rs m (m.storeGrid n g) := by
  intro b hb
  have := hb _ hr
  refine byte_ext fun j hj => ?_
  rw [Memory.read_storeGrid m hn g b j hj, if_neg (by omega)]

end StoresWithin

/-- `u` is reached from `s` by writes that command `i` may make, with values that keep the invariant: the registers that its rules
name (10_state.md R121 to R180) and stores in its windows (20_memory.md R204). Where a bound or a window's end rests on the state
the command started in, it is claimed for an `s` that meets the invariant. -/
inductive Writes (i : Instr) (s : State) : State → Prop
  | start : Writes i s s
  | result {u : State} (k : Nat) (v : Word) (hk : k ∈ resultDestinations i) (h : Writes i s u) : Writes i s (u.setResult k v)
  | plen {u : State} (r n : Nat) (hr : r ∈ polyDestinations i) (hn : n ≤ 512) (h : Writes i s u) : Writes i s (u.setPlen r n)
  | size {u : State} (x : Bank) (n : Nat) (hx : x ∈ sizeDestinations i) (hn : s.Inv → n ≤ 32768) (h : Writes i s u) :
      Writes i s (u.setBvSize x n)
  | locCnt {u : State} (n : Nat) (hi : (∃ ra, i = .rsChien ra) ∨ i = .rsDec) (hn : n ≤ 255) (h : Writes i s u) :
      Writes i s (u.setLocCnt n)
  | pens {u : State} (p : Vector Word 8) (hi : ∃ y, i = .maskSelect y) (h : Writes i s u) : Writes i s (u.setPens p)
  | symV {u : State} (v : Nat) (hi : i = .symInit ∨ ∃ y, i = .symBuild y ∨ i = .maskSelect y) (hv : v ≤ 40) (h : Writes i s u) :
      Writes i s (u.setSymV v)
  | matrix {u : State} (w h : Nat) (hi : i = .bmInit ∨ i = .symExport) (hwh : s.Inv → w ≤ 256 ∧ h ≤ 256 ∧ (w = 0 ↔ h = 0))
      (hu : Writes i s u) : Writes i s (u.newMatrix w h)
  | store {u : State} (m : Memory) (hwf : u.mem.wf = true → m.wf = true)
      (hm : s.Inv → StoresWithin (storeRanges i) u.mem m) (h : Writes i s u) : Writes i s (u.setMem m)

/-! What a chain of permitted writes keeps. -/

theorem Failure.mem_errorPairs (f : Failure) : (f.code, f.sub) ∈ errorPairs := by cases f <;> decide

namespace State.Inv

variable {s : State} (h : s.Inv)
include h

theorem symN_le : s.symN ≤ 177 := by
  have := h.symV
  unfold State.symN
  split <;> omega

theorem setResult (k : Nat) (v : Word) : (s.setResult k v).Inv := { h with }

theorem setMem {m : Memory} (hm : m.wf = true) : (s.setMem m).Inv := { h with memory := hm }

theorem setPlen (r : Nat) {n : Nat} (hn : n ≤ 512) : (s.setPlen r n).Inv := by
  refine { h with plen := fun q => ?_ }
  by_cases hr : r < 8
  · rw [State.setPlen_plenOf s r n q hr]
    split
    · exact hn
    · exact h.plen q
  · have : (s.setPlen r n).plenOf q = s.plenOf q := by
      simp [State.plenOf, Vector.setIfInBounds_eq_of_size_le (Nat.not_lt.mp hr)]
    exact this ▸ h.plen q

theorem setBvSize (x : Bank) {n : Nat} (hn : n ≤ 32768) : (s.setBvSize x n).Inv := by
  have hsize : ∀ b, (s.setBvSize x n).bvSize b ≤ 32768 := fun b => by
    rw [State.setBvSize_bvSize]
    split
    · exact hn
    · exact h.bvSize b
  cases x <;> exact { h with bvSize := hsize }

theorem setLocCnt {n : Nat} (hn : n ≤ 255) : (s.setLocCnt n).Inv := { h with locCnt := hn }

theorem setPens (p : Vector Word 8) : (s.setPens p).Inv := { h with }

theorem setSymV {v : Nat} (hv : v ≤ 40) : (s.setSymV v).Inv := { h with symV := hv }

theorem newMatrix {w k : Nat} (hw : w ≤ 256) (hk : k ≤ 256) (hwk : w = 0 ↔ k = 0) : (s.newMatrix w k).Inv :=
  { h with memory := Memory.fill_wf h.memory _ _ _, bmW := hw, bmH := hk, bmEmpty := hwk }

theorem succeed : s.succeed.Inv :=
  { h with running := fun hb => (nomatch hb), code := .inl rfl, failed := fun he => (nomatch he) }

theorem fail (f : Failure) : (s.fail f).Inv :=
  { h with running := fun hb => (nomatch hb), code := .inr f.mem_errorPairs, failed := fun _ => f.mem_errorPairs }

end State.Inv

namespace Writes

variable {i : Instr} {s u : State}

/-- Permitted writes keep the invariant. -/
theorem inv (h : Writes i s u) (hs : s.Inv) : u.Inv := by
  induction h with
  | start => exact hs
  | result k v _ _ ih => exact ih.setResult k v
  | plen r n _ hn _ ih => exact ih.setPlen r hn
  | size x n _ hn _ ih => exact ih.setBvSize x (hn hs)
  | locCnt n _ hn _ ih => exact ih.setLocCnt hn
  | pens p _ _ ih => exact ih.setPens p
  | symV v _ hv _ ih => exact ih.setSymV hv
  | matrix w h _ hwh _ ih =>
    obtain ⟨hw, hh, h0⟩ := hwh hs
    exact ih.newMatrix hw hh h0
  | store m hwf _ _ ih => exact ih.setMem (hwf ih.memory)

/-- Permitted writes store in the command's windows only. -/
theorem storesWithin (h : Writes i s u) (hs : s.Inv) : StoresWithin (storeRanges i) s.mem u.mem := by
  induction h with
  | start => exact fun _ _ => rfl
  | matrix w h hi _ _ ih =>
    have hr : (0x4000, 0x6000) ∈ storeRanges i := by rcases hi with rfl | rfl <;> exact List.mem_cons_self
    exact ih.trans (.fill hr _ (Nat.le_refl _) (Nat.le_refl _))
  | store m _ hm _ ih => exact ih.trans (hm hs)
  | size x n _ _ _ ih => simpa using ih
  | result _ _ _ _ ih | plen _ _ _ _ _ ih | locCnt _ _ _ _ ih | pens _ _ _ ih | symV _ _ _ _ ih => exact ih

end Writes

/-- From `s` to `u`, command `i` has written no register but those whose rules name it (10_state.md R106 to R180). -/
structure KeepsOthers (i : Instr) (s u : State) : Prop where
  cmd : u.cmd = s.cmd
  arg : u.arg = s.arg
  latch : u.latch = s.latch
  gfPrim : u.gfPrim = s.gfPrim
  gfBase : u.gfBase = s.gfBase
  host : u.host = s.host
  rdata : u.rdata = s.rdata
  wait : u.wait = s.wait
  draws : u.draws = s.draws
  ovr : u.status.ovr = s.status.ovr
  haz : u.status.haz = s.status.haz
  cfgErr : u.status.cfgErr = s.status.cfgErr
  pen : u.pen = s.pen ∨ ∃ y, i = .maskSelect y
  locCnt : u.locCnt = s.locCnt ∨ (∃ ra, i = .rsChien ra) ∨ i = .rsDec
  dims : u.bmW = s.bmW ∧ u.bmH = s.bmH ∨ i = .bmInit ∨ i = .symExport
  symV : u.symV = s.symV ∨ i = .symInit ∨ ∃ y, i = .symBuild y ∨ i = .maskSelect y
  size : ∀ b, b ∉ sizeDestinations i → u.bvSize b = s.bvSize b
  plen : ∀ r, r ∉ polyDestinations i → u.plenOf r = s.plenOf r
  result : ∀ k, k ∉ resultDestinations i → u.result.getD k 0 = s.result.getD k 0

/-- A register of a file other than the one written keeps its value, whether or not the written one exists. -/
theorem vector_getD_set_ne {α : Type} {n : Nat} (v : Vector α n) {i j : Nat} (x d : α) (h : i ≠ j) :
    (v.setIfInBounds i x).getD j d = v.getD j d := by
  simp only [vector_getD, Vector.getElem?_setIfInBounds_ne h]

namespace Writes
variable {i : Instr} {s u : State}

/-- Permitted writes write the command's registers only. -/
theorem keepsOthers (h : Writes i s u) : KeepsOthers i s u := by
  induction h with
  | start => constructor <;> simp
  | result k v hk _ ih =>
    exact { ih with
      result := fun j hj => (vector_getD_set_ne _ v 0 (ne_of_mem_of_not_mem hk hj)).trans (ih.result j hj) }
  | plen r n hr _ _ ih =>
    exact { ih with plen := fun q hq => (vector_getD_set_ne _ n 0 (ne_of_mem_of_not_mem hr hq)).trans (ih.plen q hq) }
  | @size u x n hx _ _ ih =>
    have hsize : ∀ b, b ∉ sizeDestinations i → (u.setBvSize x n).bvSize b = s.bvSize b := fun b hb => by
      rw [State.setBvSize_bvSize, if_neg (ne_of_mem_of_not_mem hx hb).symm]
      exact ih.size b hb
    cases x <;> exact { ih with size := hsize }
  | locCnt n hi _ _ ih => exact { ih with locCnt := .inr hi }
  | pens p hi _ ih => exact { ih with pen := .inr hi }
  | symV v hi _ _ ih => exact { ih with symV := .inr hi }
  | matrix w h hi _ _ ih => exact { ih with dims := .inr hi }
  | store m _ _ _ ih => exact { ih with }

end Writes
end Sys2Proof.Machine
end

section
/-! PROOFS (10_state.md). All that a command can do, for each of the 56 as a chain of permitted writes; with it the ownership of registers
and of memory, and the invariant under every step. -/

namespace Sys2Proof.Machine

/-- The matrix store has a place for every row of a matrix of at most 256 columns and 256 rows (10_state.md R160). -/
theorem State.bmBitIndex_add_le {u : State} {x y n : Nat} (hw : u.bmW ≤ 256) (hx : x + n ≤ u.bmW) (hy : y < 256) :
    u.bmBitIndex x y + n ≤ 65536 := by
  have hrow : u.bmRowSize ≤ 8 := by unfold State.bmRowSize; omega
  have hrows : u.bmRowSize * y ≤ u.bmRowSize * 255 := Nat.mul_le_mul_left _ (by omega)
  have hwidth : u.bmW ≤ 32 * u.bmRowSize := by unfold State.bmRowSize; omega
  unfold State.bmBitIndex
  omega

namespace Writes

variable {i : Instr} {s u : State}

/-! The chains of writes that commands make. A membership in the command's destinations or windows is read off its row. -/

theorem setResult (h : Writes i s u) (k : Nat) (v : Word) (hk : k ∈ resultDestinations i := by simp [resultDestinations]) :
    Writes i s (u.setResult k v) := .result k v hk h

theorem setBvSize (h : Writes i s u) (x : Bank) {n : Nat} (hn : s.Inv → n ≤ 32768)
    (hx : x ∈ sizeDestinations i := by simp [sizeDestinations]) : Writes i s (u.setBvSize x n) := .size x n hx hn h

/-- A polynomial written to a register: its length, and its coefficients in the register's window (10_state.md R130). -/
theorem setPoly (h : Writes i s u) {r : Nat} {p : Poly} (hp : p.length ≤ 512)
    (hr : r ∈ polyDestinations i := by simp [polyDestinations])
    (hm : (coefAddr r 0, coefAddr r 512) ∈ storeRanges i := by simp [storeRanges]) :
    Writes i s ((u.setPlen r p.length).setMem (u.mem.write (coefAddr r 0) p)) :=
  .store _ (fun hw => Memory.write_wf hw _ _) (fun _ => .write hm _ (Nat.le_refl _) (Nat.add_le_add_left hp _)) (.plen r _ hr hp h)

/-- Codewords written to `CW` (10_state.md R150). -/
theorem setCw (h : Writes i s u) {k : Nat} {vs : List Byte} (hk : s.Inv → k + vs.length ≤ 256)
    (hm : (0x0400, 0x0500) ∈ storeRanges i := by simp [storeRanges]) : Writes i s (u.setCw k vs) :=
  .store _ (fun hw => Memory.write_wf hw _ _)
    (fun hs => .write hm _ (Nat.le_add_right _ _) (by have := hk hs; simp only [cwAddr]; omega)) h

/-- At most 255 locators written to `LOC` (10_state.md R180). -/
theorem setLocs (h : Writes i s u) {vs : List Byte} (hvs : vs.length ≤ 255)
    (hm : (0x0800, 0x0BF9) ∈ storeRanges i := by simp [storeRanges]) : Writes i s (u.setLocs vs) :=
  .store _ (fun hw => Memory.writeEvery4_wf hw _ _)
    (fun _ => .writeEvery4 hm _ (Nat.le_refl _) (by simp only [locAddr]; omega)) h

/-- At most 255 magnitudes written to `MAG` (10_state.md R180). -/
theorem setMags (h : Writes i s u) {vs : List Byte} (hvs : s.Inv → vs.length ≤ 255)
    (hm : (0x0C00, 0x0FF9) ∈ storeRanges i := by simp [storeRanges]) : Writes i s (u.setMags vs) :=
  .store _ (fun hw => Memory.writeEvery4_wf hw _ _)
    (fun hs => .writeEvery4 hm _ (Nat.le_refl _) (by have := hvs hs; simp only [magAddr]; omega)) h

/-- Bits written to a bank's store (10_state.md R140). -/
theorem setBvBits (h : Writes i s u) {x : Bank} {k n : Nat} {f : Nat → Bool} (hk : s.Inv → k + n ≤ 32768)
    (hm : (bankBase x, bankBase x + 0x1000) ∈ storeRanges i := by simp [storeRanges]) : Writes i s (u.setBvBits x k n f) :=
  .store _ (fun hw => Memory.writeBits_wf hw _ _ _ _)
    (fun hs => .writeBits hm _ (Nat.le_add_right _ _) (by have := hk hs; omega)) h

/-- A whole bank's store cleared (44_bitvec.md R610). -/
theorem clearBank (h : Writes i s u) {x : Bank}
    (hm : (bankBase x, bankBase x + 0x1000) ∈ storeRanges i := by simp [storeRanges]) :
    Writes i s (u.setMem (u.mem.fill (bankBase x) 0x1000 0)) :=
  .store _ (fun hw => Memory.fill_wf hw _ _ _) (fun _ => .fill hm _ (Nat.le_refl _) (Nat.le_refl _)) h

/-- A stretch of cells of one row written to the bit matrix (10_state.md R160). -/
theorem setBmRow (h : Writes i s u) {x y n : Nat} {f : Nat → Bool} (hb : s.Inv → u.bmW ≤ 256 ∧ x + n ≤ u.bmW ∧ y < 256)
    (hm : (0x4000, 0x6000) ∈ storeRanges i := by simp [storeRanges]) : Writes i s (u.setBmRow x y n f) := by
  refine .store _ (fun hw => Memory.writeBits_wf hw _ _ _ _) (fun hs => ?_) h
  obtain ⟨hw, hx, hy⟩ := hb hs
  have := State.bmBitIndex_add_le hw hx hy
  exact .writeBits hm _ (Nat.le_add_right _ _) (by simp only [bmBase]; omega)

/-- Such stretches of several rows, one after the other. -/
theorem setBmRows {l : List Nat} (h : Writes i s u) {x n : Nat} {y : Nat → Nat} {f : Nat → Nat → Bool}
    (hb : s.Inv → u.bmW ≤ 256 ∧ x + n ≤ u.bmW ∧ ∀ k ∈ l, y k < 256)
    (hm : (0x4000, 0x6000) ∈ storeRanges i := by simp [storeRanges]) :
    Writes i s (l.foldl (fun u k => u.setBmRow x (y k) n (f k)) u) := by
  induction l generalizing u with
  | nil => exact h
  | cons k l ih =>
    refine ih (h.setBmRow (fun hs => ?_) hm) fun hs => ?_
    · obtain ⟨hw, hx, hy⟩ := hb hs
      exact ⟨hw, hx, hy k List.mem_cons_self⟩
    · obtain ⟨hw, hx, hy⟩ := hb hs
      exact ⟨hw, hx, fun j hj => hy j (List.mem_cons_of_mem k hj)⟩

/-- A new matrix of the same dimensions: only its cells are written (45_bitmatrix.md R661). -/
theorem clearMatrix (h : Writes i s u) (hm : (0x4000, 0x6000) ∈ storeRanges i := by simp [storeRanges]) :
    Writes i s (u.newMatrix u.bmW u.bmH) :=
  .store _ (fun hw => Memory.fill_wf hw _ _ _) (fun _ => .fill hm _ (Nat.le_refl _) (Nat.le_refl _)) h

/-- The cells of the symbol written (10_state.md R170). -/
theorem setSymGrid (h : Writes i s u) {g : Grid} (hn : s.Inv → u.symN ≤ 177)
    (hm : (0xA000, 0xC130) ∈ storeRanges i := by simp [storeRanges]) : Writes i s (u.setSymGrid g) :=
  .store _ (fun hw => Memory.storeGrid_wf hw _ _) (fun hs => .storeGrid hm _ (hn hs) g) h

/-- A new symbol of version `v`, with its cells. -/
theorem newSymbol (h : Writes i s u) {v : Nat} {g : Grid} (hi : i = .symInit ∨ ∃ y, i = .symBuild y ∨ i = .maskSelect y)
    (hv : v ≤ 40) (hm : (0xA000, 0xC130) ∈ storeRanges i := by simp [storeRanges]) : Writes i s ((u.setSymV v).setSymGrid g) := by
  refine (Writes.symV v hi hv h).setSymGrid (fun _ => ?_) hm
  rw [State.setSymV_symN]
  split <;> omega

/-- The report of a scan (45_bitmatrix.md R653). -/
theorem setScan (h : Writes i s u) {p : Option (Nat × Nat)} (hr : resultDestinations i = [0, 1, 2] := by rfl) :
    Writes i s (u.setScan p) := by
  obtain ⟨a, b, c, e⟩ := u.setScan_eq p
  rw [e]
  exact ((h.setResult 0 a (by simp [hr])).setResult 1 b (by simp [hr])).setResult 2 c (by simp [hr])

end Writes

/-! How each command ends. -/

/-- Command `i` ends in `t`: it has failed and kept `s`, or it has made permitted writes and succeeded (60_exceptions.md R901, R902). -/
def Ends (i : Instr) (s t : State) : Prop := (∃ f, t = s.fail f) ∨ ∃ u, Writes i s u ∧ t = u.succeed

section
variable {i : Instr} {s t : State}

theorem Ends.of_result (h : (∃ f, t = s.fail f) ∨ ∃ v, t = (s.setResult 0 v).succeed)
    (hr : 0 ∈ resultDestinations i := by simp [resultDestinations]) : Ends i s t :=
  h.imp_right fun ⟨v, ht⟩ => ⟨_, Writes.start.setResult 0 v hr, ht⟩

theorem Ends.of_poly {r : Nat} (h : (∃ f, t = s.fail f) ∨ ∃ p : Poly, p.length ≤ 512 ∧
      t = ((s.setPlen r p.length).setMem (s.mem.write (coefAddr r 0) p)).succeed)
    (hr : r ∈ polyDestinations i := by simp [polyDestinations])
    (hm : (coefAddr r 0, coefAddr r 512) ∈ storeRanges i := by simp [storeRanges]) : Ends i s t :=
  h.imp_right fun ⟨_, hp, ht⟩ => ⟨_, Writes.start.setPoly hp hr hm, ht⟩

theorem Ends.of_symGrid (h : (∃ f, t = s.fail f) ∨ ∃ g, t = (s.setSymGrid g).succeed)
    (hm : (0xA000, 0xC130) ∈ storeRanges i := by simp [storeRanges]) : Ends i s t :=
  h.imp_right fun ⟨_, ht⟩ => ⟨_, Writes.start.setSymGrid State.Inv.symN_le hm, ht⟩

theorem Ends.of_writes {u : State} (hu : Writes i s u) (h : Host.Outcome.next (φ := Fault) (ρ := Refusal) u.succeed = .next t) :
    Ends i s t :=
  .inr ⟨u, hu, (Host.Outcome.next.inj h).symm⟩

/-- The EC codewords fill exactly the end of the block. -/
theorem execRsEnc_ends (h : execRsEnc s = .next t) : Ends .rsEnc s t := by
  refine (execRsEnc_cases h).imp_right fun ⟨ec, hec, hn, he, hlt, ht⟩ => ⟨_, Writes.start.setCw fun hs => ?_, ht⟩
  have hdata : s.cw (s.operand 0 - s.operand 1) ≠ [] := List.ne_nil_of_length_pos (by simp [State.cw]; omega)
  have := rsEncode_ok_length hs.prim hdata he hec
  omega

theorem execRsChien_ends {ra : Nat} (h : execRsChien ra s = .next t) : Ends (.rsChien ra) s t := by
  refine (execRsChien_cases h).imp_right fun ⟨p, l, _, hl, ht⟩ => ?_
  have hlen := chien_ok_length hl
  exact ⟨_, (Writes.locCnt _ (.inl ⟨ra, rfl⟩) hlen (Writes.start.setLocs hlen)).setResult 0 _, ht⟩

theorem execRsForney_ends {ra : Nat} (h : execRsForney ra s = .next t) : Ends (.rsForney ra) s t := by
  refine (execRsForney_cases h).imp_right fun ⟨p, l, _, hl, ht⟩ => ⟨_, (Writes.start.setMags fun hs => ?_).setResult 0 _, ht⟩
  rw [forney_ok_length hl]
  simpa [State.locs] using hs.locCnt

theorem execRsCorr_ends (h : execRsCorr s = .next t) : Ends .rsCorr s t := by
  refine (execRsCorr_cases h).imp_right fun ⟨block, hn, hb, ht⟩ => ⟨_, Writes.start.setCw fun _ => ?_, ht⟩
  rw [rsCorrect_ok_length hb]
  simpa [State.cw] using hn

theorem execRsDec_ends (h : execRsDec s = .next t) : Ends .rsDec s t := by
  refine (execRsDec_cases h).imp_right fun hsucc => ?_
  obtain ht | ⟨d, hn, hd, ht⟩ := hsucc
  · exact ⟨_, ((Writes.locCnt 0 (.inr rfl) (Nat.zero_le _) .start).setResult 0 0).setResult 1 1, ht⟩
  · obtain ⟨hblock, hlocs, hmags⟩ := rsDecode_ok_lengths hd
    have hcw : Writes .rsDec s (s.setCw 0 d.block) := Writes.start.setCw fun _ => by
      rw [hblock]
      simpa [State.cw] using hn
    have hlists := (hcw.setLocs hlocs).setMags fun _ => hmags ▸ hlocs
    exact ⟨_, ((Writes.locCnt _ (.inr rfl) hlocs hlists).setResult 0 _).setResult 1 0, ht⟩

theorem execBmSetregion_ends (h : execBmSetregion s = .next t) : Ends .bmSetregion s t := by
  refine (execBmSetregion_cases h).imp_right fun ⟨_, ⟨hw, hh⟩, ht⟩ =>
    ⟨_, Writes.start.setBmRows fun hs => ⟨hs.bmW, hw, fun k hk => ?_⟩, ht⟩
  have := hs.bmH
  have := List.mem_range.mp hk
  omega

theorem execBmRow_ends {x : Bank} (h : execBmRow x s = .next t) : Ends (.bmRow x) s t := by
  refine (execBmRow_cases h).imp_right fun ⟨f, _, ht⟩ => ?_
  have hw (hs : s.Inv) : s.bmW ≤ 32768 := hs.bmW.trans (by decide)
  exact ⟨_, (Writes.start.setBvBits fun hs => (Nat.zero_add _).trans_le (hw hs)).setBvSize x hw, ht⟩

theorem execBmCol_ends {x : Bank} (h : execBmCol x s = .next t) : Ends (.bmCol x) s t := by
  refine (execBmCol_cases h).imp_right fun ⟨f, _, ht⟩ => ?_
  have hh (hs : s.Inv) : s.bmH ≤ 32768 := hs.bmH.trans (by decide)
  exact ⟨_, (Writes.start.setBvBits fun hs => (Nat.zero_add _).trans_le (hh hs)).setBvSize x hh, ht⟩

theorem execSymSet_ends (h : execSymSet s = .next t) : Ends .symSet s t := by
  refine (execSymSet_cases h).imp_right fun ⟨c, _, ⟨hx, hy⟩, _, ht⟩ =>
    ⟨_, .store _ (fun hw => Memory.writeBits_wf hw _ _ _ _) (fun hs => ?_) .start, ht⟩
  have := hs.symN_le
  exact .writeBits (lo := 0xA000) (hi := 0xC130) List.mem_cons_self _ (by simp only [symRowBase]; omega)
    (by simp only [symRowBase]; omega)

theorem execSymExport_ends (h : execSymExport s = .next t) : Ends .symExport s t := by
  refine (execSymExport_cases h).imp_right fun ⟨_, ht⟩ => ?_
  have hnew : Writes .symExport s (s.newMatrix s.symN s.symN) :=
    .matrix _ _ (.inr rfl) (fun hs => by have := hs.symN_le; omega) .start
  refine ⟨_, hnew.setBmRows (y := id) fun hs => ?_, ht⟩
  have := hs.symN_le
  refine ⟨by rw [State.newMatrix_bmW]; omega, by rw [State.newMatrix_bmW]; omega, fun k hk => ?_⟩
  exact (List.mem_range.mp hk).trans_le (by omega)

/-- All that a command can do: it fails, or it makes writes that its rules permit and succeeds. -/
theorem exec_ends (h : exec i s = .next t) : Ends i s t := by
  cases i with
  | nop => exact .of_writes .start h
  | gfAdd => exact .of_result (execGfAdd_cases h)
  | gfMul => exact .of_result (execGfMul_cases h)
  | gfInv => exact .of_result (execGfInv_cases h)
  | gfExp => exact .of_result (execGfExp_cases h)
  | gfLog => exact .of_result (execGfLog_cases h)
  | pZero rd => exact .of_poly (execPZero_cases h)
  | pMono rd => exact .of_poly (execPMono_cases h)
  | pCopy rd ra => exact .of_poly (execPCopy_cases h)
  | pNorm rd => exact .of_poly (execPNorm_cases h)
  | pAdd rd ra rb => exact .of_poly (execPAdd_cases h)
  | pMul rd ra rb => exact .of_poly (execPMul_cases h)
  | pScale rd ra => exact .of_poly (execPScale_cases h)
  | pMulmono rd ra => exact .of_poly (execPMulmono_cases h)
  | pDiv rd rc ra rb =>
    exact (execPDiv_cases h).imp_right fun ⟨_, _, hp, hq, ht⟩ => ⟨_, (Writes.start.setPoly hp).setPoly hq, ht⟩
  | pEval ra => exact .of_result (execPEval_cases h)
  | pCoef ra => exact .of_result (execPCoef_cases h)
  | pDeg ra =>
    exact (execPDeg_cases h).imp_right fun ⟨a, b, c, ht⟩ =>
      ⟨_, ((Writes.start.setResult 0 a).setResult 1 b).setResult 2 c, ht⟩
  | rsGen rd => exact .of_poly (execRsGen_cases h)
  | rsEnc => exact execRsEnc_ends h
  | rsSynd rd => exact (execRsSynd_cases h).imp_right fun ⟨_, v, hp, ht⟩ => ⟨_, (Writes.start.setPoly hp).setResult 0 v, ht⟩
  | rsKey rd rc ra =>
    exact (execRsKey_cases h).imp_right fun ⟨_, _, v, hp, hq, ht⟩ =>
      ⟨_, ((Writes.start.setPoly hp).setPoly hq).setResult 0 v, ht⟩
  | rsChien ra => exact execRsChien_ends h
  | rsForney ra => exact execRsForney_ends h
  | rsCorr => exact execRsCorr_ends h
  | rsDec => exact execRsDec_ends h
  | bvClear x => exact .of_writes (Writes.start.clearBank.setBvSize x fun _ => Nat.zero_le _) h
  | bvAppend x =>
    exact (execBvAppend_cases h).imp_right fun ⟨_, hn, ht⟩ =>
      ⟨_, (Writes.start.setBvBits fun _ => hn).setBvSize x fun _ => hn, ht⟩
  | bvGet y => exact .of_result (execBvGet_cases h)
  | bvSet x => exact (execBvSet_cases h).imp_right fun ⟨hn, ht⟩ => ⟨_, Writes.start.setBvBits fun _ => hn, ht⟩
  | bvXor x y =>
    exact (execBvXor_cases h).imp_right fun ⟨_, ht⟩ =>
      ⟨_, Writes.start.setBvBits fun hs => (Nat.zero_add _).trans_le (hs.bvSize x), ht⟩
  | bvTobytes y =>
    exact (execBvTobytes_cases h).imp_right fun ⟨hn, ht⟩ => ⟨_, Writes.start.setCw fun _ => by simpa [State.toBytes] using hn, ht⟩
  | bvSetsize x => exact (execBvSetsize_cases h).imp_right fun ⟨hn, ht⟩ => ⟨_, Writes.start.setBvSize x fun _ => hn, ht⟩
  | bmInit =>
    exact (execBmInit_cases h).imp_right fun ⟨_, ⟨hw, hh⟩, ht⟩ =>
      ⟨_, .matrix _ _ (.inl rfl) (fun _ => ⟨hw, hh, by omega⟩) .start, ht⟩
  | bmClear => exact .of_writes Writes.start.clearMatrix h
  | bmGet => exact .of_result (execBmGet_cases h)
  | bmSet =>
    exact (execBmSet_cases h).imp_right fun ⟨⟨hx, hy⟩, ht⟩ =>
      ⟨_, Writes.start.setBmRow fun hs => ⟨hs.bmW, hx, hy.trans_le hs.bmH⟩, ht⟩
  | bmSetregion => exact execBmSetregion_ends h
  | bmTopleft => exact .of_writes Writes.start.setScan h
  | bmBotright => exact .of_writes Writes.start.setScan h
  | bmRow x => exact execBmRow_ends h
  | bmCol x => exact execBmCol_ends h
  | symInit =>
    exact (execSymInit_cases h).imp_right fun ⟨⟨_, hv⟩, ht⟩ => ⟨_, Writes.start.newSymbol (.inl rfl) hv, ht⟩
  | symGet => exact .of_result (execSymGet_cases h)
  | symSet => exact execSymSet_ends h
  | embBasic => exact .of_symGrid ((execEmbBasic_cases h).imp_right fun ⟨_, _, ht⟩ => ⟨_, ht⟩)
  | embType => exact .of_symGrid ((execEmbType_cases h).imp_right fun ⟨_, _, ht⟩ => ⟨_, ht⟩)
  | embVersion => exact .of_symGrid ((execEmbVersion_cases h).imp_right fun ht => ⟨_, ht⟩)
  | embData y => exact .of_symGrid ((execEmbData_cases h).imp_right fun ⟨_, _, ht⟩ => ⟨_, ht⟩)
  | symBuild y =>
    exact (execSymBuild_cases h).imp_right fun ⟨_, ⟨_, hv⟩, _, ht⟩ => ⟨_, Writes.start.newSymbol (.inr ⟨y, .inl rfl⟩) hv, ht⟩
  | symExport => exact execSymExport_ends h
  | maskBit => exact .of_result (execMaskBit_cases h)
  | maskPenalty =>
    exact (execMaskPenalty_cases h).imp_right fun ⟨a, b, c, d, e, ht⟩ =>
      ⟨_, ((((Writes.start.setResult 1 a).setResult 2 b).setResult 3 c).setResult 4 d).setResult 0 e, ht⟩
  | maskSelect y =>
    exact (execMaskSelect_cases h).imp_right fun ⟨_, ⟨_, hv⟩, _, ht⟩ =>
      ⟨_, (((Writes.pens _ ⟨y, rfl⟩ .start).newSymbol (.inr ⟨y, .inr rfl⟩) hv).setResult 0 _).setResult 1 _, ht⟩
  | bchType => exact .of_result (execBchType_cases h)
  | bchVersion => exact .of_result (execBchVersion_cases h)

end

/-! Ownership (20_memory.md R204, 10_state.md R106 to R180). -/

/-- Settles O11: permitted writes write the registers that the command's rules name, and completion writes none of them. -/
theorem registerOwnership : Obligations.RegisterOwnership := by
  intro i s t h
  have key : KeepsOthers i s t := by
    obtain ⟨f, rfl⟩ | ⟨u, hu, rfl⟩ := exec_ends h
    · exact { Writes.start.keepsOthers with }
    · exact { hu.keepsOthers with }
  exact ⟨key.cmd, key.arg, key.latch, key.gfPrim, key.gfBase, key.host, key.rdata, key.wait, key.draws, key.ovr, key.haz, key.cfgErr,
    key.pen, key.locCnt, key.dims, key.symV, key.size, key.plen, key.result⟩

/-- Settles O12: permitted writes store in the command's windows, and completion stores nothing. -/
theorem memoryOwnership : Obligations.MemoryOwnership := by
  intro i s t hs _ h
  obtain ⟨f, rfl⟩ | ⟨u, hu, rfl⟩ := exec_ends h
  · exact fun _ _ => rfl
  · exact hu.storesWithin hs

/-! The invariant (10_state.md R105 to R180). -/

namespace State.Inv

variable {s t : State}

theorem of_exec {i : Instr} (hs : s.Inv) (h : exec i s = .next t) : t.Inv := by
  obtain ⟨f, rfl⟩ | ⟨u, hu, rfl⟩ := exec_ends h
  · exact hs.fail f
  · exact (hu.inv hs).succeed

theorem of_runCommand (hs : s.Inv) (h : s.runCommand = .next t) : t.Inv := by
  unfold State.runCommand at h
  split at h
  · exact hs.of_exec h
  · obtain rfl := Host.Outcome.next.inj h
    exact hs.fail _

theorem platformReset (hs : s.Inv) : s.platformReset.Inv where
  memory := hs.memory
  prim := List.mem_cons_self
  plen := fun r => by
    have : s.platformReset.plenOf r = 0 := by
      rw [State.plenOf, vector_getD, State.platformReset, State.reset, Vector.getElem?_replicate]
      split <;> rfl
    omega
  bvSize := fun b => by cases b <;> exact Nat.zero_le _
  bmW := Nat.zero_le _
  bmH := Nat.zero_le _
  bmEmpty := Iff.rfl
  symV := Nat.zero_le _
  locCnt := Nat.zero_le _
  running := fun hb => nomatch hb
  code := .inl rfl
  failed := fun he => nomatch he

variable (hs : s.Inv)
include hs

theorem take (rest : List HostInput) : (s.take rest).Inv := { hs with }
theorem setCfgErr : s.setCfgErr.Inv := { hs with }
theorem setHaz : s.setHaz.Inv := { hs with }
theorem setOvr : s.setOvr.Inv := { hs with }

theorem hostRead (p : Place) : (s.hostRead p).Inv := by
  unfold State.hostRead
  split <;> exact { hs with }

/-- A write of 1 to a bit of `STATUS` only clears it. -/
theorem clearedBy (v : Word) : State.Inv { s with status := s.status.clearedBy v } := by
  refine { hs with running := fun hb => ?_, failed := fun he => hs.failed ?_ }
  · obtain ⟨hd, he, hc, hsub⟩ := hs.running hb
    exact ⟨by simp [Status.clearedBy, hd], by simp [Status.clearedBy, he], hc, hsub⟩
  · exact (Bool.and_eq_true_iff.mp he).1

theorem writeIdle (p : Place) (v : Word) : (s.writeIdle p v).Inv := by
  cases p with
  | status => exact hs.clearedBy v
  | cmd => exact { hs with running := fun _ => ⟨rfl, rfl, rfl, rfl⟩, code := .inl rfl, failed := fun he => nomatch he }
  | gfPrim =>
    rw [State.writeIdle, State.writeGfPrim]
    split
    · exact { hs with prim := ‹_› }
    · exact hs.setCfgErr
  | locCnt =>
    rw [State.writeIdle, State.writeLocCnt]
    split
    · exact hs.setLocCnt ‹_›
    · exact hs.setCfgErr
  | plen r =>
    rw [State.writeIdle, State.writePlen]
    split
    · exact hs.setPlen r ‹_›
    · exact hs.setCfgErr
  | cw | loc | mag | bank | bmWord | coef => exact hs.setMem (Memory.write_wf hs.memory _ _)
  | sym => exact hs.setMem (Memory.writeBits_wf hs.memory _ _ _ _)
  | arg | gfBase => exact { hs with }
  | id | errcode | result | bvSize | bmDim | symDim | pen | reserved => exact hs

theorem writeBusy (p : Place) (v : Word) : (s.writeBusy p v).Inv := by
  cases p with
  | status => exact hs.clearedBy v
  | cmd => exact hs.setOvr
  | arg => exact { hs with }
  | gfPrim | gfBase | locCnt | plen | cw | loc | mag | bank | bmWord | coef | sym => exact hs.setHaz
  | id | errcode | result | bvSize | bmDim | symDim | pen | reserved => exact hs

theorem hostWrite (p : Place) (v : Word) : (s.hostWrite p v).Inv := by
  unfold State.hostWrite
  split
  · exact hs.writeBusy p v
  · exact hs.writeIdle p v

theorem of_serve {x : HostInput} (h : s.serve x = .next t) : t.Inv := by
  obtain ⟨-, e⟩ | ⟨o, -, -, e⟩ | ⟨o, v, -, -, e⟩ | ⟨-, r, e⟩ := serve_cases s x
  · exact Host.Outcome.next.inj (e.symm.trans h) ▸ hs.platformReset
  · exact Host.Outcome.next.inj (e.symm.trans h) ▸ hs.hostRead _
  · exact Host.Outcome.next.inj (e.symm.trans h) ▸ hs.hostWrite _ v
  · exact nomatch e.symm.trans h

end State.Inv

/-- Settles O16: a step completes the running command, serves an access, or does nothing. -/
theorem stepKeepsInvariant : Obligations.StepKeepsInvariant := by
  intro s t hs h
  obtain ⟨-, e⟩ | ⟨-, -, e⟩ | ⟨-, x, rest, -, e⟩ := step_cases s
  · exact hs.of_runCommand (e.symm.trans h)
  · exact Host.Outcome.next.inj (e.symm.trans h) ▸ hs
  · exact (hs.take rest).of_serve (e.symm.trans h)

end Sys2Proof.Machine
end

section
/-! PROOFS (10_state.md R103 to R180, 20_memory.md R201 to R206). What the words of the window hold bit by bit, and what host accesses do
to registers and read from places. -/

namespace Sys2Proof.Machine

/-! Words of the window (20_memory.md R201, R204). -/

/-- Bit `j` of a word lies in byte `j / 8` of its four: little-endian (20_memory.md R201). -/
theorem Memory.word_getLsbD (m : Memory) (a : Nat) {j : Nat} (hj : j < 32) :
    (m.word a).getLsbD j = (m.read (a + j / 8)).getLsbD (j % 8) := by
  have h : j / 8 = 0 ∨ j / 8 = 1 ∨ j / 8 = 2 ∨ j / 8 = 3 := by omega
  have hmod : j % 8 = j - 8 * (j / 8) := by omega
  simp only [Memory.word, BitVec.getLsbD_append]
  rcases h with h | h | h | h
  · rw [if_pos (by omega), h, hmod, h]; rfl
  · rw [if_neg (by omega), if_pos (by omega), h, hmod, h]
  · rw [if_neg (by omega), if_neg (by omega), if_pos (by omega), h, hmod, h]
    congr 1
  · rw [if_neg (by omega), if_neg (by omega), if_neg (by omega), h, hmod, h]
    congr 1

/-- Byte `j` of a word. -/
theorem Memory.word_byte (m : Memory) (a : Nat) {j : Nat} (hj : j < 4) : (m.word a).extractLsb' (8 * j) 8 = m.read (a + j) := by
  refine byte_ext fun k hk => ?_
  rw [BitVec.getLsbD_extractLsb', Memory.word_getLsbD m a (by omega), show (8 * j + k) / 8 = j by omega,
    show (8 * j + k) % 8 = k by omega]
  simp [hk]

/-- Bit `j` of word `w` of a bit store is its bit `32 * w + j` (20_memory.md R205). -/
theorem Memory.word_bit (m : Memory) (base w : Nat) {j : Nat} (hj : j < 32) :
    (m.word (base + 4 * w)).getLsbD j = m.bit base (32 * w + j) := by
  rw [Memory.word_getLsbD m _ hj, Memory.bit, show base + 4 * w + j / 8 = base + (32 * w + j) / 8 by omega,
    show (32 * w + j) % 8 = j % 8 by omega]

/-- Bit `j` of `BMWORD[o]` is the cell that the map lays there, and 0 where it lays none (10_state.md R160, 45_bitmatrix.md R651). -/
theorem State.bmWord_getLsbD (s : State) (o : Nat) {j : Nat} (hj : j < 32) :
    (s.bmWord o).getLsbD j = s.bmCell (32 * (o % s.bmRowSize) + j) (o / s.bmRowSize) := by
  have hindex : s.bmBitIndex (32 * (o % s.bmRowSize) + j) (o / s.bmRowSize) = 32 * o + j := by
    rw [State.bmBitIndex, ← Nat.add_assoc, ← Nat.mul_add, Nat.div_add_mod]
  rw [State.bmWord, BitVec.getLsbD_and, Memory.word_bit _ _ _ hj, State.bmCellMask, wordOfBits_getLsbD _ _ hj, State.bmCell, hindex,
    Bool.and_comm]
  rfl

/-- Bits `2 * j` and `2 * j + 1` of a symbol word are the code of its cell number `j` (20_memory.md R204). -/
theorem State.symWord_getLsbD (s : State) (y w : Nat) {j b : Nat} (hj : j < 16) (hb : b < 2) :
    (s.symWord y w).getLsbD (2 * j + b) = (s.symCell (16 * w + j) y).codeBit b := by
  rw [State.symWord, wordOfBits_getLsbD _ _ (by omega), show (2 * j + b) / 2 = j by omega, show (2 * j + b) % 2 = b by omega]

theorem Status.toWord_toNat (st : Status) : st.toWord.toNat =
    st.busy.toNat + 2 * st.done.toNat + 4 * st.err.toNat + 8 * st.ovr.toNat + 16 * st.haz.toNat + 32 * st.cfgErr.toNat := by
  have := st.busy.toNat_lt
  have := st.done.toNat_lt
  have := st.err.toNat_lt
  have := st.ovr.toNat_lt
  have := st.haz.toNat_lt
  have := st.cfgErr.toNat_lt
  rw [Status.toWord, BitVec.toNat_ofNat]
  omega

theorem State.errWord_eq (s : State) : s.errWord = 0#16 ++ s.errSub ++ s.errCode := by
  have hcode := s.errCode.isLt
  have hsub := s.errSub.isLt
  apply BitVec.eq_of_toNat_eq
  rw [State.errWord, BitVec.toNat_ofNat, BitVec.toNat_append, ← Nat.shiftLeft_add_eq_or_of_lt hcode, BitVec.toNat_append,
    BitVec.toNat_ofNat, Nat.zero_mod, Nat.zero_shiftLeft, Nat.zero_or, Nat.shiftLeft_eq]
  omega

/-! Accesses (10_state.md R103 to R180). -/

variable {s : State}

/-- Taking the next thing asked changes nothing that a read can see. -/
theorem State.readPlace_take (s : State) (rest : List HostInput) (p : Place) : (s.take rest).readPlace p = s.readPlace p := by
  cases p with
  | bvSize b => cases b <;> rfl
  | _ => rfl

/-- A write to the word of a place, while idle. -/
theorem step_idle_write_place {o : BitVec 16} {v : Word} {rest : List HostInput} (hb : s.status.busy = false)
    (hh : s.host = .write .word o v :: rest) {p : Place} (hp : p.covers o.toNat) (h4 : o.toNat % 4 = 0) :
    step s = .next ((s.take rest).writeIdle p v) := by
  rw [step_idle_write hb hh h4, placeAt_of_covers hp h4]

/-- Settles O17: each offset is its register's place, and a write to that place while idle is the update claimed. -/
theorem idleRegisterWrites : Obligations.IdleRegisterWrites := by
  intro s offset v rest hb hh
  refine ⟨fun ho => ?_, fun i hi ho => ?_, fun ho => ?_, fun ho => ?_, fun ho => ?_, fun r hr ho => ?_⟩
  · exact step_idle_write_place hb hh (p := .status) ho (by omega)
  · exact step_idle_write_place hb hh (p := .arg i) ⟨hi, ho⟩ (by omega)
  · exact step_idle_write_place hb hh (p := .gfPrim) ho (by omega)
  · exact step_idle_write_place hb hh (p := .gfBase) ho (by omega)
  · exact step_idle_write_place hb hh (p := .locCnt) ho (by omega)
  · exact step_idle_write_place hb hh (p := .plen r) ⟨hr, ho⟩ (by omega)

/-- Settles O18: a write to a place that ignores writes only takes the access from the list. -/
theorem ignoredWrites : Obligations.IgnoredWrites := by
  intro s offset v rest hd hh h4 hro
  rw [step_of_asked hd hh, serve_write h4, hostWrite_ignored _ v hro h4]
  rfl

/-- Settles O20: unless the value is unspecified, it is what the offset's place holds, and each place holds what the map lays there. -/
theorem hostReads : Obligations.HostReads := by
  intro s offset rest hd hh h4
  have hstep : step s = .next ((s.take rest).hostRead (placeAt offset.toNat)) := by rw [step_of_asked hd hh, serve_read h4]
  by_cases hfree : (s.status.busy && (placeAt offset.toNat).commandWritten) = true
  · refine ⟨Config.busyRead s.draws, s.draws + 1, hstep.trans (by rw [State.hostRead, State.take_status, if_pos hfree]; rfl), fun h => ?_⟩
    rw [commandWritten_placeAt h4, Bool.and_eq_true] at hfree
    exact absurd h (by simp [hfree])
  refine ⟨s.readPlace (placeAt offset.toNat), s.draws, hstep.trans ?_, fun _ => ⟨rfl, ?_⟩⟩
  · rw [State.hostRead, State.take_status, if_neg hfree, State.readPlace_take]
    rfl
  have hplace {p : Place} (hp : p.covers offset.toNat) : s.readPlace (placeAt offset.toNat) = s.readPlace p := by
    rw [placeAt_of_covers hp h4]
  refine ⟨fun h => hplace (p := .id) h, fun h => ?_, fun h => ?_, fun h => hplace (p := .cmd) h, fun i hi h => hplace (p := .arg i) ⟨hi, h⟩,
    fun i hi h => hplace (p := .result i) ⟨hi, h⟩, fun h => hplace (p := .gfPrim) h, fun h => hplace (p := .gfBase) h,
    fun h => hplace (p := .bvSize .A) h, fun h => hplace (p := .bvSize .B) h, fun h => ?_, fun h => ?_,
    fun h => hplace (p := .locCnt) h, fun r hr h => hplace (p := .plen r) ⟨hr, h⟩, fun k hk h => hplace (p := .pen k) ⟨hk, h⟩,
    fun h => ?_, fun w hw h j hj => ?_,
    fun k hk => ⟨fun h => hplace (p := .loc k) ⟨hk, h⟩, fun h => hplace (p := .mag k) ⟨hk, h⟩⟩,
    fun b w hw h j hj => ?_, fun o ho h j hj => ?_, fun r w hr hw h j hj => ?_, fun y w hy hw h j b hj hb => ?_⟩
  · rw [hplace (p := .status) h]
    exact s.status.toWord_toNat
  · rw [hplace (p := .errcode) h]
    exact s.errWord_eq
  · rw [hplace (p := .bmDim) h, Nat.mul_comm]
    rfl
  · rw [hplace (p := .symDim) h, Nat.mul_comm]
    rfl
  · rw [placeAt_reserved h h4]
    rfl
  · rw [hplace (p := .cw w) ⟨hw, h⟩]
    exact (s.mem.word_byte _ hj).trans (congrArg s.mem.read (Nat.add_assoc ..))
  · have hcovers : (Place.bank b w).covers offset.toNat := by cases b <;> exact ⟨hw, h⟩
    rw [hplace hcovers]
    exact s.mem.word_bit _ w hj
  · rw [hplace (p := .bmWord o) ⟨ho, h⟩]
    exact s.bmWord_getLsbD o hj
  · rw [hplace (p := .coef (128 * r + w)) ⟨by omega, by omega⟩]
    exact (s.mem.word_byte _ hj).trans (congrArg s.mem.read (by simp only [coefAddr]; omega))
  · rw [hplace (p := .sym y w) ⟨hy, hw, h⟩]
    exact s.symWord_getLsbD y w hj hb

end Sys2Proof.Machine
end

section
/-! PROOFS (20_memory.md R201 to R205, 45_bitmatrix.md R651). What the memory windows hold after a host write while idle, and which accesses
are refused. -/

namespace Sys2Proof.Machine

variable {s : State}

/-! Refused accesses (20_memory.md R202). -/

theorem accessProblem_narrow {width : AccessWidth} (offset : BitVec 16) (h : width ≠ .word) :
    accessProblem width offset = some .narrowAccess := by
  cases width with
  | byte => rfl
  | half => rfl
  | word => exact absurd rfl h

theorem accessProblem_misaligned {offset : BitVec 16} (h : offset.toNat % 4 ≠ 0) :
    accessProblem .word offset = some .misalignedAccess := if_neg h

theorem serve_refused {width : AccessWidth} {offset : BitVec 16} {r : Refusal} (v : Word) (h : accessProblem width offset = some r) :
    s.serve (.read width offset) = .refused r ∧ s.serve (.write width offset v) = .refused r := by
  simp [State.serve, h]

/-- Settles O21: a read and a write alike are refused with the access's problem, which the width and the offset decide. -/
theorem undefinedAccessesAreRefused : Obligations.UndefinedAccessesAreRefused := by
  intro s width offset v rest hd hh
  have hrefused {r : Refusal} (h : accessProblem width offset = some r) : step s = .refused r := by
    rcases hh with hh | hh
    · exact (step_of_asked hd hh).trans (serve_refused v h).1
    · exact (step_of_asked hd hh).trans (serve_refused v h).2
  refine ⟨fun hw => hrefused (accessProblem_narrow offset hw), fun hw h4 => hrefused ?_⟩
  rw [hw, accessProblem_misaligned h4]

/-! A write and a read of one window word (20_memory.md R204). -/

/-- Two accesses of an idle block: the write replaces the memories by `m`, and the read answers what the place then holds. -/
theorem step_idle_write_read {o : BitVec 16} {v : Word} {rest : List HostInput} {p : Place} {m : Memory} {x : Word}
    (hb : s.status.busy = false) (hh : s.host = .write .word o v :: .read .word o :: rest) (h4 : o.toNat % 4 = 0)
    (hp : p.covers o.toNat) (hm : (s.take (.read .word o :: rest)).writeIdle p v = (s.take (.read .word o :: rest)).setMem m)
    (hx : (s.setMem m).readPlace p = x) :
    ∃ t, step s = .next t ∧ step t = .next { s with mem := m, rdata := x, host := rest, wait := s.wait - 2 } := by
  refine ⟨_, (step_idle_write_place hb hh hp h4).trans (congrArg _ hm), ?_⟩
  have hread : ((s.setMem m).take (.read .word o :: rest)).readPlace p = x := (State.readPlace_take ..).trans hx
  refine (step_idle_read (s := (s.setMem m).take (.read .word o :: rest)) hb rfl h4).trans ?_
  rw [placeAt_of_covers hp h4, State.readPlace_take, hread]
  rfl

/-- The word windows: a write to a word of `CW`, a bank or `COEF` stores its four bytes, and a read answers them. -/
theorem exists_word_place {a : Nat} (h4 : a % 4 = 0)
    (h : 0x0400 ≤ a ∧ a < 0x0500 ∨ 0x1000 ≤ a ∧ a < 0x3000 ∨ 0x8000 ≤ a ∧ a < 0x9000) :
    ∃ p : Place, p.covers a ∧ (∀ (u : State) v, u.writeIdle p v = u.setMem (u.mem.write a (bytesOfWord v)))
      ∧ ∀ u : State, u.readPlace p = u.mem.word a := by
  obtain h | h | h | h : (0x0400 ≤ a ∧ a < 0x0500) ∨ (0x1000 ≤ a ∧ a < 0x2000) ∨ (0x2000 ≤ a ∧ a < 0x3000)
      ∨ (0x8000 ≤ a ∧ a < 0x9000) := by omega
  · obtain ⟨w, rfl⟩ : ∃ w, a = 0x0400 + 4 * w := ⟨(a - 0x0400) / 4, by omega⟩
    exact ⟨.cw w, ⟨by omega, rfl⟩, fun _ _ => rfl, fun _ => rfl⟩
  · obtain ⟨w, rfl⟩ : ∃ w, a = 0x1000 + 4 * w := ⟨(a - 0x1000) / 4, by omega⟩
    exact ⟨.bank .A w, ⟨by omega, rfl⟩, fun _ _ => rfl, fun _ => rfl⟩
  · obtain ⟨w, rfl⟩ : ∃ w, a = 0x2000 + 4 * w := ⟨(a - 0x2000) / 4, by omega⟩
    exact ⟨.bank .B w, ⟨by omega, rfl⟩, fun _ _ => rfl, fun _ => rfl⟩
  · obtain ⟨w, rfl⟩ : ∃ w, a = 0x8000 + 4 * w := ⟨(a - 0x8000) / 4, by omega⟩
    exact ⟨.coef w, ⟨by omega, rfl⟩, fun _ _ => rfl, fun _ => rfl⟩

/-- The byte windows: a write to a word of `LOC` or `MAG` stores its low byte, and a read answers that byte alone. -/
theorem exists_byte_place {a : Nat} (h4 : a % 4 = 0) (h : 0x0800 ≤ a ∧ a ≤ 0x0BF8 ∨ 0x0C00 ≤ a ∧ a ≤ 0x0FF8) :
    ∃ p : Place, p.covers a ∧ (∀ (u : State) v, u.writeIdle p v = u.setMem (u.mem.write a [v.extractLsb' 0 8]))
      ∧ ∀ u : State, u.readPlace p = (u.mem.read a).setWidth 32 := by
  rcases h with h | h
  · obtain ⟨k, rfl⟩ : ∃ k, a = 0x0800 + 4 * k := ⟨(a - 0x0800) / 4, by omega⟩
    exact ⟨.loc k, ⟨by omega, rfl⟩, fun _ _ => rfl, fun _ => rfl⟩
  · obtain ⟨k, rfl⟩ : ∃ k, a = 0x0C00 + 4 * k := ⟨(a - 0x0C00) / 4, by omega⟩
    exact ⟨.mag k, ⟨by omega, rfl⟩, fun _ _ => rfl, fun _ => rfl⟩

theorem Memory.read_write_singleton (m : Memory) (a : Nat) (b : Byte) : (m.write a [b]).read a = b := by
  simp [Memory.read_write]

/-- Settles O22: the window's place stores the bytes and reads them back, and a bank bit is a bit of the word stored. -/
theorem byteWindows : Obligations.ByteWindows := by
  intro s offset v rest hb hh h4
  refine ⟨fun h => ?_, fun h => ?_⟩
  · obtain ⟨p, hp, hwrite, hread⟩ := exists_word_place h4 h
    refine ⟨_, step_idle_write_read hb hh h4 hp (hwrite _ v) ?_, Memory.read_write s.mem _ (bytesOfWord v), fun b w j hj ha => ?_⟩
    · rw [hread]
      exact s.mem.word_write _ v
    · rw [← Memory.word_bit _ _ w hj, ← ha]
      exact congrArg (·.getLsbD j) (s.mem.word_write _ v)
  · obtain ⟨p, hp, hwrite, hread⟩ := exists_byte_place h4 h
    refine ⟨_, step_idle_write_read hb hh h4 hp (hwrite _ v) ?_, Memory.read_write s.mem _ _⟩
    rw [hread]
    exact congrArg (BitVec.setWidth 32) (s.mem.read_write_singleton _ _)

/-! Words of the bit matrix (45_bitmatrix.md R650, R651). -/

/-- A write of one word leaves every other aligned word of a window unchanged. -/
theorem Memory.word_write_of_ne (m : Memory) (base : Nat) {o w : Nat} (v : Word) (h : w ≠ o) :
    (m.write (base + 4 * o) (bytesOfWord v)).word (base + 4 * w) = m.word (base + 4 * w) := by
  refine BitVec.eq_of_getLsbD_eq fun j hj => ?_
  rw [Memory.word_getLsbD _ _ hj, Memory.word_getLsbD _ _ hj, Memory.read_write, bytesOfWord_length, if_neg (by omega)]

/-- The words of the bit matrix after a write to one: that word holds the written bits that are cells, and every other is unchanged. -/
theorem State.writeBmWord_bmWord (s : State) (o w : Nat) (v : Word) :
    (s.writeBmWord o v).bmWord w = if w = o then v &&& s.bmCellMask o else s.bmWord w := by
  by_cases h : w = o
  · subst h
    rw [if_pos rfl]
    refine (congrArg (· &&& s.bmCellMask w) (s.mem.word_write _ _)).trans (BitVec.eq_of_getLsbD_eq fun j hj => ?_)
    cases hcell : (s.bmCellMask w).getLsbD j <;> simp [hcell]
  · rw [if_neg h]
    exact congrArg (· &&& s.bmCellMask w) (s.mem.word_write_of_ne bmBase _ h)

theorem State.and_bmCellMask_getLsbD (s : State) (o : Nat) (v : Word) {j : Nat} (hj : j < 32) :
    (v &&& s.bmCellMask o).getLsbD j = (v.getLsbD j && s.bmIsCell o j) := by
  rw [BitVec.getLsbD_and, State.bmCellMask, wordOfBits_getLsbD _ _ hj]

/-- Column `i` of row `j` of the matrix lies in word `bmRowSize * j + i / 32`, which names the row and the column's part of it. -/
theorem State.word_of_column (s : State) {i : Nat} (j : Nat) (hi : i < s.bmW) :
    (s.bmRowSize * j + i / 32) % s.bmRowSize = i / 32 ∧ (s.bmRowSize * j + i / 32) / s.bmRowSize = j := by
  have hlt : i / 32 < s.bmRowSize := by unfold State.bmRowSize; omega
  exact ⟨by rw [Nat.mul_add_mod, Nat.mod_eq_of_lt hlt],
    by rw [Nat.mul_add_div (by omega), Nat.div_eq_of_lt hlt, Nat.add_zero]⟩

/-- A cell of the matrix is bit `i % 32` of its word (45_bitmatrix.md R650). -/
theorem State.bmCell_eq_bmWord (s : State) {i : Nat} (j : Nat) (hi : i < s.bmW) :
    s.bmCell i j = (s.bmWord (s.bmRowSize * j + i / 32)).getLsbD (i % 32) := by
  obtain ⟨hmod, hdiv⟩ := s.word_of_column j hi
  rw [State.bmWord_getLsbD _ _ (Nat.mod_lt _ (by decide)), hmod, hdiv, Nat.div_add_mod]

theorem State.bmCell_outside {i j : Nat} (h : ¬ (i < s.bmW ∧ j < s.bmH)) : s.bmCell i j = false := by
  rw [State.bmCell, ← Bool.decide_and, decide_eq_false h, Bool.false_and]

/-- A word written to `BMWORD[o]` sets the cells it covers and no others (20_memory.md R204). -/
theorem State.writeBmWord_bmCell (s : State) (o : Nat) (v : Word) (i j : Nat) :
    (s.writeBmWord o v).bmCell i j
      = if i < s.bmW ∧ j < s.bmH ∧ s.bmRowSize * j + i / 32 = o then v.getLsbD (i % 32) else s.bmCell i j := by
  by_cases hcell : i < s.bmW ∧ j < s.bmH
  · obtain ⟨hi, hj⟩ := hcell
    have hword : (s.writeBmWord o v).bmCell i j = ((s.writeBmWord o v).bmWord (s.bmRowSize * j + i / 32)).getLsbD (i % 32) :=
      (s.writeBmWord o v).bmCell_eq_bmWord j hi
    rw [hword, State.writeBmWord_bmWord]
    by_cases ho : s.bmRowSize * j + i / 32 = o
    · obtain ⟨hmod, hdiv⟩ := s.word_of_column j hi
      have his : s.bmIsCell o (i % 32) = true := by
        rw [State.bmIsCell, ← ho, hmod, hdiv, Nat.div_add_mod, decide_eq_true hi, decide_eq_true hj, Bool.true_and]
      rw [if_pos ho, if_pos ⟨hi, hj, ho⟩, State.and_bmCellMask_getLsbD _ _ _ (Nat.mod_lt _ (by decide)), his, Bool.and_true]
    · rw [if_neg ho, if_neg fun h => ho h.2.2, s.bmCell_eq_bmWord j hi]
  · rw [if_neg fun h => hcell ⟨h.1, h.2.1⟩, State.bmCell_outside hcell]
    exact State.bmCell_outside (s := s.writeBmWord o v) hcell

theorem State.writeBmWord_storesMatrixOnly (s : State) {o : Nat} (v : Word) (ho : o < 2048) :
    StoresMatrixOnly s.mem (s.writeBmWord o v).mem := by
  intro a ha
  refine (s.mem.read_write _ _ a).trans (if_neg ?_)
  rw [bytesOfWord_length, bmBase]
  omega

/-! Words of the symbol (20_memory.md R204). -/

/-- The cell that a host write of `v` asks for at place `k` of a symbol word: the cell of its two-bit code. -/
def cellOfWord (v : Word) (k : Nat) : Cell := Cell.ofCode (v.getLsbD (2 * k)) (v.getLsbD (2 * k + 1))

/-- What a write of `v` to word `w` of row `y` stores at bit `k`: inside the symbol the code of the cell asked for, elsewhere the old bit. -/
def State.symWordBit (s : State) (y w : Nat) (v : Word) (k : Nat) : Bool :=
  if 16 * w + k / 2 < s.symN ∧ y < s.symN then (cellOfWord v (k / 2)).codeBit (k % 2)
  else s.mem.bit (symRowBase y) (32 * w + k)

theorem State.writeSymWord_eq (s : State) (y w : Nat) (v : Word) :
    s.writeSymWord y w v = s.setMem (s.mem.writeBits (symRowBase y) (32 * w) 32 (s.symWordBit y w v)) := rfl

theorem State.symWordBit_inside {y w j : Nat} (v : Word) {b : Nat} (hb : b < 2) (hin : 16 * w + j < s.symN ∧ y < s.symN) :
    s.symWordBit y w v (2 * j + b) = (cellOfWord v j).codeBit b := by
  rw [State.symWordBit, show (2 * j + b) / 2 = j by omega, show (2 * j + b) % 2 = b by omega, if_pos hin]

/-- The cells that a written word covers: inside the symbol those asked for, outside it white (20_memory.md R204). -/
theorem State.writeSymWord_symCell (s : State) (y w : Nat) (v : Word) {j : Nat} (hj : j < 16) :
    (s.writeSymWord y w v).symCell (16 * w + j) y
      = if 16 * w + j < s.symN ∧ y < s.symN then cellOfWord v j else .white := by
  rw [State.writeSymWord_eq, State.symCell, State.setMem_symN]
  split
  · next hin =>
    have hbit (b : Nat) (hb : b < 2) :
        (s.mem.writeBits (symRowBase y) (32 * w) 32 (s.symWordBit y w v)).bit (symRowBase y) (2 * (16 * w + j) + b)
          = (cellOfWord v j).codeBit b := by
      rw [Memory.bit_writeBits, if_pos (by omega), show 2 * (16 * w + j) + b - 32 * w = 2 * j + b by omega,
        State.symWordBit_inside v hb hin]
    exact (congrArg₂ Cell.ofCode (hbit 0 (by decide)) (hbit 1 (by decide))).trans (Cell.ofCode_codeBit _)
  · rfl

theorem State.writeSymWord_storesBits (s : State) (y w : Nat) (v : Word) :
    StoresBits s.mem (s.writeSymWord y w v).mem (symRowBase y) (32 * w) 32 (s.symWordBit y w v) := by
  rw [State.writeSymWord_eq]
  exact s.mem.read_writeBits _ _ _ _

/-- Settles O23: a write to either window changes the memories alone, and the word and the cells after it are those claimed. -/
theorem cellWindows : Obligations.CellWindows := by
  intro s offset v rest _ hb hh h4
  refine ⟨fun o ho ha => ?_, fun y w hy hw ha => ?_⟩
  · refine ⟨(s.writeBmWord o v).mem, _, step_idle_write_read hb hh h4 (p := .bmWord o) ⟨ho, ha⟩ rfl rfl, fun j hj => ?_,
      s.writeBmWord_bmCell o v, s.writeBmWord_storesMatrixOnly v ho⟩
    have hword : (s.writeBmWord o v).bmWord o = v &&& s.bmCellMask o := (s.writeBmWord_bmWord o o v).trans (if_pos rfl)
    rw [Bool.and_assoc]
    exact (congrArg (·.getLsbD j) hword).trans (s.and_bmCellMask_getLsbD o v hj)
  · refine ⟨(s.writeSymWord y w v).mem, _, step_idle_write_read hb hh h4 (p := .sym y w) ⟨hy, hw, ha⟩ rfl rfl,
      fun j b hj hlt => ?_, s.writeSymWord_storesBits y w v⟩
    exact (State.symWord_getLsbD _ y w hj hlt).trans (congrArg (·.codeBit b) (s.writeSymWord_symCell y w v hj))

end Sys2Proof.Machine
end

section
/-! PROOFS (30_encoding.md R300 to R321). Words and their fields, the rows of the opcode map, and the decoder, which looks a row up by
its opcode; from these, that encoding and decoding invert each other and what a step does with the word in `CMD`. -/

namespace Sys2Proof

/-! Words and their fields (30_encoding.md R301, R302). -/

theorem fieldOPC_eq (w : Word) : fieldOPC w = w.toNat % 256 := by
  simp [fieldOPC, BitVec.extractLsb'_toNat]

theorem fieldRD_eq (w : Word) : fieldRD w = w.toNat / 256 % 8 := by
  simp [fieldRD, BitVec.extractLsb'_toNat, Nat.shiftRight_eq_div_pow]

theorem fieldRA_eq (w : Word) : fieldRA w = w.toNat / 4096 % 8 := by
  simp [fieldRA, BitVec.extractLsb'_toNat, Nat.shiftRight_eq_div_pow]

theorem fieldRB_eq (w : Word) : fieldRB w = w.toNat / 65536 % 8 := by
  simp [fieldRB, BitVec.extractLsb'_toNat, Nat.shiftRight_eq_div_pow]

theorem fieldRC_eq (w : Word) : fieldRC w = w.toNat / 1048576 % 8 := by
  simp [fieldRC, BitVec.extractLsb'_toNat, Nat.shiftRight_eq_div_pow]

theorem fieldRD_lt (w : Word) : fieldRD w < 8 := BitVec.isLt _
theorem fieldRA_lt (w : Word) : fieldRA w < 8 := BitVec.isLt _
theorem fieldRB_lt (w : Word) : fieldRB w < 8 := BitVec.isLt _
theorem fieldRC_lt (w : Word) : fieldRC w < 8 := BitVec.isLt _

theorem Bank.number_lt (x : Bank) : x.number < 8 := by cases x <;> decide

theorem Bank.number_injective : Function.Injective Bank.number := by
  intro x y h
  cases x <;> cases y <;> simp_all [Bank.number]

theorem bankOfBit_number (b : Bool) : (bankOfBit b).number = b.toNat := by cases b <;> rfl

/-- A bank field is the lowest bit of the register field at its place. -/
theorem fieldBD_number (w : Word) : (fieldBD w).number = fieldRD w % 2 := by
  rw [fieldBD, bankOfBit_number, fieldRD_eq, BitVec.getLsbD, Nat.toNat_testBit]
  omega

theorem fieldBA_number (w : Word) : (fieldBA w).number = fieldRA w % 2 := by
  rw [fieldBA, bankOfBit_number, fieldRA_eq, BitVec.getLsbD, Nat.toNat_testBit]
  omega

/-- A word in which no bit outside the fields is set is put together from its fields. -/
theorem cmdWord_fields {w : Word} (h : w &&& 0xFF888800 = 0) :
    cmdWord (fieldOPC w) (fieldRD w) (fieldRA w) (fieldRB w) (fieldRC w) = w := by
  have hzero (k n : Nat) (hm : (0xFF888800 : Word).extractLsb' k n = BitVec.allOnes n) : w.toNat / 2 ^ k % 2 ^ n = 0 := by
    have hk := congrArg (·.extractLsb' k n) h
    rw [BitVec.extractLsb'_and, hm, BitVec.and_allOnes] at hk
    simpa [BitVec.extractLsb'_toNat, Nat.shiftRight_eq_div_pow] using congrArg BitVec.toNat hk
  have h11 : w.toNat / 2048 % 2 = 0 := hzero 11 1 (by decide)
  have h15 : w.toNat / 32768 % 2 = 0 := hzero 15 1 (by decide)
  have h19 : w.toNat / 524288 % 2 = 0 := hzero 19 1 (by decide)
  have h23 : w.toNat / 8388608 % 512 = 0 := hzero 23 9 (by decide)
  have hw := w.isLt
  apply BitVec.eq_of_toNat_eq
  rw [cmdWord, fieldOPC_eq, fieldRD_eq, fieldRA_eq, fieldRB_eq, fieldRC_eq, BitVec.toNat_ofNat]
  omega

section
variable {opc rd ra rb rc : Nat} (ho : opc < 256) (hd : rd < 8) (ha : ra < 8) (hb : rb < 8) (hc : rc < 8)
include ho hd ha hb hc

theorem cmdWord_toNat :
    (cmdWord opc rd ra rb rc).toNat = opc + rd * 256 + ra * 4096 + rb * 65536 + rc * 1048576 := by
  simp only [cmdWord, BitVec.toNat_ofNat, Nat.reducePow]
  omega

theorem fieldRD_cmdWord : fieldRD (cmdWord opc rd ra rb rc) = rd := by
  rw [fieldRD_eq, cmdWord_toNat ho hd ha hb hc]
  omega

theorem fieldRA_cmdWord : fieldRA (cmdWord opc rd ra rb rc) = ra := by
  rw [fieldRA_eq, cmdWord_toNat ho hd ha hb hc]
  omega

theorem fieldRB_cmdWord : fieldRB (cmdWord opc rd ra rb rc) = rb := by
  rw [fieldRB_eq, cmdWord_toNat ho hd ha hb hc]
  omega

theorem fieldRC_cmdWord : fieldRC (cmdWord opc rd ra rb rc) = rc := by
  rw [fieldRC_eq, cmdWord_toNat ho hd ha hb hc]
  omega

omit hd in
theorem fieldBD_cmdWord (x : Bank) : fieldBD (cmdWord opc x.number ra rb rc) = x := by
  apply Bank.number_injective
  rw [fieldBD_number, fieldRD_cmdWord ho x.number_lt ha hb hc]
  cases x <;> rfl

omit ha in
theorem fieldBA_cmdWord (x : Bank) : fieldBA (cmdWord opc rd x.number rb rc) = x := by
  apply Bank.number_injective
  rw [fieldBA_number, fieldRA_cmdWord ho hd x.number_lt hb hc]
  cases x <;> rfl

end

/-- Bits that come from outside `c` do not show under `c`. -/
theorem or_and_of_outside {p m c : Word} (w : Word) (h : m &&& c = 0) : (p ||| (w &&& m)) &&& c = p &&& c := by
  rw [BitVec.and_comm, BitVec.and_or_distrib_left, BitVec.and_comm c (w &&& m), BitVec.and_assoc, h, BitVec.and_comm c p]
  simp

/-! The rows of the opcode map (30_encoding.md R310, R321). -/

theorem definedOpcodes_eq : Machine.definedOpcodes = opTable.map (fun row => fieldOPC row.pattern) := by decide

theorem mem_definedOpcodes {n : Nat} : n ∈ Machine.definedOpcodes ↔ ∃ row ∈ opTable, fieldOPC row.pattern = n := by
  rw [definedOpcodes_eq, List.mem_map]

/-- No two rows have one opcode. -/
theorem opTable_injOn {r r' : OpRow} (hr : r ∈ opTable) (hr' : r' ∈ opTable) (h : fieldOPC r.pattern = fieldOPC r'.pattern) :
    r = r' :=
  List.inj_on_of_nodup_map (definedOpcodes_eq ▸ (by decide : Machine.definedOpcodes.Nodup)) hr hr' h

/-- A mask covers the opcode and every bit outside the fields; a pattern has no bit that its mask does not cover. -/
theorem opTable_bits {row : OpRow} (h : row ∈ opTable) :
    row.mask.extractLsb' 0 8 = BitVec.allOnes 8 ∧ row.pattern &&& row.mask = row.pattern
      ∧ row.pattern &&& 0xFF888800 = 0 ∧ ~~~row.mask &&& 0xFF888800 = 0 := by
  revert row
  decide

/-- A word that matches a row has the row's opcode. -/
theorem fieldOPC_of_match {row : OpRow} {w : Word} (h : row ∈ opTable) (hm : w &&& row.mask = row.pattern) :
    fieldOPC row.pattern = fieldOPC w := by
  obtain ⟨hopc, -⟩ := opTable_bits h
  rw [← hm, fieldOPC, BitVec.extractLsb'_and, hopc, BitVec.and_allOnes, fieldOPC]

theorem wellFormed_build : ∀ row ∈ opTable, ∀ w, (row.build w).wellFormed = true := by
  simp only [opTable, rowsControl, rowsField, rowsPoly, rowsRs, rowsBitVector, rowsBitMatrix, rowsSymbol, rowsMask,
    List.forall_mem_append, List.forall_mem_cons, List.not_mem_nil, false_imp_iff, implies_true, Instr.wellFormed, isPolyReg,
    fieldRD_lt, fieldRA_lt, fieldRB_lt, fieldRC_lt, decide_true, Bool.and_self, and_self]

theorem mod_eight_and_seven (n : Nat) : n % 8 &&& 7 = n % 8 :=
  Nat.and_two_pow_sub_one_of_lt_two_pow (n := 3) (Nat.mod_lt _ (by decide))

/-- The command that a row reads from `w` encodes to the row's pattern with the bits of `w` that the mask leaves free: field by field,
the row's mask leaves free just what its command reads. -/
theorem encode_build {row : OpRow} (h : row ∈ opTable) (w : Word) :
    encode (row.build w) = row.pattern ||| (w &&& ~~~row.mask) := by
  have hres : (row.pattern ||| (w &&& ~~~row.mask)) &&& 0xFF888800 = 0 := by
    obtain ⟨-, -, hp, hm⟩ := opTable_bits h
    rw [or_and_of_outside w hm, hp]
  rw [← cmdWord_fields hres]
  revert row
  simp only [opTable, rowsControl, rowsField, rowsPoly, rowsRs, rowsBitVector, rowsBitMatrix, rowsSymbol, rowsMask,
    List.forall_mem_append, List.forall_mem_cons, List.not_mem_nil, false_imp_iff, implies_true]
  simp [encode, fieldBD_number, fieldBA_number, fieldOPC, fieldRD, fieldRA, fieldRB, fieldRC, BitVec.extractLsb'_or, BitVec.extractLsb'_and,
    mod_eight_and_seven]

theorem encode_build_and_mask {row : OpRow} (h : row ∈ opTable) (w : Word) :
    encode (row.build w) &&& row.mask = row.pattern := by
  obtain ⟨-, hp, -⟩ := opTable_bits h
  rw [encode_build h, or_and_of_outside w (BitVec.not_and_self _), hp]

theorem encode_build_of_match {row : OpRow} {w : Word} (h : row ∈ opTable) (hm : w &&& row.mask = row.pattern) :
    encode (row.build w) = w := by
  rw [encode_build h, ← hm, ← BitVec.and_or_distrib_left, BitVec.or_not_self, BitVec.and_allOnes]

/-- The row at the place of a command's constructor reads the command back from its word. -/
theorem build_encode {i : Instr} (h : i.wellFormed = true) :
    ∃ row, opTable[i.ctorIdx]? = some row ∧ row.build (encode i) = i := by
  simp only [Instr.wellFormed, isPolyReg] at h
  cases i <;> refine ⟨_, rfl, ?_⟩
  all_goals
    simp only [Bool.and_eq_true, decide_eq_true_eq] at h
    simp [encode, fieldRD_cmdWord, fieldRA_cmdWord, fieldRB_cmdWord, fieldRC_cmdWord, fieldBD_cmdWord, fieldBA_cmdWord,
      Bank.number_lt, h]

/-! The decoder (30_encoding.md R310, R311). -/

/-- All that decoding can do: the opcode is in no row, or in one, whose must-be-zero bits then decide. -/
theorem decode_cases (w : Word) :
    (fieldOPC w ∉ Machine.definedOpcodes ∧ decode w = .error .undefinedOpcode)
      ∨ ∃ row ∈ opTable, fieldOPC row.pattern = fieldOPC w
        ∧ (w &&& row.mask = row.pattern ∧ decode w = .ok (row.build w)
          ∨ w &&& row.mask ≠ row.pattern ∧ decode w = .error .mustBeZero) := by
  cases hf : opTable.find? (fun row => decide (fieldOPC row.pattern = fieldOPC w)) with
  | none =>
    refine .inl ⟨fun hdef => ?_, by simp [decode, hf]⟩
    obtain ⟨row, hmem, hopc⟩ := mem_definedOpcodes.mp hdef
    exact List.find?_eq_none.mp hf row hmem (decide_eq_true hopc)
  | some row =>
    refine .inr ⟨row, List.mem_of_find?_eq_some hf, by simpa using List.find?_some hf, ?_⟩
    by_cases hm : w &&& row.mask = row.pattern
    · exact .inl ⟨hm, by simp [decode, hf, hm]⟩
    · exact .inr ⟨hm, by simp [decode, hf, hm]⟩

theorem decode_undefined {w : Word} (h : fieldOPC w ∉ Machine.definedOpcodes) : decode w = .error .undefinedOpcode := by
  rcases decode_cases w with ⟨-, hd⟩ | ⟨row, hmem, hopc, -⟩
  · exact hd
  · exact absurd (mem_definedOpcodes.mpr ⟨row, hmem, hopc⟩) h

/-- A word decodes by the row that it matches, and by no other. -/
theorem decode_eq_ok_iff {w : Word} {i : Instr} :
    decode w = .ok i ↔ ∃ row ∈ opTable, w &&& row.mask = row.pattern ∧ row.build w = i := by
  constructor
  · intro h
    rcases decode_cases w with ⟨-, hd⟩ | ⟨row, hmem, -, ⟨hm, hd⟩ | ⟨-, hd⟩⟩ <;> rw [hd] at h
    · cases h
    · exact ⟨row, hmem, hm, Except.ok.inj h⟩
    · cases h
  · rintro ⟨row, hmem, hm, rfl⟩
    have hopc := fieldOPC_of_match hmem hm
    rcases decode_cases w with ⟨hundef, -⟩ | ⟨row', hmem', hopc', hrow⟩
    · exact absurd (mem_definedOpcodes.mpr ⟨row, hmem, hopc⟩) hundef
    · obtain rfl := opTable_injOn hmem hmem' (hopc.trans hopc'.symm)
      exact hrow.elim And.right fun h => absurd hm h.1

/-- Settles O1: the command's row matches its word and reads the command back from it. -/
theorem decodeInvertsEncode : Obligations.DecodeInvertsEncode := by
  intro i h
  obtain ⟨row, hrow, hbuild⟩ := build_encode h
  have hmem : row ∈ opTable := List.mem_of_getElem? hrow
  have hmatch := encode_build_and_mask hmem (encode i)
  rw [hbuild] at hmatch
  exact decode_eq_ok_iff.mpr ⟨row, hmem, hmatch, hbuild⟩

/-- Settles O2: the word matches a row, and the row's command encodes to the word. -/
theorem encodeInvertsDecode : Obligations.EncodeInvertsDecode := by
  intro w i h
  obtain ⟨row, hmem, hm, rfl⟩ := decode_eq_ok_iff.mp h
  exact ⟨wellFormed_build row hmem w, encode_build_of_match hmem hm⟩

/-- Settles O3: the decoder evaluated at each word. -/
theorem specWordsDecode : Obligations.SpecWordsDecode := by
  unfold Obligations.SpecWordsDecode
  decide

/-- A listed opcode in a word that encodes no command has a must-be-zero bit set. -/
theorem decode_mustBeZero {w : Word} (h : fieldOPC w ∈ Machine.definedOpcodes)
    (hno : ∀ i : Instr, i.wellFormed = true → encode i ≠ w) : decode w = .error .mustBeZero := by
  rcases decode_cases w with ⟨hundef, -⟩ | ⟨row, hmem, -, ⟨hm, -⟩ | ⟨-, hd⟩⟩
  · exact absurd h hundef
  · exact absurd (encode_build_of_match hmem hm) (hno _ (wellFormed_build row hmem w))
  · exact hd

end Sys2Proof

/-! The step of a due block (30_encoding.md R311, 60_exceptions.md R901). -/

namespace Sys2Proof.Machine

variable {s : State}

theorem State.runCommand_of_ok {i : Instr} (h : decode s.cmd = .ok i) : s.runCommand = exec i s := by
  simp [State.runCommand, h]

theorem State.runCommand_of_error {e : DecodeError} (h : decode s.cmd = .error e) :
    s.runCommand = .next (s.fail (Failure.ofDecode e)) := by
  simp [State.runCommand, h]

/-- Settles O4: the decoder names the cause, and the completion is the failure of that cause. -/
theorem illegalWordsFail : Obligations.IllegalWordsFail := by
  intro s hb hw
  have hstep := step_of_due (State.due_eq_true hb hw)
  exact ⟨fun hundef => hstep.trans (State.runCommand_of_error (decode_undefined hundef)),
    fun hdef hno => hstep.trans (State.runCommand_of_error (decode_mustBeZero hdef hno))⟩

/-- Settles O5: a due step completes the decoded command, and a step of a quiet block is none. -/
theorem stepRunsDecodedCommand : Obligations.StepRunsDecodedCommand :=
  ⟨fun _ _ hb hw hd => (step_of_due (State.due_eq_true hb hw)).trans (State.runCommand_of_ok hd), fun _ => rfl,
    fun _ hb hh => step_of_quiet (State.due_eq_false_of_idle hb) hh⟩

end Sys2Proof.Machine
end

section
/-! PROOFS (41_gf.md). The field of a legal `GF_PRIM`. The 255 powers of α are all the nonzero elements, so the product of two powers is the
power of the sum of their exponents, and multiplying by a power of α is doubling again and again. Doubling is additive: hence the distributive
law, and the agreement of the product by tables with the schoolbook product. -/

namespace Sys2Proof.Machine

variable {prim : BitVec 9}

/-! Doubling (R400). -/

theorem gfDouble_eq (p x : Nat) : gfDouble p x = if x < 128 then 2 * x else (2 * x ^^^ p) % 256 := by
  have hshift : x <<< 1 = 2 * x := by rw [Nat.shiftLeft_eq]; omega
  rw [gfDouble, hshift, Nat.and_two_pow_sub_one_eq_mod _ 8]
  by_cases hx : x < 128
  · rw [if_pos hx, if_neg (by omega)]
  · rw [if_neg hx, if_pos (by omega)]

/-- Doubling as an operation on bytes: the byte shifted left, reduced when its top bit was set. -/
def gfTwice (prim : BitVec 9) (b : Byte) : Byte := b <<< 1 ^^^ if b.msb then prim.setWidth 8 else 0

theorem gfTwice_toNat (prim : BitVec 9) (b : Byte) : (gfTwice prim b).toNat = gfDouble prim.toNat b.toNat := by
  have hb := b.isLt
  rw [gfTwice, gfDouble_eq, BitVec.msb_eq_decide, BitVec.toNat_xor, BitVec.toNat_shiftLeft, Nat.shiftLeft_eq, Nat.mul_comm]
  by_cases hx : b.toNat < 128
  · rw [if_pos hx, if_neg (by simp only [decide_eq_true_eq]; omega)]
    exact (Nat.xor_zero _).trans (Nat.mod_eq_of_lt (by omega))
  · rw [if_neg hx, if_pos (by simp only [decide_eq_true_eq]; omega), BitVec.toNat_setWidth]
    exact (Nat.xor_mod_two_pow (n := 8)).symm

@[simp] theorem gfTwice_zero (prim : BitVec 9) : gfTwice prim 0#8 = 0#8 := by simp [gfTwice]

theorem gfTwice_of_msb_false {b : Byte} (h : b.msb = false) : gfTwice prim b = b <<< 1 := by simp [gfTwice, h]

/-- Doubling is additive. -/
theorem gfTwice_xor (prim : BitVec 9) (b c : Byte) : gfTwice prim (b ^^^ c) = gfTwice prim b ^^^ gfTwice prim c := by
  simp only [gfTwice, BitVec.msb_xor, BitVec.shiftLeft_xor_distrib]
  have hcomm : c <<< 1 ^^^ prim.setWidth 8 = prim.setWidth 8 ^^^ c <<< 1 := BitVec.xor_comm _ _
  cases b.msb <;> cases c.msb
  · simp
  · simp [BitVec.xor_assoc]
  · simp [BitVec.xor_assoc, hcomm]
  · simp [BitVec.xor_assoc, hcomm, ← BitVec.xor_assoc (prim.setWidth 8)]

/-! The exponent and logarithm tables (R400, R401). -/

theorem gfExp_zero (prim : BitVec 9) : gfExp prim 0 = 1 := rfl

theorem gfExp_succ (prim : BitVec 9) (i : Nat) : gfExp prim (i + 1) = gfTwice prim (gfExp prim i) :=
  BitVec.eq_of_toNat_eq (by rw [gfTwice_toNat, gfExp_toNat, gfExp_toNat, gfPower])

theorem gfExp_255 (hprim : prim ∈ Config.primitivePolys) : gfExp prim 255 = 1 :=
  BitVec.eq_of_toNat_eq ((gfExp_toNat prim 255).trans (powerMarks_of_primitive prim hprim).2)

theorem gfExp_periodic (hprim : prim ∈ Config.primitivePolys) : Function.Periodic (gfExp prim) 255 := by
  intro i
  induction i with
  | zero => exact gfExp_255 hprim
  | succ i ih => rw [Nat.add_right_comm, gfExp_succ, ih, ← gfExp_succ]

theorem gfExp_mod (hprim : prim ∈ Config.primitivePolys) (i : Nat) : gfExp prim (i % 255) = gfExp prim i :=
  (gfExp_periodic hprim).map_mod_nat i

theorem card_nonzeroBytes : (Finset.univ.erase (0 : Byte)).card = 255 := by
  rw [Finset.card_erase_of_mem (Finset.mem_univ _), Finset.card_univ, ← FinEnum.card_eq_fintypeCard, FinEnum.card_bitVec]
  rfl

/-- The entries 0 to 254 are the nonzero elements: every nonzero element is one of them, and there are 255 of each. -/
theorem gfExp_image (hprim : prim ∈ Config.primitivePolys) : (Finset.range 255).image (gfExp prim) = Finset.univ.erase 0 := by
  refine (Finset.eq_of_subset_of_card_le (fun a ha => ?_) ?_).symm
  · obtain ⟨he, hlt⟩ := gfLog_spec hprim (Finset.ne_of_mem_erase ha)
    exact Finset.mem_image.mpr ⟨_, Finset.mem_range.mpr hlt, he⟩
  · rw [card_nonzeroBytes]
    exact Finset.card_image_le.trans_eq (Finset.card_range 255)

theorem gfExp_injOn (hprim : prim ∈ Config.primitivePolys) {i j : Nat} (hi : i < 255) (hj : j < 255)
    (h : gfExp prim i = gfExp prim j) : i = j := by
  have hcard : ((Finset.range 255).image (gfExp prim)).card = (Finset.range 255).card := by
    rw [gfExp_image hprim, card_nonzeroBytes, Finset.card_range]
  exact Finset.injOn_of_card_image_eq hcard (by simpa using hi) (by simpa using hj) h

theorem gfExp_ne_zero (hprim : prim ∈ Config.primitivePolys) (i : Nat) : gfExp prim i ≠ 0 := by
  have hmem : gfExp prim (i % 255) ∈ (Finset.range 255).image (gfExp prim) :=
    Finset.mem_image_of_mem _ (Finset.mem_range.mpr (Nat.mod_lt _ (by decide)))
  rw [gfExp_image hprim, gfExp_mod hprim] at hmem
  exact Finset.ne_of_mem_erase hmem

theorem gfLog_gfExp (hprim : prim ∈ Config.primitivePolys) (i : Nat) : gfLog prim (gfExp prim i) = i % 255 := by
  obtain ⟨he, hlt⟩ := gfLog_spec hprim (gfExp_ne_zero hprim i)
  exact gfExp_injOn hprim hlt (Nat.mod_lt _ (by decide)) (he.trans (gfExp_mod hprim i).symm)

/-- An element is zero or a power of α: the case split of most proofs about products. -/
theorem eq_zero_or_eq_gfExp (hprim : prim ∈ Config.primitivePolys) (a : Byte) : a = 0 ∨ ∃ i, a = gfExp prim i := by
  by_cases ha : a = 0
  · exact .inl ha
  · exact .inr ⟨_, (gfLog_spec hprim ha).1.symm⟩

/-- Settles O26: the powers of α are pairwise distinct because they are all the 255 nonzero elements. -/
theorem exponentAndLogarithmTables : Obligations.ExponentAndLogarithmTables := by
  refine ⟨fun prim hprim => ⟨gfExp_zero prim, fun i _ => ?_, fun i j hi hj => gfExp_injOn hprim hi hj, gfExp_255 hprim,
    fun a ha => ?_⟩, by decide +kernel, by decide +kernel⟩
  · rw [gfExp_succ, gfTwice_toNat, gfDouble_eq]
  · obtain ⟨he, hlt⟩ := gfLog_spec hprim ha
    exact ⟨Nat.le_of_lt_succ hlt, he, fun i hi h => gfExp_injOn hprim (Nat.lt_succ_of_le hi) hlt (h.trans he.symm)⟩

/-! Products (R403, R405). -/

@[simp] theorem gfMul_zero_left (prim : BitVec 9) (b : Byte) : gfMul prim 0#8 b = 0#8 := if_pos (.inl rfl)
@[simp] theorem gfMul_zero_right (prim : BitVec 9) (a : Byte) : gfMul prim a 0#8 = 0#8 := if_pos (.inr rfl)

theorem gfMul_one_left (hprim : prim ∈ Config.primitivePolys) (a : Byte) : gfMul prim 1 a = a := by
  rw [gfMul_comm, gfMul_one hprim]

theorem gfMul_gfExp (hprim : prim ∈ Config.primitivePolys) (i j : Nat) :
    gfMul prim (gfExp prim i) (gfExp prim j) = gfExp prim (i + j) := by
  rw [gfMul, if_neg (not_or.mpr ⟨gfExp_ne_zero hprim i, gfExp_ne_zero hprim j⟩), gfLog_gfExp hprim, gfLog_gfExp hprim, ← Nat.add_mod,
    gfExp_mod hprim]

theorem gfMul_assoc (hprim : prim ∈ Config.primitivePolys) (a b c : Byte) :
    gfMul prim (gfMul prim a b) c = gfMul prim a (gfMul prim b c) := by
  rcases eq_zero_or_eq_gfExp hprim a with rfl | ⟨i, rfl⟩
  · simp
  rcases eq_zero_or_eq_gfExp hprim b with rfl | ⟨j, rfl⟩
  · simp
  rcases eq_zero_or_eq_gfExp hprim c with rfl | ⟨k, rfl⟩
  · simp
  simp only [gfMul_gfExp hprim, Nat.add_assoc]

theorem gfMul_ne_zero (hprim : prim ∈ Config.primitivePolys) {a b : Byte} (ha : a ≠ 0) (hb : b ≠ 0) : gfMul prim a b ≠ 0 := by
  rw [gfMul, if_neg (not_or.mpr ⟨ha, hb⟩)]
  exact gfExp_ne_zero hprim _

theorem gfMul_gfTwice (hprim : prim ∈ Config.primitivePolys) (a b : Byte) :
    gfMul prim (gfTwice prim a) b = gfTwice prim (gfMul prim a b) := by
  rcases eq_zero_or_eq_gfExp hprim a with rfl | ⟨i, rfl⟩
  · simp
  rcases eq_zero_or_eq_gfExp hprim b with rfl | ⟨j, rfl⟩
  · simp
  rw [← gfExp_succ, gfMul_gfExp hprim, gfMul_gfExp hprim, ← gfExp_succ, Nat.add_right_comm]

/-- The distributive law: a power of α as the left factor doubles again and again, and doubling is additive. -/
theorem gfMul_xor (hprim : prim ∈ Config.primitivePolys) (a b c : Byte) :
    gfMul prim a (b ^^^ c) = gfMul prim a b ^^^ gfMul prim a c := by
  rcases eq_zero_or_eq_gfExp hprim a with rfl | ⟨i, rfl⟩
  · simp
  induction i with
  | zero => simp only [gfExp_zero, gfMul_one_left hprim]
  | succ i ih => simp only [gfExp_succ, gfMul_gfTwice hprim, ih, gfTwice_xor]

theorem xor_gfMul (hprim : prim ∈ Config.primitivePolys) (a b c : Byte) :
    gfMul prim (a ^^^ b) c = gfMul prim a c ^^^ gfMul prim b c := by
  rw [gfMul_comm, gfMul_xor hprim, gfMul_comm prim c a, gfMul_comm prim c b]

/-! The inverse (R404). -/

theorem gfInv_zero (prim : BitVec 9) : gfInv prim 0 = .error .inverseZero := if_pos rfl

theorem gfInv_of_ne {a : Byte} (ha : a ≠ 0) : gfInv prim a = .ok (gfInvNonzero prim a) := if_neg ha

theorem gfInvNonzero_ne_zero (hprim : prim ∈ Config.primitivePolys) (a : Byte) : gfInvNonzero prim a ≠ 0 := gfExp_ne_zero hprim _

theorem gfMul_gfInvNonzero (hprim : prim ∈ Config.primitivePolys) {a : Byte} (ha : a ≠ 0) :
    gfMul prim a (gfInvNonzero prim a) = 1 := by
  obtain ⟨he, hlt⟩ := gfLog_spec hprim ha
  calc gfMul prim a (gfInvNonzero prim a)
      = gfMul prim (gfExp prim (gfLog prim a)) (gfExp prim (255 - gfLog prim a)) := by rw [he, gfInvNonzero]
    _ = 1 := by rw [gfMul_gfExp hprim, Nat.add_sub_cancel' hlt.le, gfExp_255 hprim]

theorem eq_gfInvNonzero_of_gfMul_eq_one (hprim : prim ∈ Config.primitivePolys) {a c : Byte} (h : gfMul prim a c = 1) :
    c = gfInvNonzero prim a := by
  have ha : a ≠ 0 := by
    rintro rfl
    simp at h
  calc c = gfMul prim (gfMul prim a (gfInvNonzero prim a)) c := by rw [gfMul_gfInvNonzero hprim ha, gfMul_one_left hprim]
    _ = gfMul prim (gfMul prim a c) (gfInvNonzero prim a) := by
      rw [gfMul_assoc hprim, gfMul_comm prim _ c, ← gfMul_assoc hprim]
    _ = gfInvNonzero prim a := by rw [h, gfMul_one_left hprim]

/-- Settles O27: an inverse is a factor of 1, and 1 has only one other factor. -/
theorem inverseIsUnique : Obligations.InverseIsUnique := by
  refine fun prim hprim => ⟨gfInv_zero prim, fun a ha => ?_⟩
  have hmul := gfMul_gfInvNonzero hprim ha
  refine ⟨gfInvNonzero prim a, gfInv_of_ne ha, hmul, fun c hc => eq_gfInvNonzero_of_gfMul_eq_one hprim hc, ?_⟩
  rw [gfInv_of_ne (gfInvNonzero_ne_zero hprim a), ← eq_gfInvNonzero_of_gfMul_eq_one hprim ((gfMul_comm prim _ a).trans hmul)]

/-- Settles O28: the laws of products hold for powers of α, the distributive law by induction on the exponent. -/
theorem fieldLaws : Obligations.FieldLaws := by
  refine fun prim hprim a b c => ⟨gfMul_comm prim a b, gfMul_assoc hprim a b c, gfMul_xor hprim a b c, gfMul_one_left hprim a,
    gfMul_zero_left prim a, BitVec.xor_assoc a b c, BitVec.xor_comm a b, BitVec.xor_zero, BitVec.xor_self, gfMul_ne_zero hprim,
    fun hb => ⟨gfInvNonzero prim b, gfInv_of_ne hb, ?_⟩, gfInv_zero prim⟩
  rw [gfMul_assoc hprim, gfMul_gfInvNonzero hprim hb, gfMul_one hprim]

/-! The schoolbook product (R400, R403). -/

/-- The bits of a byte from bit `m` up: those from bit `m + 1` up, moved by one place, and bit `m`. -/
theorem ushiftRight_eq_shiftLeft_xor_bit (a : Byte) (m : Nat) :
    a >>> m = (a >>> (m + 1)) <<< 1 ^^^ if a.getLsbD m then 1 else 0 := by
  refine byte_ext fun j hj => ?_
  cases j with
  | zero => cases h : a.getLsbD m <;> simp [h]
  | succ j =>
    have hplace : m + (j + 1) = m + 1 + j := by omega
    cases a.getLsbD m <;> simp [hplace, hj]

/-- After `k` bits the schoolbook method has multiplied by the top `k` bits of its first factor. -/
theorem schoolMul_eq (hprim : prim ∈ Config.primitivePolys) (a b : Byte) {k : Nat} (hk : k ≤ 8) :
    schoolMul prim a b k = (gfMul prim (a >>> (8 - k)) b).toNat := by
  induction k with
  | zero =>
    have hnone : a >>> 8 = 0#8 := BitVec.ushiftRight_eq_zero (Nat.le_refl 8)
    rw [schoolMul, Nat.sub_zero, hnone, gfMul_zero_left]
    rfl
  | succ k ih =>
    have hsub : 8 - k = 7 - k + 1 := by omega
    have hmsb : (a >>> (7 - k + 1)).msb = false := by simp [BitVec.msb_ushiftRight]
    have hbit : (if a.getLsbD (7 - k) then b.toNat else 0) = (gfMul prim (if a.getLsbD (7 - k) then 1 else 0) b).toNat := by
      cases a.getLsbD (7 - k)
      · simp
      · exact congrArg BitVec.toNat (gfMul_one_left hprim b).symm
    rw [schoolMul, ih (by omega), hbit, ← gfTwice_toNat, ← BitVec.toNat_xor, ← gfMul_gfTwice hprim, ← xor_gfMul hprim, hsub,
      gfTwice_of_msb_false hmsb, ← ushiftRight_eq_shiftLeft_xor_bit, Nat.add_sub_add_right 7 1 k]

/-- Settles O29: after all eight bits the schoolbook method has multiplied by the whole first factor. -/
theorem tableProductIsSchoolProduct : Obligations.TableProductIsSchoolProduct := fun _ hprim a b => by
  rw [schoolMul_eq hprim a b (Nat.le_refl 8), Nat.sub_self, BitVec.ushiftRight_zero]

/-! The commands (R406, R410 to R414). -/

section
variable {s : State}

theorem State.byteOperand_toNat {i : Nat} (h : s.operand i ≤ 255) : (s.byteOperand i).toNat = s.operand i := by
  rw [State.byteOperand, BitVec.toNat_ofNat, Nat.mod_eq_of_lt (Nat.lt_succ_of_le h)]

theorem State.byteOperand_ne_zero {i : Nat} (h : s.operand i ≤ 255) (h0 : s.operand i ≠ 0) : s.byteOperand i ≠ 0 := fun e =>
  h0 (by rw [← State.byteOperand_toNat h, e]; rfl)

theorem State.toWord_byteOperand_xor (h0 : s.operand 0 ≤ 255) (h1 : s.operand 1 ≤ 255) :
    Byte.toWord (s.byteOperand 0 ^^^ s.byteOperand 1) = BitVec.ofNat 32 (s.operand 0 ^^^ s.operand 1) := by
  have hlt : s.operand 0 ^^^ s.operand 1 < 2 ^ 32 := Nat.xor_lt_two_pow (by omega) (by omega)
  apply BitVec.eq_of_toNat_eq
  rw [Byte.toWord_toNat, BitVec.toNat_xor, State.byteOperand_toNat h0, State.byteOperand_toNat h1, BitVec.toNat_ofNat,
    Nat.mod_eq_of_lt hlt]

/-- A command goes on with a field-element operand that is in its domain. -/
theorem State.complete_fieldOperand {i : Nat} (h : s.operand i ≤ 255) (k : Byte → Except Failure State) :
    s.complete (s.fieldOperand i >>= k) = s.complete (k (s.byteOperand i)) := by
  rw [State.fieldOperand_of_le h, bind_ok, State.byteOperand]

/-- A command fails with a field-element operand that is not (R406). -/
theorem State.complete_fieldOperand_of_gt {i : Nat} (h : 255 < s.operand i) (k : Byte → Except Failure State) :
    s.complete (s.fieldOperand i >>= k) = .next (s.failed 0x02 0x03) := by
  rw [State.fieldOperand_of_gt h, bind_error, State.complete_error]
  rfl

theorem State.complete_fieldOperands_of_gt (h : 255 < s.operand 0 ∨ 255 < s.operand 1) (k : Byte → Byte → Except Failure State) :
    s.complete (s.fieldOperand 0 >>= fun a => s.fieldOperand 1 >>= k a) = .next (s.failed 0x02 0x03) := by
  by_cases h0 : 255 < s.operand 0
  · exact State.complete_fieldOperand_of_gt h0 _
  · rw [State.complete_fieldOperand (Nat.le_of_not_lt h0)]
    exact State.complete_fieldOperand_of_gt (h.resolve_left h0) _

end

/-- Settles O25: the operands are checked before any other use, and zero has neither inverse nor logarithm. -/
theorem fieldCommandsFail : Obligations.FieldCommandsFail := by
  refine fun s => ⟨fun h => ⟨State.complete_fieldOperands_of_gt h _, State.complete_fieldOperands_of_gt h _⟩,
    fun h => ⟨State.complete_fieldOperand_of_gt h _, State.complete_fieldOperand_of_gt h _, State.complete_fieldOperand_of_gt h _⟩,
    fun h => ?_⟩
  have hle : s.operand 0 ≤ 255 := by omega
  have hzero : s.byteOperand 0 = 0 := by
    rw [State.byteOperand, h]
    rfl
  constructor
  · refine (State.complete_fieldOperand hle _).trans ?_
    rw [hzero, gfInv_zero]
    rfl
  · refine (State.complete_fieldOperand hle _).trans ?_
    rw [hzero]
    rfl

/-- Settles O24: the operands pass their checks, and the inverse and the logarithm are those of the tables. -/
theorem fieldCommandsComplete : Obligations.FieldCommandsComplete := by
  intro s hprim h0
  refine ⟨fun h1 => ?_, fun h1 => ?_, fun hne => ?_, ?_, fun hne => ?_⟩
  · refine (State.complete_fieldOperand h0 _).trans ((State.complete_fieldOperand h1 _).trans ?_)
    rw [State.toWord_byteOperand_xor h0 h1]
    rfl
  · exact (State.complete_fieldOperand h0 _).trans (State.complete_fieldOperand h1 _)
  · have ha := State.byteOperand_ne_zero h0 hne
    refine ⟨gfInvNonzero s.gfPrim (s.byteOperand 0), gfMul_gfInvNonzero hprim ha, (State.complete_fieldOperand h0 _).trans ?_⟩
    rw [gfInv_of_ne ha]
    rfl
  · refine (State.complete_fieldOperand h0 _).trans ?_
    rw [State.byteOperand_toNat h0]
    rfl
  · have ha := State.byteOperand_ne_zero h0 hne
    obtain ⟨he, hlt⟩ := gfLog_spec hprim ha
    refine ⟨gfLog s.gfPrim (s.byteOperand 0), Nat.le_of_lt_succ hlt, he, (State.complete_fieldOperand h0 _).trans ?_⟩
    rw [decide_eq_true ha, check_true]
    rfl

end Sys2Proof.Machine
end

section
/-! PROOFS (42_poly.md R450 to R458, R460). Coefficients: a normal polynomial is determined by the coefficients of its powers, and each
primitive's result is given by them. Hence the laws of sums and products, and Horner's method at the fast paths' points. -/

namespace Sys2Proof.Machine

variable {prim : BitVec 9}

/-! Coefficients (R453). -/

@[simp] theorem coef_nil (d : Nat) : coef [] d = 0 := by simp [coef]

theorem coef_eq_zero {p : Poly} {d : Nat} (h : p.length ≤ d) : coef p d = 0 := by
  cases p with
  | nil => exact coef_nil d
  | cons c cs => exact if_neg (by simp only [deg, List.length_cons] at h ⊢; omega)

/-- The coefficient of a power, by the entries counted from the last. -/
theorem coef_of_lt {p : Poly} {d : Nat} (h : d < p.length) : coef p d = p.getD (p.length - 1 - d) 0 :=
  if_pos (by rw [deg]; omega)

theorem coef_cons (c : Byte) (cs : Poly) (d : Nat) : coef (c :: cs) d = if d = cs.length then c else coef cs d := by
  rcases Nat.lt_trichotomy d cs.length with h | h | h
  · obtain ⟨k, hk⟩ : ∃ k, cs.length - d = k + 1 := ⟨cs.length - d - 1, by omega⟩
    rw [if_neg h.ne, coef_of_lt h, coef_of_lt (h.trans (Nat.lt_succ_self _)), List.length_cons, Nat.add_sub_cancel, hk,
      List.getD_cons_succ, show cs.length - 1 - d = k by omega]
  · simp [coef, deg, h]
  · rw [if_neg h.ne', coef_eq_zero h.le, coef_eq_zero h]

@[simp] theorem coef_zero_cons (cs : Poly) (d : Nat) : coef (0#8 :: cs) d = coef cs d := by
  rw [coef_cons]
  split
  · next h => exact (coef_eq_zero h.ge).symm
  · rfl

theorem coef_zero (d : Nat) : coef [0] d = 0 := (coef_zero_cons [] d).trans (coef_nil d)

@[simp] theorem coef_norm (p : Poly) (d : Nat) : coef (norm p) d = coef p d := by
  induction p with
  | nil => rfl
  | cons c cs ih =>
    cases cs with
    | nil => rfl
    | cons e es =>
      by_cases h : c = 0
      · rw [h, norm_cons_zero, ih]
        exact (coef_zero_cons _ d).symm
      · rw [norm_cons_of_ne h]

@[simp] theorem coef_replicate_zero (n d : Nat) : coef (List.replicate n 0#8) d = 0 := by
  induction n with
  | zero => exact coef_nil d
  | succ n ih => rw [List.replicate_succ, coef_zero_cons, ih]

theorem coef_append_zeros (p : Poly) (n d : Nat) : coef (p ++ List.replicate n 0) d = if n ≤ d then coef p (d - n) else 0 := by
  induction p with
  | nil => simp
  | cons c cs ih =>
    rw [List.cons_append, coef_cons, ih, coef_cons, List.length_append, List.length_replicate]
    by_cases h : n ≤ d
    · simp only [if_pos h, show d = cs.length + n ↔ d - n = cs.length by omega]
    · rw [if_neg h, if_neg (by omega), if_neg h]

theorem coef_map {f : Byte → Byte} (h : f 0 = 0) (p : Poly) (d : Nat) : coef (p.map f) d = f (coef p d) := by
  induction p with
  | nil => rw [List.map_nil, coef_nil, h]
  | cons c cs ih => rw [List.map_cons, coef_cons, coef_cons, ih, List.length_map, apply_ite f]

theorem coef_lead (c : Byte) (cs : Poly) : coef (c :: cs) cs.length = c := by rw [coef_cons, if_pos rfl]

/-! A normal polynomial is determined by its coefficients (R450). -/

theorem normalPoly_zero : NormalPoly [0] := ⟨List.cons_ne_nil _ _, rfl⟩

theorem normalPoly_norm {p : Poly} (h : p ≠ []) : NormalPoly (norm p) := ⟨norm_ne_nil h, norm_norm p⟩

theorem NormalPoly.eq_zero {p : Poly} (hp : NormalPoly p) (hz : isZero p = true) : p = [0] := eq_zero_of_isZero hp.1 hp.2 hz

theorem coef_deg_ne_zero {p : Poly} (hz : isZero p = false) : coef p (deg p) ≠ 0 := isZero_eq_false_iff.mp hz

theorem eq_of_coef_of_length {p q : Poly} (hlen : p.length = q.length) (h : ∀ d, coef p d = coef q d) : p = q := by
  induction p generalizing q with
  | nil => exact (List.length_eq_zero_iff.mp hlen.symm).symm
  | cons c cs ih =>
    cases q with
    | nil => cases hlen
    | cons e es =>
      have hlen' : cs.length = es.length := Nat.succ.inj hlen
      have hhead : c = e := by rw [← coef_lead c cs, h, hlen', coef_lead]
      rw [hhead, ih hlen' fun d => ?_]
      by_cases hd : d = cs.length
      · rw [coef_eq_zero hd.ge, coef_eq_zero (hlen' ▸ hd.ge)]
      · simpa [coef_cons, ← hlen', hd] using h d

/-- Of two normal polynomials with the same coefficients the first is not the shorter: it has the second's leading coefficient. -/
theorem NormalPoly.length_le {p q : Poly} (hp : NormalPoly p) (hq : NormalPoly q) (h : ∀ d, coef p d = coef q d) :
    q.length ≤ p.length := by
  have hpos : 1 ≤ p.length := List.length_pos_iff.mpr hp.1
  cases hz : isZero q with
  | true => rwa [hq.eq_zero hz]
  | false =>
    refine Nat.le_of_not_lt fun hlt => coef_deg_ne_zero hz ?_
    rw [← h, coef_eq_zero (by rw [deg]; omega)]

theorem NormalPoly.ext {p q : Poly} (hp : NormalPoly p) (hq : NormalPoly q) (h : ∀ d, coef p d = coef q d) : p = q :=
  eq_of_coef_of_length (Nat.le_antisymm (hq.length_le hp fun d => (h d).symm) (hp.length_le hq h)) h

/-! Sums (R455). -/

theorem coef_xorAligned {a b : Poly} (hlen : a.length ≤ b.length) (d : Nat) :
    coef (xorAligned a b) d = coef a d ^^^ coef b d := by
  induction b generalizing a with
  | nil => simp [xorAligned, List.length_eq_zero_iff.mp (Nat.le_zero.mp hlen)]
  | cons y ys ih =>
    rcases Nat.lt_or_ge ys.length a.length with hlt | hle
    · cases a with
      | nil => cases hlt
      | cons x xs =>
        have hsame : xs.length = ys.length := by
          simp only [List.length_cons] at hlen hlt
          omega
        have hcons : xorAligned (x :: xs) (y :: ys) = (x ^^^ y) :: xorAligned xs ys := by simp [xorAligned, hsame]
        rw [hcons, coef_cons, xorAligned_length hsame.le, ih hsame.le, coef_cons, coef_cons, hsame]
        split <;> rfl
    · have hcons : xorAligned a (y :: ys) = y :: xorAligned a ys := by
        simp [xorAligned, Nat.succ_sub hle]
      rw [hcons, coef_cons, xorAligned_length hle, ih hle, coef_cons]
      split
      · next hd => rw [coef_eq_zero (hd ▸ hle)]; exact BitVec.zero_xor.symm
      · rfl

theorem coef_padd {a b : Poly} (ha : NormalPoly a) (hb : NormalPoly b) (d : Nat) :
    coef (padd a b) d = coef a d ^^^ coef b d := by
  unfold padd
  split
  · next hz => simp [ha.eq_zero hz]
  split
  · next hz => simp [hb.eq_zero hz]
  split
  · next hle => rw [coef_norm, coef_xorAligned hle]
  · next hle => rw [coef_norm, coef_xorAligned (by omega), BitVec.xor_comm]

theorem padd_comm {a b : Poly} (ha : NormalPoly a) (hb : NormalPoly b) : padd a b = padd b a :=
  (padd_normal ha hb).ext (padd_normal hb ha) fun d => by rw [coef_padd ha hb, coef_padd hb ha, BitVec.xor_comm]

theorem padd_assoc {a b c : Poly} (ha : NormalPoly a) (hb : NormalPoly b) (hc : NormalPoly c) :
    padd (padd a b) c = padd a (padd b c) := by
  have hab := padd_normal ha hb
  have hbc := padd_normal hb hc
  refine (padd_normal hab hc).ext (padd_normal ha hbc) fun d => ?_
  rw [coef_padd hab hc, coef_padd ha hb, coef_padd ha hbc, coef_padd hb hc, BitVec.xor_assoc]

theorem padd_self {a : Poly} (ha : NormalPoly a) : padd a a = [0] :=
  (padd_normal ha ha).ext normalPoly_zero fun d => by simp [coef_padd ha ha]

/-- Polynomials whose sum is zero are equal: a sum is a difference. -/
theorem eq_of_padd_eq_zero {a b : Poly} (ha : NormalPoly a) (hb : NormalPoly b) (h : padd a b = [0]) : a = b := by
  refine ha.ext hb fun d => ?_
  have hd := coef_padd ha hb d
  rw [h] at hd
  exact BitVec.xor_eq_zero_iff.mp (hd.symm.trans (coef_zero d))

/-- A summand that stands in both of two polynomials drops out of their sum. -/
theorem padd_padd_same {a b c : Poly} (ha : NormalPoly a) (hb : NormalPoly b) (hc : NormalPoly c) :
    padd (padd a c) (padd b c) = padd a b :=
  calc padd (padd a c) (padd b c)
      = padd a (padd c (padd c b)) := by rw [padd_assoc ha hc (padd_normal hb hc), padd_comm hb hc]
    _ = padd a (padd [0] b) := by rw [← padd_assoc hc hc hb, padd_self hc]
    _ = padd a b := rfl

/-- Sums are differences, so a summand may change sides. -/
theorem padd_eq_padd_of_padd_eq_padd {a b c d : Poly} (ha : NormalPoly a) (hb : NormalPoly b) (hc : NormalPoly c) (hd : NormalPoly d)
    (h : padd a c = padd b d) : padd a b = padd c d := by
  refine (padd_normal ha hb).ext (padd_normal hc hd) fun k => ?_
  have hk := congrArg (coef · k) h
  simp only [coef_padd ha hc, coef_padd hb hd] at hk
  rw [coef_padd ha hb, coef_padd hc hd, ← BitVec.xor_eq_zero_iff]
  calc (coef a k ^^^ coef b k) ^^^ (coef c k ^^^ coef d k)
      = (coef a k ^^^ coef c k) ^^^ (coef b k ^^^ coef d k) := by ac_rfl
    _ = 0 := BitVec.xor_eq_zero_iff.mpr hk

/-- Settles O34: coefficients are XORed, and a normal polynomial is determined by its coefficients. -/
theorem sumIsCoefficientwise : Obligations.SumIsCoefficientwise := fun _ _ ha hb =>
  ⟨padd_normal ha hb, coef_padd ha hb, padd_comm ha hb, padd_self ha, fun _ hc => padd_assoc ha hb hc⟩

/-! Sums of bytes over the numbers below a bound, by XOR (R402). -/

/-- The XOR of `f 0` to `f (n - 1)`. -/
def xorSum (n : Nat) (f : Nat → Byte) : Byte := ((List.range n).map f).foldl (· ^^^ ·) 0

theorem xorSum_succ (n : Nat) (f : Nat → Byte) : xorSum (n + 1) f = xorSum n f ^^^ f n := by
  simp [xorSum, List.range_succ, List.foldl_append]

theorem xorSum_succ_left (n : Nat) (f : Nat → Byte) : xorSum (n + 1) f = f 0 ^^^ xorSum n fun i => f (i + 1) := by
  induction n with
  | zero => exact BitVec.xor_comm _ _
  | succ n ih => rw [xorSum_succ, ih, xorSum_succ, BitVec.xor_assoc]

theorem xorSum_congr {n : Nat} {f g : Nat → Byte} (h : ∀ i, i < n → f i = g i) : xorSum n f = xorSum n g := by
  rw [xorSum, List.map_congr_left fun i hi => h i (List.mem_range.mp hi), xorSum]

theorem xorSum_xor (n : Nat) (f g : Nat → Byte) : (xorSum n fun i => f i ^^^ g i) = xorSum n f ^^^ xorSum n g := by
  induction n with
  | zero => exact BitVec.zero_xor.symm
  | succ n ih =>
    rw [xorSum_succ, xorSum_succ, xorSum_succ, ih]
    ac_rfl

/-- A sum with one term that is not zero. -/
theorem xorSum_single (n k : Nat) (f : Nat → Byte) :
    (xorSum n fun i => if i = k then f i else 0) = if k < n then f k else 0 := by
  induction n with
  | zero => rfl
  | succ n ih =>
    rw [xorSum_succ, ih]
    rcases Nat.lt_trichotomy k n with h | h | h
    · rw [if_pos h, if_neg h.ne', if_pos (by omega)]
      exact BitVec.xor_zero
    · rw [if_neg h.not_lt, if_pos h.symm, if_pos (by omega), h]
      exact BitVec.zero_xor
    · rw [if_neg (by omega), if_neg h.ne, if_neg (by omega)]
      rfl

theorem xorSum_zero (n : Nat) : (xorSum n fun _ => 0) = 0 := by
  induction n with
  | zero => rfl
  | succ n ih => rw [xorSum_succ, ih]; rfl

/-- A sum may be taken from its last term to its first. -/
theorem xorSum_reflect (d : Nat) (f : Nat → Byte) : (xorSum (d + 1) fun i => f (d - i)) = xorSum (d + 1) f := by
  induction d with
  | zero => rfl
  | succ d ih =>
    rw [xorSum_succ_left, xorSum_succ _ f, BitVec.xor_comm, ← ih, Nat.sub_zero]
    simp only [Nat.add_sub_add_right]

/-! Products (R456 to R458). -/

/-- The coefficient of power `d` in the convolution of two polynomials (R456). -/
def convCoef (prim : BitVec 9) (a b : Poly) (d : Nat) : Byte := xorSum (d + 1) fun i => gfMul prim (coef a i) (coef b (d - i))

theorem convCoef_comm (prim : BitVec 9) (a b : Poly) (d : Nat) : convCoef prim a b d = convCoef prim b a d := by
  rw [convCoef, ← xorSum_reflect]
  refine xorSum_congr fun i hi => ?_
  rw [Nat.sub_sub_self (Nat.le_of_lt_succ hi), gfMul_comm]

theorem convCoef_of_coef_zero {a : Poly} (ha : ∀ d, coef a d = 0) (b : Poly) (d : Nat) : convCoef prim a b d = 0 := by
  rw [convCoef, ← xorSum_zero (d + 1)]
  exact xorSum_congr fun i _ => by rw [ha]; exact gfMul_zero_left prim _

/-- Convolution is additive in its first factor, whose coefficients are all that it depends on. -/
theorem convCoef_of_coef_xor (hprim : prim ∈ Config.primitivePolys) {a a₁ a₂ : Poly}
    (ha : ∀ d, coef a d = coef a₁ d ^^^ coef a₂ d) (b : Poly) (d : Nat) :
    convCoef prim a b d = convCoef prim a₁ b d ^^^ convCoef prim a₂ b d := by
  simp only [convCoef, ha, xor_gfMul hprim, xorSum_xor]

/-- Convolution with a polynomial that has one coefficient only, that of power `n`. -/
theorem convCoef_of_coef_single {a : Poly} {n : Nat} {c : Byte} (ha : ∀ d, coef a d = if d = n then c else 0) (b : Poly) (d : Nat) :
    convCoef prim a b d = if n ≤ d then gfMul prim c (coef b (d - n)) else 0 := by
  simp only [← Nat.lt_succ_iff]
  rw [convCoef, ← xorSum_single (d + 1) n fun i => gfMul prim c (coef b (d - i))]
  refine xorSum_congr fun i _ => ?_
  rw [ha]
  split
  · rfl
  · exact gfMul_zero_left prim _

theorem coef_mono (n : Nat) (c : Byte) (d : Nat) : coef (mono n c) d = if d = n then c else 0 := by
  unfold mono
  split
  · next hc => rw [coef_zero, hc, ite_self]
  · rw [coef_cons, List.length_replicate]
    exact congrArg _ (coef_replicate_zero n d)

theorem coef_xorLeft {a b : Poly} (hlen : a.length ≤ b.length) (d : Nat) :
    coef (xorLeft a b) d = coef (a ++ List.replicate (b.length - a.length) 0) d ^^^ coef b d := by
  induction a generalizing b with
  | nil =>
    rw [xorLeft, List.nil_append]
    exact (congrArg (· ^^^ coef b d) (coef_replicate_zero _ d)).trans BitVec.zero_xor |>.symm
  | cons x xs ih =>
    cases b with
    | nil => cases hlen
    | cons y ys =>
      have hle : xs.length ≤ ys.length := Nat.le_of_succ_le_succ hlen
      rw [xorLeft, coef_cons, xorLeft_length, Nat.max_eq_right hle, ih hle, List.cons_append, coef_cons, coef_cons,
        List.length_append, List.length_replicate, List.length_cons, List.length_cons, Nat.add_sub_add_right,
        Nat.add_sub_cancel' hle]
      split <;> rfl

theorem coef_convolve (hprim : prim ∈ Config.primitivePolys) (a : Poly) {b : Poly} (hb : b ≠ []) (d : Nat) :
    coef (convolve prim a b) d = convCoef prim a b d := by
  induction a with
  | nil =>
    rw [convCoef_of_coef_zero coef_nil]
    exact coef_replicate_zero _ d
  | cons x xs ih =>
    have hpos := List.length_pos_iff.mpr hb
    have hlen : (0 :: convolve prim xs b).length = xs.length + b.length := by
      cases xs with
      | nil => simp [convolve, Nat.sub_add_cancel hpos]
      | cons _ _ => rw [List.length_cons, convolve_length prim (List.cons_ne_nil _ _) hb]; omega
    have hx : ∀ i, coef (x :: xs) i = coef (mono xs.length x) i ^^^ coef xs i := fun i => by
      rw [coef_cons, coef_mono]
      split
      · next hi => rw [coef_eq_zero hi.ge]; exact BitVec.xor_zero.symm
      · exact BitVec.zero_xor.symm
    have hshift : coef (b.map (gfMul prim x) ++ List.replicate xs.length 0) d = convCoef prim (mono xs.length x) b d := by
      rw [coef_append_zeros, coef_map (gfMul_zero_right prim x), convCoef_of_coef_single (coef_mono _ _)]
    rw [convCoef_of_coef_xor hprim hx, ← ih, ← hshift, convolve, coef_xorLeft (by rw [hlen]; simp), hlen, List.length_map,
      Nat.add_sub_cancel]
    exact congrArg _ (coef_zero_cons _ d)

theorem coef_pmul (hprim : prim ∈ Config.primitivePolys) {a b : Poly} (ha : NormalPoly a) (hb : NormalPoly b) (d : Nat) :
    coef (pmul prim a b) d = convCoef prim a b d := by
  unfold pmul
  split
  · next hz =>
    rw [coef_zero]
    rcases Bool.or_eq_true_iff.mp hz with hz | hz
    · rw [ha.eq_zero hz, convCoef_of_coef_zero coef_zero]
    · rw [hb.eq_zero hz, convCoef_comm, convCoef_of_coef_zero coef_zero]
  · rw [coef_norm, coef_convolve hprim a hb.1]

theorem pmul_normal (prim : BitVec 9) {a b : Poly} (ha : NormalPoly a) (hb : NormalPoly b) : NormalPoly (pmul prim a b) := by
  unfold pmul
  split
  · exact normalPoly_zero
  · have hlen := convolve_length prim ha.1 hb.1
    have hapos := List.length_pos_iff.mpr ha.1
    have hbpos := List.length_pos_iff.mpr hb.1
    exact normalPoly_norm (List.length_pos_iff.mp (by omega))

theorem pmul_comm (hprim : prim ∈ Config.primitivePolys) {a b : Poly} (ha : NormalPoly a) (hb : NormalPoly b) :
    pmul prim a b = pmul prim b a :=
  (pmul_normal prim ha hb).ext (pmul_normal prim hb ha) fun d => by
    rw [coef_pmul hprim ha hb, coef_pmul hprim hb ha, convCoef_comm]

/-- The distributive law of products. -/
theorem pmul_of_padd (hprim : prim ∈ Config.primitivePolys) {a b c : Poly} (ha : NormalPoly a) (hb : NormalPoly b) (hc : NormalPoly c) :
    pmul prim (padd a b) c = padd (pmul prim a c) (pmul prim b c) := by
  have hac := pmul_normal prim ha hc
  have hbc := pmul_normal prim hb hc
  refine (pmul_normal prim (padd_normal ha hb) hc).ext (padd_normal hac hbc) fun d => ?_
  rw [coef_pmul hprim (padd_normal ha hb) hc, convCoef_of_coef_xor hprim (coef_padd ha hb), coef_padd hac hbc, coef_pmul hprim ha hc,
    coef_pmul hprim hb hc]

/-- The product of nonzero polynomials is their convolution as it stands: its first entry is the product of their leading coefficients,
which is not zero. -/
theorem pmul_of_nonzero (hprim : prim ∈ Config.primitivePolys) {a b : Poly} (ha : isZero a = false) (hb : isZero b = false) :
    isZero (pmul prim a b) = false ∧ (pmul prim a b).length = a.length + b.length - 1 := by
  cases a with
  | nil => cases ha
  | cons x xs =>
    cases b with
    | nil => cases hb
    | cons y ys =>
      have hxy : gfMul prim x y ≠ 0 := gfMul_ne_zero hprim (of_decide_eq_false ha) (of_decide_eq_false hb)
      have hcons : convolve prim (x :: xs) (y :: ys)
          = gfMul prim x y :: xorLeft (ys.map (gfMul prim x)) (convolve prim xs (y :: ys)) :=
        congrArg (List.cons · _) BitVec.xor_zero
      have hpmul : pmul prim (x :: xs) (y :: ys) = convolve prim (x :: xs) (y :: ys) := by
        rw [pmul, ha, hb, hcons]
        exact norm_cons_of_ne hxy _
      rw [hpmul]
      refine ⟨?_, convolve_length prim (List.cons_ne_nil _ _) (List.cons_ne_nil _ _)⟩
      rw [hcons]
      exact decide_eq_false hxy

theorem deg_pmul (hprim : prim ∈ Config.primitivePolys) {a b : Poly} (ha : isZero a = false) (hb : isZero b = false) :
    deg (pmul prim a b) = deg a + deg b := by
  have hne {p : Poly} (h : isZero p = false) : 0 < p.length := List.length_pos_iff.mpr fun e => by rw [e] at h; cases h
  have hapos := hne ha
  have hbpos := hne hb
  rw [deg, (pmul_of_nonzero hprim ha hb).2, deg, deg]
  omega

theorem pscale_normal (prim : BitVec 9) {a : Poly} (ha : NormalPoly a) (c : Byte) : NormalPoly (pscale prim a c) := by
  unfold pscale
  split
  · exact normalPoly_zero
  split
  · exact ha
  · exact normalPoly_norm (by simpa using ha.1)

theorem coef_pscale (hprim : prim ∈ Config.primitivePolys) (a : Poly) (c : Byte) (d : Nat) :
    coef (pscale prim a c) d = gfMul prim (coef a d) c := by
  unfold pscale
  split
  · next hc => rw [coef_zero, hc]; exact (gfMul_zero_right prim _).symm
  split
  · next hc => rw [hc, gfMul_one hprim]
  · rw [coef_norm, coef_map (gfMul_zero_left prim c)]

theorem coef_pmulmono (prim : BitVec 9) (a : Poly) (n : Nat) (c : Byte) (d : Nat) :
    coef (pmulmono prim a n c) d = convCoef prim (mono n c) a d := by
  rw [convCoef_of_coef_single (coef_mono n c)]
  unfold pmulmono
  split
  · next hc =>
    rw [coef_zero, hc]
    split
    · exact (gfMul_zero_left prim _).symm
    · rfl
  · rw [coef_norm, coef_append_zeros, coef_map (gfMul_zero_left prim c), gfMul_comm]

theorem mono_normal (n : Nat) (c : Byte) : NormalPoly (mono n c) := by
  unfold mono
  split
  · exact normalPoly_zero
  · next hc => exact ⟨List.cons_ne_nil _ _, norm_cons_of_ne hc _⟩

theorem pmulmono_eq_pmul_mono (hprim : prim ∈ Config.primitivePolys) {a : Poly} (ha : NormalPoly a) (n : Nat) (c : Byte) :
    pmulmono prim a n c = pmul prim (mono n c) a :=
  (pmulmono_normal prim ha.1 n c).ext (pmul_normal prim (mono_normal n c) ha) fun d => by
    rw [coef_pmulmono, coef_pmul hprim (mono_normal n c) ha]

/-- Settles O35: each product's coefficients are those of the convolution with its factor, and the leading one is not zero. -/
theorem productIsConvolution : Obligations.ProductIsConvolution := fun prim hprim a _ ha hb =>
  ⟨pmul_normal prim ha hb, coef_pmul hprim ha hb, deg_pmul hprim, fun c => ⟨pscale_normal prim ha c, coef_pscale hprim a c⟩,
    rfl, rfl, fun n c => (pmulmono_eq_pmul_mono hprim ha n c).trans (pmul_comm hprim (mono_normal n c) ha)⟩

/-! Evaluation (R460). -/

theorem coef_concat (p : Poly) (c : Byte) : coef (p ++ [c]) 0 = c := by simp [coef, deg]

/-- Settles O36: Horner's method keeps only the last coefficient at 0 and XORs all of them at 1, and otherwise it starts with the first. -/
theorem evaluationIsHorner : Obligations.EvaluationIsHorner := by
  intro prim hprim p x hp
  unfold peval
  split
  · next hx =>
    obtain ⟨q, c, rfl⟩ := List.eq_nil_or_concat p |>.resolve_left hp.1
    simp [hx, coef_concat]
  split
  · next hx => simp only [hx, gfMul_one_left hprim]
  · cases p with
    | nil => exact absurd rfl hp.1
    | cons c cs => simp

end Sys2Proof.Machine
end

section
/-! PROOFS (42_poly.md R459). Division keeps the sum of quotient times divisor and remainder, and comparing degrees leaves one quotient and
one remainder only. -/

namespace Sys2Proof.Machine

variable {prim : BitVec 9}

/-- Division leaves the sum of quotient times divisor and remainder unchanged: a round adds one multiple of the divisor to both. -/
theorem divLoop_sum (hprim : prim ∈ Config.primitivePolys) {b : Poly} (hb : NormalPoly b) (inv : Byte) {fuel : Nat} {q r : Poly}
    (hq : NormalPoly q) (hr : NormalPoly r) :
    NormalPoly (divLoop prim b inv fuel q r).1
      ∧ padd (pmul prim (divLoop prim b inv fuel q r).1 b) (divLoop prim b inv fuel q r).2 = padd (pmul prim q b) r := by
  induction fuel generalizing q r with
  | zero => exact ⟨hq, rfl⟩
  | succ fuel ih =>
    rw [divLoop]
    split
    · dsimp only
      generalize deg r - deg b = n
      generalize gfMul prim (lead r) inv = c
      have hm := mono_normal n c
      have hmb := pmul_normal prim hm hb
      rw [pmulmono_eq_pmul_mono hprim hb]
      obtain ⟨hnormal, hsum⟩ := ih (padd_normal hq hm) (padd_normal hr hmb)
      exact ⟨hnormal, by rw [hsum, pmul_of_padd hprim hq hm hb, padd_padd_same (pmul_normal prim hq hb) hr hmb]⟩
    · exact ⟨hq, rfl⟩

/-- Division by a nonzero polynomial answers a quotient and a remainder. -/
theorem pdiv_isQuotientAndRemainder (hprim : prim ∈ Config.primitivePolys) {a b : Poly} (ha : NormalPoly a) (hb : NormalPoly b)
    (hz : isZero b = false) : ∃ q r, pdiv prim a b = .ok (q, r) ∧ IsQuotientAndRemainder prim a b q r := by
  have hlead : lead b ≠ 0 := isZero_eq_false_iff.mp hz
  have hinv (x : Byte) : gfMul prim (lead b) (gfMul prim x (gfInvNonzero prim (lead b))) = x := by
    rw [gfMul_comm prim x, ← gfMul_assoc hprim, gfMul_gfInvNonzero hprim hlead, gfMul_one_left hprim]
  obtain ⟨hq, hsum⟩ := divLoop_sum hprim hb (gfInvNonzero prim (lead b)) (fuel := a.length) normalPoly_zero ha
  obtain ⟨hr, hend⟩ := divLoop_remainder (q := [0]) hb.1 hinv ha (.inr (Nat.le_refl _))
  refine ⟨_, _, ?_, hq, hr, hsum.symm, hend⟩
  rw [pdiv, hz, gfInv_of_ne hlead]
  rfl

/-- A remainder has no coefficient of the divisor's degree or above. -/
theorem coef_remainder {b r : Poly} (hr : NormalPoly r) (hend : isZero r = true ∨ deg r < deg b) {d : Nat} (hd : deg b ≤ d) :
    coef r d = 0 := by
  rcases hend with hz | hlt
  · rw [hr.eq_zero hz, coef_zero]
  · exact if_neg (by omega)

/-- The coefficient that the leading terms give a product. -/
theorem coef_pmul_deg_ne_zero (hprim : prim ∈ Config.primitivePolys) {q b : Poly} (hq : isZero q = false) (hb : isZero b = false) :
    coef (pmul prim q b) (deg q + deg b) ≠ 0 := by
  rw [← deg_pmul hprim hq hb]
  exact coef_deg_ne_zero (pmul_of_nonzero hprim hq hb).1

namespace IsQuotientAndRemainder

variable {a b q r q' r' : Poly}

/-- A quotient is no longer than the dividend, which has the coefficient that the leading terms of quotient and divisor give. -/
theorem quotient_length_le (hprim : prim ∈ Config.primitivePolys) (ha : NormalPoly a) (hb : NormalPoly b) (hz : isZero b = false)
    (h : IsQuotientAndRemainder prim a b q r) : q.length ≤ a.length := by
  obtain ⟨hq, hr, hsum, hend⟩ := h
  cases hqz : isZero q with
  | true =>
    rw [hq.eq_zero hqz]
    exact List.length_pos_iff.mpr ha.1
  | false =>
    refine Nat.le_of_not_lt fun hlt => coef_pmul_deg_ne_zero hprim hqz hz ?_
    have hcoef := coef_padd (pmul_normal prim hq hb) hr (deg q + deg b)
    rw [← hsum, coef_eq_zero (by rw [deg]; omega), coef_remainder hr hend (Nat.le_add_left _ _)] at hcoef
    exact BitVec.xor_eq_zero_iff.mp hcoef.symm

theorem remainder_length_le (hb : NormalPoly b) (h : IsQuotientAndRemainder prim a b q r) : r.length ≤ b.length := by
  obtain ⟨-, hr, -, hz | hlt⟩ := h
  · rw [hr.eq_zero hz]
    exact List.length_pos_iff.mpr hb.1
  · rw [deg, deg] at hlt
    omega

/-- Two divisions of one dividend differ by a multiple of the divisor that has no coefficient of the divisor's degree or above. -/
theorem unique (hprim : prim ∈ Config.primitivePolys) (hb : NormalPoly b) (hz : isZero b = false)
    (h : IsQuotientAndRemainder prim a b q r) (h' : IsQuotientAndRemainder prim a b q' r') : q' = q ∧ r' = r := by
  obtain ⟨hq, hr, hsum, hend⟩ := h
  obtain ⟨hq', hr', hsum', hend'⟩ := h'
  have hdiff : pmul prim (padd q' q) b = padd r' r :=
    (pmul_of_padd hprim hq' hq hb).trans
      (padd_eq_padd_of_padd_eq_padd (pmul_normal prim hq' hb) (pmul_normal prim hq hb) hr' hr (hsum'.symm.trans hsum))
  have hqq : q' = q := by
    refine eq_of_padd_eq_zero hq' hq ((padd_normal hq' hq).eq_zero (Decidable.byContradiction fun hne => ?_))
    refine coef_pmul_deg_ne_zero hprim (Bool.eq_false_iff.mpr hne) hz ?_
    have hd : deg b ≤ deg (padd q' q) + deg b := Nat.le_add_left _ _
    rw [hdiff, coef_padd hr' hr, coef_remainder hr' hend' hd, coef_remainder hr hend hd, BitVec.xor_self]
    rfl
  rw [hqq, padd_self hq] at hdiff
  exact ⟨hqq, eq_of_padd_eq_zero hr' hr hdiff.symm⟩

end IsQuotientAndRemainder

end Sys2Proof.Machine
end

section
/-! PROOFS (42_poly.md R470 to R481). The polynomial commands: their operands are checked and read in order, and a result that fits is
written. -/

namespace Sys2Proof.Machine

variable {s : State}

/-! Operands and register writes (R130). -/

theorem State.polyValue_normal {r : Nat} (h : s.plenOf r ≠ 0) : NormalPoly (s.polyValue r) :=
  ⟨State.norm_coefs_ne_nil h, norm_norm _⟩

theorem State.Inv.polyValue_length (hs : s.Inv) (r : Nat) : (s.polyValue r).length ≤ 512 :=
  (s.norm_coefs_length_le r).trans (hs.plen r)

theorem State.byteOperand_eq_zero_iff {i : Nat} (h : s.operand i ≤ 255) : s.byteOperand i = 0 ↔ s.operand i = 0 :=
  ⟨fun e => Decidable.byContradiction fun hne => State.byteOperand_ne_zero h hne e, fun e => by rw [State.byteOperand, e]; rfl⟩

theorem State.complete_check {c : Bool} (h : c = true) (f : Failure) (k : Unit → Except Failure State) :
    s.complete (check c f >>= k) = s.complete (k ()) := by rw [h, check_true, bind_ok]

theorem State.complete_check_of_false {c : Bool} (h : c = false) (f : Failure) (k : Unit → Except Failure State) :
    s.complete (check c f >>= k) = .next (s.failed f.code f.sub) := by rw [h, check_false, bind_error]; rfl

/-- A command goes on with the value of a source register that is not empty. -/
theorem State.complete_poly {r : Nat} (h : s.plenOf r ≠ 0) (k : Poly → Except Failure State) :
    s.complete (s.poly r >>= k) = s.complete (k (s.polyValue r)) := by rw [State.poly_of_ne h, bind_ok, State.polyValue]

/-- A command fails with a source register that is empty (R130). -/
theorem State.complete_poly_of_empty {r : Nat} (h : s.plenOf r = 0) (k : Poly → Except Failure State) :
    s.complete (s.poly r >>= k) = .next (s.failed 0x01 0x01) := by rw [State.poly_of_empty h, bind_error]; rfl

theorem State.complete_polys {ra rb : Nat} (ha : s.plenOf ra ≠ 0) (hb : s.plenOf rb ≠ 0) (k : Poly → Poly → Except Failure State) :
    s.complete (s.poly ra >>= fun a => s.poly rb >>= k a) = s.complete (k (s.polyValue ra) (s.polyValue rb)) :=
  (State.complete_poly ha _).trans (State.complete_poly hb _)

theorem State.complete_polys_of_empty {ra rb : Nat} (h : s.plenOf ra = 0 ∨ s.plenOf rb = 0) (k : Poly → Poly → Except Failure State) :
    s.complete (s.poly ra >>= fun a => s.poly rb >>= k a) = .next (s.failed 0x01 0x01) := by
  by_cases ha : s.plenOf ra = 0
  · exact State.complete_poly_of_empty ha _
  · rw [State.complete_poly ha]
    exact State.complete_poly_of_empty (h.resolve_left ha) _

/-- A command whose computation comes down to writing a polynomial that fits completes with it (R130). -/
theorem completesWithPoly_of_setPoly {i : Instr} {r : Nat} {p : Poly} (hexec : exec i s = s.complete (s.setPoly r p))
    (hp : p.length ≤ 512) : CompletesWithPoly s i r p := by
  refine ⟨s.mem.write (coefAddr r 0) p, ?_, s.mem.read_write _ p⟩
  rw [hexec, State.setPoly_of_le hp]
  rfl

theorem State.complete_setPoly_of_gt {r : Nat} {p : Poly} (hp : 512 < p.length) :
    s.complete (s.setPoly r p) = .next (s.failed 0x05 0x02) := by rw [State.setPoly_of_gt hp]; rfl

/-! Lengths of results (R461). -/

theorem pscale_length_le (prim : BitVec 9) {a : Poly} (ha : a ≠ []) (c : Byte) : (pscale prim a c).length ≤ a.length := by
  unfold pscale
  split
  · exact List.length_pos_iff.mpr ha
  split
  · exact Nat.le_refl _
  · exact (norm_length_le _).trans_eq (List.length_map _)

theorem pmulmono_length_le (prim : BitVec 9) {a : Poly} (ha : a ≠ []) (d : Nat) (c : Byte) :
    (pmulmono prim a d c).length ≤ a.length + d := by
  have hpos := List.length_pos_iff.mpr ha
  unfold pmulmono
  split
  · rw [List.length_singleton]
    omega
  · exact (norm_length_le _).trans (by simp)

theorem pmulmono_eq_zero (prim : BitVec 9) {a : Poly} (ha : NormalPoly a) (d : Nat) {c : Byte} (h : c = 0 ∨ isZero a = true) :
    pmulmono prim a d c = [0] := by
  rcases h with hc | hz
  · exact if_pos hc
  · rw [ha.eq_zero hz, pmulmono]
    split
    · rfl
    · exact (congrArg (norm <| · :: List.replicate d 0) (gfMul_zero_left prim c)).trans (norm_zeros d)

theorem pmul_length_le_of_fits (prim : BitVec 9) {a b : Poly} (ha : a ≠ []) (hb : b ≠ [])
    (h : isZero a = true ∨ isZero b = true ∨ a.length + b.length - 1 ≤ 512) : (pmul prim a b).length ≤ 512 := by
  have hzero (hz : (isZero a || isZero b) = true) : (pmul prim a b).length ≤ 512 := by
    rw [pmul, if_pos hz]
    decide
  rcases h with hz | hz | hle
  · exact hzero (by rw [hz, Bool.true_or])
  · exact hzero (by rw [hz, Bool.or_true])
  · exact (pmul_length_le prim ha hb).trans hle

/-! The commands (R470 to R481). -/

/-- `P_MONO` with a coefficient in its domain: the capacity is checked before the list is built (R471). -/
theorem exec_pMono_of_le (rd : Nat) (hc : s.operand 1 ≤ 255) :
    exec (.pMono rd) s = s.complete (do
      check (decide (s.byteOperand 1 = 0 ∨ s.operand 0 + 1 ≤ 512)) .polyCapacity
      s.setPoly rd (mono (s.operand 0) (s.byteOperand 1))) := State.complete_fieldOperand hc _

/-- `P_MULMONO` with operands in their domain: the capacity is checked before the list is built (R477). -/
theorem exec_pMulmono_of_le (rd : Nat) {ra : Nat} (hc : s.operand 1 ≤ 255) (ha : s.plenOf ra ≠ 0) :
    exec (.pMulmono rd ra) s = s.complete (
      if s.byteOperand 1 = 0 ∨ isZero (s.polyValue ra) = true then s.setPoly rd [0]
      else do
        check (decide ((s.polyValue ra).length + s.operand 0 ≤ 512)) .polyCapacity
        s.setPoly rd (pmulmono s.gfPrim (s.polyValue ra) (s.operand 0) (s.byteOperand 1))) :=
  (State.complete_fieldOperand hc _).trans (State.complete_poly ha _)

theorem completesWithPoly_pMono (rd : Nat) (hc : s.operand 1 ≤ 255) (hd : s.operand 1 = 0 ∨ s.operand 0 < 512) :
    CompletesWithPoly s (.pMono rd) rd (mono (s.operand 0) (s.byteOperand 1)) := by
  rw [← State.byteOperand_eq_zero_iff hc] at hd
  refine completesWithPoly_of_setPoly ((exec_pMono_of_le rd hc).trans (State.complete_check (decide_eq_true hd) _ _)) ?_
  unfold mono
  split
  · decide
  · next hne =>
    rw [List.length_cons, List.length_replicate]
    exact hd.resolve_left hne

theorem completesWithPoly_pMulmono (rd : Nat) {ra : Nat} (hc : s.operand 1 ≤ 255) (ha : s.plenOf ra ≠ 0)
    (hd : s.operand 1 = 0 ∨ isZero (s.polyValue ra) = true ∨ (s.polyValue ra).length + s.operand 0 ≤ 512) :
    CompletesWithPoly s (.pMulmono rd ra) rd (pmulmono s.gfPrim (s.polyValue ra) (s.operand 0) (s.byteOperand 1)) := by
  rw [← State.byteOperand_eq_zero_iff hc, ← or_assoc] at hd
  have hexec := exec_pMulmono_of_le rd hc ha
  have hna := State.polyValue_normal ha
  by_cases hz : s.byteOperand 1 = 0 ∨ isZero (s.polyValue ra) = true
  · rw [if_pos hz] at hexec
    rw [pmulmono_eq_zero _ hna _ hz]
    exact completesWithPoly_of_setPoly hexec (by decide)
  · have hle := hd.resolve_left hz
    rw [if_neg hz, State.complete_check (decide_eq_true hle)] at hexec
    exact completesWithPoly_of_setPoly hexec ((pmulmono_length_le _ hna.1 _ _).trans hle)

/-- Settles O30: the sources are read before the destination is written, and each result fits a register. -/
theorem polyWritesComplete : Obligations.PolyWritesComplete := by
  intro s rd ra rb hs _ _ _
  have hlen := hs.polyValue_length
  refine ⟨completesWithPoly_of_setPoly rfl (by decide), fun hc hd => ?_,
    fun h => completesWithPoly_of_setPoly (State.complete_poly h _) (hlen rd), fun ha => ?_⟩
  · simp only [← State.byteOperand_eq_zero_iff hc]
    exact completesWithPoly_pMono rd hc hd
  have hna := (State.polyValue_normal ha).1
  refine ⟨completesWithPoly_of_setPoly (State.complete_poly ha _) (hlen ra), fun hc => ?_,
    fun hc hd => completesWithPoly_pMulmono rd hc ha hd, fun hb => ⟨?_, fun hd => ?_⟩⟩
  · exact completesWithPoly_of_setPoly ((State.complete_fieldOperand hc _).trans (State.complete_poly ha _))
      ((pscale_length_le _ hna _).trans (hlen ra))
  · exact completesWithPoly_of_setPoly (State.complete_polys ha hb _)
      ((padd_length_le _ _).trans (Nat.max_le.mpr ⟨hlen ra, hlen rb⟩))
  · exact completesWithPoly_of_setPoly (State.complete_polys ha hb _)
      (pmul_length_le_of_fits _ hna (State.polyValue_normal hb).1 hd)

/-- Settles O31: quotient and remainder are no longer than dividend and divisor, so both fit their registers. -/
theorem divisionCompletes : Obligations.DivisionCompletes := by
  intro s rd rc ra rb hs _ _ _ _ hne ha hb hz
  have hna := State.polyValue_normal ha
  have hnb := State.polyValue_normal hb
  obtain ⟨q, r, hdiv, hqr⟩ := pdiv_isQuotientAndRemainder hs.prim hna hnb hz
  have hq := (hqr.quotient_length_le hs.prim hna hnb hz).trans (hs.polyValue_length ra)
  have hr := (hqr.remainder_length_le hnb).trans (hs.polyValue_length rb)
  refine ⟨q, r, s.mem.write (coefAddr rd 0) q, (s.mem.write (coefAddr rd 0) q).write (coefAddr rc 0) r, ?_,
    s.mem.read_write _ q, Memory.read_write _ _ r, hqr, fun q' r' h' => hqr.unique hs.prim hnb hz h'⟩
  refine (State.complete_check (decide_eq_true hne) _ _).trans ((State.complete_polys ha hb _).trans ?_)
  rw [hdiv, bind_ok, State.setPoly_of_le hq, bind_ok, State.setPoly_of_le hr]
  rfl

theorem toWord_coef (p : Poly) (d : Nat) :
    Byte.toWord (coef p d) = if d < p.length then (p.getD (p.length - 1 - d) 0).setWidth 32 else 0 := by
  split
  · next h => rw [coef_of_lt h, Byte.toWord]
  · next h => rw [coef_eq_zero (Nat.le_of_not_lt h)]; rfl

/-- Settles O32: the source is read, and the value of each result is that of the definition. -/
theorem polyReadsComplete : Obligations.PolyReadsComplete := by
  intro s ra _ ha
  refine ⟨fun hx => (State.complete_fieldOperand hx _).trans (State.complete_poly ha _), ?_, ?_⟩
  · refine (State.complete_poly ha _).trans ?_
    rw [toWord_coef]
    rfl
  · refine (State.complete_poly ha _).trans ?_
    rw [lead_eq_headD, isZero]
    by_cases h : (s.polyValue ra).headD 0 = 0
    · rw [decide_eq_true h, if_pos h]
      rfl
    · rw [decide_eq_false h, if_neg h]
      rfl

/-- Settles O33: each operand is checked before the next, and a result is longer than a register only when neither factor is zero. -/
theorem polyCommandsFail : Obligations.PolyCommandsFail := by
  intro s rd rc ra rb hs _ _ _ _
  refine ⟨fun hc => ⟨State.complete_fieldOperand_of_gt hc _, State.complete_fieldOperand_of_gt hc _⟩,
    fun hx => ⟨State.complete_fieldOperand_of_gt hx _, State.complete_fieldOperand_of_gt hx _⟩, fun hc hne hd => ?_,
    State.complete_check_of_false (by simp) _ _, fun ha => ⟨State.complete_poly_of_empty ha _, State.complete_poly_of_empty ha _,
      State.complete_poly_of_empty ha _, State.complete_poly_of_empty ha _, fun hx => ⟨?_, ?_⟩, fun hc => ?_⟩,
    fun h => ⟨State.complete_polys_of_empty h _, State.complete_polys_of_empty h _, fun hne => ?_⟩,
    fun ha hb => ⟨fun hne hz => ?_, fun hza => ⟨fun hzb hlen => ?_, fun hc hne hlen => ?_⟩⟩⟩
  · refine (exec_pMono_of_le rd hc).trans (State.complete_check_of_false (decide_eq_false ?_) _ _)
    rw [State.byteOperand_eq_zero_iff hc]
    omega
  · exact (State.complete_fieldOperand hx _).trans (State.complete_poly_of_empty ha _)
  · exact (State.complete_fieldOperand hx _).trans (State.complete_poly_of_empty ha _)
  · exact (State.complete_fieldOperand hc _).trans (State.complete_poly_of_empty ha _)
  · exact (State.complete_check (decide_eq_true hne) _ _).trans (State.complete_polys_of_empty h _)
  · refine (State.complete_check (decide_eq_true hne) _ _).trans ((State.complete_polys ha hb _).trans ?_)
    rw [pdiv, hz]
    rfl
  · refine (State.complete_polys ha hb _).trans (State.complete_setPoly_of_gt ?_)
    rwa [(pmul_of_nonzero hs.prim hza hzb).2]
  · refine (exec_pMulmono_of_le rd hc ha).trans ?_
    rw [if_neg (not_or.mpr ⟨State.byteOperand_ne_zero hc hne, Bool.eq_false_iff.mp hza⟩)]
    exact State.complete_check_of_false (decide_eq_false (Nat.not_le.mpr hlen)) _ _

end Sys2Proof.Machine
end

section
/-! PROOFS (43_rs.md R507 to R509, R520 to R527). The operands of the Reed-Solomon commands, and the commands that work on the error lists:
Chien search, Forney's magnitudes and the correction. -/

namespace Sys2Proof.Machine

variable {prim : BitVec 9} {s : State}

/-! Operands (R520 to R527). -/

theorem State.complete_check_check {c d : Bool} (hc : c = true) (hd : d = true) (f g : Failure)
    (k : Unit → Unit → Except Failure State) : s.complete (check c f >>= fun a => check d g >>= k a) = s.complete (k () ()) :=
  (State.complete_check hc _ _).trans (State.complete_check hd _ _)

/-- Settles O45: each command checks its operands in turn and fails at the first that is out of range. -/
theorem reedSolomonOperandsFail : Obligations.ReedSolomonOperandsFail := by
  intro s rd rc ra _ _ _
  refine ⟨fun he => State.complete_check_of_false (decide_eq_false (Nat.not_le.mpr he)) _ _, fun hn => ?_,
    fun hn => ⟨fun he => ?_, fun he hne => ?_⟩, fun h0 => ?_, fun h1 hn he => ?_, State.complete_check_of_false (by simp) _ _,
    fun hne => ⟨fun h0 => ?_, fun hR => ?_, fun h0 hR ha => ?_⟩,
    fun ha => ⟨State.complete_poly_of_empty ha _, State.complete_poly_of_empty ha _⟩⟩
  · have hlong : decide (s.operand 0 ≤ 256) = false := decide_eq_false (Nat.not_le.mpr hn)
    exact ⟨State.complete_check_of_false hlong _ _, State.complete_check_of_false hlong _ _, State.complete_check_of_false hlong _ _,
      State.complete_check_of_false hlong _ _⟩
  · exact (State.complete_check (decide_eq_true hn) _ _).trans (State.complete_check_of_false (by simp [he]) _ _)
  · exact (State.complete_check_check (decide_eq_true hn) (decide_eq_true he) _ _ _).trans
      (State.complete_check_of_false (decide_eq_false (Nat.not_lt.mpr hne)) _ _)
  · have hn : decide (s.operand 0 ≤ 256) = true := decide_eq_true (by omega)
    have hempty : decide (1 ≤ s.operand 0) = false := decide_eq_false (by omega)
    exact ⟨(State.complete_check hn _ _).trans (State.complete_check_of_false hempty _ _),
      (State.complete_check hn _ _).trans (State.complete_check_of_false hempty _ _),
      (State.complete_check hn _ _).trans (State.complete_check_of_false hempty _ _)⟩
  · have hlarge : decide (s.operand 1 ≤ 255) = false := decide_eq_false (Nat.not_le.mpr he)
    exact ⟨(State.complete_check_check (decide_eq_true hn) (decide_eq_true h1) _ _ _).trans (State.complete_check_of_false hlarge _ _),
      (State.complete_check_check (decide_eq_true hn) (decide_eq_true h1) _ _ _).trans (State.complete_check_of_false hlarge _ _)⟩
  · exact (State.complete_check (decide_eq_true hne) _ _).trans (State.complete_check_of_false (by simp [h0]) _ _)
  · exact (State.complete_check_check (decide_eq_true hne) (decide_eq_true (by omega)) _ _ _).trans
      (State.complete_check_of_false (decide_eq_false (Nat.not_le.mpr hR)) _ _)
  · exact (State.complete_check_check (decide_eq_true hne) (decide_eq_true h0) _ _ _).trans
      ((State.complete_check (decide_eq_true hR) _ _).trans (State.complete_poly_of_empty ha _))

/-! Chien search (R507, R524). -/

/-- The search finds the nonzero roots. -/
theorem mem_chienRoots {sigma : Poly} {x : Byte} : x ∈ chienRoots prim sigma ↔ x ≠ 0 ∧ peval prim sigma x = 0 := by
  have hx : x ∈ (List.range 255).map (fun i => BitVec.ofNat 8 (i + 1)) ↔ x ≠ 0 := by
    rw [List.mem_map]
    constructor
    · rintro ⟨i, hi, rfl⟩ h0
      have hval := (BitVec.toNat_ofNat (i + 1) 8).symm.trans (congrArg BitVec.toNat h0)
      have hlt := List.mem_range.mp hi
      have hzero : (0 : Byte).toNat = 0 := rfl
      omega
    · intro h0
      have hpos : x.toNat ≠ 0 := fun e => h0 (BitVec.eq_of_toNat_eq e)
      have hlt := x.isLt
      exact ⟨x.toNat - 1, List.mem_range.mpr (by omega), BitVec.eq_of_toNat_eq (by rw [BitVec.toNat_ofNat]; omega)⟩
  rw [chienRoots, List.mem_filter, hx, decide_eq_true_eq]

/-- The inverses of the roots, in the order of the roots. -/
def chienLocators (prim : BitVec 9) (sigma : Poly) : List Byte := (chienRoots prim sigma).map (gfInvNonzero prim)

theorem chienLocators_length (prim : BitVec 9) (sigma : Poly) : (chienLocators prim sigma).length = (chienRoots prim sigma).length :=
  List.length_map _

theorem chien_eq_ok {sigma : Poly} (h : (chienRoots prim sigma).length = deg sigma) :
    chien prim sigma = .ok (chienLocators prim sigma) := if_pos (by rw [List.length_map, h])

theorem chien_eq_error {sigma : Poly} (h : (chienRoots prim sigma).length ≠ deg sigma) : chien prim sigma = .error .rootCount :=
  if_neg (by rwa [List.length_map])

/-- `RS_CHIEN` with a polynomial in its source. -/
theorem exec_rsChien {ra : Nat} (ha : s.plenOf ra ≠ 0) :
    exec (.rsChien ra) s = s.complete (do
      let l ← chien s.gfPrim (s.polyValue ra)
      return ((s.setLocs l).setLocCnt l.length).setResult 0 (Word.ofNat l.length)) := State.complete_poly ha _

theorem exec_rsChien_of_ok {ra : Nat} {l : List Byte} (ha : s.plenOf ra ≠ 0) (hl : chien s.gfPrim (s.polyValue ra) = .ok l) :
    exec (.rsChien ra) s = .next (State.succeed { s with
      locCnt := l.length
      result := s.result.setIfInBounds 0 (BitVec.ofNat 32 l.length)
      mem := s.mem.writeEvery4 (locAddr 0) l }) := by
  rw [exec_rsChien ha, hl]
  rfl

/-- Settles O41: the list that the command stores is that of the inverses of the roots found. -/
theorem chienSearchCompletes : Obligations.ChienSearchCompletes := by
  intro s ra hs _ ha
  refine ⟨fun hlen => ?_, fun hlen => ?_⟩
  · refine ⟨chienLocators s.gfPrim (s.polyValue ra), _, chienLocators_length _ _, fun k hk => ?_,
      exec_rsChien_of_ok ha (chien_eq_ok hlen), s.mem.read_writeEvery4 _ _⟩
    rw [chienLocators_length] at hk
    have hroot := mem_chienRoots.mp (List.getElem_mem hk)
    rw [chienLocators, List.getD_eq_getElem _ _ (by rwa [List.length_map]), List.getElem_map, gfMul_comm]
    refine (congrArg (gfMul s.gfPrim · _) (List.getD_eq_getElem _ _ hk)).trans ?_
    exact gfMul_gfInvNonzero hs.prim hroot.1
  · rw [exec_rsChien ha, chien_eq_error hlen]
    rfl

/-! Computations over a list, one entry after the other. -/

theorem mapM_eq_ok {α β : Type} {f : α → Except Failure β} {g : α → β} {l : List α} (h : ∀ a ∈ l, f a = .ok (g a)) :
    l.mapM f = .ok (l.map g) := by
  induction l with
  | nil => rfl
  | cons a l ih =>
    rw [List.mapM_cons, h a List.mem_cons_self, bind_ok, ih fun b hb => h b (List.mem_cons_of_mem a hb)]
    rfl

/-- When no entry fails in another way and one does fail, so does the whole. -/
theorem mapM_eq_error {α β : Type} {f : α → Except Failure β} {e : Failure} {l : List α} (hf : ∀ a g, f a = .error g → g = e)
    (h : ∃ a ∈ l, f a = .error e) : l.mapM f = .error e := by
  induction l with
  | nil =>
    obtain ⟨a, ha, -⟩ := h
    exact absurd ha List.not_mem_nil
  | cons a l ih =>
    rw [List.mapM_cons]
    cases ha : f a with
    | error g => rw [hf a g ha, bind_error]
    | ok b =>
      obtain ⟨c, hc, he⟩ := h
      have hl : c ∈ l := (List.mem_cons.mp hc).resolve_left fun hca => by
        rw [hca, ha] at he
        cases he
      rw [bind_ok, ih ⟨c, hl, he⟩, bind_error]

/-! Forney's magnitudes (R508, R525). -/

theorem gfMul_eq_zero (hprim : prim ∈ Config.primitivePolys) {a b : Byte} : gfMul prim a b = 0 ↔ a = 0 ∨ b = 0 := by
  refine ⟨fun h => ?_, fun h => if_pos h⟩
  by_contra hne
  exact gfMul_ne_zero hprim (not_or.mp hne).1 (not_or.mp hne).2 h

theorem gfMul_gfInvNonzero_eq_one_iff (hprim : prim ∈ Config.primitivePolys) {a b : Byte} (hb : b ≠ 0) :
    gfMul prim a (gfInvNonzero prim b) = 1 ↔ a = b := by
  refine ⟨fun h => ?_, fun h => h ▸ gfMul_gfInvNonzero hprim (h ▸ hb)⟩
  calc a = gfMul prim (gfMul prim a (gfInvNonzero prim b)) b := by
        rw [gfMul_assoc hprim, gfMul_comm prim _ b, gfMul_gfInvNonzero hprim hb, gfMul_one hprim]
    _ = b := by rw [h, gfMul_one_left hprim]

/-- The denominator is zero when another locator is the inverse of `xi`. -/
theorem forneyDen_eq_zero_iff (hprim : prim ∈ Config.primitivePolys) (xi : Byte) (others : List Byte) :
    forneyDen prim xi others = 0 ↔ ∃ l ∈ others, gfMul prim l xi = 1 := by
  have key (d : Byte) : others.foldl (fun den l => gfMul prim den (gfMul prim l xi ^^^ 1)) d = 0
      ↔ d = 0 ∨ ∃ l ∈ others, gfMul prim l xi = 1 := by
    induction others generalizing d with
    | nil => simp
    | cons l others ih =>
      have hfactor : gfMul prim l xi ^^^ 1 = 0 ↔ gfMul prim l xi = 1 := BitVec.xor_eq_zero_iff
      rw [List.foldl_cons, ih, gfMul_eq_zero hprim, hfactor, or_assoc, List.exists_mem_cons_iff]
  exact (key 1).trans (or_iff_right (by decide))

/-- The magnitude of Forney's formula at locator number `i`, for locators that are nonzero and distinct (R508). -/
def forneyValue (prim : BitVec 9) (base : Nat) (omega : Poly) (locators : List Byte) (i : Nat) : Byte :=
  let xi := gfInvNonzero prim (locators.getD i 0)
  let m := gfMul prim (peval prim omega xi) (gfInvNonzero prim (forneyDen prim xi (locators.eraseIdx i)))
  if base ≠ 0 then gfMul prim m xi else m

section
variable {base : Nat} {omega : Poly} {locators : List Byte}

/-- One magnitude: the formula's, unless the locator is zero or stands in the list again. -/
theorem forneyAt_eq (hprim : prim ∈ Config.primitivePolys) (i : Nat) :
    forneyAt prim base omega locators i =
      if locators.getD i 0 = 0 ∨ locators.getD i 0 ∈ locators.eraseIdx i then .error .inverseZero
      else .ok (forneyValue prim base omega locators i) := by
  rw [forneyAt]
  by_cases h0 : locators.getD i 0 = 0
  · rw [if_pos (.inl h0), h0, gfInv_zero, bind_error]
  · rw [gfInv_of_ne h0, bind_ok]
    have hden : forneyDen prim (gfInvNonzero prim (locators.getD i 0)) (locators.eraseIdx i) = 0
        ↔ locators.getD i 0 ∈ locators.eraseIdx i := by
      simp only [forneyDen_eq_zero_iff hprim, gfMul_gfInvNonzero_eq_one_iff hprim h0, exists_eq_right]
    by_cases hd : locators.getD i 0 ∈ locators.eraseIdx i
    · rw [if_pos (.inr hd), hden.mpr hd, gfInv_zero, bind_error]
    · rw [if_neg (not_or.mpr ⟨h0, hd⟩), gfInv_of_ne fun e => hd (hden.mp e), bind_ok]
      rfl

theorem forneyAt_eq_ok (hprim : prim ∈ Config.primitivePolys) (h0 : 0 ∉ locators) (hnodup : locators.Nodup) {i : Nat}
    (hi : i < locators.length) : forneyAt prim base omega locators i = .ok (forneyValue prim base omega locators i) := by
  rw [forneyAt_eq hprim, List.getD_eq_getElem _ _ hi, if_neg]
  rintro (h | h)
  · exact h0 (h ▸ List.getElem_mem hi)
  · obtain ⟨j, hj, hne, he⟩ := List.mem_eraseIdx_iff_getElem.mp h
    exact hne (hnodup.getElem_inj_iff.mp he)

/-- Nonzero distinct locators have magnitudes. -/
theorem forney_eq_ok (hprim : prim ∈ Config.primitivePolys) (h0 : 0 ∉ locators) (hnodup : locators.Nodup) :
    forney prim base omega locators = .ok ((List.range locators.length).map (forneyValue prim base omega locators)) :=
  mapM_eq_ok fun _ hi => forneyAt_eq_ok hprim h0 hnodup (List.mem_range.mp hi)

/-- A zero or a repeated locator has none. -/
theorem forney_eq_error (hprim : prim ∈ Config.primitivePolys) (h : 0 ∈ locators ∨ ¬ locators.Nodup) :
    forney prim base omega locators = .error .inverseZero := by
  refine mapM_eq_error (fun i f hf => ?_) ?_
  · rw [forneyAt_eq hprim] at hf
    split at hf
    · exact (Except.error.inj hf).symm
    · cases hf
  · rcases h with h | h
    · obtain ⟨i, hi, he⟩ := List.getElem_of_mem h
      refine ⟨i, List.mem_range.mpr hi, ?_⟩
      rw [forneyAt_eq hprim, if_pos (.inl ((List.getD_eq_getElem _ _ hi).trans he))]
    · rw [List.Nodup, List.pairwise_iff_getElem] at h
      push Not at h
      obtain ⟨i, j, hi, hj, hij, he⟩ := h
      refine ⟨i, List.mem_range.mpr hi, ?_⟩
      rw [forneyAt_eq hprim, List.getD_eq_getElem _ _ hi,
        if_pos (.inr (List.mem_eraseIdx_iff_getElem.mpr ⟨j, hj, hij.ne', he.symm⟩))]

end

theorem State.locs_nodup_iff : s.locs.Nodup ↔ ∀ j k, j < k → k < s.locCnt → s.mem.read (locAddr j) ≠ s.mem.read (locAddr k) := by
  rw [State.locs, List.Nodup, List.pairwise_map, List.pairwise_iff_getElem]
  simp only [List.length_range, List.getElem_range]
  exact ⟨fun h j k hjk hk => h j k (hjk.trans hk) hk hjk, fun h j k _ hk hjk => h j k hjk hk⟩

theorem State.zero_mem_locs_iff : 0 ∈ s.locs ↔ ∃ k, k < s.locCnt ∧ s.mem.read (locAddr k) = 0 := by
  simp [State.locs]

@[simp] theorem State.locs_length : s.locs.length = s.locCnt := by simp [State.locs]

/-- `RS_FORNEY` with a polynomial in its source. -/
theorem exec_rsForney {ra : Nat} (ha : s.plenOf ra ≠ 0) :
    exec (.rsForney ra) s = s.complete (do
      let l ← forney s.gfPrim s.base (s.polyValue ra) s.locs
      return (s.setMags l).setResult 0 (Word.ofNat s.locCnt)) := State.complete_poly ha _

/-- Settles O42: the locators are the bytes of `LOC`, and their magnitudes are stored as a list. -/
theorem forneyCompletes : Obligations.ForneyCompletes := by
  intro s ra hs _ ha
  refine ⟨fun ⟨h0, hdist⟩ => ?_, fun h => ?_⟩
  · have hnz : 0 ∉ s.locs := fun h => by
      obtain ⟨k, hk, he⟩ := State.zero_mem_locs_iff.mp h
      exact h0 k hk he
    have hnodup : s.locs.Nodup := State.locs_nodup_iff.mpr hdist
    refine ⟨(List.range s.locCnt).map (forneyValue s.gfPrim s.base (s.polyValue ra) s.locs), _, by simp, fun k hk => ?_, ?_,
      s.mem.read_writeEvery4 _ _⟩
    · rw [forneyAt_eq_ok hs.prim hnz hnodup (by rwa [State.locs_length]), List.getD_eq_getElem _ _ (by simpa using hk)]
      simp
    · rw [exec_rsForney ha, forney_eq_ok hs.prim hnz hnodup, State.locs_length]
      rfl
  · have hbad : 0 ∈ s.locs ∨ ¬ s.locs.Nodup := h.imp State.zero_mem_locs_iff.mpr fun ⟨j, k, hjk, hk, he⟩ hnodup =>
      State.locs_nodup_iff.mp hnodup j k hjk hk he
    rw [exec_rsForney ha, forney_eq_error hs.prim hbad]
    rfl

/-! Correction (R509, R526). -/

/-- The codeword at position `p` of a block of `n`, with the magnitudes of that position added in list order (R509). -/
def correctedAt (prim : BitVec 9) (n : Nat) (errors : List (Byte × Byte)) (p : Nat) (c : Byte) : Byte :=
  errors.foldl (fun x e => if gfLog prim e.1 + p + 1 = n then x ^^^ e.2 else x) c

/-- Locators that are nonzero and whose positions lie in the block are all corrected. -/
theorem rsCorrect_eq_ok {n : Nat} {errors : List (Byte × Byte)} {block : List Byte}
    (h : ∀ e ∈ errors, e.1 ≠ 0 ∧ gfLog prim e.1 < n) (hlen : block.length = n) :
    rsCorrect prim n errors block = .ok ((List.range n).map fun p => correctedAt prim n errors p (block.getD p 0)) := by
  induction errors generalizing block with
  | nil =>
    refine congrArg Except.ok (List.ext_getElem (by simp [hlen]) fun p h1 _ => ?_)
    simp [correctedAt, h1]
  | cons e rest ih =>
    obtain ⟨hl, hlt⟩ := h e List.mem_cons_self
    rw [rsCorrect, if_neg hl, if_neg (by omega), ih (fun e he => h e (List.mem_cons_of_mem _ he)) (by rw [List.length_modify, hlen])]
    refine congrArg Except.ok (List.map_congr_left fun p hp => ?_)
    have hp : p < block.length := hlen ▸ List.mem_range.mp hp
    rw [correctedAt, correctedAt, List.foldl_cons, List.getD_eq_getElem _ _ (by rwa [List.length_modify]), List.getElem_modify,
      List.getD_eq_getElem _ _ hp]
    congr 1
    exact if_congr (by omega) rfl rfl

/-- The first locator that is zero or whose position lies outside the block decides the failure. -/
theorem rsCorrect_eq_error {n k : Nat} {errors : List (Byte × Byte)} {block : List Byte} {l m : Byte} (hk : errors[k]? = some (l, m))
    (hgood : ∀ j, j < k → ∀ e, errors[j]? = some e → e.1 ≠ 0 ∧ gfLog prim e.1 < n) :
    (l = 0 → rsCorrect prim n errors block = .error .logZero)
      ∧ (l ≠ 0 → n ≤ gfLog prim l → rsCorrect prim n errors block = .error .badLocation) := by
  induction k generalizing errors block with
  | zero =>
    cases errors with
    | nil => cases hk
    | cons e rest =>
      obtain rfl := Option.some.inj hk
      exact ⟨fun h0 => if_pos h0, fun h0 hn => by rw [rsCorrect, if_neg h0, if_pos (by omega)]⟩
  | succ k ih =>
    cases errors with
    | nil => cases hk
    | cons e rest =>
      obtain ⟨hl, hlt⟩ := hgood 0 (Nat.succ_pos k) e rfl
      rw [rsCorrect, if_neg hl, if_neg (by omega)]
      exact ih hk fun j hj e he => hgood (j + 1) (Nat.succ_lt_succ hj) e he

/-- The error list of `LOC` and `MAG` (10_state.md R180). -/
theorem State.locs_zip_mags : s.locs.zip s.mags = (List.range s.locCnt).map fun k => (s.mem.read (locAddr k), s.mem.read (magAddr k)) :=
  List.zip_map' ..

theorem State.cw_getD {n p : Nat} (hp : p < n) : (s.cw n).getD p 0 = s.mem.read (0x0400 + p) := s.mem.readBytes_getD _ _ _ hp

@[simp] theorem State.cw_length (s : State) (n : Nat) : (s.cw n).length = n := s.mem.readBytes_length _ n

/-- The corrected codeword, by the bytes of `CW`, `LOC` and `MAG`. -/
theorem State.correctedAt_eq_foldl (s : State) {n p : Nat} (hp : p < n) :
    correctedAt s.gfPrim n (s.locs.zip s.mags) p ((s.cw n).getD p 0)
      = ((List.range s.locCnt).filter fun k => decide (gfLog s.gfPrim (s.mem.read (0x0800 + 4 * k)) + p + 1 = n)).foldl
          (fun x k => x ^^^ s.mem.read (0x0C00 + 4 * k)) (s.mem.read (0x0400 + p)) := by
  rw [correctedAt, State.locs_zip_mags, List.foldl_map, List.foldl_filter, State.cw_getD hp]
  simp only [decide_eq_true_eq]
  rfl

/-- `RS_CORR` on a block length in range. -/
theorem exec_rsCorr (h1 : 1 ≤ s.operand 0) (hn : s.operand 0 ≤ 256) :
    exec .rsCorr s = s.complete (do
      let block ← rsCorrect s.gfPrim (s.operand 0) (s.locs.zip s.mags) (s.cw (s.operand 0))
      return s.setCw 0 block) :=
  State.complete_check_check (decide_eq_true hn) (decide_eq_true h1) _ _ _

/-- Settles O43: the corrections are added in list order, and the first bad locator ends them. -/
theorem correctionCompletes : Obligations.CorrectionCompletes := by
  intro s hs h1 hn
  have hexec := exec_rsCorr h1 hn
  refine ⟨fun hgood => ?_, fun k hk hgood => ?_⟩
  · have hall : ∀ e ∈ s.locs.zip s.mags, e.1 ≠ 0 ∧ gfLog s.gfPrim e.1 < s.operand 0 := by
      simp only [State.locs_zip_mags, List.mem_map, List.mem_range]
      rintro _ ⟨k, hk, rfl⟩
      exact hgood k hk
    rw [rsCorrect_eq_ok hall (State.cw_length _ _), bind_ok] at hexec
    refine ⟨_, hexec, ?_⟩
    rw [← List.map_congr_left fun p hp => State.correctedAt_eq_foldl _ (List.mem_range.mp hp)]
    exact s.mem.read_write (cwAddr 0) _
  · have hlist : (s.locs.zip s.mags)[k]? = some (s.mem.read (locAddr k), s.mem.read (magAddr k)) := by
      simp [State.locs_zip_mags, hk]
    obtain ⟨hzero, hbad⟩ := rsCorrect_eq_error (prim := s.gfPrim) (n := s.operand 0) (block := s.cw (s.operand 0)) hlist
      fun j hj e he => by
        obtain rfl : (s.mem.read (locAddr j), s.mem.read (magAddr j)) = e := by
          simpa [State.locs_zip_mags, hj.trans hk] using he
        exact hgood j hj
    exact ⟨fun h0 => hexec.trans (by rw [hzero h0]; rfl), fun h0 hlog => hexec.trans (by rw [hbad h0 hlog]; rfl)⟩

end Sys2Proof.Machine
end

section
/-! PROOFS (41_gf.md R402 to R405, 42_poly.md R450 to R460). Bytes as elements of a field and coefficient lists as polynomials over
it, so that the algebra of Reed-Solomon codes is that of Mathlib's polynomials. -/

namespace Sys2Proof.Machine

open Polynomial

/-! The field. -/

/-- A view of the bytes, under `GF_PRIM`, as elements of a field (R402 to R405). -/
structure FieldView (prim : BitVec 9) (K : Type) [Field K] where
  elem : Byte → K
  injective : Function.Injective elem
  one : elem 1 = 1
  xor : ∀ a b, elem (a ^^^ b) = elem a + elem b
  mul : ∀ a b, elem (gfMul prim a b) = elem a * elem b

/-- The bytes as a type of its own, whose sum and product are those of the field. -/
structure FieldByte (prim : BitVec 9) where
  byte : Byte

theorem zero_ne_one_byte : (0 : Byte) ≠ 1 := by decide

/-- The field of a legal `GF_PRIM`. -/
@[reducible] noncomputable def fieldOfBytes {prim : BitVec 9} (hprim : prim ∈ Config.primitivePolys) : Field (FieldByte prim) :=
  letI : Add (FieldByte prim) := ⟨fun a b => ⟨a.byte ^^^ b.byte⟩⟩
  letI : Mul (FieldByte prim) := ⟨fun a b => ⟨gfMul prim a.byte b.byte⟩⟩
  letI : Neg (FieldByte prim) := ⟨id⟩
  letI : Inv (FieldByte prim) := ⟨fun a => ⟨if a.byte = 0 then 0 else gfInvNonzero prim a.byte⟩⟩
  letI : Zero (FieldByte prim) := ⟨⟨0⟩⟩
  letI : One (FieldByte prim) := ⟨⟨1⟩⟩
  Field.ofMinimalAxioms (FieldByte prim)
    (fun _ _ _ => congrArg FieldByte.mk (BitVec.xor_assoc ..))
    (fun _ => congrArg FieldByte.mk BitVec.zero_xor)
    (fun _ => congrArg FieldByte.mk BitVec.xor_self)
    (fun _ _ _ => congrArg FieldByte.mk (gfMul_assoc hprim ..))
    (fun _ _ => congrArg FieldByte.mk (gfMul_comm ..))
    (fun _ => congrArg FieldByte.mk (gfMul_one_left hprim _))
    (fun a ha => congrArg FieldByte.mk (by
      have hne : a.byte ≠ 0 := fun e => ha (congrArg FieldByte.mk e)
      exact (congrArg (gfMul prim a.byte) (if_neg hne)).trans (gfMul_gfInvNonzero hprim hne)))
    (congrArg FieldByte.mk (if_pos rfl))
    (fun _ _ _ => congrArg FieldByte.mk (gfMul_xor hprim ..))
    ⟨⟨0⟩, ⟨1⟩, fun h => zero_ne_one_byte (congrArg FieldByte.byte h)⟩

/-- The bytes under a legal `GF_PRIM` can be viewed as a field. -/
theorem exists_fieldView {prim : BitVec 9} (hprim : prim ∈ Config.primitivePolys) :
    ∃ (K : Type) (_ : Field K), Nonempty (FieldView prim K) :=
  letI := fieldOfBytes hprim
  ⟨FieldByte prim, inferInstance, ⟨⟨FieldByte.mk, fun _ _ => congrArg FieldByte.byte, rfl, fun _ _ => rfl, fun _ _ => rfl⟩⟩⟩

namespace FieldView

variable {prim : BitVec 9} {K : Type} [Field K] (φ : FieldView prim K)

theorem zero : φ.elem 0 = 0 := left_eq_add.mp (φ.xor 0 0)

/-! The literals as `simp` writes them. -/

@[simp] theorem elem_zero : φ.elem 0#8 = 0 := φ.zero
@[simp] theorem elem_one : φ.elem 1#8 = 1 := φ.one

theorem eq_zero_iff {a : Byte} : φ.elem a = 0 ↔ a = 0 := φ.zero ▸ φ.injective.eq_iff

include φ in
/-- A sum is a difference. -/
theorem charTwo : CharP K 2 := by
  refine CharTwo.of_one_ne_zero_of_two_eq_zero one_ne_zero ?_
  calc (2 : K) = φ.elem 1 + φ.elem 1 := by rw [φ.one, one_add_one_eq_two]
    _ = φ.elem (1 ^^^ 1) := (φ.xor 1 1).symm
    _ = 0 := φ.zero

theorem inv (hprim : prim ∈ Config.primitivePolys) {a : Byte} (ha : a ≠ 0) : φ.elem (gfInvNonzero prim a) = (φ.elem a)⁻¹ := by
  refine eq_inv_of_mul_eq_one_right ?_
  rw [← φ.mul, gfMul_gfInvNonzero hprim ha, φ.one]

theorem exp (hprim : prim ∈ Config.primitivePolys) (i : Nat) : φ.elem (gfExp prim i) = φ.elem (gfExp prim 1) ^ i := by
  induction i with
  | zero => rw [gfExp_zero, φ.one, pow_zero]
  | succ i ih => rw [← gfMul_gfExp hprim, φ.mul, ih, pow_succ]

theorem xorSum (n : Nat) (f : Nat → Byte) : φ.elem (xorSum n f) = ∑ i ∈ Finset.range n, φ.elem (f i) := by
  induction n with
  | zero => exact φ.zero
  | succ n ih => rw [xorSum_succ, φ.xor, ih, Finset.sum_range_succ]

/-! Polynomials. -/

/-- The polynomial of a list of coefficients, that of the highest power first. -/
noncomputable def poly : Poly → K[X]
  | [] => 0
  | c :: cs => C (φ.elem c) * X ^ cs.length + poly cs

theorem poly_cons (c : Byte) (cs : Poly) : φ.poly (c :: cs) = C (φ.elem c) * X ^ cs.length + φ.poly cs := rfl

/-- The coefficients are those of the list. -/
theorem coeff_poly (p : Poly) (d : Nat) : (φ.poly p).coeff d = φ.elem (coef p d) := by
  induction p with
  | nil => rw [coef_nil]; exact φ.zero.symm
  | cons c cs ih =>
    rw [poly_cons, coeff_add, coeff_C_mul_X_pow, ih, coef_cons]
    split
    · next h => rw [coef_eq_zero h.ge]; exact (congrArg _ φ.zero).trans (add_zero _)
    · exact zero_add _

theorem poly_ext {p : Poly} {f : K[X]} (h : ∀ d, φ.elem (coef p d) = f.coeff d) : φ.poly p = f :=
  Polynomial.ext fun d => (φ.coeff_poly p d).trans (h d)

/-- Normal lists of the same polynomial are equal. -/
theorem eq_of_poly_eq {p q : Poly} (hp : NormalPoly p) (hq : NormalPoly q) (h : φ.poly p = φ.poly q) : p = q :=
  hp.ext hq fun d => φ.injective (by rw [← coeff_poly, h, coeff_poly])

theorem poly_norm (p : Poly) : φ.poly (norm p) = φ.poly p := φ.poly_ext fun d => by rw [coef_norm, coeff_poly]

theorem poly_zero : φ.poly [0] = 0 := φ.poly_ext fun d => by rw [coef_zero, φ.zero, coeff_zero]

theorem poly_one : φ.poly [1] = 1 := by simp [poly]

theorem poly_append (p q : Poly) : φ.poly (p ++ q) = φ.poly p * X ^ q.length + φ.poly q := by
  induction p with
  | nil => simp [poly]
  | cons c cs ih =>
    rw [List.cons_append, poly_cons, poly_cons, ih, List.length_append]
    ring

theorem poly_zeros_append (n : Nat) (p : Poly) : φ.poly (List.replicate n 0 ++ p) = φ.poly p := by
  induction n with
  | zero => rfl
  | succ n ih => rw [List.replicate_succ, List.cons_append, poly_cons, ih, φ.zero, C_0, zero_mul, zero_add]

theorem poly_padd {p q : Poly} (hp : NormalPoly p) (hq : NormalPoly q) : φ.poly (padd p q) = φ.poly p + φ.poly q :=
  φ.poly_ext fun d => by rw [coef_padd hp hq, φ.xor, coeff_add, coeff_poly, coeff_poly]

theorem poly_pmul (hprim : prim ∈ Config.primitivePolys) {p q : Poly} (hp : NormalPoly p) (hq : NormalPoly q) :
    φ.poly (pmul prim p q) = φ.poly p * φ.poly q := φ.poly_ext fun d => by
  rw [coef_pmul hprim hp hq, convCoef, φ.xorSum, coeff_mul, Finset.Nat.sum_antidiagonal_eq_sum_range_succ_mk]
  simp only [φ.mul, coeff_poly]

theorem poly_pscale (hprim : prim ∈ Config.primitivePolys) (p : Poly) (c : Byte) :
    φ.poly (pscale prim p c) = C (φ.elem c) * φ.poly p := φ.poly_ext fun d => by
  rw [coef_pscale hprim, φ.mul, coeff_C_mul, coeff_poly, mul_comm]

theorem poly_mono (n : Nat) (c : Byte) : φ.poly (mono n c) = C (φ.elem c) * X ^ n := φ.poly_ext fun d => by
  rw [coef_mono, coeff_C_mul_X_pow, apply_ite φ.elem, φ.zero]

theorem poly_pmulmono (hprim : prim ∈ Config.primitivePolys) {p : Poly} (hp : NormalPoly p) (n : Nat) (c : Byte) :
    φ.poly (pmulmono prim p n c) = C (φ.elem c) * X ^ n * φ.poly p := by
  rw [pmulmono_eq_pmul_mono hprim hp, poly_pmul φ hprim (mono_normal n c) hp, poly_mono]

theorem poly_eq_zero_iff {p : Poly} (hp : NormalPoly p) : φ.poly p = 0 ↔ isZero p = true := by
  refine ⟨fun h => ?_, fun h => by rw [hp.eq_zero h, poly_zero]⟩
  rw [φ.eq_of_poly_eq hp normalPoly_zero (h.trans φ.poly_zero.symm)]
  rfl

/-- The degree of a normal list is that of its polynomial (R451). -/
theorem natDegree_poly {p : Poly} (hp : NormalPoly p) : (φ.poly p).natDegree = deg p := by
  cases hz : isZero p with
  | true => rw [hp.eq_zero hz, poly_zero, natDegree_zero]; rfl
  | false =>
    refine natDegree_eq_of_le_of_coeff_ne_zero (natDegree_le_iff_coeff_eq_zero.mpr fun d hd => ?_) ?_
    · rw [coeff_poly, coef, if_neg (Nat.not_le.mpr hd), φ.zero]
    · rw [coeff_poly]
      exact fun h => coef_deg_ne_zero hz (φ.eq_zero_iff.mp h)

/-- Evaluation is that of the polynomial (R460). -/
theorem elem_peval (hprim : prim ∈ Config.primitivePolys) {p : Poly} (hp : NormalPoly p) (x : Byte) :
    φ.elem (peval prim p x) = (φ.poly p).eval (φ.elem x) := by
  have key (cs : Poly) (v : Byte) : φ.elem (cs.foldl (fun v c => gfMul prim x v ^^^ c) v)
      = φ.elem v * φ.elem x ^ cs.length + (φ.poly cs).eval (φ.elem x) := by
    induction cs generalizing v with
    | nil => simp [poly]
    | cons c cs ih =>
      rw [List.foldl_cons, ih, φ.xor, φ.mul, poly_cons, List.length_cons]
      simp only [eval_add, eval_mul, eval_C, eval_pow, eval_X]
      ring
  rw [evaluationIsHorner prim hprim p x hp, key, φ.zero, zero_mul, zero_add]

theorem peval_eq_zero_iff (hprim : prim ∈ Config.primitivePolys) {p : Poly} (hp : NormalPoly p) (x : Byte) :
    peval prim p x = 0 ↔ (φ.poly p).eval (φ.elem x) = 0 := by rw [← elem_peval φ hprim hp, φ.eq_zero_iff]

/-- The value of a list of coefficients, by its entries counted from the first. -/
theorem eval_poly (p : Poly) (x : K) :
    (φ.poly p).eval x = ∑ i ∈ Finset.range p.length, φ.elem (p.getD i 0) * x ^ (p.length - 1 - i) := by
  induction p with
  | nil => simp [poly]
  | cons c cs ih =>
    rw [poly_cons, List.length_cons, Finset.sum_range_succ', eval_add, ih, add_comm]
    simp only [eval_mul, eval_C, eval_pow, eval_X, List.getD_cons_zero, List.getD_cons_succ, Nat.add_sub_cancel, Nat.sub_zero]
    refine congrArg (· + _) (Finset.sum_congr rfl fun i _ => ?_)
    rw [Nat.sub_right_comm, Nat.sub_sub]

end FieldView

end Sys2Proof.Machine
end

section
/-! PROOFS (43_rs.md R500 to R503, R520 to R522). Generators, the encoder and the syndromes: a generator is the product of its linear
factors, an encoded block is a multiple of it, and a syndrome is a coefficient of the syndrome polynomial. -/

namespace Sys2Proof.Machine

open Polynomial

variable {prim : BitVec 9} {s : State}

/-! Generators (R500). -/

theorem gen_normal (hprim : prim ∈ Config.primitivePolys) (base d : Nat) : NormalPoly (gen prim base d) := by
  obtain ⟨cs, hcs, -⟩ := gen_monic hprim base d
  rw [hcs]
  exact ⟨List.cons_ne_nil 1 cs, norm_cons_of_ne (by decide) cs⟩

theorem gen_length (hprim : prim ∈ Config.primitivePolys) (base d : Nat) : (gen prim base d).length = d + 1 := by
  obtain ⟨cs, hcs, hlen⟩ := gen_monic hprim base d
  rw [hcs, List.length_cons, hlen]

/-- A generator is the product of its linear factors. -/
theorem FieldView.poly_gen {K : Type} [Field K] (φ : FieldView prim K) (hprim : prim ∈ Config.primitivePolys) (base d : Nat) :
    φ.poly (gen prim base d) = ∏ i ∈ Finset.range d, (X + C (φ.elem (rsRoot prim base i))) := by
  induction d with
  | zero => exact φ.poly_one
  | succ d ih =>
    have hlinear : φ.poly [1, rsRoot prim base d] = X + C (φ.elem (rsRoot prim base d)) := by simp [FieldView.poly]
    have hnormal : NormalPoly [1, rsRoot prim base d] := ⟨List.cons_ne_nil _ _, norm_cons_of_ne (by decide) _⟩
    rw [gen, φ.poly_pmul hprim (gen_normal hprim base d) hnormal, ih, hlinear, Finset.prod_range_succ]

theorem peval_gen_eq_zero_iff (hprim : prim ∈ Config.primitivePolys) (base d : Nat) (x : Byte) :
    peval prim (gen prim base d) x = 0 ↔ ∃ i, i < d ∧ x = rsRoot prim base i := by
  obtain ⟨K, _, ⟨φ⟩⟩ := exists_fieldView hprim
  rw [φ.peval_eq_zero_iff hprim (gen_normal hprim base d), φ.poly_gen hprim, eval_prod, Finset.prod_eq_zero_iff]
  simp only [Finset.mem_range, eval_add, eval_X, eval_C, ← φ.xor, φ.eq_zero_iff]
  exact exists_congr fun i => and_congr_right fun _ => BitVec.xor_eq_zero_iff

/-- The 255 roots are distinct. -/
theorem rsRoot_injOn (hprim : prim ∈ Config.primitivePolys) {base i j : Nat} (hi : i < 255) (hj : j < 255)
    (h : rsRoot prim base i = rsRoot prim base j) : i = j := by
  have := gfExp_injOn hprim (Nat.mod_lt _ (by decide)) (Nat.mod_lt _ (by decide)) h
  omega

/-- Settles O37: a product is zero where one of its factors is. -/
theorem generatorHasItsRoots : Obligations.GeneratorHasItsRoots := by
  intro prim hprim base d _ hd
  refine ⟨gen_length hprim base d, ?_, peval_gen_eq_zero_iff hprim base d,
    fun i j hi hj h => rsRoot_injOn hprim (hi.trans_le hd) (hj.trans_le hd) h⟩
  obtain ⟨cs, hcs, -⟩ := gen_monic hprim base d
  rw [hcs]
  rfl

/-! The encoder (R502). -/

/-- Encoding does not fail, and makes a block that the generator divides. -/
theorem rsEncode_eq_ok (hprim : prim ∈ Config.primitivePolys) (base : Nat) {e : Nat} {data : List Byte} (hdata : data ≠ [])
    (he : e ≠ 0) : ∃ ec q, rsEncode prim base data e = .ok ec ∧ ec.length = e ∧ ∀ (K : Type) [Field K] (φ : FieldView prim K),
      φ.poly (data ++ ec) = φ.poly q * φ.poly (gen prim base e) := by
  have hgen := gen_normal hprim base e
  obtain ⟨cs, hcs, -⟩ := gen_monic hprim base e
  have hshifted := pmulmono_normal prim (norm_ne_nil hdata) e 1
  obtain ⟨q, r, hdiv, hq, hr, hsum, -⟩ := pdiv_isQuotientAndRemainder hprim hshifted hgen (by rw [hcs]; rfl)
  have hok : rsEncode prim base data e = .ok (List.replicate (e - r.length) 0 ++ r) := by
    rw [rsEncode, hdiv]
    rfl
  have hlen := rsEncode_ok_length hprim hdata he hok
  refine ⟨_, q, hok, hlen, fun K _ φ => ?_⟩
  have hpoly := congrArg φ.poly hsum
  rw [φ.poly_padd (pmul_normal prim hq hgen) hr, φ.poly_pmul hprim hq hgen, φ.poly_pmulmono hprim (normalPoly_norm hdata),
    φ.poly_norm, φ.one, C_1, one_mul] at hpoly
  have := φ.charTwo
  rw [φ.poly_append, hlen, φ.poly_zeros_append, mul_comm, hpoly, add_assoc, CharTwo.add_self_eq_zero, add_zero]

/-! The syndromes (R503). -/

theorem coef_reverse_range_map (n : Nat) (f : Nat → Byte) (d : Nat) :
    coef ((List.range n).reverse.map f) d = if d < n then f d else 0 := by
  induction n with
  | zero => exact coef_nil d
  | succ n ih =>
    rw [List.range_succ, List.reverse_concat, List.map_cons, coef_cons, ih, List.length_map, List.length_reverse, List.length_range]
    split
    · next h => rw [if_pos (by omega), h]
    · next h => exact if_congr (by omega) rfl rfl

theorem syndromeList_length (prim : BitVec 9) (base : Nat) (block : List Byte) (twoS : Nat) :
    (syndromeList prim base block twoS).length = twoS := by simp [syndromeList]

theorem syndromes_normal (prim : BitVec 9) (base : Nat) (block : List Byte) (twoS : Nat) :
    NormalPoly (syndromes prim base block twoS) := by
  unfold syndromes
  split
  · exact normalPoly_zero
  · exact normalPoly_norm (List.length_pos_iff.mp (by rw [syndromeList_length]; omega))

/-- The coefficients of the syndrome polynomial are the syndromes. -/
theorem coef_syndromes (prim : BitVec 9) (base : Nat) (block : List Byte) (twoS d : Nat) :
    coef (syndromes prim base block twoS) d = if d < twoS then peval prim (norm block) (rsRoot prim base d) else 0 := by
  unfold syndromes
  split
  · next h => rw [coef_zero, if_neg (by omega)]
  · rw [coef_norm, syndromeList, coef_reverse_range_map]

theorem syndromes_length_le (prim : BitVec 9) (base : Nat) (block : List Byte) (twoS : Nat) :
    (syndromes prim base block twoS).length ≤ max 1 twoS := by
  unfold syndromes
  split
  · exact Nat.le_max_left _ _
  · exact ((norm_length_le _).trans_eq (syndromeList_length ..)).trans (Nat.le_max_right _ _)

theorem noErrors_iff {base : Nat} {block : List Byte} {twoS : Nat} :
    noErrors prim base block twoS = true ↔ ∀ i, i < twoS → peval prim (norm block) (rsRoot prim base i) = 0 := by
  simp [noErrors, syndromeList]

/-- A normal polynomial is zero when all of its coefficients are. -/
theorem NormalPoly.isZero_iff {p : Poly} (hp : NormalPoly p) : isZero p = true ↔ ∀ d, coef p d = 0 := by
  refine ⟨fun h d => by rw [hp.eq_zero h, coef_zero], fun h => ?_⟩
  rw [hp.ext normalPoly_zero fun d => (h d).trans (coef_zero d).symm]
  rfl

/-- There is no error when the syndrome polynomial is zero. -/
theorem noErrors_eq_isZero (prim : BitVec 9) (base : Nat) (block : List Byte) (twoS : Nat) :
    noErrors prim base block twoS = isZero (syndromes prim base block twoS) := by
  rw [Bool.eq_iff_iff, noErrors_iff, (syndromes_normal ..).isZero_iff]
  simp only [coef_syndromes, ite_eq_right_iff]

/-! The commands (R520 to R522). -/

/-- `RS_SYND` on operands in range. -/
theorem exec_rsSynd (rd : Nat) (h1 : 1 ≤ s.operand 0) (hn : s.operand 0 ≤ 256) (htwo : s.operand 1 ≤ 255) :
    exec (.rsSynd rd) s = s.complete (do
      let t ← s.setPoly rd (syndromes s.gfPrim s.base (s.cw (s.operand 0)) (s.operand 1))
      return t.setResult 0 (Word.ofBool (noErrors s.gfPrim s.base (s.cw (s.operand 0)) (s.operand 1)))) :=
  (State.complete_check_check (decide_eq_true hn) (decide_eq_true h1) _ _ _).trans (State.complete_check (decide_eq_true htwo) _ _)

/-- Settles O38: the generator and the syndrome polynomial fit a register, and the EC codewords the end of the block. -/
theorem encoderAndSyndromesComplete : Obligations.EncoderAndSyndromesComplete := by
  intro s rd hs _
  refine ⟨fun hd => ?_, fun hn he hlt => ?_, fun h1 hn htwo => ?_⟩
  · refine completesWithPoly_of_setPoly (State.complete_check (decide_eq_true hd) _ _) ?_
    rw [gen_length hs.prim]
    omega
  · have hdata : s.cw (s.operand 0 - s.operand 1) ≠ [] := List.ne_nil_of_length_pos (by rw [State.cw_length]; omega)
    obtain ⟨ec, -, hec, hlen, -⟩ := rsEncode_eq_ok hs.prim s.base hdata he
    refine ⟨ec, s.mem.write (cwAddr (s.operand 0 - s.operand 1)) ec, hec, hlen, ?_, s.mem.read_write _ _⟩
    refine (State.complete_check_check (decide_eq_true hn) (decide_eq_true he) _ _ _).trans
      ((State.complete_check (decide_eq_true hlt) _ _).trans ?_)
    rw [hec]
    rfl
  · have hle := syndromes_length_le s.gfPrim s.base (s.cw (s.operand 0)) (s.operand 1)
    have hcoef := coef_syndromes s.gfPrim s.base (s.cw (s.operand 0)) (s.operand 1)
    refine ⟨syndromes s.gfPrim s.base (s.cw (s.operand 0)) (s.operand 1), _, syndromes_normal .., hle, fun h0 => if_pos h0,
      fun i hi => (hcoef i).trans (if_pos hi), ?_, s.mem.read_write _ _⟩
    rw [exec_rsSynd rd h1 hn htwo, State.setPoly_of_le (by omega), noErrors_eq_isZero]
    rfl

end Sys2Proof.Machine
end

section
/-! PROOFS (43_rs.md R504, R505, R523). The key-equation solver: the extended Euclidean algorithm keeps the cofactors' equations, and their
degrees are fixed by those of the remainders. -/

namespace Sys2Proof.Machine

open Polynomial

/-! The invariant of the loop. -/

section
variable {K : Type} [Field K] {R : Nat} {A B rLast r tLast t : K[X]}

/-- What the loop keeps of its remainders and of their cofactors for `B`, on operands `A` and `B` (R504). -/
structure KeyInv (R : Nat) (A B rLast r tLast t : K[X]) : Prop where
  /-- The remainders are combinations of `A` and `B`, of determinant 1. -/
  combine : ∃ sLast s, sLast * A + tLast * B = rLast ∧ s * A + t * B = r ∧ sLast * t + s * tLast = 1
  ne_zero : t ≠ 0
  natDegree_add : t.natDegree + rLast.natDegree = A.natDegree
  last_lt : tLast = 0 ∨ tLast.natDegree + r.natDegree < t.natDegree + rLast.natDegree
  large : R ≤ 2 * rLast.natDegree
  le_last : r.natDegree ≤ rLast.natDegree

theorem KeyInv.start (hA : R ≤ 2 * A.natDegree) (hB : B.natDegree ≤ A.natDegree) : KeyInv R A B A B 0 1 where
  combine := ⟨1, 0, by ring, by ring, by ring⟩
  ne_zero := one_ne_zero
  natDegree_add := by rw [natDegree_one, Nat.zero_add]
  last_lt := .inl rfl
  large := hA
  le_last := hB

/-- A round: division with quotient `q` and remainder `r'`. -/
theorem KeyInv.step [CharP K 2] {q r' : K[X]} (h : KeyInv R A B rLast r tLast t) (hr : R ≤ 2 * r.natDegree) (hdiv : rLast = q * r + r')
    (hlt : r'.natDegree < r.natDegree) : KeyInv R A B r r' t (q * t + tLast) := by
  have hr0 : r ≠ 0 := by
    rintro rfl
    exact absurd hlt (Nat.not_lt_zero _)
  have hq0 : q ≠ 0 := by
    rintro rfl
    rw [zero_mul, zero_add] at hdiv
    exact absurd h.le_last (by rw [hdiv]; omega)
  have hdq : q.natDegree + r.natDegree = rLast.natDegree := by
    rw [← natDegree_mul hq0 hr0, hdiv, natDegree_add_eq_left_of_natDegree_lt]
    rw [natDegree_mul hq0 hr0]
    omega
  have hqt0 : q * t ≠ 0 := mul_ne_zero hq0 h.ne_zero
  have hqt : (q * t).natDegree = q.natDegree + t.natDegree := natDegree_mul hq0 h.ne_zero
  have hnew : q * t + tLast ≠ 0 ∧ (q * t + tLast).natDegree = q.natDegree + t.natDegree := by
    rcases h.last_lt with h0 | hlast
    · rw [h0, add_zero]
      exact ⟨hqt0, hqt⟩
    · have hdeg : (q * t + tLast).natDegree = q.natDegree + t.natDegree := by
        rw [natDegree_add_eq_left_of_natDegree_lt (by omega), hqt]
      refine ⟨fun e => ?_, hdeg⟩
      rw [e, natDegree_zero] at hdeg
      omega
  have hadd := h.natDegree_add
  obtain ⟨sLast, s, hlast, hcur, hdet⟩ := h.combine
  have htwo : (2 : K[X]) = 0 := CharTwo.two_eq_zero
  refine ⟨⟨s, q * s + sLast, hcur, ?_, ?_⟩, hnew.1, ?_, .inr ?_, hr, hlt.le⟩
  · linear_combination q * hcur + hlast + hdiv + q * r * htwo
  · linear_combination hdet + s * q * t * htwo
  · rw [hnew.2]
    omega
  · rw [hnew.2]
    omega

end

/-! The loop and the solver. -/

variable {prim : BitVec 9}

/-- Division by a nonzero polynomial is the loop of long division. -/
theorem pdiv_of_nonzero (prim : BitVec 9) (a : Poly) {b : Poly} (hz : isZero b = false) :
    pdiv prim a b = .ok (divLoop prim b (gfInvNonzero prim (lead b)) a.length [0] a) := by
  rw [pdiv, hz, gfInv_of_ne (isZero_eq_false_iff.mp hz)]
  rfl

theorem keyLoop_of_small {R : Nat} (fuel : Nat) (rLast : Poly) {r : Poly} (tLast t : Poly) (h : 2 * deg r < R) :
    keyLoop prim R (fuel + 1) rLast r tLast t = .ok (t, r) := if_neg (Nat.not_le.mpr h)

/-- A round of the loop, whose division lowers the degree. -/
theorem keyLoop_of_large {R fuel : Nat} {rLast r q r' : Poly} (tLast t : Poly) (h : R ≤ 2 * deg r) (hz : isZero r = false)
    (hdiv : pdiv prim rLast r = .ok (q, r')) (hlt : deg r' < deg r) :
    keyLoop prim R (fuel + 1) rLast r tLast t = keyLoop prim R fuel r r' t (padd (pmul prim q t) tLast) := by
  have hqr := Except.ok.inj ((pdiv_of_nonzero prim rLast hz).symm.trans hdiv)
  rw [keyLoop, if_pos h, hz, gfInv_of_ne (isZero_eq_false_iff.mp hz), bind_ok, hqr]
  exact if_neg (Nat.not_le.mpr hlt)

/-- The loop ends, with a remainder whose degree is below the bound and its cofactor: failures 4 and 5 cannot occur (R505). -/
theorem keyLoop_eq_ok {K : Type} [Field K] (φ : FieldView prim K) (hprim : prim ∈ Config.primitivePolys) {R : Nat} (hR : 1 ≤ R)
    {A B : K[X]} {fuel : Nat} {rLast r tLast t : Poly} (hrLast : NormalPoly rLast) (hr : NormalPoly r) (htLast : NormalPoly tLast)
    (ht : NormalPoly t) (hfuel : deg r < fuel) (h : KeyInv R A B (φ.poly rLast) (φ.poly r) (φ.poly tLast) (φ.poly t)) :
    ∃ t' r', keyLoop prim R fuel rLast r tLast t = .ok (t', r') ∧ NormalPoly t' ∧ NormalPoly r' ∧ 2 * deg r' < R
      ∧ ∃ u v, KeyInv R A B u (φ.poly r') v (φ.poly t') := by
  induction fuel generalizing rLast r tLast t with
  | zero => exact absurd hfuel (Nat.not_lt_zero _)
  | succ fuel ih =>
    by_cases hlarge : R ≤ 2 * deg r
    · have hz : isZero r = false := by
        refine Bool.eq_false_iff.mpr fun hz => ?_
        rw [hr.eq_zero hz] at hlarge
        exact absurd (hR.trans hlarge) (by decide)
      obtain ⟨q, r', hdiv, hq, hr', hsum, hend⟩ := pdiv_isQuotientAndRemainder hprim hrLast hr hz
      have hlt : deg r' < deg r := by
        refine hend.elim (fun h0 => ?_) id
        rw [hr'.eq_zero h0]
        exact Nat.pos_of_ne_zero fun e => by omega
      have hqt := pmul_normal prim hq ht
      have := φ.charTwo
      have hstep := h.step (q := φ.poly q) (r' := φ.poly r') (by rwa [φ.natDegree_poly hr])
        (by rw [hsum, φ.poly_padd (pmul_normal prim hq hr) hr', φ.poly_pmul hprim hq hr])
        (by rwa [φ.natDegree_poly hr, φ.natDegree_poly hr'])
      rw [← φ.poly_pmul hprim hq ht, ← φ.poly_padd hqt htLast] at hstep
      rw [keyLoop_of_large tLast t hlarge hz hdiv hlt]
      exact ih hr hr' ht (padd_normal hqt htLast) (by omega) hstep
    · exact ⟨t, r, keyLoop_of_small fuel rLast tLast t (by omega), ht, hr, by omega, _, _, h⟩

/-- The end of the solver: both answers of the loop are divided by the constant term of the first, which must not be zero (R504). -/
def keyAnswer (prim : BitVec 9) (t r : Poly) : Except Failure (Poly × Poly) :=
  if coef t 0 = 0 then .error .sigmaZero
  else .ok (pscale prim t (gfInvNonzero prim (coef t 0)), pscale prim r (gfInvNonzero prim (coef t 0)))

theorem rsKey_eq_keyAnswer {a b t r : Poly} {R : Nat}
    (h : keyLoop prim R ((if deg a < deg b then (b, a) else (a, b)).2.length + 1) (if deg a < deg b then (b, a) else (a, b)).1
      (if deg a < deg b then (b, a) else (a, b)).2 [0] [1] = .ok (t, r)) : rsKey prim a b R = keyAnswer prim t r := by
  rw [rsKey, h, bind_ok, keyAnswer]
  dsimp only
  by_cases h0 : coef t 0 = 0
  · rw [if_pos h0, if_pos h0]
    rfl
  · rw [if_neg h0, if_neg h0, gfInv_of_ne h0]
    rfl

theorem deg_mono_one (R : Nat) : deg (mono R 1) = R := by simp [deg, mono]

/-- `t` and `r` solve the key equation of the syndrome polynomial `S`, and `t` has no factor in common with the cofactor of `x^R`. -/
def SolvesKey (R : Nat) {K : Type} [Field K] (S t r : K[X]) : Prop :=
  2 * t.natDegree ≤ R ∧ 2 * r.natDegree < R ∧ ∃ s, s * X ^ R + t * S = r ∧ IsCoprime s t

/-- What the solver finds, for a syndrome polynomial of any degree; its degree bounds the solution when it is at most `R`
(R504, R505). -/
theorem rsKey_spec {K : Type} [Field K] (φ : FieldView prim K) (hprim : prim ∈ Config.primitivePolys) {R : Nat} (hR : 1 ≤ R) {S : Poly}
    (hS : NormalPoly S) : ∃ t r, rsKey prim (mono R 1) S R = keyAnswer prim t r ∧ NormalPoly t ∧ NormalPoly r ∧ 2 * deg r < R
      ∧ deg t ≤ max R (deg S) ∧ (deg S ≤ R → SolvesKey R (φ.poly S) (φ.poly t) (φ.poly r)) := by
  have hm := mono_normal R 1
  have hdm := deg_mono_one R
  have hone : NormalPoly [1] := ⟨List.cons_ne_nil _ _, rfl⟩
  have hstart {a b : Poly} (ha : NormalPoly a) (hb : NormalPoly b) (hRa : R ≤ 2 * deg a) (hab : deg b ≤ deg a) :=
    keyLoop_eq_ok φ hprim hR (A := φ.poly a) (B := φ.poly b) ha hb normalPoly_zero hone (fuel := b.length + 1)
      (by rw [deg]; omega)
      (by
        rw [φ.poly_zero, φ.poly_one]
        exact .start (by rwa [φ.natDegree_poly ha]) (by rwa [φ.natDegree_poly ha, φ.natDegree_poly hb]))
  by_cases hswap : deg (mono R 1) < deg S
  · obtain ⟨t, r, hloop, ht, hr, hsmall, u, v, hinv⟩ := hstart hS hm (by omega) hswap.le
    refine ⟨t, r, rsKey_eq_keyAnswer (by rwa [if_pos hswap]), ht, hr, hsmall, ?_, fun h => absurd hswap (by omega)⟩
    have hadd := hinv.natDegree_add
    rw [φ.natDegree_poly ht, φ.natDegree_poly hS] at hadd
    exact le_max_of_le_right (by omega)
  · obtain ⟨t, r, hloop, ht, hr, hsmall, u, v, hinv⟩ := hstart hm hS (by omega) (Nat.not_lt.mp hswap)
    have hadd := hinv.natDegree_add
    have hlarge := hinv.large
    rw [φ.natDegree_poly ht, φ.natDegree_poly hm, hdm] at hadd
    refine ⟨t, r, rsKey_eq_keyAnswer (by rwa [if_neg hswap]), ht, hr, hsmall, le_max_of_le_left (by omega), fun _ => ?_⟩
    obtain ⟨w, s, -, hs, hdet⟩ := hinv.combine
    rw [φ.poly_mono, φ.one, C_1, one_mul] at hs
    exact ⟨by rw [φ.natDegree_poly ht]; omega, by rwa [φ.natDegree_poly hr], s, hs, v, w, by rw [← hdet]; ring⟩

/-! `RS_KEY` (R523). -/

variable {s : State}

/-- `RS_KEY` on operands in range. -/
theorem exec_rsKey {rd rc ra : Nat} (hne : rd ≠ rc) (h0 : s.operand 0 ≠ 0) (h255 : s.operand 0 ≤ 255) (ha : s.plenOf ra ≠ 0) :
    exec (.rsKey rd rc ra) s = s.complete (do
      let so ← rsKey s.gfPrim (mono (s.operand 0) 1) (s.polyValue ra) (s.operand 0)
      let t ← s.setPoly rd so.1
      let u ← t.setPoly rc so.2
      return u.setResult 0 (Word.ofNat (deg so.1))) :=
  (State.complete_check_check (decide_eq_true hne) (decide_eq_true h0) _ _ _).trans
    ((State.complete_check (decide_eq_true h255) _ _).trans (State.complete_poly ha _))

theorem exec_rsKey_of_ok {rd rc ra : Nat} {sigma omega : Poly} (hne : rd ≠ rc) (h0 : s.operand 0 ≠ 0) (h255 : s.operand 0 ≤ 255)
    (ha : s.plenOf ra ≠ 0) (h : rsKey s.gfPrim (mono (s.operand 0) 1) (s.polyValue ra) (s.operand 0) = .ok (sigma, omega))
    (hsigma : sigma.length ≤ 512) (homega : omega.length ≤ 512) :
    exec (.rsKey rd rc ra) s = .next (State.succeed { s with
      plen := (s.plen.setIfInBounds rd sigma.length).setIfInBounds rc omega.length
      result := s.result.setIfInBounds 0 (BitVec.ofNat 32 (deg sigma))
      mem := (s.mem.write (coefAddr rd 0) sigma).write (coefAddr rc 0) omega }) := by
  rw [exec_rsKey hne h0 h255 ha, h, bind_ok, State.setPoly_of_le hsigma, bind_ok, State.setPoly_of_le homega, bind_ok]
  simp only [pure_eq_ok, State.complete_ok, State.setResult, State.setPlen, State.setMem, Word.ofNat]

/-- A coefficient below power `R` of a solution. -/
theorem SolvesKey.coeff_mul {R : Nat} {K : Type} [Field K] {S t r : K[X]} (h : SolvesKey R S t r) {d : Nat} (hd : d < R) :
    (t * S).coeff d = r.coeff d := by
  obtain ⟨-, -, u, hu, -⟩ := h
  rw [← hu, coeff_add, coeff_mul_X_pow', if_neg (Nat.not_le.mpr hd), zero_add]

theorem deg_pscale_le (prim : BitVec 9) {p : Poly} (hp : NormalPoly p) (c : Byte) : deg (pscale prim p c) ≤ deg p :=
  Nat.sub_le_sub_right (pscale_length_le prim hp.1 c) 1

/-- Settles O40: the solver's loop ends with a solution of the key equation, which is scaled. -/
theorem keySolverCompletes : Obligations.KeySolverCompletes := by
  intro s rd rc ra hs _ _ _ hne h0 h255 ha
  have hS := State.polyValue_normal ha
  have hSlen := hs.polyValue_length ra
  obtain ⟨K, _, ⟨φ⟩⟩ := exists_fieldView hs.prim
  obtain ⟨t, r, hkey, ht, hr, hsmall, hdeg, hsolves⟩ := rsKey_spec φ hs.prim (Nat.one_le_iff_ne_zero.mpr h0) hS
  unfold keyAnswer at hkey
  split at hkey
  · exact .inr ⟨hkey, by rw [exec_rsKey hne h0 h255 ha, hkey]; rfl⟩
  next hc =>
  generalize hinv : gfInvNonzero s.gfPrim (coef t 0) = c at hkey
  have htlen : (pscale s.gfPrim t c).length ≤ 512 :=
    (pscale_length_le _ ht.1 c).trans (by have := List.length_pos_iff.mpr ht.1; simp only [deg] at hdeg; omega)
  have hrlen : (pscale s.gfPrim r c).length ≤ 512 :=
    (pscale_length_le _ hr.1 c).trans (by have := List.length_pos_iff.mpr hr.1; simp only [deg] at hsmall; omega)
  have hdt := deg_pscale_le s.gfPrim ht c
  have hdr := deg_pscale_le s.gfPrim hr c
  refine .inl ⟨_, _, _, _, hkey, ?_, by omega, fun hle => ?_,
    exec_rsKey_of_ok hne h0 h255 ha hkey htlen hrlen, s.mem.read_write _ _, Memory.read_write _ _ _⟩
  · rw [coef_pscale hs.prim, ← hinv, gfMul_gfInvNonzero hs.prim hc]
  · have hsol := hsolves hle
    have hdt' := hsol.1
    rw [φ.natDegree_poly ht] at hdt'
    refine ⟨by omega, fun d hd => φ.injective ?_⟩
    rw [← φ.coeff_poly, ← φ.coeff_poly, φ.poly_pmul hs.prim (pscale_normal _ ht c) hS, φ.poly_pscale hs.prim, φ.poly_pscale hs.prim,
      mul_assoc, coeff_C_mul, coeff_C_mul, hsol.coeff_mul hd]

end Sys2Proof.Machine
end

section
/-! PROOFS (43_rs.md R506, R510, R527). The whole decode: a search that succeeds gives nonzero distinct locators, so only the solver, the
search and a position outside the block can make it fail. -/

namespace Sys2Proof.Machine

variable {prim : BitVec 9} {s : State}

/-! The locators that a search finds (R507). -/

theorem gfInvNonzero_gfInvNonzero (hprim : prim ∈ Config.primitivePolys) {a : Byte} (ha : a ≠ 0) :
    gfInvNonzero prim (gfInvNonzero prim a) = a :=
  (eq_gfInvNonzero_of_gfMul_eq_one hprim ((gfMul_comm prim _ a).trans (gfMul_gfInvNonzero hprim ha))).symm

theorem chienRoots_nodup (prim : BitVec 9) (sigma : Poly) : (chienRoots prim sigma).Nodup := by
  refine List.Nodup.filter _ (List.Nodup.map_on (fun i hi j hj h => ?_) List.nodup_range)
  have hval := congrArg BitVec.toNat h
  rw [BitVec.toNat_ofNat, BitVec.toNat_ofNat] at hval
  have := List.mem_range.mp hi
  have := List.mem_range.mp hj
  omega

theorem zero_notMem_chienLocators (hprim : prim ∈ Config.primitivePolys) (sigma : Poly) : 0 ∉ chienLocators prim sigma := by
  intro h
  obtain ⟨x, -, hx⟩ := List.mem_map.mp h
  exact gfInvNonzero_ne_zero hprim x hx

theorem chienLocators_nodup (hprim : prim ∈ Config.primitivePolys) (sigma : Poly) : (chienLocators prim sigma).Nodup := by
  refine List.Nodup.map_on (fun x hx y hy h => ?_) (chienRoots_nodup prim sigma)
  rw [← gfInvNonzero_gfInvNonzero hprim (mem_chienRoots.mp hx).1, h, gfInvNonzero_gfInvNonzero hprim (mem_chienRoots.mp hy).1]

/-- A locator is the inverse of a root. -/
theorem mem_chienLocators (hprim : prim ∈ Config.primitivePolys) {sigma : Poly} {l : Byte} :
    l ∈ chienLocators prim sigma ↔ l ≠ 0 ∧ peval prim sigma (gfInvNonzero prim l) = 0 := by
  refine ⟨fun h => ?_, fun ⟨h0, hroot⟩ => ?_⟩
  · obtain ⟨x, hx, rfl⟩ := List.mem_map.mp h
    obtain ⟨hx0, hroot⟩ := mem_chienRoots.mp hx
    exact ⟨gfInvNonzero_ne_zero hprim x, by rwa [gfInvNonzero_gfInvNonzero hprim hx0]⟩
  · exact List.mem_map.mpr ⟨_, mem_chienRoots.mpr ⟨gfInvNonzero_ne_zero hprim l, hroot⟩, gfInvNonzero_gfInvNonzero hprim h0⟩

/-! The steps of a decode (R510). -/

section
variable {base twoS : Nat} {block : List Byte} {sigma omega : Poly}

/-- The magnitudes of the locators that a search finds. -/
def chienMagnitudes (prim : BitVec 9) (base : Nat) (sigma omega : Poly) : List Byte :=
  (List.range (chienLocators prim sigma).length).map (forneyValue prim base omega (chienLocators prim sigma))

/-- A decode whose search succeeds comes down to the correction. -/
theorem rsDecode_of_roots (hprim : prim ∈ Config.primitivePolys)
    (hkey : rsKey prim (mono twoS 1) (syndromes prim base block twoS) twoS = .ok (sigma, omega))
    (hroots : (chienRoots prim sigma).length = deg sigma) :
    rsDecode prim base block twoS = (do
      let corrected ← rsCorrect prim block.length ((chienLocators prim sigma).zip (chienMagnitudes prim base sigma omega)) block
      return ⟨corrected, chienLocators prim sigma, chienMagnitudes prim base sigma omega⟩) := by
  have hforney := forney_eq_ok (base := base) (omega := omega) hprim (zero_notMem_chienLocators hprim sigma)
    (chienLocators_nodup hprim sigma)
  rw [rsDecode, hkey, bind_ok, chien_eq_ok hroots, bind_ok]
  exact (congrArg (· >>= _) hforney).trans (bind_ok _ _)

theorem rsDecode_of_rootCount (hkey : rsKey prim (mono twoS 1) (syndromes prim base block twoS) twoS = .ok (sigma, omega))
    (hroots : (chienRoots prim sigma).length ≠ deg sigma) : rsDecode prim base block twoS = .error .rootCount := by
  rw [rsDecode, hkey, bind_ok, chien_eq_error hroots, bind_error]

/-- A correction with nonzero locators fails only at a position outside the block. -/
theorem rsCorrect_error {n : Nat} {errors : List (Byte × Byte)} {f : Failure} (h0 : ∀ e ∈ errors, e.1 ≠ 0)
    (h : rsCorrect prim n errors block = .error f) : f = .badLocation := by
  induction errors generalizing block with
  | nil => cases h
  | cons e rest ih =>
    rw [rsCorrect, if_neg (h0 e List.mem_cons_self)] at h
    split at h
    · exact (Except.error.inj h).symm
    · exact ih (fun e he => h0 e (List.mem_cons_of_mem _ he)) h

/-- The failures of a decode. -/
theorem rsDecode_error (hprim : prim ∈ Config.primitivePolys) (htwo : 1 ≤ twoS) {f : Failure}
    (h : rsDecode prim base block twoS = .error f) : f = .sigmaZero ∨ f = .rootCount ∨ f = .badLocation := by
  obtain ⟨K, _, ⟨φ⟩⟩ := exists_fieldView hprim
  obtain ⟨t, r, hkey, -⟩ := rsKey_spec φ hprim htwo (syndromes_normal prim base block twoS)
  unfold keyAnswer at hkey
  split at hkey
  · rw [rsDecode, hkey, bind_error] at h
    exact .inl (Except.error.inj h).symm
  generalize pscale prim t _ = sigma at hkey
  generalize pscale prim r _ = omega at hkey
  by_cases hroots : (chienRoots prim sigma).length = deg sigma
  · rw [rsDecode_of_roots hprim hkey hroots] at h
    refine .inr (.inr (rsCorrect_error (prim := prim) (n := block.length) (block := block)
      (errors := (chienLocators prim sigma).zip (chienMagnitudes prim base sigma omega)) (fun e he h0 => ?_) ?_))
    · exact zero_notMem_chienLocators hprim sigma (h0 ▸ (List.of_mem_zip (a := e.1) (b := e.2) he).1)
    · cases hc : rsCorrect prim block.length ((chienLocators prim sigma).zip (chienMagnitudes prim base sigma omega)) block with
      | error g => rw [hc, bind_error] at h; exact congrArg _ (Except.error.inj h)
      | ok c => rw [hc] at h; cases h
  · rw [rsDecode_of_rootCount hkey hroots] at h
    exact .inr (.inl (Except.error.inj h).symm)

theorem peval_one (hprim : prim ∈ Config.primitivePolys) (x : Byte) : peval prim [1] x = 1 := by
  rw [evaluationIsHorner prim hprim [1] x ⟨by decide, rfl⟩]
  exact congrArg (· ^^^ 1) (gfMul_zero_right prim x)

/-- Syndromes of degree below `twoS/2` are taken for their own evaluator, with no error to locate (R506). -/
theorem rsDecode_of_degenerate (hprim : prim ∈ Config.primitivePolys) (h : 2 * deg (syndromes prim base block twoS) < twoS) :
    rsDecode prim base block twoS = .ok ⟨block, [], []⟩ := by
  have hle : ¬ deg (mono twoS 1) < deg (syndromes prim base block twoS) := by rw [deg_mono_one]; omega
  have hinv : gfInvNonzero prim 1 = 1 := (eq_gfInvNonzero_of_gfMul_eq_one hprim (gfMul_one hprim 1)).symm
  have hkey : rsKey prim (mono twoS 1) (syndromes prim base block twoS) twoS = .ok ([1], syndromes prim base block twoS) := by
    refine (rsKey_eq_keyAnswer (t := [1]) (r := syndromes prim base block twoS) ?_).trans ?_
    · rw [if_neg hle]
      exact keyLoop_of_small _ _ _ _ h
    · exact (if_neg (by decide)).trans (by rw [show coef [1] 0 = 1 from rfl, hinv]; rfl)
  have hroots : chienRoots prim [1] = [] := by
    refine List.eq_nil_iff_forall_not_mem.mpr fun x hx => ?_
    have h10 : (1 : Byte) = 0 := (peval_one hprim x).symm.trans (mem_chienRoots.mp hx).2
    exact absurd h10 (by decide)
  rw [rsDecode_of_roots hprim hkey (by rw [hroots]; rfl), chienMagnitudes, chienLocators, hroots]
  rfl

end

/-! `RS_DEC` (R527). -/

/-- `RS_DEC` on operands in range. -/
theorem exec_rsDec (h1 : 1 ≤ s.operand 0) (hn : s.operand 0 ≤ 256) (htwo : s.operand 1 ≤ 255) :
    exec .rsDec s = s.complete (
      if noErrors s.gfPrim s.base (s.cw (s.operand 0)) (s.operand 1) then
        return ((s.setLocCnt 0).setResult 0 0).setResult 1 1
      else do
        let d ← rsDecode s.gfPrim s.base (s.cw (s.operand 0)) (s.operand 1)
        let t := ((s.setCw 0 d.block).setLocs d.locators).setMags d.magnitudes
        return ((t.setLocCnt d.locators.length).setResult 0 (Word.ofNat d.locators.length)).setResult 1 0) :=
  (State.complete_check_check (decide_eq_true hn) (decide_eq_true h1) _ _ _).trans (State.complete_check (decide_eq_true htwo) _ _)

theorem exec_rsDec_of_ok {d : Decoded} (h1 : 1 ≤ s.operand 0) (hn : s.operand 0 ≤ 256) (htwo : s.operand 1 ≤ 255)
    (herr : noErrors s.gfPrim s.base (s.cw (s.operand 0)) (s.operand 1) = false)
    (hd : rsDecode s.gfPrim s.base (s.cw (s.operand 0)) (s.operand 1) = .ok d) :
    exec .rsDec s = .next (State.succeed { s with
      locCnt := d.locators.length
      result := (s.result.setIfInBounds 0 (BitVec.ofNat 32 d.locators.length)).setIfInBounds 1 0
      mem := ((s.mem.write (cwAddr 0) d.block).writeEvery4 (locAddr 0) d.locators).writeEvery4 (magAddr 0) d.magnitudes }) := by
  rw [exec_rsDec h1 hn htwo, herr, if_neg Bool.false_ne_true, hd, bind_ok]
  simp only [pure_eq_ok, State.complete_ok, State.setResult, State.setLocCnt, State.setMags, State.setLocs, State.setCw, State.setMem,
    Word.ofNat]

/-- Settles O44: the decode is the solver, the search and the correction in turn, and a decode that finds nothing stores the block as it
is. -/
theorem decodeCompletes : Obligations.DecodeCompletes := by
  intro s hs h1 hn htwo
  have hexec := exec_rsDec h1 hn htwo
  refine ⟨fun hclean => ?_, fun herr => ?_⟩
  · rw [if_pos hclean] at hexec
    exact hexec
  have htwo1 : 1 ≤ s.operand 1 := Nat.one_le_iff_ne_zero.mpr fun h0 => by
    rw [h0] at herr
    cases herr
  refine ⟨fun d hd => ?_, fun f hf => ⟨rsDecode_error hs.prim htwo1 hf, ?_⟩, fun hdeg => ?_⟩
  · obtain ⟨hblock, -, hmags⟩ := rsDecode_ok_lengths hd
    exact ⟨_, _, _, exec_rsDec_of_ok h1 hn htwo herr hd, hblock.trans (State.cw_length _ _), hmags, s.mem.read_write _ _,
      Memory.read_writeEvery4 _ _ _, Memory.read_writeEvery4 _ _ _⟩
  · rw [hexec, herr, if_neg Bool.false_ne_true, hf]
    rfl
  · have hok := exec_rsDec_of_ok h1 hn htwo herr (rsDecode_of_degenerate hs.prim hdeg)
    dsimp only [List.length_nil] at hok
    refine ⟨_, hok, fun a => ?_⟩
    refine (s.mem.read_write (cwAddr 0) (s.cw (s.operand 0)) a).trans ?_
    split
    · next h =>
      rw [State.cw_length] at h
      rw [State.cw, Memory.readBytes_getD _ _ _ _ (by omega), Nat.add_sub_cancel' h.1]
    · rfl

end Sys2Proof.Machine
end

section
/-! PROOFS (43_rs.md R504, R507, R508). The algebra of decoding, over any field, with bytes as the names of errors: the locator and the
evaluator of a set of errors solve the key equation, every small solution whose cofactors are coprime is a scalar multiple of them, and the
evaluator at the zeros of the locator gives the values of the errors. -/

namespace Sys2Proof.Machine

open Polynomial

section
variable {K : Type} [Field K] (L : Finset Byte) (x y : Byte → K)

/-- The error locator of errors with locators `x`: the product of `1 - x·X`. -/
noncomputable def errorLocator : K[X] := ∏ l ∈ L, (1 - C (x l) * X)

/-- The error evaluator of errors with locators `x` and values `y`. -/
noncomputable def errorEvaluator : K[X] := ∑ l ∈ L, C (y l) * errorLocator (L.erase l) x

/-- The first `R` syndromes of such errors, as a polynomial: the coefficient of power `i` is the sum of `y·x^i`. -/
noncomputable def errorSyndromes (R : Nat) : K[X] := ∑ l ∈ L, C (y l) * ∑ i ∈ Finset.range R, (C (x l) * X) ^ i

variable {L x y}

theorem coeff_errorSyndromes (R d : Nat) :
    (errorSyndromes L x y R).coeff d = if d < R then ∑ l ∈ L, y l * x l ^ d else 0 := by
  have hterm (l : Byte) : (C (y l) * ∑ i ∈ Finset.range R, (C (x l) * X) ^ i).coeff d = if d < R then y l * x l ^ d else 0 := by
    simp only [mul_pow, ← C_pow, coeff_C_mul, finsetSum_coeff, coeff_X_pow, mul_ite, mul_one, mul_zero, Finset.sum_ite_eq,
      Finset.mem_range]
  simp only [errorSyndromes, finsetSum_coeff, hterm]
  split
  · rfl
  · exact Finset.sum_const_zero

theorem errorLocator_insert_erase {l : Byte} (hl : l ∈ L) : (1 - C (x l) * X) * errorLocator (L.erase l) x = errorLocator L x :=
  Finset.mul_prod_erase L (fun l => 1 - C (x l) * X) hl

/-- The key equation: locator times syndromes is the evaluator, up to a multiple of `x^R`. -/
theorem errorLocator_mul_errorSyndromes (R : Nat) :
    ∃ m, m * X ^ R + errorLocator L x * errorSyndromes L x y R = errorEvaluator L x y := by
  refine ⟨∑ l ∈ L, C (y l) * errorLocator (L.erase l) x * C (x l) ^ R, ?_⟩
  rw [errorSyndromes, errorEvaluator, Finset.sum_mul, Finset.mul_sum, ← Finset.sum_add_distrib]
  refine Finset.sum_congr rfl fun l hl => ?_
  have hgeom : (1 - C (x l) * X) * ∑ i ∈ Finset.range R, (C (x l) * X) ^ i = 1 - (C (x l) * X) ^ R := mul_neg_geom_sum _ R
  rw [← errorLocator_insert_erase hl]
  linear_combination C (y l) * errorLocator (L.erase l) x * hgeom

theorem eval_errorLocator (L : Finset Byte) (x : Byte → K) (z : K) : (errorLocator L x).eval z = ∏ l ∈ L, (1 - x l * z) := by
  simp [errorLocator, eval_prod]

theorem coeff_zero_errorLocator (L : Finset Byte) (x : Byte → K) : (errorLocator L x).coeff 0 = 1 := by
  rw [coeff_zero_eq_eval_zero, eval_errorLocator]
  simp

theorem errorLocator_ne_zero (L : Finset Byte) (x : Byte → K) : errorLocator L x ≠ 0 := fun h => by
  have h0 := coeff_zero_errorLocator L x
  rw [h, coeff_zero] at h0
  exact zero_ne_one h0

theorem natDegree_one_sub_C_mul_X_le (a : K) : (1 - C a * X).natDegree ≤ 1 :=
  natDegree_sub_le_of_le (natDegree_one.trans_le (Nat.zero_le 1)) ((natDegree_C_mul_le _ _).trans natDegree_X_le)

theorem natDegree_errorLocator_le (L : Finset Byte) (x : Byte → K) : (errorLocator L x).natDegree ≤ L.card :=
  (natDegree_prod_le _ _).trans ((Finset.sum_le_card_nsmul _ _ 1 fun l _ => natDegree_one_sub_C_mul_X_le (x l)).trans_eq (by simp))

theorem natDegree_errorLocator (hx : ∀ l ∈ L, x l ≠ 0) : (errorLocator L x).natDegree = L.card := by
  have hfactor (l : Byte) (hl : l ∈ L) : (1 - C (x l) * X).natDegree = 1 := by
    rw [natDegree_sub, ← C_1, natDegree_sub_C, natDegree_C_mul_X _ (hx l hl)]
  rw [errorLocator, natDegree_prod _ _ fun l hl h => ?_, Finset.sum_congr rfl hfactor, Finset.sum_const, smul_eq_mul, mul_one]
  have h1 := hfactor l hl
  rw [h, natDegree_zero] at h1
  exact Nat.zero_ne_one h1

theorem natDegree_errorEvaluator_lt (hL : L.Nonempty) : (errorEvaluator L x y).natDegree < L.card := by
  have hpos := hL.card_pos
  refine (Nat.lt_of_le_pred hpos (natDegree_sum_le_of_forall_le _ _ fun l hl => ?_))
  refine (natDegree_C_mul_le _ _).trans ((natDegree_errorLocator_le _ x).trans_eq ?_)
  rw [Finset.card_erase_of_mem hl]
  rfl

/-- The evaluator at the inverse of a locator. -/
theorem eval_errorEvaluator {l : Byte} (hl : l ∈ L) (hx : x l ≠ 0) :
    (errorEvaluator L x y).eval (x l)⁻¹ = y l * ∏ m ∈ L.erase l, (1 - x m * (x l)⁻¹) := by
  rw [errorEvaluator, eval_finsetSum, Finset.sum_eq_single_of_mem l hl fun m _ hm => ?_, eval_mul, eval_C, eval_errorLocator]
  rw [eval_mul, eval_errorLocator, Finset.prod_eq_zero (Finset.mem_erase.mpr ⟨hm.symm, hl⟩), mul_zero]
  rw [mul_inv_cancel₀ hx, sub_self]

section
variable (hx : ∀ l ∈ L, x l ≠ 0) (hinj : Set.InjOn x L) (hy : ∀ l ∈ L, y l ≠ 0)
include hx hinj

theorem prod_erase_ne_zero {l : Byte} (hl : l ∈ L) : ∏ m ∈ L.erase l, (1 - x m * (x l)⁻¹) ≠ 0 := by
  refine Finset.prod_ne_zero_iff.mpr fun m hm h => ?_
  obtain ⟨hne, hmL⟩ := Finset.mem_erase.mp hm
  exact hne (hinj hmL hl ((mul_inv_eq_one₀ (hx l hl)).mp (sub_eq_zero.mp h).symm))

include hy

theorem eval_errorEvaluator_ne_zero {l : Byte} (hl : l ∈ L) : (errorEvaluator L x y).eval (x l)⁻¹ ≠ 0 := by
  rw [eval_errorEvaluator hl (hx l hl)]
  exact mul_ne_zero (hy l hl) (prod_erase_ne_zero hx hinj hl)

/-- Locator and evaluator have no common factor: the locator's zeros are no zeros of the evaluator. -/
theorem isCoprime_errorLocator_errorEvaluator : IsCoprime (errorLocator L x) (errorEvaluator L x y) := by
  refine IsCoprime.prod_left fun l hl => ?_
  have hfactor : 1 - C (x l) * X = C (-x l) * (X - C (x l)⁻¹) := by
    rw [C_neg, neg_mul, mul_sub, ← C_mul, mul_inv_cancel₀ (hx l hl), C_1, neg_sub]
  have hunit : IsUnit (C (-x l)) := isUnit_C.mpr (neg_ne_zero.mpr (hx l hl)).isUnit
  rw [hfactor, isCoprime_mul_unit_left_left hunit, (irreducible_X_sub_C _).coprime_iff_not_dvd, dvd_iff_isRoot]
  exact eval_errorEvaluator_ne_zero hx hinj hy hl

/-- A solution of the key equation is a scalar multiple of locator and evaluator: comparing degrees, it is a multiple by a polynomial, which
divides both cofactors of the solution and so is a constant. -/
theorem SolvesKey.eq_C_mul (hL : L.Nonempty) {R : Nat} (hcard : 2 * L.card ≤ R) {t r : K[X]}
    (h : SolvesKey R (errorSyndromes L x y R) t r) :
    ∃ c : K, c ≠ 0 ∧ t = C c * errorLocator L x ∧ r = C c * errorEvaluator L x y := by
  obtain ⟨hdt, hdr, s, hs, hcoprime⟩ := h
  obtain ⟨m, hm⟩ := errorLocator_mul_errorSyndromes (L := L) (x := x) (y := y) R
  have hdL := natDegree_errorLocator_le L x
  have hdE := natDegree_errorEvaluator_lt (x := x) (y := y) hL
  have hL0 := errorLocator_ne_zero L x
  have hEL := isCoprime_errorLocator_errorEvaluator hx hinj hy
  generalize errorLocator L x = loc at *
  generalize errorEvaluator L x y = ev at *
  have hdiff : t * ev - loc * r = (t * m - loc * s) * X ^ R := by rw [← hm, ← hs]; ring
  have hzero : t * m - loc * s = 0 := by
    by_contra hne
    have hdeg : (t * ev - loc * r).natDegree < R := by
      refine (natDegree_sub_le_of_le natDegree_mul_le natDegree_mul_le).trans_lt ?_
      omega
    rw [hdiff, natDegree_mul_X_pow _ hne] at hdeg
    omega
  rw [hzero, zero_mul, sub_eq_zero] at hdiff
  obtain ⟨c, rfl⟩ : loc ∣ t := hEL.dvd_of_dvd_mul_right ⟨r, hdiff⟩
  have hsm : s = c * m := mul_left_cancel₀ hL0 (by rw [← mul_assoc, ← sub_eq_zero.mp hzero])
  have hr : r = c * ev := mul_left_cancel₀ hL0 (by rw [← mul_assoc, ← hdiff])
  have hc : IsUnit c := hcoprime.isUnit_of_dvd' (hsm ▸ dvd_mul_right c m) (dvd_mul_left c loc)
  obtain ⟨k, hk, rfl⟩ := isUnit_iff.mp hc
  exact ⟨k, hk.ne_zero, mul_comm _ _, hr⟩

end

end

end Sys2Proof.Machine
end

section
/-! PROOFS (43_rs.md R502, R503, R509 to R511). The decoder finds the errors of a block: from the syndromes of at most `e/2` errors it
computes their locators and magnitudes, and the correction puts the block right. -/

namespace Sys2Proof.Machine

open Polynomial

variable {prim : BitVec 9}

/-! Locators and magnitudes from the syndromes (R504, R507, R508). -/

section
variable {K : Type} [Field K] (φ : FieldView prim K)

/-- The denominator of Forney's formula, as a product of the field. -/
theorem FieldView.elem_forneyDen (xi : Byte) (others : List Byte) :
    φ.elem (forneyDen prim xi others) = (others.map fun l => φ.elem l * φ.elem xi + 1).prod := by
  have key (d : Byte) : φ.elem (others.foldl (fun den l => gfMul prim den (gfMul prim l xi ^^^ 1)) d)
      = φ.elem d * (others.map fun l => φ.elem l * φ.elem xi + 1).prod := by
    induction others generalizing d with
    | nil => simp
    | cons l others ih => rw [List.foldl_cons, ih, φ.mul, φ.xor, φ.mul, φ.one, List.map_cons, List.prod_cons, mul_assoc]
  exact (key 1).trans (by rw [φ.one, one_mul])

variable (hprim : prim ∈ Config.primitivePolys)
include hprim

/-- The denominator for a locator of a list without repetition, by the set of its locators. -/
theorem FieldView.elem_forneyDen_eraseIdx {locators : List Byte} (h0 : 0 ∉ locators) (hnodup : locators.Nodup) {i : Nat}
    (hi : i < locators.length) :
    φ.elem (forneyDen prim (gfInvNonzero prim locators[i]) (locators.eraseIdx i))
      = ∏ m ∈ locators.toFinset.erase locators[i], (1 - φ.elem m * (φ.elem locators[i])⁻¹) := by
  have hne : locators[i] ≠ 0 := fun h => h0 (h ▸ List.getElem_mem hi)
  have hset : locators.toFinset.erase locators[i] = (locators.erase locators[i]).toFinset := by
    ext m
    rw [Finset.mem_erase, List.mem_toFinset, List.mem_toFinset, hnodup.mem_erase_iff]
  have := φ.charTwo
  rw [φ.elem_forneyDen, φ.inv hprim hne, hset, List.prod_toFinset _ (hnodup.erase _), hnodup.erase_getElem]
  simp only [CharTwo.sub_eq_add, add_comm]

/-- Forney's formula gives the magnitudes when σ's evaluator is that of the errors. -/
theorem forneyValue_eq {base : Nat} (hbase : base ≤ 1) {omega : Poly} (homega : NormalPoly omega) {locators : List Byte}
    (h0 : 0 ∉ locators) (hnodup : locators.Nodup) {Y : Byte → Byte}
    (hpoly : φ.poly omega = errorEvaluator locators.toFinset φ.elem fun l => φ.elem (Y l) * φ.elem l ^ base) {i : Nat}
    (hi : i < locators.length) : forneyValue prim base omega locators i = Y locators[i] := by
  have hmem : locators[i] ∈ locators := List.getElem_mem hi
  have hne : ∀ l ∈ locators.toFinset, φ.elem l ≠ 0 := fun l hl h =>
    h0 (φ.eq_zero_iff.mp h ▸ List.mem_toFinset.mp hl)
  have hprod := prod_erase_ne_zero hne φ.injective.injOn (List.mem_toFinset.mpr hmem)
  have hl0 : locators[i] ≠ 0 := fun h => h0 (h ▸ hmem)
  have hl := hne _ (List.mem_toFinset.mpr hmem)
  have hden := φ.elem_forneyDen_eraseIdx hprim h0 hnodup hi
  have hden0 : forneyDen prim (gfInvNonzero prim locators[i]) (locators.eraseIdx i) ≠ 0 := fun h =>
    hprod (hden.symm.trans ((congrArg φ.elem h).trans φ.zero))
  have hm : φ.elem (gfMul prim (peval prim omega (gfInvNonzero prim locators[i]))
      (gfInvNonzero prim (forneyDen prim (gfInvNonzero prim locators[i]) (locators.eraseIdx i))))
        = φ.elem (Y locators[i]) * φ.elem locators[i] ^ base := by
    rw [φ.mul, φ.elem_peval hprim homega, φ.inv hprim hden0, hden, φ.inv hprim hl0, hpoly,
      eval_errorEvaluator (List.mem_toFinset.mpr hmem) hl, mul_assoc, mul_inv_cancel₀ hprod, mul_one]
  apply φ.injective
  rw [forneyValue, List.getD_eq_getElem _ _ hi]
  obtain rfl | rfl : base = 0 ∨ base = 1 := by omega
  · rw [pow_zero, mul_one] at hm
    exact hm
  · rw [pow_one] at hm
    refine (φ.mul _ _).trans ?_
    rw [hm, φ.inv hprim hl0, mul_assoc, mul_inv_cancel₀ hl, mul_one]

/-- The search on the locator of errors finds their locators. -/
theorem mem_chienLocators_errorLocator {L : Finset Byte} (h0 : 0 ∉ L) {sigma : Poly} (hsigma : NormalPoly sigma)
    (hpoly : φ.poly sigma = errorLocator L φ.elem) (l : Byte) : l ∈ chienLocators prim sigma ↔ l ∈ L := by
  have hroot (hl : l ≠ 0) : peval prim sigma (gfInvNonzero prim l) = 0 ↔ l ∈ L := by
    rw [φ.peval_eq_zero_iff hprim hsigma, hpoly, eval_errorLocator, Finset.prod_eq_zero_iff]
    simp only [sub_eq_zero, ← φ.mul, ← φ.one, φ.injective.eq_iff, eq_comm (a := (1 : Byte)), gfMul_gfInvNonzero_eq_one_iff hprim hl,
      exists_eq_right]
  rw [mem_chienLocators hprim]
  exact ⟨fun ⟨hl, hr⟩ => (hroot hl).mp hr, fun h => ⟨fun e => h0 (e ▸ h), (hroot fun e => h0 (e ▸ h)).mpr h⟩⟩

/-- The syndromes of `block` are those of errors of magnitude `Y l` at the nonzero locators `l` of `L`, at most `e/2` of them (R503). -/
structure HasErrors (base e : Nat) (block : List Byte) (L : Finset Byte) (Y : Byte → Byte) : Prop where
  nonempty : L.Nonempty
  zero_notMem : 0 ∉ L
  card_le : 2 * L.card ≤ e
  ne_zero : ∀ l ∈ L, Y l ≠ 0
  syndrome : ∀ i, i < e → φ.elem (peval prim (norm block) (rsRoot prim base i)) = ∑ l ∈ L, φ.elem (Y l) * φ.elem l ^ (i + base)

namespace HasErrors

variable {φ} {base e : Nat} {block : List Byte} {L : Finset Byte} {Y : Byte → Byte} (h : HasErrors φ base e block L Y)
include h

omit hprim

theorem locator_ne_zero : ∀ l ∈ L, φ.elem l ≠ 0 := fun _ hl he => h.zero_notMem (φ.eq_zero_iff.mp he ▸ hl)

/-- The values of the errors in the syndromes: their magnitudes, times the locators when `GF_BASE` is 1. -/
theorem value_ne_zero : ∀ l ∈ L, φ.elem (Y l) * φ.elem l ^ base ≠ 0 := fun l hl =>
  mul_ne_zero (fun he => h.ne_zero l hl (φ.eq_zero_iff.mp he)) (pow_ne_zero _ (h.locator_ne_zero l hl))

theorem poly_syndromes :
    φ.poly (syndromes prim base block e) = errorSyndromes L φ.elem (fun l => φ.elem (Y l) * φ.elem l ^ base) e := by
  refine φ.poly_ext fun d => ?_
  rw [coef_syndromes, coeff_errorSyndromes]
  split
  · next hd => exact (h.syndrome d hd).trans (Finset.sum_congr rfl fun l _ => by ring)
  · exact φ.zero

/-- Errors show: a nonzero evaluator of degree below `e` is no multiple of `x^e`. -/
theorem noErrors_eq_false : noErrors prim base block e = false := by
  rw [noErrors_eq_isZero]
  refine Bool.eq_false_iff.mpr fun hz => ?_
  obtain ⟨m, hm⟩ := errorLocator_mul_errorSyndromes (L := L) (x := φ.elem) (y := fun l => φ.elem (Y l) * φ.elem l ^ base) e
  rw [← h.poly_syndromes, (φ.poly_eq_zero_iff (syndromes_normal ..)).mpr hz, mul_zero, add_zero] at hm
  obtain ⟨l, hl⟩ := h.nonempty
  have heval := eval_errorEvaluator_ne_zero h.locator_ne_zero φ.injective.injOn h.value_ne_zero hl
  have hdeg := natDegree_le_of_dvd (hm ▸ dvd_mul_left (X ^ e) m) fun h0 => heval (by rw [h0, eval_zero])
  rw [natDegree_X_pow] at hdeg
  have hlt := natDegree_errorEvaluator_lt (x := φ.elem) (y := fun l => φ.elem (Y l) * φ.elem l ^ base) h.nonempty
  have hcard := h.card_le
  omega

include hprim

/-- The solver answers the locator and the evaluator of the errors. -/
theorem rsKey_eq_ok : ∃ sigma omega, rsKey prim (mono e 1) (syndromes prim base block e) e = .ok (sigma, omega)
    ∧ NormalPoly sigma ∧ NormalPoly omega ∧ φ.poly sigma = errorLocator L φ.elem
    ∧ φ.poly omega = errorEvaluator L φ.elem fun l => φ.elem (Y l) * φ.elem l ^ base := by
  have hpos := h.nonempty.card_pos
  have hcard := h.card_le
  have hdeg : deg (syndromes prim base block e) ≤ e := by
    have := syndromes_length_le prim base block e
    rw [deg]
    omega
  obtain ⟨t, r, hkey, ht, hr, -, -, hsolves⟩ := rsKey_spec φ hprim (R := e) (by omega) (syndromes_normal prim base block e)
  have hsol := hsolves hdeg
  rw [h.poly_syndromes] at hsol
  obtain ⟨c, hc, hct, hcr⟩ := hsol.eq_C_mul h.locator_ne_zero φ.injective.injOn h.value_ne_zero h.nonempty hcard
  have ht0 : φ.elem (coef t 0) = c := by rw [← φ.coeff_poly, hct, coeff_C_mul, coeff_zero_errorLocator, mul_one]
  have hne : coef t 0 ≠ 0 := fun he => hc (by rw [← ht0, he, φ.zero])
  have hscale : C (φ.elem (gfInvNonzero prim (coef t 0))) * C c = 1 := by
    rw [← C_mul, φ.inv hprim hne, ht0, inv_mul_cancel₀ hc, C_1]
  refine ⟨_, _, hkey.trans (if_neg hne), pscale_normal prim ht _, pscale_normal prim hr _, ?_, ?_⟩
  · rw [φ.poly_pscale hprim, hct, ← mul_assoc, hscale, one_mul]
  · rw [φ.poly_pscale hprim, hcr, ← mul_assoc, hscale, one_mul]

/-- The decoder finds the locators of the errors and their magnitudes. -/
theorem rsDecode_eq (hbase : base ≤ 1) : ∃ locators : List Byte, locators.Nodup ∧ locators.toFinset = L
    ∧ rsDecode prim base block e = (do
      let corrected ← rsCorrect prim block.length (locators.zip (locators.map Y)) block
      return ⟨corrected, locators, locators.map Y⟩) := by
  obtain ⟨sigma, omega, hkey, hsn, hon, hsigma, homega⟩ := h.rsKey_eq_ok hprim
  have hnodup := chienLocators_nodup hprim sigma
  have hset : (chienLocators prim sigma).toFinset = L := by
    ext l
    rw [List.mem_toFinset, mem_chienLocators_errorLocator φ hprim h.zero_notMem hsn hsigma]
  have hroots : (chienRoots prim sigma).length = deg sigma := by
    rw [← φ.natDegree_poly hsn, hsigma, natDegree_errorLocator h.locator_ne_zero, ← hset, List.toFinset_card_of_nodup hnodup,
      chienLocators_length]
  have hmags : chienMagnitudes prim base sigma omega = (chienLocators prim sigma).map Y := by
    refine List.ext_getElem (by simp [chienMagnitudes]) fun i hi hi' => ?_
    rw [List.length_map] at hi'
    simp only [chienMagnitudes, List.getElem_map, List.getElem_range]
    exact forneyValue_eq φ hprim hbase hon (zero_notMem_chienLocators hprim sigma) hnodup (by rw [homega, hset]) hi'
  exact ⟨_, hnodup, hset, by rw [rsDecode_of_roots hprim hkey hroots, hmags]⟩

end HasErrors

end

/-! Errors at positions of a block (R509, R511). -/

/-- The positions at which two blocks of one length differ. -/
def errorPositions (received block : List Byte) : Finset Nat :=
  (Finset.range received.length).filter fun p => received.getD p 0 ≠ block.getD p 0

theorem card_errorPositions (received block : List Byte) : (errorPositions received block).card = differences received block :=
  (Nat.count_eq_card_filter_range _ _).symm

theorem mem_errorPositions {received block : List Byte} {p : Nat} :
    p ∈ errorPositions received block ↔ p < received.length ∧ received.getD p 0 ≠ block.getD p 0 := by
  rw [errorPositions, Finset.mem_filter, Finset.mem_range]

/-- The locator of position `p` in a block of `n` codewords (R509). -/
def locatorAt (prim : BitVec 9) (n p : Nat) : Byte := gfExp prim (n - 1 - p)

/-- The difference of two blocks at the position of locator `l`. -/
def magnitudeAt (prim : BitVec 9) (received block : List Byte) (l : Byte) : Byte :=
  received.getD (received.length - 1 - gfLog prim l) 0 ^^^ block.getD (received.length - 1 - gfLog prim l) 0

section
variable {K : Type} [Field K] (φ : FieldView prim K) (hprim : prim ∈ Config.primitivePolys) {base e : Nat} {received block : List Byte}
include hprim

/-- A block whose values at the roots are zero has syndromes that are those of its errors. -/
theorem elem_syndrome (hlen : received.length = block.length) (hne : received ≠ [])
    (hcode : ∀ i, i < e → (φ.poly block).eval (φ.elem (rsRoot prim base i)) = 0) {i : Nat} (hi : i < e) :
    φ.elem (peval prim (norm received) (rsRoot prim base i)) = ∑ p ∈ errorPositions received block,
      φ.elem (received.getD p 0 ^^^ block.getD p 0) * φ.elem (locatorAt prim received.length p) ^ (i + base) := by
  have hroot (k : Nat) : φ.elem (rsRoot prim base i) ^ k = φ.elem (gfExp prim k) ^ (i + base) := by
    rw [rsRoot, gfExp_mod hprim, φ.exp hprim (i + base), φ.exp hprim k, pow_right_comm]
  have hsum : φ.elem (peval prim (norm received) (rsRoot prim base i)) = ∑ p ∈ Finset.range received.length,
      φ.elem (received.getD p 0 ^^^ block.getD p 0) * φ.elem (locatorAt prim received.length p) ^ (i + base) := by
    rw [φ.elem_peval hprim (normalPoly_norm hne), φ.poly_norm, ← add_zero (eval _ _), ← hcode i hi, φ.eval_poly, φ.eval_poly, ← hlen,
      ← Finset.sum_add_distrib]
    simp only [hroot, φ.xor, add_mul, locatorAt]
  rw [hsum, errorPositions, Finset.sum_filter]
  refine Finset.sum_congr rfl fun p _ => ?_
  split
  · rfl
  · next he =>
    rw [not_not.mp he, BitVec.xor_self]
    exact mul_eq_zero_of_left φ.zero _

variable (hn : received.length ≤ 256) (hfirst : received.length = 256 → received.getD 0 0 = block.getD 0 0)
include hn hfirst

omit φ in
/-- The power of a position with an error is below 255, so its locator determines it. -/
theorem gfLog_locatorAt {p : Nat} (hp : p ∈ errorPositions received block) :
    p < received.length ∧ gfLog prim (locatorAt prim received.length p) = received.length - 1 - p := by
  obtain ⟨hlt, hne⟩ := mem_errorPositions.mp hp
  have hpower : received.length - 1 - p < 255 := by
    refine Nat.lt_of_not_le fun hle => hne ?_
    rw [show p = 0 by omega]
    exact hfirst (by omega)
  exact ⟨hlt, by rw [locatorAt, gfLog_gfExp hprim, Nat.mod_eq_of_lt hpower]⟩

theorem locatorAt_injOn : Set.InjOn (locatorAt prim received.length) (errorPositions received block) := by
  intro p hp q hq h
  obtain ⟨hplt, hplog⟩ := gfLog_locatorAt hprim hn hfirst hp
  obtain ⟨hqlt, hqlog⟩ := gfLog_locatorAt hprim hn hfirst hq
  rw [h, hqlog] at hplog
  omega

theorem magnitudeAt_locatorAt {p : Nat} (hp : p ∈ errorPositions received block) :
    magnitudeAt prim received block (locatorAt prim received.length p) = received.getD p 0 ^^^ block.getD p 0 := by
  obtain ⟨hlt, hlog⟩ := gfLog_locatorAt hprim hn hfirst hp
  rw [magnitudeAt, hlog, show received.length - 1 - (received.length - 1 - p) = p by omega]

/-- A received block that differs from an encoded one in few places has their errors. -/
theorem hasErrors_of_received (hlen : received.length = block.length)
    (hcode : ∀ i, i < e → (φ.poly block).eval (φ.elem (rsRoot prim base i)) = 0) (hpos : 0 < differences received block)
    (hle : 2 * differences received block ≤ e) :
    HasErrors φ base e received ((errorPositions received block).image (locatorAt prim received.length))
      (magnitudeAt prim received block) := by
  rw [← card_errorPositions] at hpos hle
  have hinj := locatorAt_injOn hprim hn hfirst
  obtain ⟨p, hp⟩ := Finset.card_pos.mp hpos
  have hne : received ≠ [] := List.ne_nil_of_length_pos (by have := (mem_errorPositions.mp hp).1; omega)
  refine ⟨⟨_, Finset.mem_image_of_mem _ hp⟩, fun h => ?_, by rwa [Finset.card_image_of_injOn hinj], fun l hl => ?_, fun i hi => ?_⟩
  · obtain ⟨q, -, hq⟩ := Finset.mem_image.mp h
    exact gfExp_ne_zero hprim _ hq
  · obtain ⟨q, hq, rfl⟩ := Finset.mem_image.mp hl
    rw [magnitudeAt_locatorAt hprim hn hfirst hq]
    exact fun h => (mem_errorPositions.mp hq).2 (BitVec.xor_eq_zero_iff.mp h)
  · rw [elem_syndrome φ hprim hlen hne hcode hi, Finset.sum_image hinj]
    exact Finset.sum_congr rfl fun q hq => by rw [magnitudeAt_locatorAt hprim hn hfirst hq]

end

/-- The correction at a position that one locator only may have: the codeword, with that locator's magnitude if it is in the list. -/
theorem correctedAt_zip_map {n p : Nat} {locators : List Byte} (hnodup : locators.Nodup) (Y : Byte → Byte) {a : Byte}
    (ha : ∀ l ∈ locators, gfLog prim l + p + 1 = n ↔ l = a) (c : Byte) :
    correctedAt prim n (locators.zip (locators.map Y)) p c = if a ∈ locators then c ^^^ Y a else c := by
  induction locators generalizing c with
  | nil => rfl
  | cons l ls ih =>
    obtain ⟨hl, hls⟩ := List.nodup_cons.mp hnodup
    have hstep : correctedAt prim n ((l :: ls).zip ((l :: ls).map Y)) p c
        = correctedAt prim n (ls.zip (ls.map Y)) p (if gfLog prim l + p + 1 = n then c ^^^ Y l else c) := rfl
    rw [hstep, ih hls fun m hm => ha m (List.mem_cons_of_mem l hm), if_congr (ha l List.mem_cons_self) rfl rfl]
    by_cases hla : l = a
    · subst hla
      rw [if_pos rfl, if_neg hl, if_pos List.mem_cons_self]
    · rw [if_neg hla]
      exact if_congr (by simp [Ne.symm hla]) rfl rfl

/-- Correction with the errors of a received block answers the block that was encoded (R509). -/
theorem rsCorrect_errors (hprim : prim ∈ Config.primitivePolys) {received block locators : List Byte} (hn : received.length ≤ 256)
    (hfirst : received.length = 256 → received.getD 0 0 = block.getD 0 0) (hlen : received.length = block.length)
    (hnodup : locators.Nodup) (hset : locators.toFinset = (errorPositions received block).image (locatorAt prim received.length)) :
    rsCorrect prim received.length (locators.zip (locators.map (magnitudeAt prim received block))) received = .ok block := by
  have hmem (l : Byte) : l ∈ locators ↔ ∃ p ∈ errorPositions received block, locatorAt prim received.length p = l := by
    rw [← List.mem_toFinset, hset, Finset.mem_image]
  have hgood : ∀ e ∈ locators.zip (locators.map (magnitudeAt prim received block)), e.1 ≠ 0 ∧ gfLog prim e.1 < received.length := by
    intro e he
    obtain ⟨p, hp, hpe⟩ := (hmem _).mp (List.of_mem_zip (a := e.1) (b := e.2) he).1
    obtain ⟨hlt, hlog⟩ := gfLog_locatorAt hprim hn hfirst hp
    rw [← hpe]
    exact ⟨gfExp_ne_zero hprim _, by omega⟩
  rw [rsCorrect_eq_ok hgood rfl]
  refine congrArg Except.ok (List.ext_getElem (by simp [hlen]) fun p h1 h2 => ?_)
  rw [List.getElem_map, List.getElem_range, ← List.getD_eq_getElem block 0 h2]
  have hp : p < received.length := hlen ▸ h2
  have hpos (l : Byte) (hl : l ∈ locators) (hlog : gfLog prim l + p + 1 = received.length) :
      p ∈ errorPositions received block ∧ locatorAt prim received.length p = l := by
    obtain ⟨q, hq, rfl⟩ := (hmem l).mp hl
    obtain ⟨hlt, hqlog⟩ := gfLog_locatorAt hprim hn hfirst hq
    obtain rfl : q = p := by omega
    exact ⟨hq, rfl⟩
  by_cases herr : p ∈ errorPositions received block
  · obtain ⟨-, hlog⟩ := gfLog_locatorAt hprim hn hfirst herr
    rw [correctedAt_zip_map hnodup _ (a := locatorAt prim received.length p) fun l hl => ⟨fun h => (hpos l hl h).2.symm, fun h => ?_⟩,
      if_pos ((hmem _).mpr ⟨p, herr, rfl⟩), magnitudeAt_locatorAt hprim hn hfirst herr, ← BitVec.xor_assoc, BitVec.xor_self,
      BitVec.zero_xor]
    rw [h, hlog]
    omega
  · have hzero : (0 : Byte) ∉ locators := fun h => by
      obtain ⟨q, -, hq⟩ := (hmem 0).mp h
      exact gfExp_ne_zero hprim _ hq
    rw [correctedAt_zip_map hnodup _ (a := 0) fun l hl => ⟨fun h => absurd (hpos l hl h).1 herr, fun h => absurd (h ▸ hl) hzero⟩,
      if_neg hzero]
    exact not_not.mp fun hne => herr (mem_errorPositions.mpr ⟨hp, hne⟩)

/-! Encoded blocks (R502, R511). -/

/-- An encoded block, as a polynomial, is zero at every root of its generator. -/
theorem eval_encoded {K : Type} [Field K] (φ : FieldView prim K) (hprim : prim ∈ Config.primitivePolys) {base e : Nat} {block : List Byte}
    {q : Poly} (hq : φ.poly block = φ.poly q * φ.poly (gen prim base e)) {i : Nat} (hi : i < e) :
    (φ.poly block).eval (φ.elem (rsRoot prim base i)) = 0 := by
  rw [hq, eval_mul, (φ.peval_eq_zero_iff hprim (gen_normal hprim base e) _).mp ((peval_gen_eq_zero_iff hprim base e _).mpr ⟨i, hi, rfl⟩),
    mul_zero]

/-- An error in the first of 256 codewords has the syndromes of one in the last: both locators are 1 (assumption 19). -/
theorem hasErrors_of_first {K : Type} [Field K] (φ : FieldView prim K) (hprim : prim ∈ Config.primitivePolys) {base e : Nat}
    {block : List Byte} (hlen : block.length = 256) (he : 2 ≤ e)
    (hcode : ∀ i, i < e → (φ.poly block).eval (φ.elem (rsRoot prim base i)) = 0) {x : Byte} (hx : x ≠ 0) :
    HasErrors φ base e (block.modify 0 (· ^^^ x)) {1} fun _ => x := by
  have hlen' : (block.modify 0 (· ^^^ x)).length = 256 := (List.length_modify ..).trans hlen
  have hdiff (p : Nat) (hp : p < 256) : (block.modify 0 (· ^^^ x)).getD p 0 ^^^ block.getD p 0 = if p = 0 then x else 0 := by
    rw [List.getD_eq_getElem _ _ (hlen' ▸ hp), List.getD_eq_getElem _ _ (hlen ▸ hp), List.getElem_modify]
    by_cases h0 : p = 0
    · rw [if_pos h0.symm, if_pos h0, BitVec.xor_comm, ← BitVec.xor_assoc, BitVec.xor_self, BitVec.zero_xor]
    · rw [if_neg (Ne.symm h0), if_neg h0]
      exact BitVec.xor_self
  have hpositions : errorPositions (block.modify 0 (· ^^^ x)) block = {0} := by
    ext p
    rw [mem_errorPositions, Finset.mem_singleton, hlen']
    refine ⟨fun ⟨hp, hne⟩ => ?_, fun h => ⟨by omega, fun he => ?_⟩⟩
    · by_contra h0
      exact hne (BitVec.xor_eq_zero_iff.mp ((hdiff p hp).trans (if_neg h0)))
    · exact hx (((hdiff p (by omega)).trans (if_pos h)).symm.trans (BitVec.xor_eq_zero_iff.mpr he))
  have hone : locatorAt prim 256 0 = 1 := gfExp_255 hprim
  refine ⟨Finset.singleton_nonempty 1, by decide, he, fun _ _ => hx, fun i hi => ?_⟩
  rw [elem_syndrome φ hprim (hlen'.trans hlen.symm) (List.ne_nil_of_length_pos (by omega)) hcode hi, hpositions, Finset.sum_singleton,
    Finset.sum_singleton, hlen', hone, hdiff 0 (by decide), if_pos rfl]

/-- Settles O39: the errors of a received block are those that the decoder finds, and correcting them restores the encoded block. -/
theorem encodedBlocksHaveZeroSyndromes : Obligations.EncodedBlocksHaveZeroSyndromes := by
  intro prim hprim base e data hbase he hdata hlen
  obtain ⟨ec, q, hec, hecLen, hq⟩ := rsEncode_eq_ok hprim base hdata (Nat.one_le_iff_ne_zero.mp he)
  obtain ⟨K, _, ⟨φ⟩⟩ := exists_fieldView hprim
  have hcode (i : Nat) (hi : i < e) : (φ.poly (data ++ ec)).eval (φ.elem (rsRoot prim base i)) = 0 := eval_encoded φ hprim (hq K φ) hi
  have hblock : (data ++ ec).length = data.length + e := by rw [List.length_append, hecLen]
  refine ⟨ec, hec, hecLen, noErrors_iff.mpr fun i hi => ?_, fun received hr hpos hle hfirst => ?_, fun h256 h2 x hx => ?_⟩
  · rw [φ.peval_eq_zero_iff hprim (normalPoly_norm (by simp [hdata])), φ.poly_norm]
    exact hcode i hi
  · have hn : received.length ≤ 256 := hr.trans_le hlen
    have herr := hasErrors_of_received φ hprim hn hfirst (hr.trans hblock.symm) hcode hpos hle
    obtain ⟨locators, hnodup, hset, hdec⟩ := herr.rsDecode_eq hprim hbase
    rw [rsCorrect_errors hprim hn hfirst (hr.trans hblock.symm) hnodup hset, bind_ok] at hdec
    refine ⟨herr.noErrors_eq_false, _, hdec, rfl, ?_⟩
    rw [← List.toFinset_card_of_nodup hnodup, hset, Finset.card_image_of_injOn (locatorAt_injOn hprim hn hfirst), card_errorPositions]
  · have hlen256 : (data ++ ec).length = 256 := hblock.trans h256
    obtain ⟨locators, hnodup, hset, hdec⟩ := (hasErrors_of_first φ hprim hlen256 h2 hcode hx).rsDecode_eq hprim hbase
    obtain rfl : locators = [1] := by
      refine List.perm_singleton.mp (List.perm_of_nodup_nodup_toFinset_eq hnodup (List.nodup_singleton 1) ?_)
      rw [hset]
      rfl
    have hcorr : rsCorrect prim ((data ++ ec).modify 0 (· ^^^ x)).length [(1, x)] ((data ++ ec).modify 0 (· ^^^ x))
        = .ok (((data ++ ec).modify 0 (· ^^^ x)).modify 255 (· ^^^ x)) := by
      rw [List.length_modify, hlen256]
      rfl
    exact ⟨_, hdec.trans (congrArg (· >>= _) hcorr), rfl, rfl⟩

end Sys2Proof.Machine
end

section
/-! PROOFS (44_bitvec.md R600 to R616, 45_bitmatrix.md R660 to R668). The bit-vector commands: what each stores and the size it leaves, and
the round trip of an appended value; and the failures of the bit-vector and bit-matrix commands. -/

namespace Sys2Proof.Machine

variable {s : State}

/-! Failures (60_exceptions.md R930). -/

/-- A command whose first check passes and whose second does not fails with the second. -/
theorem State.complete_check_check_of_false {c d : Bool} (hc : c = true) (hd : d = false) (f g : Failure)
    (k : Unit → Unit → Except Failure State) :
    s.complete (check c f >>= fun a => check d g >>= k a) = .next (s.failed g.code g.sub) :=
  (State.complete_check hc _ _).trans (State.complete_check_of_false hd _ _)

theorem decide_and_decide_eq_true {p q : Prop} [Decidable p] [Decidable q] (h : p ∧ q) : (decide p && decide q) = true := by
  rwa [← Bool.decide_and, decide_eq_true_iff]

theorem decide_and_decide_eq_false {p q : Prop} [Decidable p] [Decidable q] (h : ¬ (p ∧ q)) : (decide p && decide q) = false := by
  rwa [← Bool.decide_and, decide_eq_false_iff_not]

/-- `BM_SETREGION` reports an empty region and one that leaves the matrix alike (45_bitmatrix.md R664). -/
theorem exec_bmSetregion_of_bad_region
    (h : s.operand 2 = 0 ∨ s.operand 3 = 0 ∨ s.bmW < s.operand 0 + s.operand 2 ∨ s.bmH < s.operand 1 + s.operand 3) :
    exec .bmSetregion s = .next (s.failed 0x01 0x09) := by
  by_cases hne : 1 ≤ s.operand 2 ∧ 1 ≤ s.operand 3
  · exact State.complete_check_check_of_false (decide_and_decide_eq_true hne) (decide_and_decide_eq_false (by omega)) _ _ _
  · exact State.complete_check_of_false (decide_and_decide_eq_false hne) _ _

/-- Settles O50: each command checks its operands in turn and fails at the first that is out of range. -/
theorem bankAndMatrixCommandsFail : Obligations.BankAndMatrixCommandsFail := by
  intro s x y
  refine ⟨fun hn => State.complete_check_of_false (decide_eq_false (Nat.not_le.mpr hn)) _ _,
    fun hn hfull => State.complete_check_check_of_false (decide_eq_true hn) (decide_eq_false (Nat.not_le.mpr hfull)) _ _ _,
    fun hi => State.complete_check_of_false (decide_eq_false (Nat.not_lt.mpr hi)) _ _,
    fun hi => State.complete_check_of_false (decide_eq_false (Nat.not_lt.mpr hi)) _ _,
    fun hne => State.complete_check_of_false (decide_eq_false hne) _ _,
    fun hbits => State.complete_check_of_false (decide_eq_false (Nat.not_le.mpr hbits)) _ _,
    fun hbits hbytes => State.complete_check_check_of_false (decide_eq_true hbits) (decide_eq_false (Nat.not_le.mpr hbytes)) _ _ _,
    fun hsize => State.complete_check_of_false (decide_eq_false (Nat.not_le.mpr hsize)) _ _,
    fun hzero => ?_, fun hw hh hlarge => ?_, fun hxy => ?_, exec_bmSetregion_of_bad_region,
    fun hy => State.complete_check_of_false (decide_eq_false (Nat.not_lt.mpr hy)) _ _,
    fun hx => State.complete_check_of_false (decide_eq_false (Nat.not_lt.mpr hx)) _ _⟩
  · exact State.complete_check_of_false (decide_and_decide_eq_false (by omega)) _ _
  · exact State.complete_check_check_of_false (decide_and_decide_eq_true (by omega)) (decide_and_decide_eq_false (by omega)) _ _ _
  · have houtside : (decide (s.operand 0 < s.bmW) && decide (s.operand 1 < s.bmH)) = false := decide_and_decide_eq_false (by omega)
    exact ⟨State.complete_check_of_false houtside _ _, State.complete_check_of_false houtside _ _⟩

/-! Stores (20_memory.md R205) and the bytes of a bank (R604). -/

theorem Memory.writeBits_storesBits (m : Memory) (base i n : Nat) (f : Nat → Bool) :
    StoresBits m (m.writeBits base i n f) base i n f :=
  m.read_writeBits base i n f

/-- Clearing bytes clears all their bits. -/
theorem Memory.fill_storesBits (m : Memory) (base n : Nat) : StoresBits m (m.fill base n 0) base 0 (8 * n) fun _ => false := by
  intro a j hj
  rw [Memory.read_fill]
  by_cases h : base ≤ a ∧ a < base + n
  · rw [if_pos h, if_pos (by omega)]
    exact BitVec.getLsbD_zero
  · rw [if_neg h, if_neg (by omega)]

theorem State.toBytes_length (s : State) (b : Bank) (bitOffset count : Nat) : (s.toBytes b bitOffset count).length = count := by
  rw [State.toBytes, List.length_map, List.length_range]

/-- Byte `i` of those taken from a bank holds the eight bits from `8 * i` on, the first as the highest (R604). -/
theorem State.toBytes_getLsbD (s : State) (b : Bank) (bitOffset : Nat) {count i j : Nat} (hi : i < count) (hj : j < 8) :
    ((s.toBytes b bitOffset count).getD i 0).getLsbD (7 - j) = s.mem.bit (bankBase b) (bitOffset + 8 * i + j) := by
  rw [List.getD_eq_getElem _ _ (by rwa [State.toBytes_length])]
  simp only [State.toBytes, List.getElem_map, List.getElem_range]
  rw [State.exportByte, byteOfBits_getLsbD _ _ (by omega), Nat.sub_sub_self (by omega), State.bvBit]

/-! Completions (R610 to R616). -/

theorem State.setMem_setBvSize_self (s : State) (m : Memory) (b : Bank) : (s.setMem m).setBvSize b (s.bvSize b) = s.setMem m := by
  cases b <;> rfl

/-- A command that passes its check and stores bits in a bank leaves the bank's size as it is. -/
theorem State.complete_check_setBvBits {c : Bool} (h : c = true) (f : Failure) (x : Bank) (i n : Nat) (g : Nat → Bool) :
    s.complete (check c f >>= fun _ => pure (s.setBvBits x i n g)) =
      .next (State.succeed (State.setBvSize { s with mem := s.mem.writeBits (bankBase x) i n g } x (s.bvSize x))) := by
  rw [State.complete_check h]
  exact congrArg (Host.Outcome.next ∘ State.succeed) (s.setMem_setBvSize_self _ x).symm

/-- `BV_APPEND` of a value that fits the bank: its bits follow the bank's, the highest first (R601, R611). -/
theorem exec_bvAppend_of_fits (x : Bank) (hn : s.operand 1 ≤ 32) (hfits : s.bvSize x + s.operand 1 ≤ 32768) :
    exec (.bvAppend x) s = .next (((s.setBvBits x (s.bvSize x) (s.operand 1) fun k =>
      (s.latch.getD 0 0).getLsbD (s.operand 1 - 1 - k)).setBvSize x (s.bvSize x + s.operand 1)).succeed) :=
  State.complete_check_check (decide_eq_true hn) (decide_eq_true hfits) _ _ _

/-- Settles O46: each command passes its checks, and its store is one write of bits or bytes. -/
theorem bankCommandsComplete : Obligations.BankCommandsComplete := by
  intro s x y _
  exact ⟨⟨_, rfl, s.mem.fill_storesBits (bankBase x) 0x1000⟩,
    fun hn hfits => ⟨_, exec_bvAppend_of_fits x hn hfits, s.mem.writeBits_storesBits _ _ _ _⟩,
    fun hi => State.complete_check (decide_eq_true hi) _ _,
    fun hi => ⟨_, State.complete_check_setBvBits (decide_eq_true hi) _ _ _ _ _, s.mem.writeBits_storesBits _ _ _ _⟩,
    fun hsize => ⟨_, State.complete_check_setBvBits (decide_eq_true hsize) _ _ _ _ _, s.mem.writeBits_storesBits _ _ _ _⟩,
    fun hbits hbytes => ⟨s.toBytes y (s.operand 0) (s.operand 2), _,
      State.complete_check_check (decide_eq_true hbits) (decide_eq_true hbytes) _ _ _, s.mem.read_write _ _,
      s.toBytes_length y _ _, fun i j hi hj => s.toBytes_getLsbD y _ hi hj⟩,
    fun hsize => State.complete_check (decide_eq_true hsize) _ _⟩

/-! The round trip (R602). -/

/-- The low `n` bits of a number, the first as the highest, are its remainder by `2 ^ n`. -/
theorem sum_testBit_highest_first (v n : Nat) :
    ((List.range n).map fun k => (v.testBit (n - 1 - k)).toNat * 2 ^ (n - 1 - k)).sum = v % 2 ^ n := by
  induction n with
  | zero => exact (Nat.mod_one v).symm
  | succ n ih =>
    have hshift : (fun k => (v.testBit (n + 1 - 1 - k)).toNat * 2 ^ (n + 1 - 1 - k)) ∘ Nat.succ
        = fun k => (v.testBit (n - 1 - k)).toNat * 2 ^ (n - 1 - k) := by
      funext k
      rw [Function.comp_apply, show n + 1 - 1 - k.succ = n - 1 - k by omega]
    rw [List.range_succ_eq_map, List.map_cons, List.map_map, List.sum_cons, hshift, ih, Nat.toNat_testBit, Nat.mod_pow_succ,
      Nat.add_sub_cancel, Nat.sub_zero, Nat.mul_comm, Nat.add_comm]

/-- Settles O47: the new bits are the low bits of the operand, which has no others. -/
theorem appendedBitsReadBack : Obligations.AppendedBitsReadBack := by
  intro s x _ hn hv hfits
  refine ⟨_, exec_bvAppend_of_fits x hn hfits, ?_, ?_⟩
  · exact (State.setBvSize_bvSize _ x x _).trans (if_pos rfl)
  · calc _ = ((List.range (s.operand 1)).map fun k =>
          ((s.operand 0).testBit (s.operand 1 - 1 - k)).toNat * 2 ^ (s.operand 1 - 1 - k)).sum := by
          refine congrArg List.sum (List.map_congr_left fun k hk => ?_)
          have hlt := List.mem_range.mp hk
          rw [State.succeed_mem, State.setBvSize_mem, State.setBvBits_eq, State.setMem_mem, Memory.bit_writeBits, if_pos (by omega),
            Nat.add_sub_cancel_left]
          rfl
      _ = s.operand 0 % 2 ^ s.operand 1 := sum_testBit_highest_first _ _
      _ = s.operand 0 := Nat.mod_eq_of_lt hv

end Sys2Proof.Machine
end

section
/-! PROOFS (45_bitmatrix.md R650 to R652, R660 to R664, R667, R668). The bit-matrix commands: which cells a stretch of a row and a
rectangle leave set, and what each command stores. -/

namespace Sys2Proof.Machine

variable {s : State}

/-! The order of the cells' bits (R650). -/

/-- A stretch of one row ends before every later row. -/
theorem State.bmBitIndex_add_le_of_lt {x y n i j : Nat} (hx : x + n ≤ s.bmW) (hlt : y < j) :
    s.bmBitIndex x y + n ≤ s.bmBitIndex i j := by
  have hwidth : s.bmW ≤ 32 * s.bmRowSize := by unfold State.bmRowSize; omega
  have hrow : s.bmRowSize * (y + 1) ≤ s.bmRowSize * j := Nat.mul_le_mul_left _ hlt
  rw [Nat.mul_add_one] at hrow
  unfold State.bmBitIndex
  omega

/-- The bits of a stretch of one row are the bits of its own cells and of no other cell. -/
theorem State.bmBitIndex_mem_stretch {x y n i j : Nat} (hx : x + n ≤ s.bmW) (hi : i < s.bmW) :
    (s.bmBitIndex x y ≤ s.bmBitIndex i j ∧ s.bmBitIndex i j < s.bmBitIndex x y + n) ↔ j = y ∧ x ≤ i ∧ i < x + n := by
  rcases Nat.lt_trichotomy j y with hj | rfl | hj
  · have := s.bmBitIndex_add_le_of_lt (i := x) (n := 1) hi hj
    omega
  · simp only [State.bmBitIndex, true_and]
    omega
  · have := s.bmBitIndex_add_le_of_lt (i := i) hx hj
    omega

/-! The cells after a write of a stretch and of a rectangle (R663, R664). -/

theorem State.setBmRow_bmCell {x y n : Nat} (f : Nat → Bool) (hx : x + n ≤ s.bmW) (hy : y < s.bmH) (i j : Nat) :
    (s.setBmRow x y n f).bmCell i j = if j = y ∧ x ≤ i ∧ i < x + n then f (i - x) else s.bmCell i j := by
  by_cases hcell : i < s.bmW ∧ j < s.bmH
  · obtain ⟨hi, hj⟩ := hcell
    simp only [State.bmCell, State.setBmRow_eq, State.setMem_bmW, State.setMem_bmH, State.setMem_mem, State.setMem_bmBitIndex,
      hi, hj, decide_true, Bool.true_and, Memory.bit_writeBits, State.bmBitIndex_mem_stretch hx hi]
    split
    · next hin => rw [hin.1, State.bmBitIndex, State.bmBitIndex, Nat.add_sub_add_left]
    · rfl
  · rw [if_neg (by omega), State.bmCell_outside hcell]
    exact State.bmCell_outside (s := s.setBmRow x y n f) hcell

/-- `BM(x + c, y + k) <- f k c` for `c < w` and `k < h`, row after row. -/
def State.setBmRect (s : State) (x y w h : Nat) (f : Nat → Nat → Bool) : State :=
  (List.range h).foldl (fun u k => u.setBmRow x (y + k) w (f k)) s

theorem State.setBmRect_zero (x y w : Nat) (f : Nat → Nat → Bool) : s.setBmRect x y w 0 f = s := rfl

theorem State.setBmRect_succ (x y w h : Nat) (f : Nat → Nat → Bool) :
    s.setBmRect x y w (h + 1) f = (s.setBmRect x y w h f).setBmRow x (y + h) w (f h) := by
  rw [State.setBmRect, List.range_succ, List.foldl_append]
  rfl

/-- Writing a rectangle changes the memories alone. -/
theorem State.setBmRect_eq_setMem (x y w h : Nat) (f : Nat → Nat → Bool) :
    s.setBmRect x y w h f = s.setMem (s.setBmRect x y w h f).mem := by
  induction h with
  | zero => rfl
  | succ h ih =>
    rw [State.setBmRect_succ, ih]
    rfl

theorem State.setBmRect_bmCell {x y w h : Nat} (f : Nat → Nat → Bool) (hx : x + w ≤ s.bmW) (hy : y + h ≤ s.bmH) (i j : Nat) :
    (s.setBmRect x y w h f).bmCell i j
      = if x ≤ i ∧ i < x + w ∧ y ≤ j ∧ j < y + h then f (j - y) (i - x) else s.bmCell i j := by
  induction h with
  | zero => rw [if_neg (by omega), State.setBmRect_zero]
  | succ h ih =>
    have hw : (s.setBmRect x y w h f).bmW = s.bmW := by rw [State.setBmRect_eq_setMem, State.setMem_bmW]
    have hh : (s.setBmRect x y w h f).bmH = s.bmH := by rw [State.setBmRect_eq_setMem, State.setMem_bmH]
    rw [State.setBmRect_succ, State.setBmRow_bmCell _ (hw ▸ hx) (hh ▸ hy), ih (by omega)]
    split
    · next hlast => rw [if_pos (by omega), hlast.1, Nat.add_sub_cancel_left]
    · exact if_congr (by omega) rfl rfl

/-- Writing a rectangle changes bits of its own cells only. -/
theorem State.exists_cell_of_setBmRect_bit_ne {x y w h k : Nat} {f : Nat → Nat → Bool}
    (hk : (s.setBmRect x y w h f).mem.bit bmBase k ≠ s.mem.bit bmBase k) :
    ∃ i j, k = s.bmBitIndex i j ∧ x ≤ i ∧ i < x + w ∧ y ≤ j ∧ j < y + h := by
  induction h with
  | zero => exact absurd rfl hk
  | succ h ih =>
    have hindex : (s.setBmRect x y w h f).bmBitIndex x (y + h) = s.bmBitIndex x (y + h) := by
      rw [State.setBmRect_eq_setMem, State.setMem_bmBitIndex]
    rw [State.setBmRect_succ, State.setBmRow_eq, State.setMem_mem, Memory.bit_writeBits, hindex] at hk
    split at hk
    · next hlast =>
      obtain ⟨c, rfl⟩ := Nat.exists_eq_add_of_le hlast.1
      exact ⟨x + c, y + h, Nat.add_assoc .., by omega⟩
    · obtain ⟨i, j, hij⟩ := ih hk
      exact ⟨i, j, by omega⟩

/-! Completions (R660 to R668). -/

/-- `BM_SETREGION` of a region that is not empty and lies in the matrix sets its cells, in the memories alone (R664). -/
theorem exec_bmSetregion_of_region (hw : 1 ≤ s.operand 2 ∧ 1 ≤ s.operand 3)
    (hfits : s.operand 0 + s.operand 2 ≤ s.bmW ∧ s.operand 1 + s.operand 3 ≤ s.bmH) :
    exec .bmSetregion s = .next (s.setMem
      (s.setBmRect (s.operand 0) (s.operand 1) (s.operand 2) (s.operand 3) fun _ _ => true).mem).succeed := by
  rw [← State.setBmRect_eq_setMem]
  exact State.complete_check_check (decide_and_decide_eq_true hw) (decide_and_decide_eq_true hfits) _ _ _

/-- Settles O48: each command passes its checks; its store is a fill of the matrix, a stretch or a rectangle of cells, or bits of a bank. -/
theorem matrixCommandsComplete : Obligations.MatrixCommandsComplete := by
  intro s b hs
  refine ⟨fun hw hh hw' hh' => ⟨_, State.complete_check_check (decide_and_decide_eq_true ⟨hw, hh⟩)
      (decide_and_decide_eq_true ⟨hw', hh'⟩) _ _ _, s.mem.fill_storesBits bmBase 0x2000⟩,
    ⟨_, rfl, s.mem.fill_storesBits bmBase 0x2000⟩, fun hx hy => ?_, fun hw hh hx hy => ?_,
    fun hy => ⟨_, State.complete_check (decide_eq_true hy) _ _, s.mem.writeBits_storesBits _ _ _ _⟩,
    fun hx => ⟨_, State.complete_check (decide_eq_true hx) _ _, s.mem.writeBits_storesBits _ _ _ _⟩⟩
  · have hcheck := decide_and_decide_eq_true ⟨hx, hy⟩
    refine ⟨State.complete_check hcheck _ _, _, State.complete_check hcheck _ _, fun x y => ?_, s.mem.writeBits_storesBits _ _ _ _⟩
    calc State.bmCell _ x y
        = if y = s.operand 1 ∧ s.operand 0 ≤ x ∧ x < s.operand 0 + 1 then true else s.bmCell x y :=
          State.setBmRow_bmCell (fun _ => true) hx hy x y
      _ = if x = s.operand 0 ∧ y = s.operand 1 then true else s.bmCell x y := if_congr (by omega) rfl rfl
      _ = _ := by rw [Bool.if_true_left, Bool.or_comm]
  · have hend := exec_bmSetregion_of_region ⟨hw, hh⟩ ⟨hx, hy⟩
    refine ⟨_, hend, fun x y => ?_, fun k _ => State.exists_cell_of_setBmRect_bit_ne,
      fun a ha => memoryOwnership .bmSetregion s _ hs rfl hend a fun r hr => List.mem_singleton.mp hr ▸ ha⟩
    refine (congrArg (State.bmCell · x y) (State.setBmRect_eq_setMem ..).symm).trans ?_
    rw [State.setBmRect_bmCell _ hx hy, Bool.if_true_left, Bool.or_comm]

end Sys2Proof.Machine
end

section
/-! PROOFS (45_bitmatrix.md R650, R653, R665, R666). The scans: both search the words and then a word's bits in one order, and find the set
cell whose bit comes first in that order. -/

namespace Sys2Proof.Machine

variable {s : State}

/-! Where a cell's bit lies (R650). -/

/-- A set cell lies in the matrix (R651). -/
theorem State.bmCell_inside {x y : Nat} (h : s.bmCell x y = true) : x < s.bmW ∧ y < s.bmH :=
  Decidable.byContradiction fun hout => Bool.false_ne_true ((State.bmCell_outside hout).symm.trans h)

/-- Bits stand in the matrix store in the row-major order of their cells. -/
theorem State.bmBitIndex_le {x y i j : Nat} (hx : x < s.bmW) (h : y < j ∨ y = j ∧ x ≤ i) : s.bmBitIndex x y ≤ s.bmBitIndex i j := by
  rcases h with hlt | ⟨rfl, hle⟩
  · exact (Nat.le_succ _).trans (s.bmBitIndex_add_le_of_lt (n := 1) hx hlt)
  · exact Nat.add_le_add_left hle _

/-- The bit of cell (x, y) is bit `x % 32` of its word. -/
theorem State.bmBitIndex_eq_word (x y : Nat) : s.bmBitIndex x y = 32 * (s.bmRowSize * y + x / 32) + x % 32 := by
  rw [State.bmBitIndex]
  omega

/-- The word of a set cell is one of the matrix's words. -/
theorem State.word_lt {x y : Nat} (h : s.bmCell x y = true) : s.bmRowSize * y + x / 32 < s.bmRowSize * s.bmH := by
  obtain ⟨hx, hy⟩ := State.bmCell_inside h
  have hbefore := s.bmBitIndex_add_le_of_lt (i := 0) (n := 1) hx hy
  rw [State.bmBitIndex_eq_word, State.bmBitIndex] at hbefore
  omega

/-- A set bit of a matrix word is a set cell's (R651). -/
theorem State.exists_bmCell_of_bmWord {o j : Nat} (h : (s.bmWord o).getLsbD j = true) :
    ∃ x y, s.bmCell x y = true ∧ s.bmBitIndex x y = 32 * o + j := by
  rw [s.bmWord_getLsbD o (BitVec.lt_of_getLsbD h)] at h
  refine ⟨_, _, h, ?_⟩
  rw [State.bmBitIndex, ← Nat.add_assoc, ← Nat.mul_add, Nat.div_add_mod]

/-! Scans in one order (R653). -/

/-- The words of the matrix in the order of `words`, and in the first that is not zero its bits in the order of `bits`. -/
def State.scan (s : State) (words bits : List Nat) : Option (Nat × Nat) := do
  let o ← words.find? fun o => decide (s.bmWord o ≠ 0)
  let j ← bits.find? fun j => (s.bmWord o).getLsbD j
  return s.bmPosition o j

theorem State.topLeft_eq_scan : s.topLeft = s.scan (List.range (s.bmRowSize * s.bmH)) (List.range 32) := rfl

theorem State.bottomRight_eq_scan :
    s.bottomRight = s.scan (List.range (s.bmRowSize * s.bmH)).reverse (List.range 32).reverse := rfl

/-- A scan of a matrix without a set cell finds none. -/
theorem State.scan_eq_none (h : ∀ x y, s.bmCell x y = false) (words bits : List Nat) : s.scan words bits = none := by
  have hwords : words.find? (fun o => decide (s.bmWord o ≠ 0)) = none := by
    refine List.find?_eq_none.mpr fun o _ ho => ?_
    obtain ⟨x, y, hset, -⟩ := State.exists_bmCell_of_bmWord (BitVec.getLsbD_true_ctz_of_ne_zero (of_decide_eq_true ho))
    exact Bool.false_ne_true ((h x y).symm.trans hset)
  rw [State.scan, hwords]
  rfl

/-- A search of a list in order `r` finds the element that meets the condition when none before it does. -/
theorem find?_eq_some_of_first {r : Nat → Nat → Prop} {l : List Nat} {p : Nat → Bool} {a : Nat} (hl : l.Pairwise r) (ha : a ∈ l)
    (hp : p a = true) (hfirst : ∀ b, r b a → ¬ p b = true) : l.find? p = some a := by
  induction l with
  | nil => cases ha
  | cons b l ih =>
    obtain ⟨hb, hl⟩ := List.pairwise_cons.mp hl
    rcases List.mem_cons.mp ha with rfl | ha
    · exact List.find?_cons_of_pos hp
    · rw [List.find?_cons_of_neg (hfirst b (hb a ha)), ih hl ha]

/-- A scan in order `r`, of the words and of each word's bits and so of all bits of the matrix store, finds the set cell before whose bit
no other set cell's stands. -/
theorem State.scan_eq_some {r : Nat → Nat → Prop} {words bits : List Nat} {x y : Nat}
    (hwords : words.Pairwise r) (hbits : bits.Pairwise r)
    (hr : ∀ {o o' j j'}, j < 32 → j' < 32 → r o' o ∨ o' = o ∧ r j' j → r (32 * o' + j') (32 * o + j))
    (hword : s.bmRowSize * y + x / 32 ∈ words) (hbit : x % 32 ∈ bits)
    (hset : s.bmCell x y = true) (hfirst : ∀ x' y', s.bmCell x' y' = true → ¬ r (s.bmBitIndex x' y') (s.bmBitIndex x y)) :
    s.scan words bits = some (x, y) := by
  obtain ⟨hx, -⟩ := State.bmCell_inside hset
  obtain ⟨hcol, hrow⟩ := s.word_of_column y hx
  have hposition : s.bmPosition (s.bmRowSize * y + x / 32) (x % 32) = (x, y) := by
    rw [State.bmPosition, hcol, hrow, Nat.div_add_mod]
  rw [s.bmCell_eq_bmWord y hx] at hset
  rw [State.bmBitIndex_eq_word] at hfirst
  generalize s.bmRowSize * y + x / 32 = o at *
  have hbefore {o' j' : Nat} (h : r o' o ∨ o' = o ∧ r j' (x % 32)) : ¬ (s.bmWord o').getLsbD j' = true := fun hset' => by
    obtain ⟨x', y', hcell, hindex⟩ := State.exists_bmCell_of_bmWord hset'
    exact hfirst x' y' hcell (hindex ▸ hr (Nat.mod_lt _ (by decide)) (BitVec.lt_of_getLsbD hset') h)
  have hfindWord : words.find? (fun o => decide (s.bmWord o ≠ 0)) = some o := by
    refine find?_eq_some_of_first hwords hword (decide_eq_true fun h0 => ?_) fun o' ho' hne => ?_
    · simp [h0] at hset
    · exact hbefore (.inl ho') (BitVec.getLsbD_true_ctz_of_ne_zero (of_decide_eq_true hne))
  have hfindBit : bits.find? (fun j => (s.bmWord o).getLsbD j) = some (x % 32) :=
    find?_eq_some_of_first hbits hbit hset fun j' hj' => hbefore (.inr ⟨rfl, hj'⟩)
  rw [State.scan, hfindWord, Option.bind_eq_bind, Option.bind_some, hfindBit, ← hposition]
  rfl

/-! The two scans (R653). -/

theorem State.topLeft_eq_some {x y : Nat} (hset : s.bmCell x y = true)
    (hfirst : ∀ x' y', s.bmCell x' y' = true → y < y' ∨ y = y' ∧ x ≤ x') : s.topLeft = some (x, y) := by
  obtain ⟨hx, -⟩ := State.bmCell_inside hset
  rw [State.topLeft_eq_scan]
  exact State.scan_eq_some List.pairwise_lt_range List.pairwise_lt_range (by omega) (List.mem_range.mpr (State.word_lt hset))
    (List.mem_range.mpr (Nat.mod_lt _ (by decide))) hset
    fun x' y' h => Nat.not_lt.mpr (State.bmBitIndex_le hx (hfirst x' y' h))

theorem State.bottomRight_eq_some {x y : Nat} (hset : s.bmCell x y = true)
    (hlast : ∀ x' y', s.bmCell x' y' = true → y' < y ∨ y' = y ∧ x' ≤ x) : s.bottomRight = some (x, y) := by
  have hreverse (n : Nat) : (List.range n).reverse.Pairwise (· > ·) := List.pairwise_reverse.mpr List.pairwise_lt_range
  rw [State.bottomRight_eq_scan]
  exact State.scan_eq_some (hreverse _) (hreverse _) (by omega)
    (List.mem_reverse.mpr (List.mem_range.mpr (State.word_lt hset)))
    (List.mem_reverse.mpr (List.mem_range.mpr (Nat.mod_lt _ (by decide)))) hset
    fun x' y' h => Nat.not_lt.mpr (State.bmBitIndex_le (State.bmCell_inside h).1 (hlast x' y' h))

theorem exec_bmTopleft_of_scan {p : Option (Nat × Nat)} (h : s.topLeft = p) : exec .bmTopleft s = .next (s.setScan p).succeed :=
  h ▸ rfl

theorem exec_bmBotright_of_scan {p : Option (Nat × Nat)} (h : s.bottomRight = p) : exec .bmBotright s = .next (s.setScan p).succeed :=
  h ▸ rfl

/-- Settles O49: what each scan finds is known, and the command reports it in three result registers. -/
theorem scansFindFirstAndLastCell : Obligations.ScansFindFirstAndLastCell := by
  intro s _
  refine ⟨fun hclear => ⟨?_, ?_⟩, fun x y hset => ⟨fun hfirst => ?_, fun hlast => ?_⟩⟩
  · exact exec_bmTopleft_of_scan (State.topLeft_eq_scan.trans (State.scan_eq_none hclear _ _))
  · exact exec_bmBotright_of_scan (State.bottomRight_eq_scan.trans (State.scan_eq_none hclear _ _))
  · exact exec_bmTopleft_of_scan (State.topLeft_eq_some hset hfirst)
  · exact exec_bmBotright_of_scan (State.bottomRight_eq_some hset hlast)

end Sys2Proof.Machine
end

section
/-! PROOFS (46_symbol.md R720 to R724, R740 to R748; 47_mask.md R800, R810 to R814). The failures of the symbol, mask and BCH commands on
their operands; the mask functions and the type and version words, with the commands that answer them. -/

namespace Sys2Proof.Machine

variable {s : State}

/-! Failures (60_exceptions.md R930). -/

/-- A command goes on with the value that a part of its computation answers. -/
theorem State.complete_of_ok {α : Type} {x : Except Failure α} {a : α} (h : x = .ok a) (k : α → Except Failure State) :
    s.complete (x >>= k) = s.complete (k a) := by rw [h, bind_ok]

/-- A command fails as a part of its computation does. -/
theorem State.complete_of_error {α : Type} {x : Except Failure α} {f : Failure} (h : x = .error f) (k : α → Except Failure State) :
    s.complete (x >>= k) = .next (s.failed f.code f.sub) := by rw [h, bind_error]; rfl

/-- There is no symbol exactly when `SYMN` is 0 (46_symbol.md R701). -/
theorem State.symN_eq_zero_iff : s.symN = 0 ↔ s.symV = 0 := by
  unfold State.symN
  split <;> omega

theorem State.symN_of_ne (h : s.symV ≠ 0) : s.symN = 4 * s.symV + 17 := if_neg h

/-- The check for a symbol, as the commands make it, passes when there is one. -/
theorem State.hasSymbol (h : s.symV ≠ 0) : decide (s.symN ≠ 0) = true := decide_eq_true (mt State.symN_eq_zero_iff.mp h)

theorem typeBits_of_mask_gt {ecl mask : Nat} (h : 7 < mask) : typeBits ecl mask = .error .typeMask := by
  rw [typeBits, decide_eq_false (Nat.not_le.mpr h)]
  rfl

/-- A register value other than the three of R702 stands for no cell. -/
theorem Cell.ofWord_eq_none {v : Word} (h0 : v.toNat ≠ 0) (h1 : v.toNat ≠ 1) (hempty : v.toNat ≠ 0xFFFFFFFF) : Cell.ofWord v = none := by
  rw [Cell.ofWord, if_neg (mt (congrArg BitVec.toNat) hempty), if_neg (mt (congrArg BitVec.toNat) h0),
    if_neg (mt (congrArg BitVec.toNat) h1)]

/-- Settles O60: each command checks its operands in turn and fails at the first that is out of range. -/
theorem symbolAndMaskCommandsFail : Obligations.SymbolAndMaskCommandsFail := by
  intro s b
  refine ⟨fun h0 => ?_, fun hsym hxy => ?_, fun hx hy h0 h1 hempty => ?_, fun hsym hecl => ?_, fun hsym hecl hmask => ?_,
    fun hsym hmask h15 => ?_, fun hv => ?_, fun hv => ?_, fun hv hv' hecl => ?_, fun hv hv' hecl hmask => ?_,
    fun hm => State.complete_check_of_false (decide_eq_false (Nat.not_le.mpr hm)) _ _, fun hm hxy => ?_,
    fun hecl => State.complete_check_of_false (decide_eq_false (Nat.not_le.mpr hecl)) _ _, fun hecl hmask => ?_⟩
  · have hnone : decide (s.symN ≠ 0) = false := decide_eq_false (not_not.mpr (State.symN_eq_zero_iff.mpr h0))
    exact ⟨State.complete_check_of_false hnone _ _, State.complete_check_of_false hnone _ _, State.complete_check_of_false hnone _ _,
      State.complete_check_of_false hnone _ _, State.complete_check_of_false hnone _ _, State.complete_check_of_false hnone _ _,
      State.complete_check_of_false hnone _ _, State.complete_check_of_false hnone _ _⟩
  · have houtside : (decide (s.operand 0 < s.symN) && decide (s.operand 1 < s.symN)) = false := decide_and_decide_eq_false (by omega)
    exact ⟨State.complete_check_check_of_false (State.hasSymbol hsym) houtside _ _ _,
      State.complete_check_check_of_false (State.hasSymbol hsym) houtside _ _ _⟩
  · refine (State.complete_check_check (decide_eq_true (Nat.ne_zero_of_lt hx)) (decide_and_decide_eq_true ⟨hx, hy⟩) _ _ _).trans ?_
    rw [Cell.ofWord_eq_none h0 h1 hempty]
    rfl
  · exact State.complete_check_check_of_false (State.hasSymbol hsym) (decide_eq_false (Nat.not_le.mpr hecl)) _ _ _
  · exact (State.complete_check_check (State.hasSymbol hsym) (decide_eq_true hecl) _ _ _).trans
      (State.complete_of_error (typeBits_of_mask_gt hmask) _)
  · refine State.complete_check_check_of_false (State.hasSymbol hsym) ?_ _ _ _
    rw [decide_eq_false (Nat.not_le.mpr hmask), decide_eq_false h15, Bool.or_false]
  · have hversion : (decide (1 ≤ s.operand 0) && decide (s.operand 0 ≤ 40)) = false := decide_and_decide_eq_false (by omega)
    exact ⟨State.complete_check_of_false hversion _ _, State.complete_check_of_false hversion _ _⟩
  · have hversion : (decide (1 ≤ s.operand 1) && decide (s.operand 1 ≤ 40)) = false := decide_and_decide_eq_false (by omega)
    exact ⟨State.complete_check_of_false hversion _ _, State.complete_check_of_false hversion _ _⟩
  · have hversion := decide_and_decide_eq_true ⟨hv, hv'⟩
    have hlevel : decide (s.operand 0 ≤ 3) = false := decide_eq_false (Nat.not_le.mpr hecl)
    exact ⟨State.complete_check_check_of_false hversion hlevel _ _ _, State.complete_check_check_of_false hversion hlevel _ _ _⟩
  · exact (State.complete_check_check (decide_and_decide_eq_true ⟨hv, hv'⟩) (decide_eq_true hecl) _ _ _).trans
      (State.complete_check_of_false (decide_eq_false (Nat.not_le.mpr hmask)) _ _)
  · exact State.complete_check_check_of_false (decide_eq_true hm) (decide_and_decide_eq_false (by omega)) _ _ _
  · exact (State.complete_check (decide_eq_true hecl) _ _).trans (State.complete_of_error (typeBits_of_mask_gt hmask) _)

/-! The mask functions (47_mask.md R800). -/

theorem maskBit_eq_spec (x y : Nat) :
    maskBit 0 x y = decide ((y + x) &&& 1 = 0) ∧ maskBit 1 x y = decide (y &&& 1 = 0) ∧ maskBit 2 x y = decide (x % 3 = 0)
      ∧ maskBit 3 x y = decide ((y + x) % 3 = 0) ∧ maskBit 4 x y = decide ((y / 2 + x / 3) &&& 1 = 0)
      ∧ maskBit 5 x y = decide (((y * x) &&& 1) + (y * x) % 3 = 0)
      ∧ maskBit 6 x y = decide ((((y * x) &&& 1) + (y * x) % 3) &&& 1 = 0)
      ∧ maskBit 7 x y = decide (((y * x) % 3 + ((y + x) &&& 1)) &&& 1 = 0) := by
  simp only [Nat.and_one_is_mod]
  exact ⟨rfl, rfl, rfl, rfl, rfl, rfl, rfl, rfl⟩

/-! The type and version words (46_symbol.md R720 to R724). -/

/-- The type word before the fixed mask 0x5412: the level's code and the mask index, with their BCH remainder (R722). -/
def typeWord (ecl mask : Nat) : Nat :=
  let ti := (ecCode ecl <<< 3) ||| mask
  (ti <<< 10) ||| bch ti 0x537

theorem typeBits_of_mask_le (ecl : Nat) {mask : Nat} (h : mask ≤ 7) : typeBits ecl mask = .ok (typeWord ecl mask ^^^ 0x5412) := by
  rw [typeBits, decide_eq_true h]
  rfl

/-- Each of the 32 type words has its information in the top bits and is a multiple of the generator. -/
theorem typeWord_spec : ∀ ecl ≤ 3, ∀ mask ≤ 7,
    typeWord ecl mask ^^^ 0x5412 < 2 ^ 15 ∧ typeWord ecl mask / 2 ^ 10 = 8 * [0b01, 0b00, 0b11, 0b10].getD ecl 0 + mask
      ∧ ∃ q, q < 2 ^ 5 ∧ typeWord ecl mask = gf2Product 0x537 q 5 := by
  decide

/-- Each of the 40 version words has the version in the top bits and is a multiple of the generator. -/
theorem versionBits_spec : ∀ v ≤ 40, 1 ≤ v →
    versionBits v < 2 ^ 18 ∧ versionBits v / 2 ^ 12 = v ∧ ∃ q, q < 2 ^ 6 ∧ versionBits v = gf2Product 0x1F25 q 6 := by
  decide +kernel

/-- Settles O57: the words are 32 and 40 in number, and each command passes its checks and writes its answer. -/
theorem maskAndBchWordsComplete : Obligations.MaskAndBchWordsComplete := by
  refine ⟨fun s => ⟨fun hm hx hy => State.complete_check_check (decide_eq_true hm) (decide_and_decide_eq_true ⟨hx, hy⟩) _ _ _,
      fun hecl hmask => ?_, fun hv hv' => ?_⟩, maskBit_eq_spec, fun ecl mask hecl hmask => ?_, fun v hv hv' => ?_, rfl, rfl, rfl, rfl⟩
  · have hbits := typeBits_of_mask_le (s.operand 0) hmask
    exact ⟨_, (typeWord_spec _ hecl _ hmask).1, hbits,
      (State.complete_check (decide_eq_true hecl) _ _).trans (State.complete_of_ok hbits _)⟩
  · exact ⟨(versionBits_spec _ hv' hv).1, State.complete_check (decide_and_decide_eq_true ⟨hv, hv'⟩) _ _⟩
  · obtain ⟨-, htop, q, hq, hword⟩ := typeWord_spec ecl hecl mask hmask
    exact ⟨_, q, typeBits_of_mask_le ecl hmask, htop, hq, hword⟩
  · exact (versionBits_spec v hv' hv).2

end Sys2Proof.Machine
end

section
/-! PROOFS (46_symbol.md R700 to R702, R723, R725, R740 to R742, R744, R745, R748). The cells of a working grid after a list of writes, and the
symbol after a grid or a cell is stored; with them the commands on cells, `SYM_EXPORT`, and the type and version information. -/

namespace Sys2Proof.Machine

variable {s : State} {g : Grid} {n : Nat}

/-! Grids (R700). -/

theorem Grid.cell_outside (hg : g.isSquare n) {x y : Nat} (h : ¬ (x < n ∧ y < n)) : g.cell x y = .white := by
  obtain ⟨hsize, hrow⟩ := hg
  have hlen : (g.getD y #[]).size ≤ x ∨ g.size ≤ y := by
    by_cases hy : y < n
    · exact .inl (by rw [hrow y hy]; omega)
    · exact .inr (by omega)
  rw [Grid.cell]
  rcases hlen with h | h
  · rw [Array.getD_eq_getD_getElem?, Array.getElem?_eq_none h, Option.getD_none]
  · rw [Array.getD_eq_getD_getElem? (xs := g), Array.getElem?_eq_none h]
    rfl

/-- A write of one place leaves every other as it is, whether or not the place exists. -/
theorem Grid.put_cell_of_ne {x y i j : Nat} (h : ¬ (i = x ∧ j = y)) (c : Cell) : (g.put x y c).cell i j = g.cell i j := by
  simp only [Grid.cell, Grid.put, Array.getD_eq_getD_getElem?, Array.getElem?_setIfInBounds]
  by_cases hj : y = j
  · subst hj
    have hi : x ≠ i := fun hi => h ⟨hi.symm, rfl⟩
    by_cases hs : y < g.size <;> simp [hs, hi]
  · simp [hj]

/-- A place inside a grid after the write of any place. -/
theorem Grid.put_cell_inside (hg : g.isSquare n) {i j : Nat} (hi : i < n) (hj : j < n) (x y : Nat) (c : Cell) :
    (g.put x y c).cell i j = if i = x ∧ j = y then c else g.cell i j := by
  by_cases h : i = x ∧ j = y
  · obtain ⟨rfl, rfl⟩ := h
    exact Grid.put_cell hg hi hj c i j
  · rw [if_neg h, Grid.put_cell_of_ne h]

/-! Lists of writes. -/

theorem Grid.putAll_cons (c : Nat × Nat × Cell) (l : List (Nat × Nat × Cell)) :
    g.putAll (c :: l) = (g.put c.1 c.2.1 c.2.2).putAll l := rfl

theorem Grid.putAll_append (l l' : List (Nat × Nat × Cell)) : g.putAll (l ++ l') = (g.putAll l).putAll l' := List.foldl_append

theorem Grid.putAll_isSquare (hg : g.isSquare n) (l : List (Nat × Nat × Cell)) : (g.putAll l).isSquare n := by
  induction l generalizing g with
  | nil => exact hg
  | cons c l ih => exact ih (Grid.put_isSquare hg _ _ _)

/-- Places that a list of writes does not name keep their cells. -/
theorem Grid.putAll_cell_of_notMem {l : List (Nat × Nat × Cell)} {x y : Nat} (h : ∀ c, (x, y, c) ∉ l) :
    (g.putAll l).cell x y = g.cell x y := by
  induction l generalizing g with
  | nil => rfl
  | cons d l ih =>
    rw [Grid.putAll_cons, ih fun c hc => h c (List.mem_cons_of_mem d hc)]
    refine Grid.put_cell_of_ne (fun hd => h d.2.2 ?_) _
    rw [hd.1, hd.2]
    exact List.mem_cons_self

/-- A place for which a list of writes names one cell only takes that cell. -/
theorem Grid.putAll_cell_of_mem (hg : g.isSquare n) {l : List (Nat × Nat × Cell)} {x y : Nat} {c : Cell} (hx : x < n) (hy : y < n)
    (hmem : (x, y, c) ∈ l) (hone : ∀ d, (x, y, d) ∈ l → d = c) : (g.putAll l).cell x y = c := by
  induction l generalizing g with
  | nil => cases hmem
  | cons d l ih =>
    rw [Grid.putAll_cons]
    by_cases hlater : ∃ e, (x, y, e) ∈ l
    · obtain ⟨e, he⟩ := hlater
      obtain rfl := hone e (List.mem_cons_of_mem d he)
      exact ih (Grid.put_isSquare hg _ _ _) he fun e he => hone e (List.mem_cons_of_mem d he)
    · rw [Grid.putAll_cell_of_notMem (not_exists.mp hlater)]
      obtain rfl := (List.mem_cons.mp hmem).resolve_right fun h => hlater ⟨c, h⟩
      exact (Grid.put_cell_inside hg hx hy x y c).trans (if_pos ⟨rfl, rfl⟩)

/-! The symbol after a store (20_memory.md R204). -/

/-- The cells of a symbol after a store are those stored. -/
theorem StoresCells.cellIn_eq {m m' : Memory} {c : Nat → Nat → Cell} (h : StoresCells m m' n c) (hn : n ≤ 177) {x y : Nat}
    (hx : x < n) (hy : y < n) : cellIn m' x y = c x y := by
  have hbit (b : Nat) (hb : b < 2) : m'.bit (symRowBase y) (2 * x + b) = (c x y).codeBit b := by
    have hrow : (symRowBase y + (2 * x + b) / 8 - 0xA000) / 48 = y := by simp only [symRowBase]; omega
    have hcolumn : 8 * ((symRowBase y + (2 * x + b) / 8 - 0xA000) % 48) + (2 * x + b) % 8 = 2 * x + b := by
      simp only [symRowBase]; omega
    rw [Memory.bit, h _ _ (Nat.mod_lt _ (by decide)), hrow, hcolumn, if_pos ⟨by simp only [symRowBase]; omega, hy, by omega⟩,
      show (2 * x + b) / 2 = x by omega, show (2 * x + b) % 2 = b by omega]
  exact (congrArg₂ Cell.ofCode (hbit 0 (by decide)) (hbit 1 (by decide))).trans (Cell.ofCode_codeBit _)

theorem StoresCells.symCell_eq {m : Memory} {c : Nat → Nat → Cell} (h : StoresCells s.mem m s.symN c) (hn : s.symN ≤ 177) {x y : Nat}
    (hx : x < s.symN) (hy : y < s.symN) : (s.setMem m).symCell x y = c x y := (if_pos ⟨hx, hy⟩).trans (h.cellIn_eq hn hx hy)

/-- Only the cells of the symbol matter to a store of it. -/
theorem StoresCells.congr {m m' : Memory} {c d : Nat → Nat → Cell} (h : StoresCells m m' n c)
    (hcd : ∀ x y, x < n → y < n → c x y = d x y) : StoresCells m m' n d := by
  intro a j hj
  rw [h a j hj]
  split
  · next hin => rw [hcd _ _ (by omega) hin.2.1]
  · rfl

theorem Memory.storeGrid_storesCells (m : Memory) (hn : n ≤ 177) (g : Grid) :
    StoresCells m (m.storeGrid n g) n fun x y => g.cell x y := m.read_storeGrid hn g

/-- Writing one cell of the symbol changes that cell and no other (R702). -/
theorem State.setSymCell_symCell (hn : s.symN ≤ 177) {x y : Nat} (hx : x < s.symN) (hy : y < s.symN) (c : Cell) (i j : Nat) :
    (s.setSymCell x y c).symCell i j = if i = x ∧ j = y then c else s.symCell i j := by
  have hbit (k : Nat) (hk : k < 2) (hi : i < s.symN) :
      (s.mem.writeBits (symRowBase y) (2 * x) 2 c.codeBit).bit (symRowBase j) (2 * i + k)
        = if i = x ∧ j = y then c.codeBit k else s.mem.bit (symRowBase j) (2 * i + k) := by
    have haddress : 8 * (symRowBase j + (2 * i + k) / 8) + (2 * i + k) % 8 = 8 * symRowBase j + (2 * i + k) := by omega
    have hrow : symRowBase j = 0xA000 + 48 * j ∧ symRowBase y = 0xA000 + 48 * y := ⟨rfl, rfl⟩
    rw [Memory.bit, Memory.read_writeBits _ _ _ _ _ _ _ (Nat.mod_lt _ (by decide)), haddress, Memory.bit]
    by_cases hcell : i = x ∧ j = y
    · obtain ⟨rfl, rfl⟩ := hcell
      rw [if_pos (by omega), if_pos ⟨rfl, rfl⟩, ← Nat.add_assoc, Nat.add_sub_cancel_left]
    · rw [if_neg (by omega), if_neg hcell]
  rw [State.setSymCell_eq, State.symCell, State.setMem_symN, State.setMem_mem, State.symCell]
  by_cases hin : i < s.symN ∧ j < s.symN
  · rw [if_pos hin, if_pos hin]
    refine (congrArg₂ Cell.ofCode (hbit 0 (by decide) hin.1) (hbit 1 (by decide) hin.1)).trans ?_
    split
    · exact Cell.ofCode_codeBit c
    · rfl
  · rw [if_neg hin, if_neg hin, if_neg (by omega)]

/-! Commands on cells, and `SYM_EXPORT` (R740 to R742, R748). -/

theorem exec_symInit_of_version (hv : 1 ≤ s.operand 0) (hv' : s.operand 0 ≤ 40) :
    exec .symInit s = .next (State.succeed { s with
      symV := s.operand 0
      mem := s.mem.storeGrid (4 * s.operand 0 + 17) (Grid.blank (4 * s.operand 0 + 17)) }) := by
  refine (State.complete_check (decide_and_decide_eq_true ⟨hv, hv'⟩) _ _).trans ?_
  rw [State.setSymGrid_eq, State.setSymV_symN, if_neg (by omega)]
  rfl

/-- `SYM_EXPORT` writes the black cells as a square of set cells into a new matrix (R748). -/
theorem exec_symExport_of_symbol (h : s.symN ≠ 0) :
    exec .symExport s = .next (State.succeed ((s.newMatrix s.symN s.symN).setMem
      ((s.newMatrix s.symN s.symN).setBmRect 0 0 s.symN s.symN fun y x => decide (s.symGrid.cell x y = .black)).mem)) := by
  rw [← State.setBmRect_eq_setMem, State.setBmRect]
  simp only [Nat.zero_add]
  exact State.complete_check (decide_eq_true h) _ _

/-- The new matrix's cells are set where the symbol is black (R748). -/
theorem State.blackCells_bmCell (hn : s.symN ≤ 177) (x y : Nat) :
    ((s.newMatrix s.symN s.symN).setBmRect 0 0 s.symN s.symN fun y x => decide (s.symGrid.cell x y = .black)).bmCell x y
      = decide (s.symCell x y = .black) := by
  have hdim : 0 + s.symN ≤ (s.newMatrix s.symN s.symN).bmW ∧ 0 + s.symN ≤ (s.newMatrix s.symN s.symN).bmH :=
    ⟨Nat.le_of_eq (Nat.zero_add _), Nat.le_of_eq (Nat.zero_add _)⟩
  rw [State.setBmRect_bmCell _ hdim.1 hdim.2, s.symGrid_cell hn]
  by_cases hin : x < s.symN ∧ y < s.symN
  · rw [if_pos (by omega)]
    rfl
  · rw [if_neg (by omega), State.bmCell_outside (s := s.newMatrix s.symN s.symN) hin, State.symCell, if_neg hin]
    rfl

/-- Settles O51: each command passes its checks; its store is a blank grid, the code of one cell, or a square of matrix cells. -/
theorem symbolCellCommandsComplete : Obligations.SymbolCellCommandsComplete := by
  intro s hs
  refine ⟨fun hv hv' => ⟨_, exec_symInit_of_version hv hv', ?_⟩, fun hsym hx hy => ⟨?_, fun c hc => ?_⟩, fun hsym => ?_⟩
  · exact (s.mem.storeGrid_storesCells (n := 4 * s.operand 0 + 17) (by omega) _).congr fun x y hx hy => Grid.blank_cell hx hy
  · refine (State.complete_check_check (decide_eq_true hsym) (decide_and_decide_eq_true ⟨hx, hy⟩) _ _ _).trans ?_
    cases s.symCell (s.operand 0) (s.operand 1) <;> rfl
  · refine ⟨(s.setSymCell (s.operand 0) (s.operand 1) c).mem,
      (State.complete_check_check (decide_eq_true hsym) (decide_and_decide_eq_true ⟨hx, hy⟩) _ _ _).trans ?_,
      State.setSymCell_symCell hs.symN_le hx hy c, s.mem.writeBits_storesBits _ _ _ _⟩
    rw [← hc, Cell.ofWord_toWord]
    rfl
  · have hend := exec_symExport_of_symbol hsym
    refine ⟨_, hend, fun x y => ?_, fun a ha => memoryOwnership .symExport s _ hs rfl hend a fun r hr => List.mem_singleton.mp hr ▸ ha⟩
    exact (congrArg (State.bmCell · x y) (State.setBmRect_eq_setMem ..).symm).trans (State.blackCells_bmCell hs.symN_le x y)

/-! Type and version information (R723, R725, R744, R745). -/

/-- The writes of type word `t`, in the order of R723. -/
def typeCells (n t : Nat) : List (Nat × Nat × Cell) :=
  (List.range 15).flatMap fun i =>
    let c := Cell.ofBool (t.testBit i)
    [((typeCell1 i).1, (typeCell1 i).2, c), ((typeCell2 n i).1, (typeCell2 n i).2, c)]

theorem embedType_eq (n t : Nat) (g : Grid) : embedType n t g = g.putAll (typeCells n t) := rfl

theorem mem_typeCells {t x y : Nat} {c : Cell} :
    (x, y, c) ∈ typeCells n t ↔ ∃ i < 15, ((x, y) = typeCell1 i ∨ (x, y) = typeCell2 n i) ∧ c = Cell.ofBool (t.testBit i) := by
  simp only [typeCells, List.mem_flatMap, List.mem_range, List.mem_cons, List.not_mem_nil, or_false, Prod.ext_iff, ← or_and_right,
    ← and_assoc]

theorem typeCell1_le : ∀ i < 15, (typeCell1 i).1 ≤ 8 ∧ (typeCell1 i).2 ≤ 8 := by decide

theorem typeCell1_injective : ∀ i < 15, ∀ j < 15, typeCell1 i = typeCell1 j → i = j := by decide

/-- The second places lie beyond the first ones, and inside the symbol. -/
theorem typeCell2_range (hn : 21 ≤ n) {i : Nat} (hi : i < 15) :
    (9 ≤ (typeCell2 n i).1 ∨ 9 ≤ (typeCell2 n i).2) ∧ (typeCell2 n i).1 < n ∧ (typeCell2 n i).2 < n := by
  unfold typeCell2
  split <;> simp only <;> omega

theorem typeCell2_injective (hn : 21 ≤ n) {i j : Nat} (hi : i < 15) (hj : j < 15) (h : typeCell2 n i = typeCell2 n j) : i = j := by
  unfold typeCell2 at h
  split at h <;> split at h <;> simp only [Prod.mk.injEq] at h <;> omega

/-- A place takes one bit of the type word only. -/
theorem typeCell_unique (hn : 21 ≤ n) {p : Nat × Nat} {i j : Nat} (hi : i < 15) (hj : j < 15)
    (hpi : p = typeCell1 i ∨ p = typeCell2 n i) (hpj : p = typeCell1 j ∨ p = typeCell2 n j) : i = j := by
  have hapart {k l : Nat} (hk : k < 15) (hl : l < 15) : typeCell1 k ≠ typeCell2 n l := fun h => by
    have hle := typeCell1_le k hk
    have hfar := (typeCell2_range hn hl).1
    rw [h] at hle
    omega
  rcases hpi with rfl | rfl <;> rcases hpj with h | h
  · exact typeCell1_injective i hi j hj h
  · exact absurd h (hapart hi hj)
  · exact absurd h.symm (hapart hj hi)
  · exact typeCell2_injective hn hi hj h

/-- Each bit of a type word stands at its two places (R723). -/
theorem embedType_cell (hg : g.isSquare n) (hn : 21 ≤ n) (t : Nat) {p : Nat × Nat} {i : Nat} (hi : i < 15)
    (hp : p = typeCell1 i ∨ p = typeCell2 n i) : (embedType n t g).cell p.1 p.2 = Cell.ofBool (t.testBit i) := by
  have hin : p.1 < n ∧ p.2 < n := by
    rcases hp with rfl | rfl
    · have := typeCell1_le i hi
      omega
    · exact (typeCell2_range hn hi).2
  refine Grid.putAll_cell_of_mem hg hin.1 hin.2 (mem_typeCells.mpr ⟨i, hi, hp, rfl⟩) fun d hd => ?_
  obtain ⟨j, hj, hpj, rfl⟩ := mem_typeCells.mp hd
  rw [typeCell_unique hn hi hj hp hpj]

theorem embedType_cell_of_ne (t : Nat) {x y : Nat} (h : ∀ i < 15, (x, y) ≠ typeCell1 i ∧ (x, y) ≠ typeCell2 n i) :
    (embedType n t g).cell x y = g.cell x y := by
  refine Grid.putAll_cell_of_notMem fun c hc => ?_
  obtain ⟨i, hi, hp, -⟩ := mem_typeCells.mp hc
  exact hp.elim (h i hi).1 (h i hi).2

/-- The writes of the version word of version `v`, in the order of R725. -/
def versionCells (v n : Nat) : List (Nat × Nat × Cell) :=
  (List.range 6).flatMap fun i => (List.range 3).flatMap fun j =>
    let c := Cell.ofBool ((versionBits v).testBit (3 * i + j))
    [(i, n - 11 + j, c), (n - 11 + j, i, c)]

theorem embedVersion_of_lt {v : Nat} (h : v < 7) : embedVersion v n g = g := if_pos h

theorem embedVersion_of_le {v : Nat} (h : 7 ≤ v) : embedVersion v n g = g.putAll (versionCells v n) := if_neg (Nat.not_lt.mpr h)

theorem mem_versionCells {v x y : Nat} {c : Cell} :
    (x, y, c) ∈ versionCells v n ↔ ∃ i < 6, ∃ j < 3, ((x, y) = (i, n - 11 + j) ∨ (x, y) = (n - 11 + j, i))
      ∧ c = Cell.ofBool ((versionBits v).testBit (3 * i + j)) := by
  simp only [versionCells, List.mem_flatMap, List.mem_range, List.mem_cons, List.not_mem_nil, or_false, Prod.ext_iff, ← or_and_right,
    ← and_assoc]

/-- Each bit of a version word stands at its two places (R725). -/
theorem embedVersion_cell (hg : g.isSquare n) {v : Nat} (hv : 7 ≤ v) (hn : 21 ≤ n) {x y i j : Nat} (hi : i < 6) (hj : j < 3)
    (hp : (x, y) = (i, n - 11 + j) ∨ (x, y) = (n - 11 + j, i)) :
    (embedVersion v n g).cell x y = Cell.ofBool ((versionBits v).testBit (3 * i + j)) := by
  simp only [Prod.mk.injEq] at hp
  rw [embedVersion_of_le hv]
  refine Grid.putAll_cell_of_mem hg (by omega) (by omega) (mem_versionCells.mpr ⟨i, hi, j, hj, by simpa using hp, rfl⟩) fun d hd => ?_
  obtain ⟨k, hk, l, hl, hq, rfl⟩ := mem_versionCells.mp hd
  simp only [Prod.mk.injEq] at hq
  rw [show k = i by omega, show l = j by omega]

theorem embedVersion_cell_of_ne {v x y : Nat}
    (h : v < 7 ∨ ∀ i j, i < 6 → j < 3 → (x, y) ≠ (i, n - 11 + j) ∧ (x, y) ≠ (n - 11 + j, i)) :
    (embedVersion v n g).cell x y = g.cell x y := by
  by_cases hv : v < 7
  · rw [embedVersion_of_lt hv]
  rw [embedVersion_of_le (Nat.not_lt.mp hv)]
  refine Grid.putAll_cell_of_notMem fun c hc => ?_
  obtain ⟨i, hi, j, hj, hp, -⟩ := mem_versionCells.mp hc
  exact hp.elim (h.resolve_left hv i j hi hj).1 (h.resolve_left hv i j hi hj).2

/-- Settles O53: both commands store the grid on which the word is written, whose cells are known at each place. -/
theorem typeAndVersionInformation : Obligations.TypeAndVersionInformation := by
  intro s hs hsym
  have hn : 21 ≤ s.symN := by rw [State.symN_of_ne hsym]; omega
  have hg := s.symGrid_isSquare
  have hcell (x y : Nat) : s.symGrid.cell x y = s.symCell x y := s.symGrid_cell hs.symN_le x y
  refine ⟨⟨rfl, fun i hi => if_pos hi, fun i hi _ => if_neg (Nat.not_lt.mpr hi)⟩, fun t hecl hmask ht => ?_, ?_⟩
  · refine ⟨_, fun x y => (embedType s.symN t s.symGrid).cell x y,
      (State.complete_check_check (State.hasSymbol hsym) (decide_eq_true hecl) _ _ _).trans (State.complete_of_ok ht _),
      s.mem.storeGrid_storesCells hs.symN_le _, fun i hi => ?_, fun x y _ _ hne => ?_⟩
    · exact ⟨embedType_cell hg hn t hi (.inl rfl), embedType_cell hg hn t hi (.inr rfl)⟩
    · exact (embedType_cell_of_ne t hne).trans (hcell x y)
  · refine ⟨_, fun x y => (embedVersion s.symV s.symN s.symGrid).cell x y, State.complete_check (State.hasSymbol hsym) _ _,
      s.mem.storeGrid_storesCells hs.symN_le _, fun hv i j hi hj => ?_, fun x y _ _ hne => ?_⟩
    · exact ⟨embedVersion_cell hg hv hn hi hj (.inl rfl), embedVersion_cell hg hv hn hi hj (.inr rfl)⟩
    · exact (embedVersion_cell_of_ne hne).trans (hcell x y)

end Sys2Proof.Machine
end

section
/-! PROOFS (46_symbol.md R726, R746). The order of the data traversal, and the placement of a bank's bits along it: the empty cells take
the bits in turn, and no other cell changes. -/

namespace Sys2Proof.Machine

variable {s : State} {g : Grid} {n : Nat}

/-! Lists made of pieces of one length. -/

theorem length_flatMap_range {α : Type} {f : Nat → List α} {l : Nat} (hf : ∀ i, (f i).length = l) (m : Nat) :
    ((List.range m).flatMap f).length = m * l := by
  simp [List.length_flatMap, hf]

theorem getElem?_flatMap_range {α : Type} {f : Nat → List α} {l : Nat} (hf : ∀ i, (f i).length = l) {m i j : Nat} (hi : i < m)
    (hj : j < l) : ((List.range m).flatMap f)[l * i + j]? = (f i)[j]? := by
  induction m with
  | zero => cases hi
  | succ m ih =>
    have hlen := length_flatMap_range hf m
    rw [List.range_succ, List.flatMap_append]
    rcases Nat.lt_succ_iff_lt_or_eq.mp hi with hlt | rfl
    · have hle : l * (i + 1) ≤ l * m := Nat.mul_le_mul_left l hlt
      rw [List.getElem?_append_left (by rw [hlen, Nat.mul_comm m l]; rw [Nat.mul_succ] at hle; omega), ih hlt]
    · rw [List.getElem?_append_right (by rw [hlen, Nat.mul_comm]; omega), hlen, Nat.mul_comm, Nat.add_sub_cancel_left,
        List.flatMap_singleton]

/-! The traversal (R726). -/

/-- The right column of pair `p`, from the right of a symbol of dimension `n`; column 6 is left out. -/
def rightColumn (n p : Nat) : Nat := if 6 < n - 1 - 2 * p then n - 1 - 2 * p else n - 2 - 2 * p

/-- The `r`-th row of pair `p`: the pairs go upward and downward in turns. -/
def pairRow (n p r : Nat) : Nat := if p % 2 = 0 then n - 1 - r else r

/-- The cells of pair `p` in row `r` of its way. -/
def pairStep (n p r : Nat) : List (Nat × Nat) := [(rightColumn n p, pairRow n p r), (rightColumn n p - 1, pairRow n p r)]

theorem pairColumns_eq {k fuel : Nat} (hk : 3 ≤ k) (hfuel : k < fuel) :
    pairColumns fuel (2 * k) = (List.range k).map (rightColumn (2 * k + 1)) := by
  induction k, hk using Nat.le_induction generalizing fuel with
  | base =>
    obtain ⟨f, rfl⟩ := Nat.exists_eq_add_of_le hfuel
    rw [Nat.add_comm]
    rfl
  | succ k hk ih =>
    obtain ⟨f, rfl⟩ := Nat.exists_eq_add_of_le hfuel
    have hshift : rightColumn (2 * (k + 1) + 1) ∘ Nat.succ = rightColumn (2 * k + 1) := by
      funext p
      rw [Function.comp_apply, rightColumn, rightColumn, show 2 * (k + 1) + 1 - 1 - 2 * p.succ = 2 * k + 1 - 1 - 2 * p by omega,
        show 2 * (k + 1) + 1 - 2 - 2 * p.succ = 2 * k + 1 - 2 - 2 * p by omega]
    have hfirst : rightColumn (2 * (k + 1) + 1) 0 = 2 * (k + 1) := if_pos (by omega)
    rw [List.range_succ_eq_map, List.map_cons, List.map_map, hshift, hfirst, ← ih (fuel := k + 1 + f) (by omega),
      show k + 1 + 1 + f = (k + 1 + f) + 1 by omega, pairColumns, if_neg (by omega), if_neg (by omega)]
    rfl

/-- The rows of a pair, in the order of its way. -/
theorem pairRows_eq (n p : Nat) :
    (if p % 2 = 0 then (List.range n).reverse else List.range n) = (List.range n).map (pairRow n p) := by
  unfold pairRow
  split
  · exact List.ext_getElem (by simp) fun i h1 h2 => by simp
  · exact (List.map_id _).symm

theorem dataPath_eq {k : Nat} (hk : 3 ≤ k) :
    dataPath (2 * k + 1) = (List.range k).flatMap fun p => (List.range (2 * k + 1)).flatMap (pairStep (2 * k + 1) p) := by
  have hpairs : ((List.range k).map (rightColumn (2 * k + 1))).zipIdx = (List.range k).map fun p => (rightColumn (2 * k + 1) p, p) := by
    refine List.ext_getElem (by simp) fun i h1 h2 => ?_
    simp
  rw [dataPath, Nat.add_sub_cancel, pairColumns_eq hk (by omega), hpairs, List.flatMap_map]
  simp only [pairRows_eq, List.flatMap_map]
  rfl

/-- Every column but column 6 belongs to a pair. -/
theorem exists_rightColumn {k x : Nat} (hk : 3 ≤ k) (hx : x < 2 * k + 1) (h6 : x ≠ 6) :
    ∃ p < k, x = rightColumn (2 * k + 1) p ∨ x = rightColumn (2 * k + 1) p - 1 := by
  unfold rightColumn
  by_cases hlarge : 6 < x
  · exact ⟨(2 * k - x) / 2, by omega, by rw [if_pos (by omega)]; omega⟩
  · exact ⟨(2 * k - 1 - x) / 2, by omega, by rw [if_neg (by omega)]; omega⟩

theorem rightColumn_range {k p : Nat} (hp : p < k) :
    1 ≤ rightColumn (2 * k + 1) p ∧ rightColumn (2 * k + 1) p ≤ 2 * k ∧ rightColumn (2 * k + 1) p ≠ 6
      ∧ rightColumn (2 * k + 1) p ≠ 7 := by
  unfold rightColumn
  split <;> omega

/-- Each pair lies to the left of those before it. -/
theorem rightColumn_lt {k p q : Nat} (hpq : p < q) (hq : q < k) : rightColumn (2 * k + 1) q + 1 < rightColumn (2 * k + 1) p := by
  unfold rightColumn
  split <;> split <;> omega

/-- A pair visits every row, in one turn of its own. -/
theorem exists_pairRow (p : Nat) {y : Nat} (hy : y < n) : ∃ r < n, pairRow n p r = y := by
  unfold pairRow
  split
  · exact ⟨n - 1 - y, by omega, by omega⟩
  · exact ⟨y, hy, rfl⟩

theorem pairRow_lt (p : Nat) {r : Nat} (hr : r < n) : pairRow n p r < n := by
  unfold pairRow
  split <;> omega

theorem pairRow_injective (p : Nat) {r t : Nat} (hr : r < n) (ht : t < n) (h : pairRow n p r = pairRow n p t) : r = t := by
  unfold pairRow at h
  split at h <;> omega

theorem mem_pairStep {p r x y : Nat} :
    (x, y) ∈ pairStep n p r ↔ (x = rightColumn n p ∨ x = rightColumn n p - 1) ∧ y = pairRow n p r := by
  simp only [pairStep, List.mem_cons, List.not_mem_nil, or_false, Prod.mk.injEq, or_and_right]

theorem mem_dataPath {k x y : Nat} (hk : 3 ≤ k) : (x, y) ∈ dataPath (2 * k + 1) ↔ x < 2 * k + 1 ∧ y < 2 * k + 1 ∧ x ≠ 6 := by
  simp only [dataPath_eq hk, List.mem_flatMap, List.mem_range, mem_pairStep]
  constructor
  · rintro ⟨p, hp, r, hr, hx, rfl⟩
    obtain ⟨h1, hle, h6, h7⟩ := rightColumn_range hp
    exact ⟨by omega, pairRow_lt p hr, by omega⟩
  · rintro ⟨hx, hy, h6⟩
    obtain ⟨p, hp, hcolumn⟩ := exists_rightColumn hk hx h6
    obtain ⟨r, hr, hrow⟩ := exists_pairRow p hy
    exact ⟨p, hp, r, hr, hcolumn, hrow.symm⟩

theorem dataPath_nodup {k : Nat} (hk : 3 ≤ k) : (dataPath (2 * k + 1)).Nodup := by
  have hstep (p r : Nat) (hp : p < k) : (pairStep (2 * k + 1) p r).Nodup := by
    have := (rightColumn_range hp).1
    simp only [pairStep, List.nodup_cons, List.mem_singleton, Prod.mk.injEq, List.not_mem_nil, List.nodup_nil, not_false_eq_true,
      and_true]
    omega
  have hrows (p : Nat) (hp : p < k) : ((List.range (2 * k + 1)).flatMap (pairStep (2 * k + 1) p)).Nodup := by
    refine List.nodup_flatMap.mpr ⟨fun r _ => hstep p r hp, List.pairwise_lt_range.imp_of_mem fun {r t} hr ht hlt => ?_⟩
    rintro ⟨x, y⟩ hr' ht'
    exact Nat.ne_of_lt hlt (pairRow_injective p (List.mem_range.mp hr) (List.mem_range.mp ht)
      ((mem_pairStep.mp hr').2.symm.trans (mem_pairStep.mp ht').2))
  rw [dataPath_eq hk]
  refine List.nodup_flatMap.mpr ⟨fun p hp => hrows p (List.mem_range.mp hp),
    List.pairwise_lt_range.imp_of_mem fun {p q} _ hq hlt => ?_⟩
  rintro ⟨x, y⟩ hp' hq'
  obtain ⟨_, -, hr⟩ := List.mem_flatMap.mp hp'
  obtain ⟨_, -, ht⟩ := List.mem_flatMap.mp hq'
  have := rightColumn_lt hlt (List.mem_range.mp hq)
  have := (mem_pairStep.mp hr).1
  have := (mem_pairStep.mp ht).1
  omega

theorem dataPath_length {k : Nat} (hk : 3 ≤ k) : (dataPath (2 * k + 1)).length = (2 * k + 1) * (2 * k) := by
  rw [dataPath_eq hk, length_flatMap_range fun p => length_flatMap_range (l := 2) (fun r => rfl) _]
  show k * ((2 * k + 1) * 2) = _
  ring

theorem dataPath_getElem? {k p r i : Nat} (hk : 3 ≤ k) (hp : p < k) (hr : r < 2 * k + 1) (hi : i < 2) :
    (dataPath (2 * k + 1))[2 * ((2 * k + 1) * p + r) + i]? = some (rightColumn (2 * k + 1) p - i, pairRow (2 * k + 1) p r) := by
  have hlen (p r : Nat) : (pairStep (2 * k + 1) p r).length = 2 := rfl
  rw [dataPath_eq hk, show 2 * ((2 * k + 1) * p + r) + i = (2 * k + 1) * 2 * p + (2 * r + i) by ring,
    getElem?_flatMap_range (fun p => length_flatMap_range (hlen p) _) hp (by omega), getElem?_flatMap_range (hlen p) hr hi]
  match i, hi with
  | 0, _ => rfl
  | 1, _ => rfl

/-! Placement (R726). -/

/-- The places of a path whose cells are empty in a grid, in the order of the path. -/
def Grid.emptyOn (g : Grid) (path : List (Nat × Nat)) : List (Nat × Nat) := path.filter fun p => decide (g.cell p.1 p.2 = .empty)

/-- A data bit at place `p`, inverted where the mask says so (R726; 47_mask.md R800). -/
def maskedBit (mask : Nat) (p : Nat × Nat) (b : Bool) : Bool := Bool.xor b (decide (mask ≠ 15) && maskBit mask p.1 p.2)

theorem Grid.emptyOn_cons_of_empty {p : Nat × Nat} (h : g.cell p.1 p.2 = .empty) (path : List (Nat × Nat)) :
    g.emptyOn (p :: path) = p :: g.emptyOn path := List.filter_cons_of_pos (decide_eq_true h)

theorem Grid.emptyOn_cons_of_ne {p : Nat × Nat} (h : g.cell p.1 p.2 ≠ .empty) (path : List (Nat × Nat)) :
    g.emptyOn (p :: path) = g.emptyOn path := List.filter_cons_of_neg (by simpa using h)

/-- A write at a place that a path does not visit leaves the path's empty places as they are. -/
theorem Grid.emptyOn_put {p : Nat × Nat} {path : List (Nat × Nat)} (h : p ∉ path) (c : Cell) :
    (g.put p.1 p.2 c).emptyOn path = g.emptyOn path := by
  refine List.filter_congr fun q hq => ?_
  rw [Grid.put_cell_of_ne fun hqp => h ((Prod.ext hqp.1 hqp.2 : q = p) ▸ hq)]

theorem placeData_of_empty {p : Nat × Nat} (h : g.cell p.1 p.2 = .empty) (mask : Nat) (path : List (Nat × Nat)) (bits : List Bool) :
    placeData mask (p :: path) bits g
      = placeData mask path bits.tail (g.put p.1 p.2 (Cell.ofBool (maskedBit mask p (bits.headD false)))) := if_pos h

theorem placeData_of_ne {p : Nat × Nat} (h : g.cell p.1 p.2 ≠ .empty) (mask : Nat) (path : List (Nat × Nat)) (bits : List Bool) :
    placeData mask (p :: path) bits g = placeData mask path bits g := if_neg h

/-- The bits left over are those after as many as there are empty places. -/
theorem placeData_fst (mask : Nat) {path : List (Nat × Nat)} (hpath : path.Nodup) (bits : List Bool) (g : Grid) :
    (placeData mask path bits g).1 = bits.drop (g.emptyOn path).length := by
  induction path generalizing bits g with
  | nil => rfl
  | cons p path ih =>
    obtain ⟨hp, hpath⟩ := List.nodup_cons.mp hpath
    by_cases h : g.cell p.1 p.2 = .empty
    · rw [placeData_of_empty h, ih hpath, Grid.emptyOn_put hp, Grid.emptyOn_cons_of_empty h, List.length_cons, List.drop_tail]
    · rw [placeData_of_ne h, ih hpath, Grid.emptyOn_cons_of_ne h]

/-- A place that is no empty place of the path keeps its cell. -/
theorem placeData_cell_of_notMem (mask : Nat) {path : List (Nat × Nat)} (hpath : path.Nodup) (bits : List Bool) {q : Nat × Nat}
    (hq : q ∉ g.emptyOn path) : (placeData mask path bits g).2.cell q.1 q.2 = g.cell q.1 q.2 := by
  induction path generalizing bits g with
  | nil => rfl
  | cons p path ih =>
    obtain ⟨hp, hpath⟩ := List.nodup_cons.mp hpath
    by_cases h : g.cell p.1 p.2 = .empty
    · rw [Grid.emptyOn_cons_of_empty h, List.mem_cons, not_or] at hq
      rw [placeData_of_empty h, ih hpath _ (by rw [Grid.emptyOn_put hp]; exact hq.2),
        Grid.put_cell_of_ne fun hqp => hq.1 (Prod.ext hqp.1 hqp.2)]
    · rw [Grid.emptyOn_cons_of_ne h] at hq
      rw [placeData_of_ne h, ih hpath _ hq]

/-- The `k`-th empty place of the path takes bit `k`, or 0 when the bits have run out. -/
theorem placeData_cell_of_getElem? (mask : Nat) {path : List (Nat × Nat)} (hpath : path.Nodup) (bits : List Bool) (hg : g.isSquare n)
    (hin : ∀ p ∈ path, p.1 < n ∧ p.2 < n) {k : Nat} {q : Nat × Nat} (hq : (g.emptyOn path)[k]? = some q) :
    (placeData mask path bits g).2.cell q.1 q.2 = Cell.ofBool (maskedBit mask q (bits.getD k false)) := by
  induction path generalizing bits g k with
  | nil => cases hq
  | cons p path ih =>
    obtain ⟨hp, hpath⟩ := List.nodup_cons.mp hpath
    obtain ⟨hpin, hin⟩ := List.forall_mem_cons.mp hin
    by_cases h : g.cell p.1 p.2 = .empty
    · rw [Grid.emptyOn_cons_of_empty h] at hq
      rw [placeData_of_empty h]
      cases k with
      | zero =>
        obtain rfl : p = q := Option.some.inj hq
        have hlast : p ∉ (g.put p.1 p.2 (Cell.ofBool (maskedBit mask p (bits.headD false)))).emptyOn path :=
          fun hmem => hp (List.mem_of_mem_filter hmem)
        rw [placeData_cell_of_notMem mask hpath _ hlast, Grid.put_cell_inside hg hpin.1 hpin.2, if_pos ⟨rfl, rfl⟩,
          List.getD_eq_getElem?_getD, List.headD_eq_head?_getD, List.head?_eq_getElem?]
      | succ k =>
        rw [ih hpath bits.tail (Grid.put_isSquare hg _ _ _) hin (by rw [Grid.emptyOn_put hp]; exact hq)]
        cases bits <;> rfl
    · rw [Grid.emptyOn_cons_of_ne h] at hq
      rw [placeData_of_ne h, ih hpath bits hg hin hq]

/-- The bits of a bank are as many as its size, and the rest is 0 (44_bitvec.md R600). -/
theorem State.bvBits_getD {b : Bank} (h : s.bvSize b ≤ 32768) (k : Nat) :
    (s.bvBits b).getD k false = (decide (k < s.bvSize b) && s.mem.bit (bankBase b) k) := by
  rw [List.getD_eq_getElem?_getD, State.bvBits, List.getElem?_map]
  by_cases hk : k < s.bvSize b
  · rw [List.getElem?_range hk, decide_eq_true hk, Bool.true_and, Option.map_some, Option.getD_some, Memory.bit, Memory.bit,
      Memory.read_window _ (by omega)]
  · rw [List.getElem?_eq_none (by simpa using hk), decide_eq_false hk]
    rfl

@[simp] theorem State.bvBits_length (s : State) (b : Bank) : (s.bvBits b).length = s.bvSize b := by simp [State.bvBits]

/-- Placement succeeds when there are enough empty places. -/
theorem embedData_of_le {mask : Nat} (hpath : (dataPath n).Nodup) {bits : List Bool}
    (h : bits.length ≤ (g.emptyOn (dataPath n)).length) :
    embedData n mask bits g = .ok (placeData mask (dataPath n) bits g).2 :=
  if_pos ((placeData_fst mask hpath bits g).trans (List.drop_of_length_le h))

theorem embedData_of_gt {mask : Nat} (hpath : (dataPath n).Nodup) {bits : List Bool}
    (h : (g.emptyOn (dataPath n)).length < bits.length) : embedData n mask bits g = .error .dataBitsLeft :=
  if_neg fun hnil => Nat.not_le.mpr h (List.drop_eq_nil_iff.mp ((placeData_fst mask hpath bits g).symm.trans hnil))

theorem State.emptyPath_eq (hn : s.symN ≤ 177) : s.emptyPath = s.symGrid.emptyOn (dataPath s.symN) := by
  simp only [State.emptyPath, Grid.emptyOn, s.symGrid_cell hn]

theorem State.symN_eq_two_mul (h : s.symV ≠ 0) : s.symN = 2 * (2 * s.symV + 8) + 1 := by rw [State.symN_of_ne h]; omega

/-- Settles O54: the leftover bits and the cells after the placement are known. -/
theorem dataPlacementCompletes : Obligations.DataPlacementCompletes := by
  intro s b hs hsym hmask
  have hk : 3 ≤ 2 * s.symV + 8 := by omega
  have hn := State.symN_eq_two_mul hsym
  have hpath : (dataPath s.symN).Nodup := hn ▸ dataPath_nodup hk
  have hin : ∀ p ∈ dataPath s.symN, p.1 < s.symN ∧ p.2 < s.symN := fun p hp => by
    rw [hn] at hp ⊢
    obtain ⟨hx, hy, -⟩ := (mem_dataPath hk).mp hp
    exact ⟨hx, hy⟩
  have hmask' : (decide (s.operand 0 ≤ 7) || decide (s.operand 0 = 15)) = true := by
    rwa [← Bool.decide_or, decide_eq_true_iff]
  rw [State.emptyPath_eq hs.symN_le]
  refine ⟨fun hfits => ⟨_, fun x y => (placeData (s.operand 0) (dataPath s.symN) (s.bvBits b) s.symGrid).2.cell x y,
      (State.complete_check_check (State.hasSymbol hsym) hmask' _ _ _).trans
        (State.complete_of_ok (embedData_of_le hpath (by rwa [State.bvBits_length])) _),
      s.mem.storeGrid_storesCells hs.symN_le _, fun k p hp => ?_, fun x y _ _ hxy => ?_⟩, fun hmany => ?_⟩
  · refine (placeData_cell_of_getElem? _ hpath _ s.symGrid_isSquare hin hp).trans ?_
    rw [State.bvBits_getD (hs.bvSize b), maskedBit, ← Bool.bne_eq_xor]
  · exact (placeData_cell_of_notMem _ hpath _ hxy).trans (s.symGrid_cell hs.symN_le x y)
  · exact (State.complete_check_check (State.hasSymbol hsym) hmask' _ _ _).trans
      (State.complete_of_error (embedData_of_gt hpath (by rwa [State.bvBits_length])) _)

end Sys2Proof.Machine
end

section
/-! PROOFS (46_symbol.md R710 to R714). The corners of a symbol: finders, separators and dark module, as cells of the grid on which they
are written, and when writing them fails. -/

namespace Sys2Proof.Machine

variable {g : Grid} {n : Nat}

/-! Square patterns (R710, R713). -/

/-- The rows of a square pattern of `k` cells a side, black where `f` holds. -/
def patternRows (k : Nat) (f : Nat → Nat → Bool) : List (List Nat) :=
  (List.range k).map fun dy => (List.range k).map fun dx => (f dx dy).toNat

theorem mem_zipIdx_map_range {α : Type} {f : Nat → α} {k i : Nat} {a : α} : (a, i) ∈ ((List.range k).map f).zipIdx ↔ i < k ∧ a = f i := by
  simp only [List.mem_zipIdx_iff_getElem?, List.getElem?_map, Option.map_eq_some_iff, List.getElem?_eq_some_iff, List.getElem_range,
    List.length_range]
  constructor
  · rintro ⟨_, ⟨hi, rfl⟩, rfl⟩
    exact ⟨hi, rfl⟩
  · rintro ⟨hi, rfl⟩
    exact ⟨i, ⟨hi, rfl⟩, rfl⟩

theorem mem_patternCells {k : Nat} {f : Nat → Nat → Bool} {xs ys x y : Nat} {c : Cell} :
    (x, y, c) ∈ patternCells xs ys (patternRows k f)
      ↔ ∃ dx < k, ∃ dy < k, (x = xs + dx ∧ y = ys + dy) ∧ c = Cell.ofBool (f dx dy) := by
  have hblack (b : Bool) : Cell.ofBool (decide (b.toNat = 1)) = Cell.ofBool b := by cases b <;> rfl
  simp only [patternCells, patternRows, List.mem_flatMap, List.mem_map, Prod.exists, mem_zipIdx_map_range, Prod.mk.injEq]
  constructor
  · rintro ⟨_, dy, ⟨hdy, rfl⟩, _, dx, hmem, rfl, rfl, rfl⟩
    obtain ⟨hdx, rfl⟩ := mem_zipIdx_map_range.mp hmem
    exact ⟨dx, hdx, dy, hdy, ⟨rfl, rfl⟩, hblack _⟩
  · rintro ⟨dx, hdx, dy, hdy, ⟨rfl, rfl⟩, rfl⟩
    exact ⟨_, dy, ⟨hdy, rfl⟩, _, dx, mem_zipIdx_map_range.mpr ⟨hdx, rfl⟩, rfl, rfl, hblack _⟩

theorem Cell.ofBool_ne_empty (b : Bool) : Cell.ofBool b ≠ .empty := by cases b <;> decide

/-- The cells of a finder: its outer ring and its inner square are black (R710). -/
def finderBlack (dx dy : Nat) : Bool :=
  decide (dx = 0 ∨ dx = 6 ∨ dy = 0 ∨ dy = 6 ∨ (2 ≤ dx ∧ dx ≤ 4 ∧ 2 ≤ dy ∧ dy ≤ 4))

theorem finderRows_eq : finderRows = patternRows 7 finderBlack := rfl

/-! Finders (R710). -/

theorem mem_finderCells {x y : Nat} {c : Cell} :
    (x, y, c) ∈ finderCells n ↔ ∃ dx < 7, ∃ dy < 7,
      (x = dx ∧ y = dy ∨ x = n - 7 + dx ∧ y = dy ∨ x = dx ∧ y = n - 7 + dy) ∧ c = Cell.ofBool (finderBlack dx dy) := by
  simp only [finderCells, finderRows_eq, List.mem_append, mem_patternCells, Nat.zero_add]
  constructor
  · rintro ((⟨dx, hx, dy, hy, h, hc⟩ | ⟨dx, hx, dy, hy, h, hc⟩) | ⟨dx, hx, dy, hy, h, hc⟩)
    · exact ⟨dx, hx, dy, hy, .inl h, hc⟩
    · exact ⟨dx, hx, dy, hy, .inr (.inl h), hc⟩
    · exact ⟨dx, hx, dy, hy, .inr (.inr h), hc⟩
  · rintro ⟨dx, hx, dy, hy, h | h | h, hc⟩
    · exact .inl (.inl ⟨dx, hx, dy, hy, h, hc⟩)
    · exact .inl (.inr ⟨dx, hx, dy, hy, h, hc⟩)
    · exact .inr ⟨dx, hx, dy, hy, h, hc⟩

theorem inFinder_iff {x y : Nat} :
    inFinder n x y = true ↔ x < 7 ∧ y < 7 ∨ (n - 7 ≤ x ∧ x < n) ∧ y < 7 ∨ x < 7 ∧ n - 7 ≤ y ∧ y < n := by
  simp only [inFinder, Bool.or_eq_true, decide_eq_true_eq, or_assoc, and_assoc]

theorem inFinder_eq_false_iff {x y : Nat} :
    inFinder n x y = false ↔ ¬ (x < 7 ∧ y < 7 ∨ (n - 7 ≤ x ∧ x < n) ∧ y < 7 ∨ x < 7 ∧ n - 7 ≤ y ∧ y < n) := by
  rw [← inFinder_iff, Bool.not_eq_true]

/-- The place of a finder's cell in one of the three corners. -/
theorem exists_of_inFinder (hn : 21 ≤ n) {x y : Nat} (h : inFinder n x y = true) :
    ∃ dx < 7, ∃ dy < 7, x = dx ∧ y = dy ∨ x = n - 7 + dx ∧ y = dy ∨ x = dx ∧ y = n - 7 + dy := by
  rcases inFinder_iff.mp h with h | h | h
  · exact ⟨x, h.1, y, h.2, .inl ⟨rfl, rfl⟩⟩
  · exact ⟨x - (n - 7), by omega, y, h.2, .inr (.inl ⟨by omega, rfl⟩)⟩
  · exact ⟨x, h.1, y - (n - 7), by omega, .inr (.inr ⟨rfl, by omega⟩)⟩

theorem finders_cell (hg : g.isSquare n) (hn : 21 ≤ n) {x y dx dy : Nat} (hx : dx < 7) (hy : dy < 7)
    (h : x = dx ∧ y = dy ∨ x = n - 7 + dx ∧ y = dy ∨ x = dx ∧ y = n - 7 + dy) :
    (g.putAll (finderCells n)).cell x y = Cell.ofBool (finderBlack dx dy) := by
  refine Grid.putAll_cell_of_mem hg (by omega) (by omega) (mem_finderCells.mpr ⟨dx, hx, dy, hy, h, rfl⟩) fun d hd => ?_
  obtain ⟨ex, hex, ey, hey, h', rfl⟩ := mem_finderCells.mp hd
  rw [show ex = dx by omega, show ey = dy by omega]

theorem finders_cell_of_not (hn : 21 ≤ n) {x y : Nat} (h : inFinder n x y = false) : (g.putAll (finderCells n)).cell x y = g.cell x y := by
  refine Grid.putAll_cell_of_notMem fun c hc => inFinder_eq_false_iff.mp h ?_
  obtain ⟨dx, hx, dy, hy, h', -⟩ := mem_finderCells.mp hc
  omega

/-! Separators (R711). -/

theorem mem_hsep {xs ys x y : Nat} : (x, y) ∈ hsep xs ys ↔ (xs ≤ x ∧ x < xs + 8) ∧ y = ys := by
  simp only [hsep, List.mem_map, List.mem_range, Prod.mk.injEq]
  exact ⟨fun ⟨dx, h, hx, hy⟩ => by omega, fun h => ⟨x - xs, by omega, by omega, h.2.symm⟩⟩

theorem mem_vsep {xs ys x y : Nat} : (x, y) ∈ vsep xs ys ↔ x = xs ∧ ys ≤ y ∧ y < ys + 7 := by
  simp only [vsep, List.mem_map, List.mem_range, Prod.mk.injEq]
  exact ⟨fun ⟨dy, h, hx, hy⟩ => by omega, fun h => ⟨y - ys, by omega, h.1.symm, by omega⟩⟩

theorem hsep_nodup (xs ys : Nat) : (hsep xs ys).Nodup :=
  List.nodup_range.map fun _ _ h => Nat.add_left_cancel (congrArg Prod.fst h)

theorem vsep_nodup (xs ys : Nat) : (vsep xs ys).Nodup :=
  List.nodup_range.map fun _ _ h => Nat.add_left_cancel (congrArg Prod.snd h)

theorem mem_separatorCells (hn : 21 ≤ n) {x y : Nat} :
    (x, y) ∈ separatorCells n ↔
      (y = 7 ∧ (x < 8 ∨ n - 8 ≤ x ∧ x < n)) ∨ (y = n - 8 ∧ x < 8) ∨ (x = 7 ∧ (y < 7 ∨ n - 7 ≤ y ∧ y < n)) ∨ (x = n - 8 ∧ y < 7) := by
  simp only [separatorCells, List.mem_append, mem_hsep, mem_vsep]
  omega

theorem separatorCells_nodup (hn : 21 ≤ n) : (separatorCells n).Nodup := by
  simp only [separatorCells, List.nodup_append', hsep_nodup, vsep_nodup, true_and]
  refine ⟨⟨⟨⟨?_, ?_⟩, ?_⟩, ?_⟩, ?_⟩ <;> rintro ⟨x, y⟩ <;> simp only [List.mem_append, mem_hsep, mem_vsep] <;> omega

/-- The writes that make the separators white. -/
def whiteSeparators (n : Nat) : List (Nat × Nat × Cell) := (separatorCells n).map fun p => (p.1, p.2, .white)

theorem mem_whiteSeparators {x y : Nat} {c : Cell} : (x, y, c) ∈ whiteSeparators n ↔ (x, y) ∈ separatorCells n ∧ c = .white := by
  simp only [whiteSeparators, List.mem_map, Prod.exists, Prod.mk.injEq]
  exact ⟨fun ⟨_, _, h, hx, hy, hc⟩ => ⟨hx ▸ hy ▸ h, hc.symm⟩, fun ⟨h, hc⟩ => ⟨x, y, h, rfl, rfl, hc.symm⟩⟩

/-- Separators on empty cells, each written once, are plain writes. -/
theorem embedSeparators_of_empty {l : List (Nat × Nat)} (hl : l.Nodup) (h : ∀ p ∈ l, g.cell p.1 p.2 = .empty) :
    embedSeparators l g = .ok (g.putAll (l.map fun p => (p.1, p.2, .white))) := by
  induction l generalizing g with
  | nil => rfl
  | cons p l ih =>
    obtain ⟨hp, hl⟩ := List.nodup_cons.mp hl
    obtain ⟨hempty, h⟩ := List.forall_mem_cons.mp h
    refine (if_pos hempty).trans (ih hl fun q hq => ?_)
    rw [Grid.put_cell_of_ne fun hqp => hp ((Prod.ext hqp.1 hqp.2 : q = p) ▸ hq), h q hq]

/-- A separator cell that is not empty fails. -/
theorem embedSeparators_of_ne {l : List (Nat × Nat)} (h : ∃ p ∈ l, g.cell p.1 p.2 ≠ .empty) :
    embedSeparators l g = .error .separatorCell := by
  induction l generalizing g with
  | nil => exact absurd h (by simp)
  | cons p l ih =>
    by_cases hempty : g.cell p.1 p.2 = .empty
    · obtain ⟨q, hq, hne⟩ := h
      have hqp : q ≠ p := fun hqp => hne (hqp ▸ hempty)
      refine (if_pos hempty).trans (ih ⟨q, List.mem_of_ne_of_mem hqp hq, ?_⟩)
      rwa [Grid.put_cell_of_ne fun h => hqp (Prod.ext h.1 h.2)]
    · exact if_neg hempty

/-! The corners together, with the dark module (R714, R716). -/

/-- The grid after finders, separators and dark module. -/
def cornerGrid (n : Nat) (g : Grid) : Grid := ((g.putAll (finderCells n)).putAll (whiteSeparators n)).put 8 (n - 8) .black

theorem cornerGrid_isSquare (hg : g.isSquare n) : (cornerGrid n g).isSquare n :=
  Grid.put_isSquare (Grid.putAll_isSquare (Grid.putAll_isSquare hg _) _) _ _ _

/-- No finder covers a separator or the dark module. -/
theorem inFinder_of_separator (hn : 21 ≤ n) {x y : Nat} (h : (x, y) ∈ separatorCells n) : inFinder n x y = false := by
  have := (mem_separatorCells hn).mp h
  exact inFinder_eq_false_iff.mpr (by omega)

theorem inFinder_dark (hn : 21 ≤ n) : inFinder n 8 (n - 8) = false := inFinder_eq_false_iff.mpr (by omega)

theorem dark_notMem_separatorCells (hn : 21 ≤ n) : (8, n - 8) ∉ separatorCells n := fun h => by
  have := (mem_separatorCells hn).mp h
  omega

/-- The separators' cells before they are written. -/
theorem finders_cell_of_separator (hn : 21 ≤ n) {p : Nat × Nat} (h : p ∈ separatorCells n) :
    (g.putAll (finderCells n)).cell p.1 p.2 = g.cell p.1 p.2 := finders_cell_of_not hn (inFinder_of_separator hn h)

/-- A place outside finders and separators keeps its cell until the dark module is written. -/
theorem separators_cell_of_not (hn : 21 ≤ n) {x y : Nat} (hf : inFinder n x y = false) (hs : (x, y) ∉ separatorCells n) :
    ((g.putAll (finderCells n)).putAll (whiteSeparators n)).cell x y = g.cell x y := by
  rw [Grid.putAll_cell_of_notMem fun c hc => hs (mem_whiteSeparators.mp hc).1, finders_cell_of_not hn hf]

theorem cornerGrid_finder (hg : g.isSquare n) (hn : 21 ≤ n) {x y dx dy : Nat} (hx : dx < 7) (hy : dy < 7)
    (h : x = dx ∧ y = dy ∨ x = n - 7 + dx ∧ y = dy ∨ x = dx ∧ y = n - 7 + dy) :
    (cornerGrid n g).cell x y = Cell.ofBool (finderBlack dx dy) := by
  have hsep (c : Cell) : (x, y, c) ∉ whiteSeparators n := fun hc => by
    have := (mem_separatorCells hn).mp (mem_whiteSeparators.mp hc).1
    omega
  rw [cornerGrid, Grid.put_cell_of_ne (by omega), Grid.putAll_cell_of_notMem hsep, finders_cell hg hn hx hy h]

theorem cornerGrid_separator (hg : g.isSquare n) (hn : 21 ≤ n) {x y : Nat} (h : (x, y) ∈ separatorCells n) :
    (cornerGrid n g).cell x y = .white := by
  have hin := (mem_separatorCells hn).mp h
  rw [cornerGrid, Grid.put_cell_of_ne (by omega)]
  exact Grid.putAll_cell_of_mem (Grid.putAll_isSquare hg _) (by omega) (by omega) (mem_whiteSeparators.mpr ⟨h, rfl⟩)
    fun d hd => (mem_whiteSeparators.mp hd).2

theorem cornerGrid_dark (hg : g.isSquare n) (hn : 21 ≤ n) : (cornerGrid n g).cell 8 (n - 8) = .black := by
  rw [cornerGrid, Grid.put_cell_inside (Grid.putAll_isSquare (Grid.putAll_isSquare hg _) _) (by omega) (by omega), if_pos ⟨rfl, rfl⟩]

theorem cornerGrid_of_not (hn : 21 ≤ n) {x y : Nat} (hf : inFinder n x y = false) (hs : (x, y) ∉ separatorCells n)
    (hd : (x, y) ≠ (8, n - 8)) : (cornerGrid n g).cell x y = g.cell x y := by
  rw [cornerGrid, Grid.put_cell_of_ne fun h => hd (Prod.ext h.1 h.2), separators_cell_of_not hn hf hs]

/-- A place of a finder, a separator or the dark module. -/
def InCorner (n x y : Nat) : Prop := inFinder n x y = true ∨ (x, y) ∈ separatorCells n ∨ (x, y) = (8, n - 8)

theorem cornerGrid_of_notInCorner (hn : 21 ≤ n) {x y : Nat} (h : ¬ InCorner n x y) : (cornerGrid n g).cell x y = g.cell x y := by
  simp only [InCorner, not_or, Bool.not_eq_true] at h
  exact cornerGrid_of_not hn h.1 h.2.1 h.2.2

theorem cornerGrid_ne_empty (hg : g.isSquare n) (hn : 21 ≤ n) {x y : Nat} (h : InCorner n x y) : (cornerGrid n g).cell x y ≠ .empty := by
  rcases h with h | h | h
  · obtain ⟨dx, hx, dy, hy, h⟩ := exists_of_inFinder hn h
    rw [cornerGrid_finder hg hn hx hy h]
    exact Cell.ofBool_ne_empty _
  · rw [cornerGrid_separator hg hn h]
    decide
  · obtain ⟨rfl, rfl⟩ := Prod.mk.inj h
    rw [cornerGrid_dark hg hn]
    decide

/-- The separators are written when their cells are empty (R711). -/
theorem embedSeparators_of_free (hn : 21 ≤ n) (hs : ∀ p ∈ separatorCells n, g.cell p.1 p.2 = .empty) :
    embedSeparators (separatorCells n) (g.putAll (finderCells n)) = .ok ((g.putAll (finderCells n)).putAll (whiteSeparators n)) :=
  embedSeparators_of_empty (separatorCells_nodup hn) fun p hp => (finders_cell_of_separator hn hp).trans (hs p hp)

/-- The dark module's cell before it is written. -/
theorem separators_cell_dark (hn : 21 ≤ n) :
    ((g.putAll (finderCells n)).putAll (whiteSeparators n)).cell 8 (n - 8) = g.cell 8 (n - 8) :=
  separators_cell_of_not hn (inFinder_dark hn) (dark_notMem_separatorCells hn)

/-- `embed_basic()` on empty separator cells and a dark module that is not white (R716). -/
theorem embedBasic_of_free (v : Nat) (hn : 21 ≤ n) (hs : ∀ p ∈ separatorCells n, g.cell p.1 p.2 = .empty) (hd : g.cell 8 (n - 8) ≠ .white) :
    embedBasic v n g = .ok (embedTiming n (embedAligns v (cornerGrid n g))) := by
  have hdark : embedDark n ((g.putAll (finderCells n)).putAll (whiteSeparators n)) = .ok (cornerGrid n g) :=
    if_neg fun h => hd ((separators_cell_dark hn).symm.trans h)
  rw [embedBasic, embedSeparators_of_free hn hs, bind_ok, hdark]
  rfl

theorem embedBasic_of_separator (v : Nat) (hn : 21 ≤ n) (h : ∃ p ∈ separatorCells n, g.cell p.1 p.2 ≠ .empty) :
    embedBasic v n g = .error .separatorCell := by
  obtain ⟨p, hp, hne⟩ := h
  rw [embedBasic, embedSeparators_of_ne ⟨p, hp, by rwa [finders_cell_of_separator hn hp]⟩]
  rfl

theorem embedBasic_of_dark (v : Nat) (hn : 21 ≤ n) (hs : ∀ p ∈ separatorCells n, g.cell p.1 p.2 = .empty) (hd : g.cell 8 (n - 8) = .white) :
    embedBasic v n g = .error .darkModule := by
  have hdark : embedDark n ((g.putAll (finderCells n)).putAll (whiteSeparators n)) = .error .darkModule :=
    if_pos ((separators_cell_dark hn).trans hd)
  rw [embedBasic, embedSeparators_of_free hn hs, bind_ok, hdark]
  rfl

end Sys2Proof.Machine
end

section
/-! PROOFS (46_symbol.md R712, R713, R715, R716, R743). Alignment patterns, whose squares are apart from each other and from the corners, and
the timing patterns; with them `EMB_BASIC`. -/

namespace Sys2Proof.Machine

variable {g : Grid} {n v : Nat}

/-! One alignment pattern (R713). -/

/-- The cells of an alignment pattern: its outer ring and its centre are black (R713). -/
def alignBlack (dx dy : Nat) : Bool := decide (dx = 0 ∨ dx = 4 ∨ dy = 0 ∨ dy = 4 ∨ (dx = 2 ∧ dy = 2))

theorem alignRows_eq : alignRows = patternRows 5 alignBlack := rfl

/-- Place (x, y) lies in the 5 × 5 square with centre `c`. -/
def InSquare (c : Nat × Nat) (x y : Nat) : Prop := c.1 ≤ x + 2 ∧ x ≤ c.1 + 2 ∧ c.2 ≤ y + 2 ∧ y ≤ c.2 + 2

/-- The squares of two centres have no place in common. -/
def SquaresApart (c d : Nat × Nat) : Prop := c.1 + 5 ≤ d.1 ∨ d.1 + 5 ≤ c.1 ∨ c.2 + 5 ≤ d.2 ∨ d.2 + 5 ≤ c.2

theorem SquaresApart.not_inSquare {c d : Nat × Nat} (h : SquaresApart c d) {x y : Nat} (hc : InSquare c x y) : ¬ InSquare d x y := by
  unfold SquaresApart InSquare at *
  omega

theorem inSquare_self (c : Nat × Nat) : InSquare c c.1 c.2 := by
  unfold InSquare
  omega

theorem inSquare_of_offset {c : Nat × Nat} (h : 2 ≤ c.1 ∧ 2 ≤ c.2) {dx dy : Nat} (hx : dx < 5) (hy : dy < 5) :
    InSquare c (c.1 - 2 + dx) (c.2 - 2 + dy) := by
  unfold InSquare
  omega

theorem embedAlign_isSquare (hg : g.isSquare n) (cx cy : Nat) : (embedAlign g cx cy).isSquare n := by
  unfold embedAlign
  split
  · exact Grid.putAll_isSquare hg _
  · exact hg

theorem embedAlign_cell_of_not {c : Nat × Nat} (hc : 2 ≤ c.1 ∧ 2 ≤ c.2) {x y : Nat} (h : g.cell c.1 c.2 = .empty → ¬ InSquare c x y) :
    (embedAlign g c.1 c.2).cell x y = g.cell x y := by
  unfold embedAlign
  split
  · next hempty =>
    refine Grid.putAll_cell_of_notMem fun d hd => h hempty ?_
    rw [alignRows_eq] at hd
    obtain ⟨dx, hx, dy, hy, ⟨rfl, rfl⟩, -⟩ := mem_patternCells.mp hd
    exact inSquare_of_offset hc hx hy
  · rfl

theorem embedAlign_cell (hg : g.isSquare n) {c : Nat × Nat} (hc : 2 ≤ c.1 ∧ 2 ≤ c.2) (hin : c.1 + 2 < n ∧ c.2 + 2 < n)
    (hempty : g.cell c.1 c.2 = .empty) {dx dy : Nat} (hx : dx < 5) (hy : dy < 5) :
    (embedAlign g c.1 c.2).cell (c.1 - 2 + dx) (c.2 - 2 + dy) = Cell.ofBool (alignBlack dx dy) := by
  rw [embedAlign, if_pos hempty, alignRows_eq]
  refine Grid.putAll_cell_of_mem hg (by omega) (by omega) (mem_patternCells.mpr ⟨dx, hx, dy, hy, ⟨rfl, rfl⟩, rfl⟩) fun d hd => ?_
  obtain ⟨ex, hex, ey, hey, ⟨hx', hy'⟩, rfl⟩ := mem_patternCells.mp hd
  rw [Nat.add_left_cancel hx', Nat.add_left_cancel hy']

/-! Several alignment patterns, one after the other. -/

/-- Alignment patterns at the centres of a list, each where its centre is empty. -/
def alignAll (g : Grid) (l : List (Nat × Nat)) : Grid := l.foldl (fun g c => embedAlign g c.1 c.2) g

theorem alignAll_isSquare (hg : g.isSquare n) (l : List (Nat × Nat)) : (alignAll g l).isSquare n := by
  induction l generalizing g with
  | nil => exact hg
  | cons c l ih => exact ih (embedAlign_isSquare hg _ _)

/-- The centres of a list of alignment patterns have a whole square inside the symbol, and the squares are apart. -/
structure Apart (n : Nat) (l : List (Nat × Nat)) : Prop where
  low : ∀ c ∈ l, 2 ≤ c.1 ∧ 2 ≤ c.2
  high : ∀ c ∈ l, c.1 + 2 < n ∧ c.2 + 2 < n
  apart : l.Pairwise SquaresApart

theorem Apart.of_cons {c : Nat × Nat} {l : List (Nat × Nat)} (h : Apart n (c :: l)) : Apart n l :=
  ⟨fun d hd => h.low d (List.mem_cons_of_mem c hd), fun d hd => h.high d (List.mem_cons_of_mem c hd), h.apart.of_cons⟩

/-- A pattern leaves the cells of the squares after it as they are. -/
theorem Apart.embedAlign_cell {c : Nat × Nat} {l : List (Nat × Nat)} (h : Apart n (c :: l)) {d : Nat × Nat} (hd : d ∈ l) {x y : Nat}
    (hin : InSquare d x y) : (embedAlign g c.1 c.2).cell x y = g.cell x y :=
  embedAlign_cell_of_not (h.low c List.mem_cons_self) fun _ hc => ((List.pairwise_cons.mp h.apart).1 d hd).not_inSquare hc hin

theorem alignAll_cell_of_not {l : List (Nat × Nat)} (hl : Apart n l) {x y : Nat}
    (h : ∀ c ∈ l, g.cell c.1 c.2 = .empty → ¬ InSquare c x y) : (alignAll g l).cell x y = g.cell x y := by
  induction l generalizing g with
  | nil => rfl
  | cons c l ih =>
    obtain ⟨hc, h⟩ := List.forall_mem_cons.mp h
    refine (ih hl.of_cons fun d hd hempty => h d hd ?_).trans (embedAlign_cell_of_not (hl.low c List.mem_cons_self) hc)
    exact (hl.embedAlign_cell hd (inSquare_self d)).symm.trans hempty

theorem alignAll_cell (hg : g.isSquare n) {l : List (Nat × Nat)} (hl : Apart n l) {c : Nat × Nat} (hc : c ∈ l)
    (hempty : g.cell c.1 c.2 = .empty) {dx dy : Nat} (hx : dx < 5) (hy : dy < 5) :
    (alignAll g l).cell (c.1 - 2 + dx) (c.2 - 2 + dy) = Cell.ofBool (alignBlack dx dy) := by
  induction l generalizing g with
  | nil => cases hc
  | cons d l ih =>
    rcases List.mem_cons.mp hc with rfl | hc
    · have hlow := hl.low c List.mem_cons_self
      refine (alignAll_cell_of_not hl.of_cons fun e he _ => ?_).trans
        (embedAlign_cell hg hlow (hl.high c List.mem_cons_self) hempty hx hy)
      exact ((List.pairwise_cons.mp hl.apart).1 e he).not_inSquare (inSquare_of_offset hlow hx hy)
    · exact ih (embedAlign_isSquare hg _ _) hl.of_cons hc ((hl.embedAlign_cell hc (inSquare_self c)).trans hempty)

/-! The centres of a version (R712). -/

/-- The centres of every version: their distances, their parity, and their distance from the last one. -/
theorem alignCentres_spec : ∀ v ≤ 40, (alignCentres v).Pairwise (fun a b => a + 12 ≤ b)
    ∧ ∀ c ∈ alignCentres v, c % 2 = 0 ∧ (c = 6 ∨ 18 ≤ c) ∧ (c = 4 * v + 10 ∨ c + 12 ≤ 4 * v + 10) := by
  decide +kernel

/-- The pairs of centres, in the order in which patterns are written (R713). -/
def alignPlaces (v : Nat) : List (Nat × Nat) := (alignCentres v).flatMap fun cy => (alignCentres v).map fun cx => (cx, cy)

theorem embedAligns_eq (v : Nat) (g : Grid) : embedAligns v g = alignAll g (alignPlaces v) := by
  simp only [embedAligns, alignAll, alignPlaces, List.foldl_flatMap, List.foldl_map]

theorem mem_alignPlaces {c : Nat × Nat} : c ∈ alignPlaces v ↔ c.1 ∈ alignCentres v ∧ c.2 ∈ alignCentres v := by
  obtain ⟨cx, cy⟩ := c
  simp only [alignPlaces, List.mem_flatMap, List.mem_map, Prod.mk.injEq]
  exact ⟨fun ⟨_, hy, _, hx, hx', hy'⟩ => ⟨hx' ▸ hx, hy' ▸ hy⟩, fun ⟨hx, hy⟩ => ⟨cy, hy, cx, hx, rfl, rfl⟩⟩

theorem alignPlaces_apart (hv : v ≤ 40) : Apart (4 * v + 17) (alignPlaces v) := by
  obtain ⟨hpair, hrange⟩ := alignCentres_spec v hv
  refine ⟨fun c hc => ?_, fun c hc => ?_, ?_⟩
  · have hx := hrange _ (mem_alignPlaces.mp hc).1
    have hy := hrange _ (mem_alignPlaces.mp hc).2
    omega
  · have hx := hrange _ (mem_alignPlaces.mp hc).1
    have hy := hrange _ (mem_alignPlaces.mp hc).2
    omega
  · refine List.pairwise_flatMap.mpr ⟨fun cy _ => ?_, hpair.imp fun {a b} hab => ?_⟩
    · exact List.pairwise_map.mpr (hpair.imp fun {a b} hab => .inl (by omega))
    · simp only [List.mem_map]
      rintro _ ⟨cx, -, rfl⟩ _ ⟨dx, -, rfl⟩
      exact .inr (.inr (.inl (by simp only; omega)))

/-- The square of a pair of centres outside the finders meets no corner (R710, R711, R713, R714). -/
theorem not_inCorner_of_inSquare (hv1 : 1 ≤ v) (hv : v ≤ 40) {c : Nat × Nat} (hc : c ∈ alignPlaces v)
    (hf : inFinder (4 * v + 17) c.1 c.2 = false)
    {x y : Nat} (h : InSquare c x y) : ¬ InCorner (4 * v + 17) x y := by
  have hx := (alignCentres_spec v hv).2 _ (mem_alignPlaces.mp hc).1
  have hy := (alignCentres_spec v hv).2 _ (mem_alignPlaces.mp hc).2
  have hf := inFinder_eq_false_iff.mp hf
  unfold InSquare at h
  simp only [InCorner, inFinder_iff, mem_separatorCells (show 21 ≤ 4 * v + 17 by omega), Prod.mk.injEq]
  omega

/-- The places of an alignment square, by their offset from its first cell. -/
theorem exists_offset_of_inSquare (hv : v ≤ 40) {c : Nat × Nat} (hc : c ∈ alignPlaces v) {x y : Nat} (h : InSquare c x y) :
    ∃ dx < 5, ∃ dy < 5, x = c.1 - 2 + dx ∧ y = c.2 - 2 + dy := by
  have := (alignPlaces_apart hv).low c hc
  unfold InSquare at h
  exact ⟨x + 2 - c.1, by omega, y + 2 - c.2, by omega, by omega, by omega⟩

/-- At centre `c` of version `v` a pattern is written in grid `g`: the centre is empty and outside the finders (R713). -/
def Grid.alignsAt (g : Grid) (v : Nat) (c : Nat × Nat) : Prop :=
  c ∈ alignPlaces v ∧ inFinder (4 * v + 17) c.1 c.2 = false ∧ g.cell c.1 c.2 = .empty

/-- Place (x, y) lies in the square of an alignment pattern that is written in grid `g`. -/
def Grid.inAlignment (g : Grid) (v x y : Nat) : Prop := ∃ c, g.alignsAt v c ∧ InSquare c x y

/-- The grid after the corners and the alignment patterns. -/
def alignedGrid (v : Nat) (g : Grid) : Grid := embedAligns v (cornerGrid (4 * v + 17) g)

theorem alignedGrid_isSquare (hg : g.isSquare (4 * v + 17)) : (alignedGrid v g).isSquare (4 * v + 17) := by
  rw [alignedGrid, embedAligns_eq]
  exact alignAll_isSquare (cornerGrid_isSquare hg) _

section
variable (hv1 : 1 ≤ v) (hv : v ≤ 40) (hg : g.isSquare (4 * v + 17))
include hv1 hv

theorem not_inCorner_of_inAlignment {x y : Nat} (h : g.inAlignment v x y) : ¬ InCorner (4 * v + 17) x y := by
  obtain ⟨c, ⟨hc, hf, -⟩, hin⟩ := h
  exact not_inCorner_of_inSquare hv1 hv hc hf hin

include hg

/-- A centre is empty after the corners are written exactly when a pattern is written there. -/
theorem cornerGrid_centre_iff {c : Nat × Nat} (hc : c ∈ alignPlaces v) :
    (cornerGrid (4 * v + 17) g).cell c.1 c.2 = .empty ↔ g.alignsAt v c := by
  have hn : 21 ≤ 4 * v + 17 := by omega
  by_cases hf : inFinder (4 * v + 17) c.1 c.2 = true
  · refine iff_of_false (cornerGrid_ne_empty hg hn (.inl hf)) fun h => ?_
    rw [h.2.1] at hf
    cases hf
  · have hf := Bool.not_eq_true _ ▸ hf
    rw [cornerGrid_of_notInCorner hn (not_inCorner_of_inSquare hv1 hv hc hf (inSquare_self c))]
    exact ⟨fun h => ⟨hc, hf, h⟩, fun h => h.2.2⟩

theorem alignedGrid_cell_of_not {x y : Nat} (h : ¬ g.inAlignment v x y) :
    (alignedGrid v g).cell x y = (cornerGrid (4 * v + 17) g).cell x y := by
  rw [alignedGrid, embedAligns_eq]
  exact alignAll_cell_of_not (alignPlaces_apart hv)
    fun c hc hempty hin => h ⟨c, (cornerGrid_centre_iff hv1 hv hg hc).mp hempty, hin⟩

theorem alignedGrid_cell {c : Nat × Nat} (hc : g.alignsAt v c) {dx dy : Nat} (hx : dx < 5) (hy : dy < 5) :
    (alignedGrid v g).cell (c.1 - 2 + dx) (c.2 - 2 + dy) = Cell.ofBool (alignBlack dx dy) := by
  rw [alignedGrid, embedAligns_eq]
  exact alignAll_cell (cornerGrid_isSquare hg) (alignPlaces_apart hv) hc.1 ((cornerGrid_centre_iff hv1 hv hg hc.1).mpr hc) hx hy

end

/-! Writes into empty cells, and the timing patterns (R715). -/

theorem Grid.putIfEmpty_isSquare (hg : g.isSquare n) (x y : Nat) (c : Cell) : (g.putIfEmpty x y c).isSquare n := by
  unfold Grid.putIfEmpty
  split
  · exact Grid.put_isSquare hg _ _ _
  · exact hg

/-- A place keeps its cell unless it is the one named and is empty. -/
theorem Grid.putIfEmpty_cell_of_not {x y i j : Nat} (h : i = x ∧ j = y → g.cell i j ≠ .empty) (c : Cell) :
    (g.putIfEmpty x y c).cell i j = g.cell i j := by
  unfold Grid.putIfEmpty
  split
  · next hempty => exact Grid.put_cell_of_ne (fun hxy => h hxy (hxy.1 ▸ hxy.2 ▸ hempty)) c
  · rfl

/-- Write the cells of a list in its order, each only if it is empty. -/
def Grid.fillAll (g : Grid) (l : List (Nat × Nat × Cell)) : Grid := l.foldl (fun g c => g.putIfEmpty c.1 c.2.1 c.2.2) g

theorem Grid.fillAll_isSquare (hg : g.isSquare n) (l : List (Nat × Nat × Cell)) : (g.fillAll l).isSquare n := by
  induction l generalizing g with
  | nil => exact hg
  | cons c l ih => exact ih (Grid.putIfEmpty_isSquare hg _ _ _)

theorem Grid.fillAll_cell_of_not {l : List (Nat × Nat × Cell)} {x y : Nat} (h : ∀ c, (x, y, c) ∈ l → g.cell x y ≠ .empty) :
    (g.fillAll l).cell x y = g.cell x y := by
  induction l generalizing g with
  | nil => rfl
  | cons d l ih =>
    have hd : (g.putIfEmpty d.1 d.2.1 d.2.2).cell x y = g.cell x y :=
      Grid.putIfEmpty_cell_of_not (fun hxy => h d.2.2 (by rw [hxy.1, hxy.2]; exact List.mem_cons_self)) _
    exact (ih fun c hc => by rw [hd]; exact h c (List.mem_cons_of_mem d hc)).trans hd

theorem Grid.fillAll_cell_of_mem (hg : g.isSquare n) {l : List (Nat × Nat × Cell)} {x y : Nat} {c : Cell} (hx : x < n) (hy : y < n)
    (hempty : g.cell x y = .empty) (hc : c ≠ .empty) (hmem : (x, y, c) ∈ l) (hone : ∀ d, (x, y, d) ∈ l → d = c) :
    (g.fillAll l).cell x y = c := by
  induction l generalizing g with
  | nil => cases hmem
  | cons d l ih =>
    show ((g.putIfEmpty d.1 d.2.1 d.2.2).fillAll l).cell x y = c
    by_cases hd : x = d.1 ∧ y = d.2.1
    · obtain ⟨rfl, rfl⟩ := hd
      obtain rfl := hone d.2.2 List.mem_cons_self
      have hnow : (g.putIfEmpty d.1 d.2.1 d.2.2).cell d.1 d.2.1 = d.2.2 := by
        rw [Grid.putIfEmpty, if_pos hempty, Grid.put_cell_inside hg hx hy, if_pos ⟨rfl, rfl⟩]
      rw [Grid.fillAll_cell_of_not fun _ _ => by rwa [hnow], hnow]
    · refine ih (Grid.putIfEmpty_isSquare hg _ _ _) ?_ ?_ fun e he => hone e (List.mem_cons_of_mem d he)
      · rw [Grid.putIfEmpty_cell_of_not fun h => absurd h hd, hempty]
      · exact (List.mem_cons.mp hmem).resolve_left fun h => hd ⟨congrArg (·.1) h, congrArg (·.2.1) h⟩

/-- The cells of the timing patterns, in the order in which they are written. -/
def timingCells (n : Nat) : List (Nat × Nat × Cell) :=
  ((List.range (n - 16)).map (· + 8)).flatMap fun i =>
    [(i, 6, Cell.ofBool (decide ((i + 1) % 2 = 1))), (6, i, Cell.ofBool (decide ((i + 1) % 2 = 1)))]

theorem embedTiming_eq (n : Nat) (g : Grid) : embedTiming n g = g.fillAll (timingCells n) := by
  simp only [embedTiming, Grid.fillAll, timingCells, List.foldl_flatMap, List.foldl_cons, List.foldl_nil]

/-- Place (x, y) is the `i`-th place of a timing pattern (R715). -/
def TimingAt (n i x y : Nat) : Prop := (8 ≤ i ∧ i ≤ n - 9) ∧ (x = i ∧ y = 6 ∨ x = 6 ∧ y = i)

theorem mem_timingCells {x y : Nat} {c : Cell} :
    (x, y, c) ∈ timingCells n ↔ ∃ i, TimingAt n i x y ∧ c = Cell.ofBool (decide (i % 2 = 0)) := by
  have hparity (i : Nat) : decide ((i + 1) % 2 = 1) = decide (i % 2 = 0) := decide_eq_decide.mpr (by omega)
  simp only [timingCells, List.mem_flatMap, List.mem_map, List.mem_range, List.mem_cons, List.not_mem_nil, or_false, Prod.mk.injEq,
    hparity, TimingAt, and_assoc, or_and_right]
  constructor
  · rintro ⟨_, ⟨k, hk, rfl⟩, h⟩
    exact ⟨k + 8, by omega, by omega, h⟩
  · rintro ⟨i, h8, hi, h⟩
    exact ⟨i, ⟨i - 8, by omega, by omega⟩, h⟩

theorem embedTiming_cell_of_not {x y : Nat} (h : (∃ i, TimingAt n i x y) → g.cell x y ≠ .empty) :
    (embedTiming n g).cell x y = g.cell x y := by
  rw [embedTiming_eq]
  refine Grid.fillAll_cell_of_not fun c hc => h ?_
  obtain ⟨i, hi, -⟩ := mem_timingCells.mp hc
  exact ⟨i, hi⟩

theorem embedTiming_cell (hg : g.isSquare n) {i x y : Nat} (hi : TimingAt n i x y) (hempty : g.cell x y = .empty) :
    (embedTiming n g).cell x y = Cell.ofBool (decide (i % 2 = 0)) := by
  rw [embedTiming_eq]
  refine Grid.fillAll_cell_of_mem hg ?_ ?_ hempty (Cell.ofBool_ne_empty _) (mem_timingCells.mpr ⟨i, hi, rfl⟩) fun d hd => ?_
  · unfold TimingAt at hi
    omega
  · unfold TimingAt at hi
    omega
  · obtain ⟨j, hj, rfl⟩ := mem_timingCells.mp hd
    unfold TimingAt at hi hj
    rw [show j = i by omega]

/-! All basic patterns (R716). -/

/-- The grid that `embed_basic()` answers. -/
def basicGrid (v : Nat) (g : Grid) : Grid := embedTiming (4 * v + 17) (alignedGrid v g)

theorem embedTiming_isSquare (hg : g.isSquare n) : (embedTiming n g).isSquare n := by
  rw [embedTiming_eq]
  exact Grid.fillAll_isSquare hg _

theorem basicGrid_isSquare (hg : g.isSquare (4 * v + 17)) : (basicGrid v g).isSquare (4 * v + 17) :=
  embedTiming_isSquare (alignedGrid_isSquare hg)

theorem not_inCorner_of_timing (hn : 21 ≤ n) {i x y : Nat} (h : TimingAt n i x y) : ¬ InCorner n x y := by
  unfold TimingAt at h
  simp only [InCorner, inFinder_iff, mem_separatorCells hn, Prod.mk.injEq]
  omega

section
variable (hv1 : 1 ≤ v) (hv : v ≤ 40) (hg : g.isSquare (4 * v + 17))
include hv1 hv hg

theorem basicGrid_of_corner {x y : Nat} (h : InCorner (4 * v + 17) x y) :
    (basicGrid v g).cell x y = (cornerGrid (4 * v + 17) g).cell x y := by
  have hn : 21 ≤ 4 * v + 17 := by omega
  rw [basicGrid, embedTiming_cell_of_not fun ⟨i, hi⟩ => absurd h (not_inCorner_of_timing hn hi)]
  exact alignedGrid_cell_of_not hv1 hv hg fun ha => not_inCorner_of_inAlignment hv1 hv ha h

theorem basicGrid_align {c : Nat × Nat} (hc : g.alignsAt v c) {dx dy : Nat} (hx : dx < 5) (hy : dy < 5) :
    (basicGrid v g).cell (c.1 - 2 + dx) (c.2 - 2 + dy) = Cell.ofBool (alignBlack dx dy) := by
  have hcell := alignedGrid_cell hv1 hv hg hc hx hy
  rw [basicGrid, embedTiming_cell_of_not fun _ => by rw [hcell]; exact Cell.ofBool_ne_empty _, hcell]

/-- A place of a timing pattern outside the alignment patterns alternates if it was empty, and keeps its cell otherwise. -/
theorem basicGrid_timing {i x y : Nat} (hi : TimingAt (4 * v + 17) i x y) (ha : ¬ g.inAlignment v x y) :
    (basicGrid v g).cell x y = if g.cell x y = .empty then Cell.ofBool (decide (i % 2 = 0)) else g.cell x y := by
  have hcell : (alignedGrid v g).cell x y = g.cell x y :=
    (alignedGrid_cell_of_not hv1 hv hg ha).trans (cornerGrid_of_notInCorner (by omega) (not_inCorner_of_timing (by omega) hi))
  rw [basicGrid]
  split
  · next hempty => exact embedTiming_cell (alignedGrid_isSquare hg) hi (hcell.trans hempty)
  · next hne => exact (embedTiming_cell_of_not fun _ => by rwa [hcell]).trans hcell

theorem basicGrid_of_not {x y : Nat} (hc : ¬ InCorner (4 * v + 17) x y) (ha : ¬ g.inAlignment v x y)
    (ht : ¬ ∃ i, TimingAt (4 * v + 17) i x y) : (basicGrid v g).cell x y = g.cell x y := by
  rw [basicGrid, embedTiming_cell_of_not fun h => absurd h ht, alignedGrid_cell_of_not hv1 hv hg ha,
    cornerGrid_of_notInCorner (by omega) hc]

/-- The timing patterns run through the alignment patterns on row and column 6 without a break (R713, R715). -/
theorem basicGrid_timing_of_inAlignment {i x y : Nat} (hi : TimingAt (4 * v + 17) i x y) (ha : g.inAlignment v x y) :
    (basicGrid v g).cell x y = Cell.ofBool (decide (i % 2 = 0)) := by
  obtain ⟨c, hc, hin⟩ := ha
  have hx := (alignCentres_spec v hv).2 _ (mem_alignPlaces.mp hc.1).1
  have hy := (alignCentres_spec v hv).2 _ (mem_alignPlaces.mp hc.1).2
  obtain ⟨dx, hdx, dy, hdy, rfl, rfl⟩ := exists_offset_of_inSquare hv hc.1 hin
  rw [basicGrid_align hv1 hv hg hc hdx hdy, alignBlack]
  unfold TimingAt at hi
  exact congrArg Cell.ofBool (decide_eq_decide.mpr (by omega))

/-- After `embed_basic()` a cell is empty exactly when it was and no pattern covers it. -/
theorem basicGrid_eq_empty_iff {x y : Nat} :
    (basicGrid v g).cell x y = .empty ↔ ¬ InCorner (4 * v + 17) x y ∧ ¬ g.inAlignment v x y ∧ (¬ ∃ i, TimingAt (4 * v + 17) i x y)
      ∧ g.cell x y = .empty := by
  by_cases hc : InCorner (4 * v + 17) x y
  · rw [basicGrid_of_corner hv1 hv hg hc]
    exact iff_of_false (cornerGrid_ne_empty hg (by omega) hc) fun h => h.1 hc
  by_cases ha : g.inAlignment v x y
  · refine iff_of_false ?_ fun h => h.2.1 ha
    obtain ⟨c, hcentre, hin⟩ := ha
    obtain ⟨dx, hdx, dy, hdy, rfl, rfl⟩ := exists_offset_of_inSquare hv hcentre.1 hin
    rw [basicGrid_align hv1 hv hg hcentre hdx hdy]
    exact Cell.ofBool_ne_empty _
  by_cases ht : ∃ i, TimingAt (4 * v + 17) i x y
  · refine iff_of_false ?_ fun h => h.2.2.1 ht
    obtain ⟨i, hi⟩ := ht
    rw [basicGrid_timing hv1 hv hg hi ha]
    split
    · exact Cell.ofBool_ne_empty _
    · assumption
  · rw [basicGrid_of_not hv1 hv hg hc ha ht]
    exact ⟨fun h => ⟨hc, ha, ht, h⟩, fun h => h.2.2.2⟩

end

/-! `EMB_BASIC` (R743). -/

section
variable {s : State} (hs : s.Inv) (hsym : s.symV ≠ 0)
include hs hsym

theorem State.alignsAt_iff {cx cy : Nat} : s.alignsAt cx cy = true ↔ s.symGrid.alignsAt s.symV (cx, cy) := by
  simp only [State.alignsAt, Grid.alignsAt, mem_alignPlaces, Bool.and_eq_true, decide_eq_true_eq, Bool.not_eq_true',
    State.symN_of_ne hsym, s.symGrid_cell hs.symN_le, and_assoc]

theorem State.inAlignment_iff {x y : Nat} : s.inAlignment x y = true ↔ s.symGrid.inAlignment s.symV x y := by
  simp only [State.inAlignment, List.any_eq_true, Bool.and_eq_true, decide_eq_true_eq, State.alignsAt_iff hs hsym]
  constructor
  · rintro ⟨cx, -, cy, -, hc, hin⟩
    exact ⟨(cx, cy), hc, hin⟩
  · rintro ⟨⟨cx, cy⟩, hc, hin⟩
    obtain ⟨hx, hy⟩ := mem_alignPlaces.mp hc.1
    exact ⟨cx, hx, cy, hy, hc, hin⟩

theorem State.embedBasic_of_free (hsep : ∀ p ∈ separatorCells s.symN, s.symCell p.1 p.2 = .empty) (hd : s.symCell 8 (s.symN - 8) ≠ .white) :
    embedBasic s.symV s.symN s.symGrid = .ok (basicGrid s.symV s.symGrid) := by
  simp only [← s.symGrid_cell hs.symN_le] at hsep hd
  rw [Sys2Proof.Machine.embedBasic_of_free s.symV (by rw [State.symN_of_ne hsym]; omega) hsep hd, State.symN_of_ne hsym]
  rfl

/-- A place of a timing pattern outside the alignment patterns after `EMB_BASIC`. -/
theorem State.basicGrid_timing {i x y : Nat} (hi : TimingAt s.symN i x y) (ha : s.inAlignment x y = false) :
    (basicGrid s.symV s.symGrid).cell x y = if s.symCell x y = .empty then Cell.ofBool (decide (i % 2 = 0)) else s.symCell x y := by
  have hN := State.symN_of_ne hsym
  rw [← s.symGrid_cell hs.symN_le]
  exact Sys2Proof.Machine.basicGrid_timing (by omega) hs.symV (hN ▸ s.symGrid_isSquare) (hN ▸ hi)
    fun h => Bool.false_ne_true (ha.symm.trans ((State.inAlignment_iff hs hsym).mpr h))

/-- In an all-empty symbol the timing patterns alternate without a break. -/
theorem State.basicGrid_timing_of_blank (hblank : ∀ x y, x < s.symN → y < s.symN → s.symCell x y = .empty) {i x y : Nat}
    (hi : TimingAt s.symN i x y) : (basicGrid s.symV s.symGrid).cell x y = Cell.ofBool (decide (i % 2 = 0)) := by
  have hN := State.symN_of_ne hsym
  cases ha : s.inAlignment x y with
  | true =>
    exact basicGrid_timing_of_inAlignment (by omega) hs.symV (hN ▸ s.symGrid_isSquare) (hN ▸ hi)
      ((State.inAlignment_iff hs hsym).mp ha)
  | false =>
    have hin : x < s.symN ∧ y < s.symN := by
      unfold TimingAt at hi
      omega
    rw [State.basicGrid_timing hs hsym hi ha, if_pos (hblank x y hin.1 hin.2)]

theorem exec_embBasic_of_separator (h : ∃ p ∈ separatorCells s.symN, s.symCell p.1 p.2 ≠ .empty) :
    exec .embBasic s = .next (s.failed 0x04 0x02) := by
  simp only [← s.symGrid_cell hs.symN_le] at h
  exact (State.complete_check (State.hasSymbol hsym) _ _).trans
    (State.complete_of_error (embedBasic_of_separator s.symV (by rw [State.symN_of_ne hsym]; omega) h) _)

theorem exec_embBasic_of_dark (hsep : ∀ p ∈ separatorCells s.symN, s.symCell p.1 p.2 = .empty) (hd : s.symCell 8 (s.symN - 8) = .white) :
    exec .embBasic s = .next (s.failed 0x04 0x03) := by
  simp only [← s.symGrid_cell hs.symN_le] at hsep hd
  exact (State.complete_check (State.hasSymbol hsym) _ _).trans
    (State.complete_of_error (embedBasic_of_dark s.symV (by rw [State.symN_of_ne hsym]; omega) hsep hd) _)

end

/-- The table of centres of R712: how many a version has, and where they stand. -/
theorem alignCentres_distances : ∀ v ≤ 40, 2 ≤ v →
    (alignCentres v).length = v / 7 + 2 ∧ (alignCentres v).getD 0 0 = 6 ∧ (alignCentres v).getD (v / 7 + 1) 0 = 4 * v + 10
      ∧ ∀ i < v / 7, 1 ≤ i →
          (alignCentres v).getD (i + 1) 0 - (alignCentres v).getD i 0
            = (alignCentres v).getD (i + 2) 0 - (alignCentres v).getD (i + 1) 0 := by
  decide +kernel

/-- Settles O52: the command stores the grid of the basic patterns, whose cells are known place by place; in it the separators are no longer
empty. -/
theorem basicPatternsComplete : Obligations.BasicPatternsComplete := by
  refine ⟨fun s hs hsym => ?_, rfl, fun v h2 hv => ?_, rfl⟩
  · have hN := State.symN_of_ne hsym
    have hn : 21 ≤ s.symN := by omega
    have hv1 := Nat.one_le_iff_ne_zero.mpr hsym
    have hg : s.symGrid.isSquare (4 * s.symV + 17) := hN ▸ s.symGrid_isSquare
    have hcell := s.symGrid_cell hs.symN_le
    refine ⟨fun x y => mem_separatorCells hn, fun hsep hdark => ?_, exec_embBasic_of_separator hs hsym, exec_embBasic_of_dark hs hsym⟩
    have hok := State.embedBasic_of_free hs hsym hsep hdark
    have hstore := s.mem.storeGrid_storesCells hs.symN_le (basicGrid s.symV s.symGrid)
    have hcorner {x y : Nat} (h : InCorner s.symN x y) : (basicGrid s.symV s.symGrid).cell x y = (cornerGrid s.symN s.symGrid).cell x y := by
      rw [hN] at h ⊢
      exact basicGrid_of_corner hv1 hs.symV hg h
    have hwhite (p : Nat × Nat) (hp : p ∈ separatorCells s.symN) : (basicGrid s.symV s.symGrid).cell p.1 p.2 = .white :=
      (hcorner (.inr (.inl hp))).trans (cornerGrid_separator s.symGrid_isSquare hn hp)
    have hfinder {x y dx dy : Nat} (hx : dx < 7) (hy : dy < 7)
        (h : x = dx ∧ y = dy ∨ x = s.symN - 7 + dx ∧ y = dy ∨ x = dx ∧ y = s.symN - 7 + dy) :
        (basicGrid s.symV s.symGrid).cell x y = Cell.ofBool (finderBlack dx dy) :=
      (hcorner (.inl (inFinder_iff.mpr (by omega)))).trans (cornerGrid_finder s.symGrid_isSquare hn hx hy h)
    refine ⟨_, basicGrid s.symV s.symGrid, hok, (State.complete_check (State.hasSymbol hsym) _ _).trans (State.complete_of_ok hok _), hstore,
      fun dx dy hx hy => ⟨?_, ?_, ?_⟩, hwhite, ?_, fun cx cy hc dx dy hx hy => ?_, fun i h8 hi => ⟨?_, ?_⟩,
      fun hblank i h8 hi => ⟨?_, ?_⟩, fun x y _ _ hf hs' hd ha hrow hcolumn => ?_, ?_⟩
    · exact hfinder hx hy (.inl ⟨rfl, rfl⟩)
    · exact hfinder hx hy (.inr (.inl ⟨rfl, rfl⟩))
    · exact hfinder hx hy (.inr (.inr ⟨rfl, rfl⟩))
    · exact (hcorner (.inr (.inr rfl))).trans (cornerGrid_dark s.symGrid_isSquare hn)
    · exact basicGrid_align hv1 hs.symV hg ((State.alignsAt_iff hs hsym).mp hc) hx hy
    · exact State.basicGrid_timing hs hsym ⟨⟨h8, hi⟩, .inl ⟨rfl, rfl⟩⟩
    · exact State.basicGrid_timing hs hsym ⟨⟨h8, hi⟩, .inr ⟨rfl, rfl⟩⟩
    · exact State.basicGrid_timing_of_blank hs hsym hblank ⟨⟨h8, hi⟩, .inl ⟨rfl, rfl⟩⟩
    · exact State.basicGrid_timing_of_blank hs hsym hblank ⟨⟨h8, hi⟩, .inr ⟨rfl, rfl⟩⟩
    · have hnot : ¬ InCorner s.symN x y := fun h => h.elim (fun h => Bool.false_ne_true (hf.symm.trans h)) fun h => h.elim hs' hd
      have halign : ¬ s.symGrid.inAlignment s.symV x y := fun h =>
        Bool.false_ne_true (ha.symm.trans ((State.inAlignment_iff hs hsym).mpr h))
      refine (basicGrid_of_not hv1 hs.symV hg (hN ▸ hnot) halign ?_).trans (hcell x y)
      rintro ⟨i, hi⟩
      unfold TimingAt at hi
      omega
    · have hfirst : (0, 7) ∈ separatorCells s.symN := (mem_separatorCells hn).mpr (.inl ⟨rfl, .inl (by decide)⟩)
      refine exec_embBasic_of_separator (hs.setMem (Memory.storeGrid_wf hs.memory _ _)) hsym ⟨(0, 7), hfirst, fun hempty => ?_⟩
      have hnow := hstore.symCell_eq hs.symN_le (x := 0) (y := 7) (by omega) (by omega)
      rw [hwhite (0, 7) hfirst] at hnow
      cases hnow.symm.trans hempty
  · obtain ⟨hlen, hfirst, hlast, hdistance⟩ := alignCentres_distances v hv h2
    exact ⟨hlen, hfirst, hlast, fun i h1 hi => hdistance i hi h1⟩

end Sys2Proof.Machine
end

section
/-! PROOFS (46_symbol.md R726 to R728, R747). The symbol that data placement starts from in a build: which of its cells are empty, how many
they are by version, and the build itself. -/

namespace Sys2Proof.Machine

variable {g : Grid} {n v : Nat}

/-! The empty cells before data placement (R728). -/

/-- The grid before data placement in a build of version `v` with type word `t`. -/
def prepared (t v : Nat) : Grid :=
  embedVersion v (4 * v + 17) (embedType (4 * v + 17) t (basicGrid v (Grid.blank (4 * v + 17))))

/-- Place (x, y) holds a cell of the type information of a symbol of dimension `n` (R723). -/
def InTypeInfo (n x y : Nat) : Prop := ∃ i < 15, (x, y) = typeCell1 i ∨ (x, y) = typeCell2 n i

/-- Place (x, y) holds a cell of the version information of a symbol of dimension `n` (R725). -/
def InVersionInfo (n x y : Nat) : Prop := ∃ i < 6, ∃ j < 3, (x, y) = (i, n - 11 + j) ∨ (x, y) = (n - 11 + j, i)

/-- In an all-empty symbol of version `v` some pattern or information covers place (x, y). -/
def Covered (v x y : Nat) : Prop :=
  InCorner (4 * v + 17) x y ∨ (Grid.blank (4 * v + 17)).inAlignment v x y ∨ (∃ i, TimingAt (4 * v + 17) i x y)
    ∨ InTypeInfo (4 * v + 17) x y ∨ 7 ≤ v ∧ InVersionInfo (4 * v + 17) x y

theorem embedType_isSquare (hg : g.isSquare n) (t : Nat) : (embedType n t g).isSquare n := Grid.putAll_isSquare hg _

theorem embedVersion_isSquare (hg : g.isSquare n) (v : Nat) : (embedVersion v n g).isSquare n := by
  unfold embedVersion
  split
  · exact hg
  · exact Grid.putAll_isSquare hg _

theorem embedType_eq_empty_iff (hg : g.isSquare n) (hn : 21 ≤ n) (t : Nat) {x y : Nat} :
    (embedType n t g).cell x y = .empty ↔ ¬ InTypeInfo n x y ∧ g.cell x y = .empty := by
  by_cases h : InTypeInfo n x y
  · obtain ⟨i, hi, hp⟩ := h
    rw [embedType_cell hg hn t (p := (x, y)) hi hp]
    exact iff_of_false (Cell.ofBool_ne_empty _) fun h => h.1 ⟨i, hi, hp⟩
  · rw [embedType_cell_of_ne t fun i hi => ⟨fun hp => h ⟨i, hi, .inl hp⟩, fun hp => h ⟨i, hi, .inr hp⟩⟩]
    exact ⟨fun he => ⟨h, he⟩, fun he => he.2⟩

theorem embedVersion_eq_empty_iff (hg : g.isSquare n) (hn : 21 ≤ n) {x y : Nat} :
    (embedVersion v n g).cell x y = .empty ↔ ¬ (7 ≤ v ∧ InVersionInfo n x y) ∧ g.cell x y = .empty := by
  by_cases h : 7 ≤ v ∧ InVersionInfo n x y
  · obtain ⟨hv, i, hi, j, hj, hp⟩ := h
    rw [embedVersion_cell hg hv hn hi hj hp]
    exact iff_of_false (Cell.ofBool_ne_empty _) fun h => h.1 ⟨hv, i, hi, j, hj, hp⟩
  · rw [embedVersion_cell_of_ne (Decidable.or_iff_not_imp_left.mpr fun hv i j hi hj => ?_)]
    · exact ⟨fun he => ⟨h, he⟩, fun he => he.2⟩
    · exact ⟨fun hp => h ⟨Nat.not_lt.mp hv, i, hi, j, hj, .inl hp⟩, fun hp => h ⟨Nat.not_lt.mp hv, i, hi, j, hj, .inr hp⟩⟩

theorem prepared_isSquare (t v : Nat) : (prepared t v).isSquare (4 * v + 17) :=
  embedVersion_isSquare (embedType_isSquare (basicGrid_isSquare (Grid.blank_isSquare _)) _) _

/-- Before data placement exactly the cells that nothing covers are empty, whatever the type word. -/
theorem prepared_eq_empty_iff (hv1 : 1 ≤ v) (hv : v ≤ 40) (t : Nat) {x y : Nat} (hx : x < 4 * v + 17) (hy : y < 4 * v + 17) :
    (prepared t v).cell x y = .empty ↔ ¬ Covered v x y := by
  have hn : 21 ≤ 4 * v + 17 := by omega
  have hblank := Grid.blank_isSquare (4 * v + 17)
  have hbasic := basicGrid_isSquare hblank
  rw [prepared, embedVersion_eq_empty_iff (embedType_isSquare hbasic t) hn, embedType_eq_empty_iff hbasic hn,
    basicGrid_eq_empty_iff hv1 hv hblank, Covered]
  simp only [Grid.blank_cell hx hy, and_true, not_or]
  tauto

/-- Column 6 is covered: it holds finders, separators and the timing pattern (R710, R711, R715). -/
theorem covered_column_six (hv1 : 1 ≤ v) {y : Nat} (hy : y < 4 * v + 17) : Covered v 6 y := by
  by_cases ht : 8 ≤ y ∧ y ≤ 4 * v + 17 - 9
  · exact .inr (.inr (.inl ⟨y, ht, .inr ⟨rfl, rfl⟩⟩))
  · refine .inl ?_
    simp only [InCorner, inFinder_iff, mem_separatorCells (show 21 ≤ 4 * v + 17 by omega)]
    omega

/-! The build (R728, R747). -/

theorem embedBasic_blank (hv1 : 1 ≤ v) :
    embedBasic v (4 * v + 17) (Grid.blank (4 * v + 17)) = .ok (basicGrid v (Grid.blank (4 * v + 17))) := by
  have hn : 21 ≤ 4 * v + 17 := by omega
  refine embedBasic_of_free v hn (fun p hp => Grid.blank_cell ?_ ?_) ?_
  · have := (mem_separatorCells hn).mp hp
    omega
  · have := (mem_separatorCells hn).mp hp
    omega
  · rw [Grid.blank_cell (by omega) (by omega)]
    decide

theorem preparedGrid_eq (hv1 : 1 ≤ v) (ecl : Nat) {mask : Nat} (hmask : mask ≤ 7) :
    preparedGrid ecl v mask = .ok (prepared (typeWord ecl mask ^^^ 0x5412) v) := by
  rw [preparedGrid, embedBasic_blank hv1, bind_ok, typeBits_of_mask_le ecl hmask]
  rfl

theorem buildSymbol_eq (hv1 : 1 ≤ v) (bits : List Bool) (ecl : Nat) {mask : Nat} (hmask : mask ≤ 7) :
    buildSymbol bits ecl v mask = embedData (4 * v + 17) mask bits (prepared (typeWord ecl mask ^^^ 0x5412) v) := by
  rw [buildSymbol, embedBasic_blank hv1, bind_ok, typeBits_of_mask_le ecl hmask]
  rfl

/-- The dimension of a symbol as the traversal's lemmas have it. -/
theorem dimension_eq (v : Nat) : 4 * v + 17 = 2 * (2 * v + 8) + 1 := by omega

theorem mem_dataPath_version {x y : Nat} : (x, y) ∈ dataPath (4 * v + 17) ↔ x < 4 * v + 17 ∧ y < 4 * v + 17 ∧ x ≠ 6 := by
  rw [dimension_eq]
  exact mem_dataPath (by omega)

theorem dataPath_version_nodup (v : Nat) : (dataPath (4 * v + 17)).Nodup := by
  rw [dimension_eq]
  exact dataPath_nodup (by omega)

/-- The data cells of a version are the empty ones of any prepared grid (R727). -/
theorem dataCells_eq_length (hv1 : 1 ≤ v) (hv : v ≤ 40) (t : Nat) :
    dataCells v = ((prepared t v).emptyOn (dataPath (4 * v + 17))).length := by
  unfold dataCells
  rw [preparedGrid_eq hv1 0 (Nat.zero_le 7), Grid.emptyOn, ← List.countP_eq_length_filter]
  refine List.countP_congr fun p hp => ?_
  obtain ⟨hx, hy, -⟩ := mem_dataPath_version.mp hp
  simp only [decide_eq_true_eq, prepared_eq_empty_iff hv1 hv _ hx hy]

theorem placeData_isSquare (mask : Nat) (path : List (Nat × Nat)) (bits : List Bool) (hg : g.isSquare n) :
    (placeData mask path bits g).2.isSquare n := by
  induction path generalizing bits g with
  | nil => exact hg
  | cons p path ih =>
    by_cases h : g.cell p.1 p.2 = .empty
    · rw [placeData_of_empty h]
      exact ih _ (Grid.put_isSquare hg _ _ _)
    · rw [placeData_of_ne h]
      exact ih _ hg

/-- Data placement leaves no cell of a prepared grid empty: the path visits every cell that nothing covers. -/
theorem placeData_prepared_ne_empty (hv1 : 1 ≤ v) (hv : v ≤ 40) (t mask : Nat) (bits : List Bool) (x y : Nat) :
    (placeData mask (dataPath (4 * v + 17)) bits (prepared t v)).2.cell x y ≠ .empty := by
  have hg := prepared_isSquare t v
  by_cases hin : x < 4 * v + 17 ∧ y < 4 * v + 17
  · obtain ⟨hx, hy⟩ := hin
    by_cases hmem : (x, y) ∈ (prepared t v).emptyOn (dataPath (4 * v + 17))
    · obtain ⟨k, hk⟩ := List.mem_iff_getElem?.mp hmem
      rw [placeData_cell_of_getElem? mask (dataPath_version_nodup v) bits hg
        (fun p hp => ⟨(mem_dataPath_version.mp hp).1, (mem_dataPath_version.mp hp).2.1⟩) hk]
      exact Cell.ofBool_ne_empty _
    · rw [placeData_cell_of_notMem mask (dataPath_version_nodup v) bits (q := (x, y)) hmem]
      intro hempty
      refine hmem (List.mem_filter.mpr ⟨mem_dataPath_version.mpr ⟨hx, hy, fun h6 => ?_⟩, decide_eq_true hempty⟩)
      exact (prepared_eq_empty_iff hv1 hv t hx hy).mp hempty (h6 ▸ covered_column_six hv1 hy)
  · rw [Grid.cell_outside (placeData_isSquare mask _ bits hg) hin]
    decide

/-- `SYM_BUILD` on operands in range ends as the build does, and stores its grid with the version (R747). -/
theorem exec_symBuild_of_operands {s : State} (b : Bank) (hecl : s.operand 0 ≤ 3) (hv1 : 1 ≤ s.operand 1) (hv : s.operand 1 ≤ 40)
    (hmask : s.operand 2 ≤ 7) :
    exec (.symBuild b) s = s.complete (buildSymbol (s.bvBits b) (s.operand 0) (s.operand 1) (s.operand 2) >>= fun g =>
      .ok { s with symV := s.operand 1, mem := s.mem.storeGrid (4 * s.operand 1 + 17) g }) := by
  refine (State.complete_check_check (decide_and_decide_eq_true ⟨hv1, hv⟩) (decide_eq_true hecl) _ _ _).trans
    ((State.complete_check (decide_eq_true hmask) _ _).trans ?_)
  simp only [State.setSymGrid_eq, State.setSymV_symN, if_neg (Nat.one_le_iff_ne_zero.mp hv1)]
  rfl

/-- Settles O56: the build is a placement on a prepared grid, which has as many empty cells as the version has data cells. -/
theorem symbolBuildCompletes : Obligations.SymbolBuildCompletes := by
  intro s b _ hecl hv1 hv hmask
  have hbuild := buildSymbol_eq hv1 (s.bvBits b) (s.operand 0) hmask
  rw [dataCells_eq_length hv1 hv (typeWord (s.operand 0) (s.operand 2) ^^^ 0x5412), exec_symBuild_of_operands b hecl hv1 hv hmask,
    hbuild, ← s.bvBits_length b]
  refine ⟨fun hfits => ?_, fun hmany => ?_⟩
  · have hplaced := embedData_of_le (mask := s.operand 2) (dataPath_version_nodup _) hfits
    exact ⟨_, _, hplaced, State.complete_of_ok hplaced _, s.mem.storeGrid_storesCells (n := 4 * s.operand 1 + 17) (by omega) _,
      placeData_prepared_ne_empty hv1 hv _ _ _⟩
  · exact State.complete_of_error (embedData_of_gt (dataPath_version_nodup _) hmany) _

end Sys2Proof.Machine
end

section
/-! PROOFS (46_symbol.md R726, R727). The number of data cells of a version: patterns and information cover disjoint blocks of cells beside
column 6, and the data cells are the rest of the traversal. -/

namespace Sys2Proof.Machine

variable {n v : Nat}

/-! Blocks of cells. -/

/-- A rectangle of cells: its left column, width, top row and height. -/
structure Block where
  left : Nat
  width : Nat
  top : Nat
  height : Nat

/-- Place (x, y) lies in the block. -/
def Block.Has (b : Block) (x y : Nat) : Prop := (b.left ≤ x ∧ x < b.left + b.width) ∧ b.top ≤ y ∧ y < b.top + b.height

/-- Two blocks have no place in common. -/
def Block.Apart (b c : Block) : Prop := ∀ x y, b.Has x y → ¬ c.Has x y

/-- The edges of two blocks show that they have no place in common. -/
def Block.EdgesApart (b c : Block) : Prop :=
  b.left + b.width ≤ c.left ∨ c.left + c.width ≤ b.left ∨ b.top + b.height ≤ c.top ∨ c.top + c.height ≤ b.top

theorem Block.EdgesApart.apart {b c : Block} (h : b.EdgesApart c) : b.Apart c := by
  unfold Block.EdgesApart at h
  intro x y
  unfold Block.Has
  omega

/-- The places of a block. -/
def Block.places (b : Block) : List (Nat × Nat) :=
  (List.range b.width).flatMap fun i => (List.range b.height).map fun j => (b.left + i, b.top + j)

theorem Block.mem_places {b : Block} {x y : Nat} : (x, y) ∈ b.places ↔ b.Has x y := by
  simp only [Block.places, List.mem_flatMap, List.mem_map, List.mem_range, Prod.mk.injEq, Block.Has]
  constructor
  · rintro ⟨i, hi, j, hj, rfl, rfl⟩
    omega
  · rintro ⟨hx, hy⟩
    exact ⟨x - b.left, by omega, y - b.top, by omega, by omega, by omega⟩

theorem Block.places_length (b : Block) : b.places.length = b.width * b.height :=
  length_flatMap_range (fun _ => by rw [List.length_map, List.length_range]) _

theorem Block.places_nodup (b : Block) : b.places.Nodup := by
  refine List.nodup_flatMap.mpr ⟨fun i _ => List.nodup_range.map fun j k h => Nat.add_left_cancel (congrArg Prod.snd h),
    List.nodup_range.imp fun {i k} hik p hi hk => ?_⟩
  obtain ⟨_, -, rfl⟩ := List.mem_map.mp hi
  obtain ⟨_, -, h⟩ := List.mem_map.mp hk
  exact hik (Nat.add_left_cancel (congrArg Prod.fst h)).symm

theorem blocks_nodup {l : List Block} (h : l.Pairwise Block.Apart) : (l.flatMap Block.places).Nodup := by
  refine List.nodup_flatMap.mpr ⟨fun b _ => b.places_nodup, h.imp fun {b c} hbc => ?_⟩
  exact fun ⟨x, y⟩ hb hc => hbc x y (Block.mem_places.mp hb) (Block.mem_places.mp hc)

/-- Beside the blocks of a list that are apart, the traversal has so many places. -/
theorem countP_dataPath_notMem_blocks {l : List Block} (h : l.Pairwise Block.Apart)
    (hin : ∀ x y, (∃ b ∈ l, b.Has x y) → x < 4 * v + 17 ∧ y < 4 * v + 17 ∧ x ≠ 6) :
    (dataPath (4 * v + 17)).countP (fun p => decide (p ∉ l.flatMap Block.places)) + (l.map fun b => b.width * b.height).sum
      = (4 * v + 17) * (4 * v + 16) := by
  have hperm : ((dataPath (4 * v + 17)).filter fun p => decide (p ∈ l.flatMap Block.places)).Perm (l.flatMap Block.places) := by
    refine (List.perm_ext_iff_of_nodup ((dataPath_version_nodup v).filter _) (blocks_nodup h)).mpr ?_
    rintro ⟨x, y⟩
    rw [List.mem_filter, decide_eq_true_eq, and_iff_right_iff_imp, List.mem_flatMap]
    rintro ⟨b, hb, hxy⟩
    exact mem_dataPath_version.mpr (hin x y ⟨b, hb, Block.mem_places.mp hxy⟩)
  have hcovered : (dataPath (4 * v + 17)).countP (fun p => decide (p ∈ l.flatMap Block.places)) = (l.map fun b => b.width * b.height).sum := by
    rw [List.countP_eq_length_filter, hperm.length_eq, List.length_flatMap]
    simp only [Block.places_length]
  have hlen : (dataPath (4 * v + 17)).length = (4 * v + 17) * (4 * v + 16) := by
    rw [dimension_eq, dataPath_length (by omega)]
    congr 1
    omega
  rw [← hcovered, ← hlen, List.length_eq_countP_add_countP (p := fun p => decide (p ∈ l.flatMap Block.places)), Nat.add_comm]
  simp

/-! The blocks under patterns and information. -/

/-- The stretches of five columns, or rows, around centre `c`, without column, or row, 6. -/
def stretches (c : Nat) : List (Nat × Nat) := if c = 6 then [(4, 2), (7, 2)] else [(c - 2, 5)]

theorem exists_stretch_iff {c x : Nat} (hc : c = 6 ∨ 18 ≤ c) :
    (∃ t ∈ stretches c, t.1 ≤ x ∧ x < t.1 + t.2) ↔ (c ≤ x + 2 ∧ x ≤ c + 2) ∧ x ≠ 6 := by
  unfold stretches
  split
  · simp only [List.mem_cons, List.not_mem_nil, or_false, exists_eq_or_imp, exists_eq_left]
    omega
  · simp only [List.mem_cons, List.not_mem_nil, or_false, exists_eq_left]
    omega

/-- The blocks of the alignment pattern with centre `c`. -/
def alignBlocks (c : Nat × Nat) : List Block :=
  (stretches c.1).flatMap fun t => (stretches c.2).map fun u => ⟨t.1, t.2, u.1, u.2⟩

theorem exists_alignBlock_iff {c : Nat × Nat} (h1 : c.1 = 6 ∨ 18 ≤ c.1) (h2 : c.2 = 6 ∨ 18 ≤ c.2) {x y : Nat} :
    (∃ b ∈ alignBlocks c, b.Has x y) ↔ InSquare c x y ∧ x ≠ 6 ∧ y ≠ 6 := by
  have hx := exists_stretch_iff (x := x) h1
  have hy := exists_stretch_iff (x := y) h2
  simp only [alignBlocks, List.mem_flatMap, List.mem_map]
  constructor
  · rintro ⟨_, ⟨t, ht, u, hu, rfl⟩, htx, huy⟩
    have := hx.mp ⟨t, ht, htx⟩
    have := hy.mp ⟨u, hu, huy⟩
    unfold InSquare
    omega
  · rintro ⟨hin, hx6, hy6⟩
    unfold InSquare at hin
    obtain ⟨t, ht, htx⟩ := hx.mpr (by omega)
    obtain ⟨u, hu, huy⟩ := hy.mpr (by omega)
    exact ⟨_, ⟨t, ht, u, hu, rfl⟩, htx, huy⟩

/-- The blocks of the corners, with the type information around them, and the timing pattern on row 6. -/
def cornerBlocks (n : Nat) : List Block :=
  [⟨0, 6, 0, 9⟩, ⟨7, 2, 0, 9⟩, ⟨n - 8, 8, 0, 9⟩, ⟨0, 6, n - 8, 8⟩, ⟨7, 2, n - 8, 8⟩, ⟨9, n - 17, 6, 1⟩]

/-- The blocks of the version information (R725). -/
def versionBlocks (v n : Nat) : List Block := if 7 ≤ v then [⟨0, 6, n - 11, 3⟩, ⟨n - 11, 3, 0, 6⟩] else []

/-- The blocks that patterns and information of version `v` cover beside column 6. -/
def coveredBlocks (v : Nat) : List Block :=
  cornerBlocks (4 * v + 17) ++ versionBlocks v (4 * v + 17)
    ++ ((alignPlaces v).filter fun c => !inFinder (4 * v + 17) c.1 c.2).flatMap alignBlocks

theorem cornerBlocks_edgesApart (hn : 21 ≤ n) : (cornerBlocks n).Pairwise Block.EdgesApart := by
  simp only [cornerBlocks, List.pairwise_cons, List.mem_cons, List.not_mem_nil, or_false, forall_eq_or_imp, forall_eq, Block.EdgesApart,
    List.Pairwise.nil, and_true, false_implies, implies_true]
  omega

theorem versionBlocks_edgesApart (v : Nat) (hn : 21 ≤ n) : (versionBlocks v n).Pairwise Block.EdgesApart := by
  unfold versionBlocks
  split
  · exact List.pairwise_pair.mpr (.inl (show 0 + 6 ≤ n - 11 by omega))
  · exact .nil

/-- The blocks of one pattern lie beside or below each other. -/
theorem alignBlocks_edgesApart (c : Nat × Nat) : (alignBlocks c).Pairwise Block.EdgesApart := by
  have hstretches (k : Nat) : (stretches k).Pairwise fun t u => t.1 + t.2 ≤ u.1 := by
    unfold stretches
    split
    · decide
    · exact List.pairwise_singleton _ _
  refine List.pairwise_flatMap.mpr ⟨fun t _ => List.pairwise_map.mpr ((hstretches c.2).imp fun h => .inr (.inr (.inl h))),
    (hstretches c.1).imp fun h b hb d hd => ?_⟩
  obtain ⟨_, -, rfl⟩ := List.mem_map.mp hb
  obtain ⟨_, -, rfl⟩ := List.mem_map.mp hd
  exact .inl h

theorem exists_cornerBlock_iff {x y : Nat} :
    (∃ b ∈ cornerBlocks n, b.Has x y) ↔
      ((x < 6 ∨ 7 ≤ x ∧ x < 9) ∨ n - 8 ≤ x ∧ x < n - 8 + 8) ∧ y < 9 ∨ (x < 6 ∨ 7 ≤ x ∧ x < 9) ∧ n - 8 ≤ y ∧ y < n - 8 + 8
        ∨ (9 ≤ x ∧ x < 9 + (n - 17)) ∧ y = 6 := by
  simp only [cornerBlocks, List.mem_cons, List.not_mem_nil, or_false, exists_eq_or_imp, exists_eq_left, Block.Has]
  omega

theorem inVersionInfo_iff (hn : 21 ≤ n) {x y : Nat} :
    InVersionInfo n x y ↔ x < 6 ∧ (n - 11 ≤ y ∧ y < n - 8) ∨ (n - 11 ≤ x ∧ x < n - 8) ∧ y < 6 := by
  simp only [InVersionInfo, Prod.mk.injEq]
  constructor
  · rintro ⟨i, hi, j, hj, h⟩
    omega
  · rintro (h | h)
    · exact ⟨x, h.1, y - (n - 11), by omega, .inl ⟨rfl, by omega⟩⟩
    · exact ⟨y, h.2, x - (n - 11), by omega, .inr ⟨by omega, rfl⟩⟩

theorem exists_versionBlock_iff (hn : 21 ≤ n) {x y : Nat} :
    (∃ b ∈ versionBlocks v n, b.Has x y) ↔ 7 ≤ v ∧ InVersionInfo n x y := by
  unfold versionBlocks
  split
  · simp only [List.mem_cons, List.not_mem_nil, or_false, exists_eq_or_imp, exists_eq_left, Block.Has, inVersionInfo_iff hn]
    omega
  · next hv => simp only [List.not_mem_nil, false_and, exists_false, hv]

/-- The first places of the type information, around the upper left finder (R723). -/
theorem typeCell1_places : ∀ x < 9, ∀ y < 9,
    (∃ i < 15, (x, y) = typeCell1 i) ↔ x = 8 ∧ y ≠ 6 ∨ y = 8 ∧ x ≠ 6 := by
  decide

theorem inTypeInfo_iff (hn : 21 ≤ n) {x y : Nat} :
    InTypeInfo n x y ↔ (x < 9 ∧ y < 9) ∧ (x = 8 ∧ y ≠ 6 ∨ y = 8 ∧ x ≠ 6) ∨ (n - 8 ≤ x ∧ x < n) ∧ y = 8 ∨ x = 8 ∧ n - 7 ≤ y ∧ y < n := by
  have hsecond : (∃ i < 15, (x, y) = typeCell2 n i) ↔ (n - 8 ≤ x ∧ x < n) ∧ y = 8 ∨ x = 8 ∧ n - 7 ≤ y ∧ y < n := by
    unfold typeCell2
    constructor
    · rintro ⟨i, hi, h⟩
      split at h <;> simp only [Prod.mk.injEq] at h <;> omega
    · rintro (h | h)
      · exact ⟨n - 1 - x, by omega, by rw [if_pos (by omega)]; exact Prod.ext (by simp only; omega) h.2⟩
      · exact ⟨y - (n - 7) + 8, by omega, by rw [if_neg (by omega)]; exact Prod.ext h.1 (by simp only; omega)⟩
  have hfirst : (∃ i < 15, (x, y) = typeCell1 i) ↔ (x < 9 ∧ y < 9) ∧ (x = 8 ∧ y ≠ 6 ∨ y = 8 ∧ x ≠ 6) := by
    constructor
    · rintro ⟨i, hi, h⟩
      have hle := typeCell1_le i hi
      rw [← h] at hle
      have hin : x < 9 ∧ y < 9 := by omega
      exact ⟨hin, (typeCell1_places x hin.1 y hin.2).mp ⟨i, hi, h⟩⟩
    · rintro ⟨hin, h⟩
      exact (typeCell1_places x hin.1 y hin.2).mpr h
  rw [← hfirst, ← hsecond, InTypeInfo]
  simp only [and_or_left, exists_or]

theorem exists_timing_iff {x y : Nat} :
    (∃ i, TimingAt n i x y) ↔ (8 ≤ x ∧ x ≤ n - 9) ∧ y = 6 ∨ x = 6 ∧ 8 ≤ y ∧ y ≤ n - 9 := by
  unfold TimingAt
  constructor
  · rintro ⟨i, hi⟩
    omega
  · rintro (h | h)
    · exact ⟨x, h.1, .inl ⟨rfl, h.2⟩⟩
    · exact ⟨y, h.2, .inr ⟨h.1, rfl⟩⟩

/-- Corners, type information and timing patterns are the corner blocks, beside column 6. -/
theorem corner_timing_type_iff (hn : 21 ≤ n) {x y : Nat} (hx : x < n) (hy : y < n) (h6 : x ≠ 6) :
    (InCorner n x y ∨ (∃ i, TimingAt n i x y) ∨ InTypeInfo n x y) ↔ ∃ b ∈ cornerBlocks n, b.Has x y := by
  constructor
  · simp only [exists_cornerBlock_iff, InCorner, inFinder_iff, mem_separatorCells hn, Prod.mk.injEq, exists_timing_iff, inTypeInfo_iff hn]
    rintro ((h | h | h) | h | h) <;> omega
  · have finder (h : x < 7 ∧ y < 7 ∨ (n - 7 ≤ x ∧ x < n) ∧ y < 7 ∨ x < 7 ∧ n - 7 ≤ y ∧ y < n) : InCorner n x y := .inl (inFinder_iff.mpr h)
    have separator (h : (y = 7 ∧ (x < 8 ∨ n - 8 ≤ x)) ∨ (y = n - 8 ∧ x < 8) ∨ (x = 7 ∧ (y < 7 ∨ n - 7 ≤ y)) ∨ (x = n - 8 ∧ y < 7)) :
        InCorner n x y := .inr (.inl ((mem_separatorCells hn).mpr (by omega)))
    have info (h : (x < 9 ∧ y < 9) ∧ (x = 8 ∧ y ≠ 6 ∨ y = 8 ∧ x ≠ 6) ∨ (n - 8 ≤ x ∧ x < n) ∧ y = 8 ∨ x = 8 ∧ n - 7 ≤ y ∧ y < n) :
        InTypeInfo n x y := (inTypeInfo_iff hn).mpr h
    have timing (h : (8 ≤ x ∧ x ≤ n - 9) ∧ y = 6) : ∃ i, TimingAt n i x y := exists_timing_iff.mpr (.inl h)
    rw [exists_cornerBlock_iff]
    rintro (⟨hcolumn, hrow⟩ | ⟨hcolumn, hrow⟩ | ⟨hcolumn, hrow⟩)
    · obtain h | h | h | h : (y < 7 ∧ (x < 7 ∨ n - 7 ≤ x)) ∨ (y = 7 ∧ x ≠ 8 ∨ y < 7 ∧ (x = 7 ∨ x = n - 8))
          ∨ (y = 8 ∨ x = 8 ∧ y ≠ 6) ∨ (x = 8 ∧ y = 6) := by omega
      · exact .inl (finder (by omega))
      · exact .inl (separator (by omega))
      · exact .inr (.inr (info (by omega)))
      · exact .inr (.inl (timing (by omega)))
    · obtain h | h | h | h : (x < 7 ∧ n - 7 ≤ y) ∨ (x < 8 ∧ y = n - 8 ∨ x = 7 ∧ n - 7 ≤ y) ∨ (x = 8 ∧ y = n - 8) ∨ (x = 8 ∧ n - 7 ≤ y) := by
        omega
      · exact .inl (finder (by omega))
      · exact .inl (separator (by omega))
      · exact .inl (.inr (.inr (Prod.ext h.1 h.2)))
      · exact .inr (.inr (info (by omega)))
    · exact .inr (.inl (timing (by omega)))

section
variable (hv1 : 1 ≤ v) (hv : v ≤ 40)
include hv

/-- In an all-empty symbol every pair of centres outside the finders has its pattern. -/
theorem blank_inAlignment_iff {x y : Nat} :
    (Grid.blank (4 * v + 17)).inAlignment v x y
      ↔ ∃ c ∈ (alignPlaces v).filter fun c => !inFinder (4 * v + 17) c.1 c.2, InSquare c x y := by
  simp only [Grid.inAlignment, Grid.alignsAt, List.mem_filter, Bool.not_eq_true']
  refine exists_congr fun c => and_congr_left fun _ => ⟨fun h => ⟨h.1, h.2.1⟩, fun h => ⟨h.1, h.2, ?_⟩⟩
  have hhigh := (alignPlaces_apart hv).high c h.1
  exact Grid.blank_cell (by omega) (by omega)

theorem exists_alignBlock_iff_of_mem {c : Nat × Nat} (hc : c ∈ alignPlaces v) {x y : Nat} :
    (∃ b ∈ alignBlocks c, b.Has x y) ↔ InSquare c x y ∧ x ≠ 6 ∧ y ≠ 6 := by
  obtain ⟨hx, hy⟩ := mem_alignPlaces.mp hc
  exact exists_alignBlock_iff ((alignCentres_spec v hv).2 _ hx).2.1 ((alignCentres_spec v hv).2 _ hy).2.1

/-- The blocks of the alignment patterns are those patterns without column and row 6. -/
theorem exists_alignBlocks_iff {x y : Nat} :
    (∃ b ∈ ((alignPlaces v).filter fun c => !inFinder (4 * v + 17) c.1 c.2).flatMap alignBlocks, b.Has x y)
      ↔ (Grid.blank (4 * v + 17)).inAlignment v x y ∧ x ≠ 6 ∧ y ≠ 6 := by
  simp only [List.mem_flatMap, blank_inAlignment_iff hv]
  constructor
  · rintro ⟨b, ⟨c, hc, hb⟩, hxy⟩
    obtain ⟨hin, h6⟩ := (exists_alignBlock_iff_of_mem hv (List.mem_of_mem_filter hc)).mp ⟨b, hb, hxy⟩
    exact ⟨⟨c, hc, hin⟩, h6⟩
  · rintro ⟨⟨c, hc, hin⟩, h6⟩
    obtain ⟨b, hb, hxy⟩ := (exists_alignBlock_iff_of_mem hv (List.mem_of_mem_filter hc)).mpr ⟨hin, h6⟩
    exact ⟨b, ⟨c, hc, hb⟩, hxy⟩

include hv1

/-- The alignment patterns keep away from the corners (R710, R713). -/
theorem inAlignment_range {x y : Nat} (h : (Grid.blank (4 * v + 17)).inAlignment v x y) :
    (9 ≤ x ∨ 16 ≤ y ∧ y + 17 ≤ 4 * v + 17) ∧ (9 ≤ y ∨ 16 ≤ x ∧ x + 17 ≤ 4 * v + 17) ∧ x < 4 * v + 17 ∧ y < 4 * v + 17 := by
  obtain ⟨c, ⟨hc, hf, -⟩, hin⟩ := h
  have hx := (alignCentres_spec v hv).2 _ (mem_alignPlaces.mp hc).1
  have hy := (alignCentres_spec v hv).2 _ (mem_alignPlaces.mp hc).2
  have hf := inFinder_eq_false_iff.mp hf
  unfold InSquare at hin
  omega

/-- Beside column 6, patterns and information cover exactly the blocks. -/
theorem covered_iff {x y : Nat} (hx : x < 4 * v + 17) (hy : y < 4 * v + 17) (h6 : x ≠ 6) :
    Covered v x y ↔ ∃ b ∈ coveredBlocks v, b.Has x y := by
  have hn : 21 ≤ 4 * v + 17 := by omega
  have hrow (h : (Grid.blank (4 * v + 17)).inAlignment v x y) (hy6 : ¬ y ≠ 6) : ∃ b ∈ cornerBlocks (4 * v + 17), b.Has x y := by
    have := inAlignment_range hv1 hv h
    exact exists_cornerBlock_iff.mpr (by omega)
  simp only [coveredBlocks, List.mem_append, or_and_right, exists_or, ← corner_timing_type_iff hn hx hy h6, exists_versionBlock_iff hn,
    exists_alignBlocks_iff hv, Covered] at hrow ⊢
  constructor
  · rintro (h | h | h | h | h)
    · exact .inl (.inl (.inl h))
    · by_cases hy6 : y ≠ 6
      · exact .inr ⟨h, h6, hy6⟩
      · exact .inl (.inl (hrow h hy6))
    · exact .inl (.inl (.inr (.inl h)))
    · exact .inl (.inl (.inr (.inr h)))
    · exact .inl (.inr h)
  · rintro (((h | h | h) | h) | ⟨h, -⟩)
    · exact .inl h
    · exact .inr (.inr (.inl h))
    · exact .inr (.inr (.inr (.inl h)))
    · exact .inr (.inr (.inr (.inr h)))
    · exact .inr (.inl h)

/-- The blocks lie in the symbol and beside column 6. -/
theorem coveredBlocks_in {x y : Nat} (h : ∃ b ∈ coveredBlocks v, b.Has x y) : x < 4 * v + 17 ∧ y < 4 * v + 17 ∧ x ≠ 6 := by
  have hn : 21 ≤ 4 * v + 17 := by omega
  simp only [coveredBlocks, List.mem_append, or_and_right, exists_or, exists_cornerBlock_iff, exists_versionBlock_iff hn,
    inVersionInfo_iff hn, exists_alignBlocks_iff hv] at h
  rcases h with (h | ⟨_, h⟩) | ⟨h, h6⟩
  · omega
  · omega
  · have := inAlignment_range hv1 hv h
    omega

/-- No two of the blocks have a place in common. -/
theorem coveredBlocks_pairwise_apart : (coveredBlocks v).Pairwise Block.Apart := by
  have hn : 21 ≤ 4 * v + 17 := by omega
  have haligns : (((alignPlaces v).filter fun c => !inFinder (4 * v + 17) c.1 c.2).flatMap alignBlocks).Pairwise Block.Apart := by
    refine List.pairwise_flatMap.mpr ⟨fun c _ => (alignBlocks_edgesApart c).imp Block.EdgesApart.apart,
      ((alignPlaces_apart hv).apart.sublist List.filter_sublist).imp_of_mem fun {c d} hc hd hcd b hb e he x y hxy hxy' => ?_⟩
    have hin := ((exists_alignBlock_iff_of_mem hv (List.mem_of_mem_filter hc)).mp ⟨b, hb, hxy⟩).1
    exact hcd.not_inSquare hin ((exists_alignBlock_iff_of_mem hv (List.mem_of_mem_filter hd)).mp ⟨e, he, hxy'⟩).1
  refine List.pairwise_append.mpr ⟨List.pairwise_append.mpr ⟨(cornerBlocks_edgesApart hn).imp Block.EdgesApart.apart,
    (versionBlocks_edgesApart v hn).imp Block.EdgesApart.apart, fun b hb c hc x y hxy hxy' => ?_⟩, haligns,
    fun b hb c hc x y hxy hxy' => ?_⟩
  · have hcorner := exists_cornerBlock_iff.mp ⟨b, hb, hxy⟩
    have hinfo := (inVersionInfo_iff hn).mp ((exists_versionBlock_iff hn).mp ⟨c, hc, hxy'⟩).2
    omega
  · obtain ⟨halign, -, h6⟩ := (exists_alignBlocks_iff hv).mp ⟨c, hc, hxy'⟩
    have hrange := inAlignment_range hv1 hv halign
    rcases List.mem_append.mp hb with hb | hb
    · have hcorner := exists_cornerBlock_iff.mp ⟨b, hb, hxy⟩
      omega
    · have hinfo := (inVersionInfo_iff hn).mp ((exists_versionBlock_iff hn).mp ⟨b, hb, hxy⟩).2
      omega

end

/-! The number of data cells (R727). -/

/-- The cells of the traversal are data cells and those of the blocks. -/
theorem dataCells_add_blocks (hv1 : 1 ≤ v) (hv : v ≤ 40) :
    dataCells v + ((coveredBlocks v).map fun b => b.width * b.height).sum = (4 * v + 17) * (4 * v + 16) := by
  rw [← countP_dataPath_notMem_blocks (coveredBlocks_pairwise_apart hv1 hv) fun x y => coveredBlocks_in hv1 hv,
    dataCells_eq_length hv1 hv 0, Grid.emptyOn, ← List.countP_eq_length_filter]
  refine congrArg (· + _) (List.countP_congr ?_)
  rintro ⟨x, y⟩ hp
  obtain ⟨hx, hy, h6⟩ := mem_dataPath_version.mp hp
  simp only [decide_eq_true_eq, prepared_eq_empty_iff hv1 hv _ hx hy, covered_iff hv1 hv hx hy h6, List.mem_flatMap, Block.mem_places]

/-- A version's data cells, from the sizes of its blocks. -/
theorem dataCells_of_blocks {k : Nat} (hv1 : 1 ≤ v) (hv : v ≤ 40)
    (h : k + ((coveredBlocks v).map fun b => b.width * b.height).sum = (4 * v + 17) * (4 * v + 16)) : dataCells v = k :=
  Nat.add_right_cancel ((dataCells_add_blocks hv1 hv).trans h.symm)

/-- Settles O55: the traversal is a list of pairs' steps, and the data cells are counted by the blocks beside them. -/
theorem dataPathAndCapacities : Obligations.DataPathAndCapacities := by
  refine ⟨fun v hv1 hv => ⟨dataPath_version_nodup v, fun x y => mem_dataPath_version, ?_, fun p r i hp hr hi => ?_⟩,
    dataCells_of_blocks (by decide) (by decide) (by decide), dataCells_of_blocks (by decide) (by decide) (by decide),
    dataCells_of_blocks (by decide) (by decide) (by decide), dataCells_of_blocks (by decide) (by decide) (by decide),
    dataCells_of_blocks (by decide) (by decide) (by decide), dataCells_of_blocks (by decide) (by decide) (by decide),
    dataCells_of_blocks (by decide) (by decide) (by decide), dataCells_of_blocks (by decide) (by decide) (by decide),
    dataCells_of_blocks (by decide) (by decide) (by decide), dataCells_of_blocks (by decide) (by decide) (by decide)⟩
  · rw [dimension_eq]
    exact dataPath_length (by omega)
  · rw [dimension_eq] at hp hr ⊢
    exact dataPath_getElem? (by omega) (by omega) hr hi

end Sys2Proof.Machine
end

section
/-! PROOFS (47_mask.md R801 to R806, R811). The four penalty rules as counts over the cells, their bounds, and what they score on a uniform
symbol and on a checkerboard; with them `MASK_PENALTY`. -/

namespace Sys2Proof.Machine

variable {n : Nat} {g : Grid} {c : Cell}

/-! Counting cells. -/

theorem countP_places (n : Nat) (f : Nat → Nat → Bool) : ((places n).countP fun p => f p.1 p.2) = cellCount n f := by
  simp only [places, List.countP_flatMap, cellCount, Function.comp_def, List.countP_map]

theorem cellCount_congr {f f' : Nat → Nat → Bool} (h : ∀ x y, x < n → y < n → f x y = f' x y) : cellCount n f = cellCount n f' := by
  refine congrArg List.sum (List.map_congr_left fun y hy => List.countP_congr fun x hx => ?_)
  rw [h x y (List.mem_range.mp hx) (List.mem_range.mp hy)]

theorem cellCount_le (n : Nat) (f : Nat → Nat → Bool) : cellCount n f ≤ n * n := by
  refine (List.sum_le_card_nsmul _ n fun k hk => ?_).trans_eq (by simp)
  obtain ⟨y, -, rfl⟩ := List.mem_map.mp hk
  exact List.countP_le_length.trans_eq List.length_range

theorem cellCount_const (n : Nat) (b : Bool) : (cellCount n fun _ _ => b) = if b then n * n else 0 := by
  cases b <;> simp [cellCount]

theorem cellCount_eq_zero {f : Nat → Nat → Bool} (h : ∀ x y, x < n → y < n → f x y = false) : cellCount n f = 0 :=
  (cellCount_congr h).trans (cellCount_const n false)

/-! Rule 1: runs (R801). -/

theorem runPenalty_eq (k : Nat) : runPenalty k = if 5 ≤ k then k - 2 else 0 := by
  unfold runPenalty
  split <;> omega

@[simp] theorem linePenalty_nil : linePenalty [] = 0 := rfl

theorem linePenalty_replicate_append {k : Nat} {line : List Cell} (hk : 0 < k) (h : line.head? ≠ some c) :
    linePenalty (List.replicate k c ++ line) = (if 5 ≤ k then k - 2 else 0) + linePenalty line := by
  have hrun : (List.replicate k c).splitBy (fun a b => decide (a = b)) = [List.replicate k c] :=
    List.splitBy_of_isChain (by simpa using hk.ne') (List.isChain_replicate_of_rel k (by simp))
  have hend : ∀ x ∈ (List.replicate k c).getLast?, ∀ y ∈ line.head?, decide (x = y) = false := by
    intro x hx y hy
    have hxc : x = c := List.eq_of_mem_replicate (List.mem_of_getLast? hx)
    exact decide_eq_false fun hxy => h (hy.trans (congrArg some (hxy ▸ hxc)))
  rw [linePenalty, List.splitBy_append hend, hrun, List.map_append, List.sum_append, ← linePenalty]
  simp [runPenalty_eq]

theorem linePenalty_replicate {k : Nat} (hk : 5 ≤ k) (c : Cell) : linePenalty (List.replicate k c) = k - 2 := by
  simpa [hk] using linePenalty_replicate_append (line := []) (c := c) (Nat.zero_lt_of_lt hk) (by simp)

/-- A line in which every two neighbours differ has no run of two cells. -/
theorem linePenalty_of_isChain_ne {line : List Cell} (h : line.IsChain (· ≠ ·)) : linePenalty line = 0 := by
  induction line with
  | nil => rfl
  | cons a line ih =>
    have hhead : line.head? ≠ some a := fun ha => (List.isChain_cons.mp h).1 a ha rfl
    exact (linePenalty_replicate_append Nat.zero_lt_one hhead).trans (by simp [ih h.tail])

/-- The runs of a line are together as long as the line. -/
theorem linePenalty_le_length (line : List Cell) : linePenalty line ≤ line.length := by
  calc linePenalty line ≤ ((line.splitBy fun a b => decide (a = b)).map List.length).sum :=
        List.sum_le_sum fun run _ => by rw [runPenalty_eq]; split <;> omega
    _ = line.length := by rw [← List.length_flatten, List.flatten_splitBy]

theorem sum_linePenalty_le (n : Nat) (line : Nat → List Cell) (h : ∀ i, (line i).length = n) :
    ((List.range n).map fun i => linePenalty (line i)).sum ≤ n * n := by
  refine (List.sum_le_card_nsmul _ n fun k hk => ?_).trans_eq (by simp)
  obtain ⟨i, -, rfl⟩ := List.mem_map.mp hk
  exact (linePenalty_le_length _).trans_eq (h i)

theorem sum_linePenalty_eq {m : Nat} {line : Nat → List Cell} (h : ∀ i < n, linePenalty (line i) = m) :
    ((List.range n).map fun i => linePenalty (line i)).sum = n * m := by
  rw [List.map_congr_left fun i hi => h i (List.mem_range.mp hi)]
  simp

theorem rule1_le (n : Nat) (g : Grid) : rule1 n g ≤ 2 * (n * n) := by
  have hrows := sum_linePenalty_le n (g.row n) fun _ => by simp [Grid.row]
  have hcols := sum_linePenalty_le n (g.column n) fun _ => by simp [Grid.column]
  unfold rule1
  omega

theorem rule1_eq {m : Nat} (hrow : ∀ y < n, linePenalty (g.row n y) = m) (hcol : ∀ x < n, linePenalty (g.column n x) = m) :
    rule1 n g = 2 * (n * m) := by
  rw [rule1, sum_linePenalty_eq hrow, sum_linePenalty_eq hcol, Nat.two_mul]

/-! Rule 2: blocks (R802). -/

theorem rule2_eq (n : Nat) (g : Grid) : rule2 n g = 3 * cellCount (n - 1) (uniformBlock g) :=
  congrArg (3 * ·) (countP_places (n - 1) (uniformBlock g))

theorem uniformBlock_eq (g : Grid) (x y : Nat) : uniformBlock g x y = decide (g.cell x y = g.cell (x + 1) y
    ∧ g.cell x y = g.cell x (y + 1) ∧ g.cell x y = g.cell (x + 1) (y + 1)) := by
  simp only [uniformBlock, Bool.decide_and, Bool.and_assoc]

/-! Rule 3: finder-like patterns (R803). -/

theorem lightAt_some_iff {line : Nat → Cell} {i : Nat} : lightAt n line (some i) = true ↔ (i < n → line i ≠ .black) := by
  by_cases hi : i < n <;> simp [lightAt, hi]

theorem lightAt_before_iff {line : Nat → Cell} {i : Nat} (hi : i < n) :
    ((List.range 4).all fun k => lightAt n line (if k + 1 ≤ i then some (i - (k + 1)) else none)) = true
      ↔ ∀ k, k < 4 → k < i → line (i - 1 - k) ≠ .black := by
  simp only [List.all_eq_true, List.mem_range]
  refine forall₂_congr fun k _ => ?_
  by_cases hk : k < i
  · have hplace : i - (k + 1) = i - 1 - k := by omega
    have hin : i - 1 - k < n := by omega
    simp only [if_pos (Nat.succ_le_of_lt hk), lightAt_some_iff, hplace, hin, hk, true_imp_iff]
  · simp only [if_neg (show ¬ k + 1 ≤ i from hk), lightAt, hk, false_imp_iff]

theorem lightAt_after_iff {line : Nat → Cell} {i : Nat} :
    ((List.range 4).all fun k => lightAt n line (some (i + 7 + k))) = true
      ↔ ∀ k, k < 4 → i + 7 + k < n → line (i + 7 + k) ≠ .black := by
  simp only [List.all_eq_true, List.mem_range, lightAt_some_iff]

theorem finderLike_cells_iff {line : Nat → Cell} {i : Nat} :
    (finderLike.zipIdx.all fun p => decide (line (i + p.2) = Cell.ofBool (decide (p.1 = 1)))) = true
      ↔ line i = .black ∧ line (i + 1) = .white ∧ line (i + 2) = .black ∧ line (i + 3) = .black ∧ line (i + 4) = .black
        ∧ line (i + 5) = .white ∧ line (i + 6) = .black := by
  simp [finderLike, Cell.ofBool]

theorem finderLikeAt_eq (n : Nat) (line : Nat → Cell) (i : Nat) : finderLikeAt n line i = decide (FinderLike n line i) := by
  rw [Bool.eq_iff_iff, decide_eq_true_iff]
  by_cases hi : i + 6 < n
  · simp only [finderLikeAt, Bool.and_eq_true, Bool.or_eq_true, decide_eq_true_eq, finderLike_cells_iff,
      lightAt_before_iff (show i < n by omega), lightAt_after_iff, FinderLike, and_assoc]
  · exact iff_of_false (by simp [finderLikeAt, hi]) fun h => hi h.1

theorem rule3_eq (n : Nat) (g : Grid) : rule3 n g = 40 * (cellCount n (fun x y => decide (FinderLike n (fun i => g.cell i y) x))
    + cellCount n fun x y => decide (FinderLike n (fun i => g.cell x i) y)) := by
  simp only [rule3, finderLikeAt_eq]
  rw [countP_places n fun x y => decide (FinderLike n (fun i => g.cell i y) x),
    countP_places n fun x y => decide (FinderLike n (fun i => g.cell x i) y)]

theorem rule3_eq_zero (hrow : ∀ x y, y < n → ¬ FinderLike n (fun i => g.cell i y) x)
    (hcol : ∀ x y, x < n → ¬ FinderLike n (fun i => g.cell x i) y) : rule3 n g = 0 := by
  rw [rule3_eq, cellCount_eq_zero fun x y _ hy => decide_eq_false (hrow x y hy),
    cellCount_eq_zero fun x y hx _ => decide_eq_false (hcol x y hx)]

/-! Rule 4: balance (R804). -/

/-- The number of dark cells of a symbol of dimension `n`. -/
def darkCount (n : Nat) (g : Grid) : Nat := cellCount n fun x y => decide (g.cell x y = .black)

/-- How far twice the dark cells are from the total, without a sign. -/
def imbalance (n dark : Nat) : Nat := if n * n ≤ 2 * dark then 2 * dark - n * n else n * n - 2 * dark

theorem rule4_eq (n : Nat) (g : Grid) : rule4 n g = (imbalance n (darkCount n g) * 10 / (n * n)) * 10 := by
  have habs : ((2 * darkCount n g : Int) - (n * n : Nat)).natAbs = imbalance n (darkCount n g) := by
    unfold imbalance
    split <;> omega
  rw [← habs, darkCount, ← countP_places]
  rfl

theorem imbalance_le {dark : Nat} (h : dark ≤ n * n) : imbalance n dark ≤ n * n := by
  unfold imbalance
  split <;> omega

/-! The total (R806). -/

theorem penalty_lt (hn : n ≤ 177) (g : Grid) : penalty n g < 2 ^ 32 := by
  have hsquare : n * n ≤ 177 * 177 := Nat.mul_le_mul hn hn
  have h1 := rule1_le n g
  have h2 : rule2 n g ≤ 3 * (n * n) := by
    rw [rule2_eq]
    exact Nat.mul_le_mul_left 3 ((cellCount_le _ _).trans (Nat.mul_le_mul (Nat.sub_le n 1) (Nat.sub_le n 1)))
  have h3 : rule3 n g ≤ 40 * (n * n + n * n) := by
    rw [rule3_eq]
    exact Nat.mul_le_mul_left 40 (Nat.add_le_add (cellCount_le _ _) (cellCount_le _ _))
  have h4 : rule4 n g ≤ 10 * 10 := by
    rw [rule4_eq]
    exact Nat.mul_le_mul_right 10 (Nat.div_le_of_le_mul (Nat.mul_le_mul_right 10 (imbalance_le (cellCount_le n _))))
  unfold penalty
  omega

/-! A uniform symbol (R811). -/

theorem linePenalty_of_uniform (hn : 5 ≤ n) {line : Nat → Cell} (h : ∀ i < n, line i = c) :
    linePenalty ((List.range n).map line) = n - 2 := by
  rw [List.map_congr_left fun i hi => h i (List.mem_range.mp hi), List.map_const', List.length_range, linePenalty_replicate hn]

/-- A finder-like pattern begins with two different cells. -/
theorem not_finderLike_of_uniform {line : Nat → Cell} (h : ∀ i < n, line i = c) (i : Nat) : ¬ FinderLike n line i := by
  rintro ⟨hi, hblack, hwhite, -⟩
  rw [h i (by omega)] at hblack
  rw [h (i + 1) (by omega), hblack] at hwhite
  cases hwhite

section
variable (h : ∀ x y, x < n → y < n → g.cell x y = c)
include h

theorem rule1_of_uniform (hn : 5 ≤ n) : rule1 n g = 2 * (n * (n - 2)) :=
  rule1_eq (fun y hy => linePenalty_of_uniform hn fun x hx => h x y hx hy) fun x hx => linePenalty_of_uniform hn fun y hy => h x y hx hy

theorem rule2_of_uniform : rule2 n g = 3 * ((n - 1) * (n - 1)) := by
  have hblock : ∀ x y, x < n - 1 → y < n - 1 → uniformBlock g x y = true := fun x y hx hy => by
    rw [uniformBlock_eq, h x y (by omega) (by omega), h (x + 1) y (by omega) (by omega), h x (y + 1) (by omega) (by omega),
      h (x + 1) (y + 1) (by omega) (by omega)]
    simp
  rw [rule2_eq, cellCount_congr hblock, cellCount_const, if_pos rfl]

theorem rule3_of_uniform : rule3 n g = 0 :=
  rule3_eq_zero (fun x y hy => not_finderLike_of_uniform (fun i hi => h i y hi hy) x)
    fun x y hx => not_finderLike_of_uniform (fun i hi => h x i hx hi) y

theorem rule4_of_uniform (hn : 0 < n) : rule4 n g = 100 := by
  have himbalance : imbalance n (darkCount n g) = n * n := by
    rw [darkCount, cellCount_congr (f' := fun _ _ => decide (c = .black)) fun x y hx hy => by rw [h x y hx hy], cellCount_const, imbalance]
    split_ifs <;> omega
  rw [rule4_eq, himbalance, Nat.mul_div_cancel_left 10 (Nat.mul_pos hn hn)]

end

/-! A checkerboard (R811). -/

/-- The cell of a checkerboard at a place whose coordinates add up to `i`. -/
def checkerCell (i : Nat) : Cell := Cell.ofBool (decide (i % 2 = 1))

theorem checkerCell_ne_succ (i : Nat) : checkerCell i ≠ checkerCell (i + 1) := by
  rcases Nat.mod_two_eq_zero_or_one i with hi | hi <;> simp [checkerCell, Cell.ofBool, Nat.add_mod, hi]

/-- A line of a checkerboard scores nothing in rule 1. -/
theorem linePenalty_of_checker {line : Nat → Cell} {o : Nat} (h : ∀ i < n, line i = checkerCell (i + o)) :
    linePenalty ((List.range n).map line) = 0 := by
  refine linePenalty_of_isChain_ne ((List.isChain_map line).mpr ((List.isChain_range _ n).mpr fun i hi => ?_))
  rw [h i (by omega), h (i + 1) (by omega), Nat.add_right_comm]
  exact checkerCell_ne_succ (i + o)

/-- A line of a checkerboard holds no two black cells side by side, as a finder-like pattern does. -/
theorem not_finderLike_of_checker {line : Nat → Cell} {o : Nat} (h : ∀ i < n, line i = checkerCell (i + o)) (i : Nat) :
    ¬ FinderLike n line i := by
  rintro ⟨hi, -, -, h2, h3, -⟩
  refine checkerCell_ne_succ (i + 2 + o) ?_
  rw [← h (i + 2) (by omega), h2, Nat.add_right_comm, ← h (i + 3) (by omega), h3]

section
variable (h : ∀ x y, x < n → y < n → g.cell x y = checkerCell (x + y))
include h

theorem rule1_of_checkerboard : rule1 n g = 0 :=
  rule1_eq (m := 0) (fun y hy => linePenalty_of_checker fun x hx => h x y hx hy)
    fun x hx => linePenalty_of_checker fun y hy => (h x y hx hy).trans (by rw [Nat.add_comm])

theorem rule2_of_checkerboard : rule2 n g = 0 := by
  have hblock : ∀ x y, x < n - 1 → y < n - 1 → uniformBlock g x y = false := fun x y hx hy => by
    rw [uniformBlock_eq, decide_eq_false_iff_not, h x y (by omega) (by omega), h (x + 1) y (by omega) (by omega), Nat.add_right_comm]
    exact fun heq => checkerCell_ne_succ (x + y) heq.1
  rw [rule2_eq, cellCount_eq_zero hblock]

theorem rule3_of_checkerboard : rule3 n g = 0 :=
  rule3_eq_zero (fun x y hy => not_finderLike_of_checker (fun i hi => h i y hi hy) x)
    fun x y hx => not_finderLike_of_checker (fun i hi => (h x i hx hi).trans (by rw [Nat.add_comm])) y

end

/-- In version 1 a checkerboard has 220 dark cells of 441, less than a step from one half. -/
theorem rule4_of_checkerboard (h : ∀ x y, x < 21 → y < 21 → g.cell x y = checkerCell (x + y)) : rule4 21 g = 0 := by
  have hdark : darkCount 21 g = 220 := by
    rw [darkCount, cellCount_congr (f' := fun x y => decide (checkerCell (x + y) = .black)) fun x y hx hy => by rw [h x y hx hy]]
    decide
  rw [rule4_eq, hdark]
  rfl

/-- `MASK_PENALTY` writes the four components and their sum (R811). -/
theorem exec_maskPenalty_of_symbol {s : State} (h : s.symV ≠ 0) :
    exec .maskPenalty s = .next (State.succeed (((((s.setResult 1 (Word.ofNat (rule1 s.symN s.symGrid))).setResult 2
      (Word.ofNat (rule2 s.symN s.symGrid))).setResult 3 (Word.ofNat (rule3 s.symN s.symGrid))).setResult 4
      (Word.ofNat (rule4 s.symN s.symGrid))).setResult 0 (Word.ofNat (penalty s.symN s.symGrid)))) :=
  State.complete_check (State.hasSymbol h) _ _

/-- Settles O58: each rule is a count over the cells, and the working grid's cells are the symbol's. -/
theorem penaltyCompletes : Obligations.PenaltyCompletes := by
  refine ⟨rfl, fun k c line hk hline => linePenalty_replicate_append hk hline, fun s hs hsym => ?_⟩
  have hcell : s.symGrid.cell = s.symCell := funext₂ (s.symGrid_cell hs.symN_le)
  have hsize (h1 : s.symV = 1) : s.symN = 21 := by rw [State.symN_of_ne hsym, h1]
  rw [← hcell]
  intro n g total dark
  refine ⟨penalty_lt hs.symN_le s.symGrid, fun _ _ _ _ => rfl, ?_, rfl, ?_, rule3_eq s.symN s.symGrid, rule4_eq s.symN s.symGrid,
    fun h1 c h => ?_, fun h1 h => ?_⟩
  · rw [exec_maskPenalty_of_symbol hsym]
    simp only [State.setResult]
    rfl
  · simp only [rule2_eq, ← uniformBlock_eq, n, g]
  · simp only [n, hsize h1]
    exact ⟨rule1_of_uniform h (by decide), rule2_of_uniform h, rule3_of_uniform h, rule4_of_uniform h (by decide)⟩
  · simp only [total, n, hsize h1]
    rw [rule1_of_checkerboard h, rule2_of_checkerboard h, rule3_of_checkerboard h, rule4_of_checkerboard h]

end Sys2Proof.Machine
end

section
/-! PROOFS (47_mask.md R807, R812). The first minimum among the masks' penalties, the build of a symbol with each mask, and `MASK_SELECT`. -/

namespace Sys2Proof.Machine

/-! The first minimum (R807). -/

/-- `b` is the first index below `n` at which `p` is least. -/
structure IsFirstMinimum (p : Nat → Nat) (n b : Nat) : Prop where
  lt : b < n
  le : ∀ k, k < n → p b ≤ p k
  first : ∀ k, k < b → p b < p k

theorem isFirstMinimum_one (p : Nat → Nat) : IsFirstMinimum p 1 0 where
  lt := Nat.zero_lt_one
  le k hk := by rw [Nat.lt_one_iff.mp hk]
  first k hk := absurd hk (Nat.not_lt_zero k)

/-- One more value takes the first minimum's place exactly when it is less. -/
theorem IsFirstMinimum.succ {p : Nat → Nat} {n b : Nat} (h : IsFirstMinimum p n b) :
    IsFirstMinimum p (n + 1) (if p n < p b then n else b) := by
  split
  case isTrue hn =>
    have hbelow (k : Nat) (hk : k < n) : p n < p k := hn.trans_le (h.le k hk)
    refine ⟨Nat.lt_succ_self n, fun k hk => ?_, hbelow⟩
    rcases Nat.lt_succ_iff_lt_or_eq.mp hk with hk | rfl
    · exact (hbelow k hk).le
    · exact le_rfl
  case isFalse hn =>
    refine ⟨h.lt.trans (Nat.lt_succ_self n), fun k hk => ?_, h.first⟩
    rcases Nat.lt_succ_iff_lt_or_eq.mp hk with hk | rfl
    · exact h.le k hk
    · exact Nat.not_lt.mp hn

/-- From the first minimum of the values before `i`, the search goes on to that of `m` values more. -/
theorem firstMin_spec {p : Nat → Nat} {i b : Nat} (m : Nat) (h : IsFirstMinimum p i b) :
    ∃ r, firstMin (b, p b) i ((List.range' i m).map p) = (r, p r) ∧ IsFirstMinimum p (i + m) r := by
  induction m generalizing i b with
  | zero => exact ⟨b, rfl, h⟩
  | succ m ih =>
    obtain ⟨r, hr, hmin⟩ := ih h.succ
    refine ⟨r, ?_, by rwa [Nat.add_right_comm] at hmin⟩
    rw [← hr, List.range'_succ, List.map_cons, firstMin]
    split_ifs <;> rfl

/-! The eight builds (R807). -/

/-- The symbol of version `v` with the bits placed under a mask; it is the build when the bits fit (R728). -/
def builtSymbol (bits : List Bool) (ecl v mask : Nat) : Grid :=
  (placeData mask (dataPath (4 * v + 17)) bits (prepared (typeWord ecl mask ^^^ 0x5412) v)).2

section
variable {bits : List Bool} {v : Nat}

theorem buildSymbol_of_le (hv1 : 1 ≤ v) (hv : v ≤ 40) (h : bits.length ≤ dataCells v) (ecl : Nat) {mask : Nat} (hmask : mask ≤ 7) :
    buildSymbol bits ecl v mask = .ok (builtSymbol bits ecl v mask) := by
  rw [dataCells_eq_length hv1 hv (typeWord ecl mask ^^^ 0x5412)] at h
  rw [buildSymbol_eq hv1 bits ecl hmask, embedData_of_le (dataPath_version_nodup v) h, builtSymbol]

theorem buildSymbol_of_gt (hv1 : 1 ≤ v) (hv : v ≤ 40) (h : dataCells v < bits.length) (ecl : Nat) {mask : Nat} (hmask : mask ≤ 7) :
    buildSymbol bits ecl v mask = .error .dataBitsLeft := by
  rw [dataCells_eq_length hv1 hv (typeWord ecl mask ^^^ 0x5412)] at h
  rw [buildSymbol_eq hv1 bits ecl hmask, embedData_of_gt (dataPath_version_nodup v) h]

/-- The penalty of the build with a mask. -/
def maskedPenalty (bits : List Bool) (ecl v mask : Nat) : Nat := penalty (4 * v + 17) (builtSymbol bits ecl v mask)

/-- When the bits fit, the selection finds the first minimum of the eight penalties. -/
theorem selectMask_of_le (hv1 : 1 ≤ v) (hv : v ≤ 40) (h : bits.length ≤ dataCells v) (ecl : Nat) :
    ∃ best, IsFirstMinimum (maskedPenalty bits ecl v) 8 best ∧ selectMask bits ecl v =
      .ok ⟨best, maskedPenalty bits ecl v best, (List.range 8).map (maskedPenalty bits ecl v), builtSymbol bits ecl v best⟩ := by
  obtain ⟨best, hbest, hmin⟩ := firstMin_spec 7 (isFirstMinimum_one (maskedPenalty bits ecl v))
  have htotals : ((List.range 8).mapM fun m => do
      let g ← buildSymbol bits ecl v m
      return penalty (4 * v + 17) g) = Except.ok ((List.range 8).map (maskedPenalty bits ecl v)) :=
    mapM_eq_ok fun m hm => by
      rw [buildSymbol_of_le hv1 hv h ecl (Nat.le_of_lt_succ (List.mem_range.mp hm))]
      rfl
  have hfirst : firstMin (0, ((List.range 8).map (maskedPenalty bits ecl v)).headD 0) 1
      ((List.range 8).map (maskedPenalty bits ecl v)).tail = (best, maskedPenalty bits ecl v best) := hbest
  refine ⟨best, hmin, ?_⟩
  rw [selectMask, htotals, bind_ok]
  simp only [hfirst]
  rw [buildSymbol_of_le hv1 hv h ecl (Nat.le_of_lt_succ hmin.lt)]
  rfl

/-- When the bits do not fit, the first build fails already. -/
theorem selectMask_of_gt (hv1 : 1 ≤ v) (hv : v ≤ 40) (h : dataCells v < bits.length) (ecl : Nat) :
    selectMask bits ecl v = .error .dataBitsLeft := by
  rw [selectMask, List.range_succ_eq_map, List.mapM_cons, buildSymbol_of_gt hv1 hv h ecl (Nat.zero_le 7)]
  rfl

end

/-! The command (R812). -/

variable {s : State}

/-- `MASK_SELECT` on operands in range ends as the selection does, and stores what it finds (R812). -/
theorem exec_maskSelect_of_operands (b : Bank) (hecl : s.operand 0 ≤ 3) (hv1 : 1 ≤ s.operand 1) (hv : s.operand 1 ≤ 40) :
    exec (.maskSelect b) s = s.complete (selectMask (s.bvBits b) (s.operand 0) (s.operand 1) >>= fun r => .ok { s with
      symV := s.operand 1
      pen := Vector.ofFn fun k => Word.ofNat (r.totals.getD k.val 0)
      result := (s.result.setIfInBounds 0 (Word.ofNat r.best)).setIfInBounds 1 (Word.ofNat r.minimum)
      mem := s.mem.storeGrid (4 * s.operand 1 + 17) r.grid }) := by
  refine (State.complete_check_check (decide_and_decide_eq_true ⟨hv1, hv⟩) (decide_eq_true hecl) _ _ _).trans ?_
  simp only [State.setSymGrid_eq, State.setSymV_symN, if_neg (Nat.one_le_iff_ne_zero.mp hv1)]
  simp only [State.setResult, State.setMem, State.setSymV, State.setPens, pure_eq_ok]

/-- Settles O59: the selection is the first minimum of the penalties of the eight builds, which all succeed or all fail. -/
theorem selectionKeepsFirstMinimum : Obligations.SelectionKeepsFirstMinimum := by
  intro s b _ hecl hv1 hv
  rw [exec_maskSelect_of_operands b hecl hv1 hv, ← s.bvBits_length b]
  refine ⟨fun hfits => ?_, fun hmany => State.complete_of_error (selectMask_of_gt hv1 hv hmany _) _⟩
  have hbuild {k : Nat} (hk : k ≤ 7) := buildSymbol_of_le hv1 hv hfits (s.operand 0) hk
  obtain ⟨best, hmin, hselect⟩ := selectMask_of_le hv1 hv hfits (s.operand 0)
  have hbest : best ≤ 7 := Nat.le_of_lt_succ hmin.lt
  have htotals (k : Fin 8) : ((List.range 8).map (maskedPenalty (s.bvBits b) (s.operand 0) (s.operand 1))).getD k.val 0
      = maskedPenalty (s.bvBits b) (s.operand 0) (s.operand 1) k := by simp [List.getD_eq_getElem?_getD]
  refine ⟨maskedPenalty (s.bvBits b) (s.operand 0) (s.operand 1), best, _, _, hbest, fun k hk => ⟨_, hbuild hk, rfl⟩,
    fun k hk => hmin.le k (Nat.lt_succ_of_le hk), hmin.first, hbuild hbest, ?_,
    s.mem.storeGrid_storesCells (n := 4 * s.operand 1 + 17) (by omega) _⟩
  rw [State.complete_of_ok hselect]
  simp only [htotals]
  rfl

end Sys2Proof.Machine
end

section
/-! PROOFS (60_exceptions.md R900 to R903, R931). How a command is accepted and how it completes, and that what it computes does not depend
on the `ARG` registers, the host or the values drawn. -/

namespace Sys2Proof.Machine

variable {i : Instr} {s t u v : State}

/-! Acceptance (R900). -/

/-- Settles O6: `CMD` is the place of the offset written, and a write to it while idle is the acceptance, with the latency drawn. -/
theorem commandIsAccepted : Obligations.CommandIsAccepted := fun s w _ hb hh =>
  ⟨Config.latency w s.draws, step_idle_write_place hb hh (p := .cmd) rfl rfl⟩

/-! Independence from the host (R903). -/

/-- `s` with the `ARG` registers of `v`, and with what the host asks and has read and the values drawn in `v`. -/
def State.withHostOf (s v : State) : State :=
  { s with arg := v.arg, host := v.host, rdata := v.rdata, wait := v.wait, draws := v.draws }

/-- A computation ends as `r` does, but with the host of `v`: in the same failure, or in the same writes. -/
def EndsWithHostOf (v : State) (r' r : Except Failure State) : Prop := r' = r.map (·.withHostOf v)

namespace EndsWithHostOf

variable {α : Type} {r r' : Except Failure State}

theorem error (f : Failure) : EndsWithHostOf v (.error f) (.error f) := rfl

theorem pure (h : t = u.withHostOf v := by rfl) : EndsWithHostOf v (.ok t) (.ok u) := congrArg Except.ok h

theorem setBvSize {x : Bank} {n : Nat} (h : t = u.withHostOf v := by rfl) :
    EndsWithHostOf v (.ok (t.setBvSize x n)) (.ok (u.setBvSize x n)) := pure (by cases x <;> exact h ▸ rfl)

theorem setScan {p : Option (Nat × Nat)} : EndsWithHostOf v (.ok ((u.withHostOf v).setScan p)) (.ok (u.setScan p)) :=
  pure (by cases p <;> rfl)

theorem setBmRows {l : List Nat} {x n : Nat} {y : Nat → Nat} {f : Nat → Nat → Bool} (h : t = u.withHostOf v := by rfl) :
    EndsWithHostOf v (.ok (l.foldl (fun u k => u.setBmRow x (y k) n (f k)) t))
      (.ok (l.foldl (fun u k => u.setBmRow x (y k) n (f k)) u)) :=
  pure (h ▸ List.foldl_hom (fun u : State => u.withHostOf v) fun _ _ => rfl)

/-- Both computations go on from the same value. -/
theorem bind {x : Except Failure α} {k k' : α → Except Failure State} (h : ∀ a, EndsWithHostOf v (k' a) (k a)) :
    EndsWithHostOf v (x >>= k') (x >>= k) := by
  cases x with
  | error f => rfl
  | ok a => exact h a

/-- Both computations go on from states that differ in the host. -/
theorem andThen {k k' : State → Except Failure State} (hr : EndsWithHostOf v r' r)
    (hk : ∀ u, EndsWithHostOf v (k' (u.withHostOf v)) (k u)) : EndsWithHostOf v (r' >>= k') (r >>= k) := by
  cases r with
  | error f => exact hr ▸ error f
  | ok u => exact hr ▸ hk u

theorem setPoly {r : Nat} {p : Poly} : EndsWithHostOf v ((s.withHostOf v).setPoly r p) (s.setPoly r p) := bind fun _ => pure

theorem ite {c : Prop} [Decidable c] {r₁ r₁' r₂ r₂' : Except Failure State} (h₁ : EndsWithHostOf v r₁' r₁)
    (h₂ : EndsWithHostOf v r₂' r₂) : EndsWithHostOf v (if c then r₁' else r₂') (if c then r₁ else r₂) := by
  split
  · exact h₁
  · exact h₂

/-- Completion adds nothing that depends on the host. -/
theorem complete (h : EndsWithHostOf v r' r) (hr : s.complete r = .next t) :
    (s.withHostOf v).complete r' = .next (t.withHostOf v) := by
  obtain ⟨u, rfl, rfl⟩ | ⟨f, rfl, rfl⟩ := s.complete_next hr
  · exact h ▸ rfl
  · exact h ▸ rfl

end EndsWithHostOf

/-- Each command computes the same whatever the host does: it reads no part of the state that `withHostOf` replaces. -/
theorem exec_endsWithHostOf (i : Instr) (s v : State) : ∃ r r', exec i s = s.complete r
    ∧ exec i (s.withHostOf v) = (s.withHostOf v).complete r' ∧ EndsWithHostOf v r' r := by
  cases i with
  | nop | bmClear => exact ⟨_, _, rfl, rfl, .pure⟩
  | bmTopleft | bmBotright => exact ⟨_, _, rfl, rfl, .setScan⟩
  | bvClear x => exact ⟨_, _, rfl, rfl, .setBvSize⟩
  | gfExp | pCoef | pDeg | bvGet | bvSet | bvXor | bmGet | bmSet | symInit | embVersion | maskPenalty | bchVersion =>
    exact ⟨_, _, rfl, rfl, .bind fun _ => .pure⟩
  | gfAdd | gfMul | gfInv | gfLog | pEval | rsChien | rsForney | bvTobytes | bmInit | symGet | embBasic | maskBit | bchType =>
    exact ⟨_, _, rfl, rfl, .bind fun _ => .bind fun _ => .pure⟩
  | rsCorr | embType | embData | maskSelect => exact ⟨_, _, rfl, rfl, .bind fun _ => .bind fun _ => .bind fun _ => .pure⟩
  | rsEnc | symBuild => exact ⟨_, _, rfl, rfl, .bind fun _ => .bind fun _ => .bind fun _ => .bind fun _ => .pure⟩
  | pZero rd => exact ⟨s.setPoly rd [0], _, rfl, rfl, .setPoly⟩
  | pCopy | pNorm | rsGen => exact ⟨_, _, rfl, rfl, .bind fun _ => .setPoly⟩
  | pMono | pAdd | pMul | pScale => exact ⟨_, _, rfl, rfl, .bind fun _ => .bind fun _ => .setPoly⟩
  | pMulmono => exact ⟨_, _, rfl, rfl, .bind fun _ => .bind fun _ => .ite .setPoly (.bind fun _ => .setPoly)⟩
  | pDiv => exact ⟨_, _, rfl, rfl, .bind fun _ => .bind fun _ => .bind fun _ => .bind fun _ => .andThen .setPoly fun _ => .setPoly⟩
  | rsSynd => exact ⟨_, _, rfl, rfl, .bind fun _ => .bind fun _ => .bind fun _ => .andThen .setPoly fun _ => .pure⟩
  | rsKey =>
    exact ⟨_, _, rfl, rfl, .bind fun _ => .bind fun _ => .bind fun _ => .bind fun _ => .bind fun _ =>
      .andThen .setPoly fun _ => .andThen .setPoly fun _ => .pure⟩
  | rsDec => exact ⟨_, _, rfl, rfl, .bind fun _ => .bind fun _ => .bind fun _ => .ite .pure (.bind fun _ => .pure)⟩
  | bvAppend x => exact ⟨_, _, rfl, rfl, .bind fun _ => .bind fun _ => .setBvSize⟩
  | bvSetsize x | bmRow x | bmCol x => exact ⟨_, _, rfl, rfl, .bind fun _ => .setBvSize⟩
  | bmSetregion => exact ⟨_, _, rfl, rfl, .bind fun _ => .bind fun _ => .setBmRows⟩
  | symExport => exact ⟨_, _, rfl, rfl, .bind fun _ => .setBmRows⟩
  | symSet =>
    refine ⟨_, _, rfl, rfl, .bind fun _ => .bind fun _ => ?_⟩
    change EndsWithHostOf v (match Cell.ofWord (s.latch.getD 2 0) with | none => _ | some c => _) _
    cases Cell.ofWord (s.latch.getD 2 0) with
    | none => exact .error _
    | some c => exact .pure

/-- Settles O10: the second run computes what the first does, from the first one's state with another host. -/
theorem commandsIgnoreTheHost : Obligations.CommandsIgnoreTheHost := by
  intro i s t arg host rdata wait draws h
  obtain ⟨r, r', hr, hr', hends⟩ := exec_endsWithHostOf i s
    { s with arg := arg, host := host, rdata := rdata, wait := wait, draws := draws }
  exact hr'.trans (hends.complete (hr.symm.trans h))

/-! Completion (R901, R902). -/

/-- Every command answers a next state: no arm of `exec` refuses or faults (R901). -/
theorem exec_isNext (i : Instr) (s : State) : ∃ t, exec i s = .next t := by
  obtain ⟨r, -, hr, -⟩ := exec_endsWithHostOf i s s
  exact hr ▸ s.complete_isNext r

/-- After permitted writes, completion with success leaves every `STATUS` bit but its own as it was (10_state.md R106). -/
theorem Writes.succeed_status (h : Writes i s u) :
    u.succeed.status = { s.status with busy := false, done := true, err := false } := by
  simp only [State.succeed_status, h.keepsOthers.ovr, h.keepsOthers.haz, h.keepsOthers.cfgErr]

/-- Settles O7: a completion answers a next state, that of a success after permitted writes or that of a failure. -/
theorem commandsComplete : Obligations.CommandsComplete := by
  intro i s
  obtain ⟨t, hexec⟩ := exec_isNext i s
  refine ⟨t, hexec, ?_⟩
  obtain ⟨f, rfl⟩ | ⟨u, hu, rfl⟩ := exec_ends hexec
  · exact ⟨rfl, nofun, fun _ => f.mem_errorPairs⟩
  · exact ⟨hu.succeed_status, fun _ => ⟨rfl, rfl⟩, nofun⟩

/-- Settles O8: a command that does not succeed has kept the state it started in. -/
theorem failureChangesNothingElse : Obligations.FailureChangesNothingElse := by
  intro i s t h herr
  obtain ⟨f, rfl⟩ | ⟨u, -, rfl⟩ := exec_ends h
  · rfl
  · cases herr

end Sys2Proof.Machine
end

section
/-! PROOFS (60_exceptions.md R910). Which failures each command's computation can end in, part by part. -/

namespace Sys2Proof.Machine

/-- The computation `x` fails, if at all, with a code and subcode of the list `l`. -/
def RaisesOnly {α : Type} (l : List (Byte × Byte)) (x : Except Failure α) : Prop := ∀ f, x = .error f → (f.code, f.sub) ∈ l

namespace RaisesOnly

variable {α β : Type} {l : List (Byte × Byte)} {s : State}

/-! The parts of a computation: what each can raise, read off the command's row. -/

theorem ok (a : α) : RaisesOnly l (.ok a) := nofun

theorem error {f : Failure} (hf : (f.code, f.sub) ∈ l := by simp [raisedBy, Failure.code, Failure.sub]) :
    RaisesOnly l (.error f : Except Failure α) := fun _ h => Except.error.inj h ▸ hf

theorem check {c : Bool} {f : Failure} (hf : (f.code, f.sub) ∈ l := by simp [raisedBy, Failure.code, Failure.sub]) :
    RaisesOnly l (check c f) := fun _ h => (check_error h).2 ▸ hf

theorem fieldOperand {k : Nat} (hf : (0x02, 0x03) ∈ l := by simp [raisedBy]) : RaisesOnly l (s.fieldOperand k) :=
  fun _ h => State.fieldOperand_error h ▸ hf

theorem poly {r : Nat} (hf : (0x01, 0x01) ∈ l := by simp [raisedBy]) : RaisesOnly l (s.poly r) :=
  fun _ h => (State.poly_error h).2 ▸ hf

theorem setPoly {r : Nat} {p : Poly} (hf : (0x05, 0x02) ∈ l := by simp [raisedBy]) : RaisesOnly l (s.setPoly r p) :=
  fun _ h => (State.setPoly_error h).2 ▸ hf

/-- A polynomial that fits a register is written. -/
theorem setPoly_of_le {r : Nat} {p : Poly} (hp : p.length ≤ 512) : RaisesOnly l (s.setPoly r p) :=
  fun _ h => absurd (State.setPoly_error h).1 (Nat.not_lt.mpr hp)

theorem bind {x : Except Failure α} {k : α → Except Failure β} (hx : RaisesOnly l x) (hk : ∀ a, x = .ok a → RaisesOnly l (k a)) :
    RaisesOnly l (x >>= k) := by
  cases x with
  | error f => exact error (hx f rfl)
  | ok a => exact hk a rfl

theorem ite {c : Prop} [Decidable c] {x y : Except Failure α} (hx : c → RaisesOnly l x) (hy : ¬ c → RaisesOnly l y) :
    RaisesOnly l (if c then x else y) := by
  split
  · exact hx ‹_›
  · exact hy ‹_›

theorem mapM {f : α → Except Failure β} (hf : ∀ a, RaisesOnly l (f a)) (as : List α) : RaisesOnly l (as.mapM f) := by
  induction as with
  | nil => exact ok []
  | cons a as ih =>
    rw [List.mapM_cons]
    exact (hf a).bind fun _ _ => ih.bind fun _ _ => ok _

end RaisesOnly

/-! Polynomials (42_poly.md R459). -/

theorem State.poly_ok_normal {s : State} {r : Nat} {p : Poly} (h : s.poly r = .ok p) : NormalPoly p := by
  obtain ⟨hr, rfl⟩ := State.poly_ok h
  exact State.polyValue_normal hr

theorem State.Inv.poly_ok_length {s : State} (hs : s.Inv) {r : Nat} {p : Poly} (h : s.poly r = .ok p) : p.length ≤ 512 := by
  obtain ⟨-, rfl⟩ := State.poly_ok h
  exact hs.polyValue_length r

theorem pdiv_of_isZero (prim : BitVec 9) (a : Poly) {b : Poly} (hz : isZero b = true) : pdiv prim a b = .error .zeroDivisor := by
  rw [pdiv, hz]
  rfl

section
variable {prim : BitVec 9} (hprim : prim ∈ Config.primitivePolys) {l : List (Byte × Byte)}
include hprim

theorem pdiv_raisesOnly {a b : Poly} (ha : NormalPoly a) (hb : NormalPoly b)
    (hl : (0x01, 0x02) ∈ l := by simp [raisedBy]) : RaisesOnly l (pdiv prim a b) := by
  cases hz : isZero b with
  | true => exact pdiv_of_isZero prim a hz ▸ .error hl
  | false =>
    obtain ⟨q, r, hdiv, -⟩ := pdiv_isQuotientAndRemainder hprim ha hb hz
    exact hdiv ▸ .ok _

theorem pdiv_ok_lengths {a b : Poly} (ha : NormalPoly a) (hb : NormalPoly b) {qr : Poly × Poly} (h : pdiv prim a b = .ok qr) :
    qr.1.length ≤ a.length ∧ qr.2.length ≤ b.length := by
  cases hz : isZero b with
  | true =>
    rw [pdiv_of_isZero prim a hz] at h
    cases h
  | false =>
    obtain ⟨q, r, hdiv, hqr⟩ := pdiv_isQuotientAndRemainder hprim ha hb hz
    obtain rfl := Except.ok.inj (hdiv.symm.trans h)
    exact ⟨hqr.quotient_length_le hprim ha hb hz, hqr.remainder_length_le hb⟩

/-! Reed-Solomon (43_rs.md R504 to R510). -/

/-- The solver fails only at an error locator whose constant term is zero; the failures inside its loop are never met (R505). -/
theorem rsKey_cases {R : Nat} (hR : 1 ≤ R) {S : Poly} (hS : NormalPoly S) : rsKey prim (mono R 1) S R = .error .sigmaZero
    ∨ ∃ sigma omega, rsKey prim (mono R 1) S R = .ok (sigma, omega)
      ∧ sigma.length ≤ max (R + 1) S.length ∧ omega.length ≤ R := by
  obtain ⟨K, _, ⟨φ⟩⟩ := exists_fieldView hprim
  obtain ⟨t, r, hkey, ht, hr, hsmall, hdeg, -⟩ := rsKey_spec φ hprim hR hS
  unfold keyAnswer at hkey
  split at hkey
  · exact .inl hkey
  · have hSpos := List.length_pos_iff.mpr hS.1
    refine .inr ⟨_, _, hkey, (pscale_length_le _ ht.1 _).trans ?_, (pscale_length_le _ hr.1 _).trans ?_⟩
    · simp only [deg] at hdeg
      omega
    · simp only [deg] at hsmall
      omega

theorem rsKey_raisesOnly {R : Nat} (hR : 1 ≤ R) {S : Poly} (hS : NormalPoly S) (hl : (0x03, 0x01) ∈ l := by simp [raisedBy]) :
    RaisesOnly l (rsKey prim (mono R 1) S R) := by
  obtain h | ⟨sigma, omega, h, -⟩ := rsKey_cases hprim hR hS
  · exact h ▸ .error hl
  · exact h ▸ .ok _

theorem rsKey_ok_lengths {R : Nat} (hR : 1 ≤ R) {S : Poly} (hS : NormalPoly S) {so : Poly × Poly}
    (h : rsKey prim (mono R 1) S R = .ok so) : so.1.length ≤ max (R + 1) S.length ∧ so.2.length ≤ R := by
  obtain h' | ⟨sigma, omega, h', hlen⟩ := rsKey_cases hprim hR hS
  · cases h'.symm.trans h
  · exact Except.ok.inj (h'.symm.trans h) ▸ hlen

theorem rsEncode_raisesOnly (base : Nat) {e : Nat} {data : List Byte} (hdata : data ≠ []) (he : e ≠ 0) :
    RaisesOnly l (rsEncode prim base data e) := by
  obtain ⟨ec, q, hec, -⟩ := rsEncode_eq_ok hprim base hdata he
  exact hec ▸ .ok ec

theorem rsDecode_raisesOnly {base twoS : Nat} {block : List Byte} (htwo : 1 ≤ twoS) :
    RaisesOnly (raisedBy .rsDec) (rsDecode prim base block twoS) := by
  intro f hf
  obtain rfl | rfl | rfl := rsDecode_error hprim htwo hf <;> decide

end

section
variable {l : List (Byte × Byte)} (prim : BitVec 9)

theorem chien_raisesOnly (sigma : Poly) (hl : (0x03, 0x02) ∈ l := by simp [raisedBy]) : RaisesOnly l (chien prim sigma) :=
  .ite (fun _ => .ok _) fun _ => .error hl

theorem gfInv_raisesOnly (a : Byte) (hl : (0x02, 0x02) ∈ l := by simp [raisedBy]) : RaisesOnly l (gfInv prim a) :=
  .ite (fun _ => .error hl) fun _ => .ok _

theorem forney_raisesOnly (base : Nat) (omega : Poly) (locators : List Byte) (hl : (0x02, 0x02) ∈ l := by simp [raisedBy]) :
    RaisesOnly l (forney prim base omega locators) :=
  .mapM (fun _ => (gfInv_raisesOnly prim _ hl).bind fun _ _ => (gfInv_raisesOnly prim _ hl).bind fun _ _ => .ok _) _

theorem rsCorrect_raisesOnly (n : Nat) (errors : List (Byte × Byte)) (block : List Byte)
    (hzero : (0x02, 0x01) ∈ l := by simp [raisedBy]) (hbad : (0x03, 0x03) ∈ l := by simp [raisedBy]) :
    RaisesOnly l (rsCorrect prim n errors block) := by
  induction errors generalizing block with
  | nil => exact .ok _
  | cons e rest ih => exact .ite (fun _ => .error hzero) fun _ => .ite (fun _ => .error hbad) fun _ => ih _

/-! The symbol (46_symbol.md R711 to R728, 47_mask.md R807). -/

theorem embedSeparators_raisesOnly (cells : List (Nat × Nat)) (g : Grid) (hl : (0x04, 0x02) ∈ l) :
    RaisesOnly l (embedSeparators cells g) := by
  induction cells generalizing g with
  | nil => exact .ok _
  | cons c cells ih => exact .ite (fun _ => ih _) fun _ => .error hl

theorem embedBasic_raisesOnly (v n : Nat) (g : Grid) (hsep : (0x04, 0x02) ∈ l := by simp [raisedBy])
    (hdark : (0x04, 0x03) ∈ l := by simp [raisedBy]) : RaisesOnly l (embedBasic v n g) :=
  (embedSeparators_raisesOnly _ _ hsep).bind fun _ _ => RaisesOnly.bind (.ite (fun _ => .error hdark) fun _ => .ok _) fun _ _ => .ok _

theorem typeBits_raisesOnly (ecl mask : Nat) (hl : (0x04, 0x01) ∈ l := by simp [raisedBy]) : RaisesOnly l (typeBits ecl mask) :=
  .bind (.check hl) fun _ _ => .ok _

theorem embedData_raisesOnly (n mask : Nat) (bits : List Bool) (g : Grid) (hl : (0x04, 0x04) ∈ l := by simp [raisedBy]) :
    RaisesOnly l (embedData n mask bits g) :=
  .ite (fun _ => .ok _) fun _ => .error hl

/-- On an all-empty grid no pattern meets a cell in its way: a build fails only with bits left over. -/
theorem buildSymbol_raisesOnly (bits : List Bool) (ecl : Nat) {v mask : Nat} (hv : 1 ≤ v) (hmask : mask ≤ 7)
    (hl : (0x04, 0x04) ∈ l := by simp [raisedBy]) : RaisesOnly l (buildSymbol bits ecl v mask) :=
  buildSymbol_eq hv bits ecl hmask ▸ embedData_raisesOnly _ _ _ _ hl

theorem selectMask_raisesOnly (bits : List Bool) (ecl : Nat) {v : Nat} (hv : 1 ≤ v ∧ v ≤ 40)
    (hl : (0x04, 0x04) ∈ l := by simp [raisedBy]) : RaisesOnly l (selectMask bits ecl v) := by
  rcases Nat.lt_or_ge (dataCells v) bits.length with h | h
  · exact selectMask_of_gt hv.1 hv.2 h ecl ▸ .error hl
  · obtain ⟨best, -, hok⟩ := selectMask_of_le hv.1 hv.2 h ecl
    exact hok ▸ .ok _

end

/-! The commands (R910). -/

section
variable {s : State}

/-- In state `s`, command `i` completes with a computation that fails, if at all, as the command's row of R910 lists. -/
abbrev RaisesListed (i : Instr) (s : State) : Prop := ∃ r, exec i s = s.complete r ∧ RaisesOnly (raisedBy i) r

theorem version_of_check {v : Nat} {f : Failure} {a : Unit} (h : check (decide (1 ≤ v) && decide (v ≤ 40)) f = .ok a) :
    1 ≤ v ∧ v ≤ 40 := by
  simpa using check_ok h

theorem execPDiv_raisesListed (hs : s.Inv) (rd rc ra rb : Nat) : RaisesListed (.pDiv rd rc ra rb) s := by
  refine ⟨_, rfl, .bind .check fun _ _ => .bind .poly fun a ha => .bind .poly fun b hb => ?_⟩
  have hna := State.poly_ok_normal ha
  have hnb := State.poly_ok_normal hb
  refine (pdiv_raisesOnly hs.prim hna hnb).bind fun qr hqr => ?_
  obtain ⟨hq, hr⟩ := pdiv_ok_lengths hs.prim hna hnb hqr
  exact .bind (.setPoly_of_le (hq.trans (hs.poly_ok_length ha))) fun _ _ => .setPoly_of_le (hr.trans (hs.poly_ok_length hb))

theorem execRsEnc_raisesListed (hs : s.Inv) : RaisesListed .rsEnc s := by
  refine ⟨_, rfl, .bind .check fun _ _ => .bind .check fun _ he => .bind .check fun _ hlt => ?_⟩
  have he : s.operand 1 ≠ 0 := of_decide_eq_true (check_ok he)
  have hlt : s.operand 1 < s.operand 0 := of_decide_eq_true (check_ok hlt)
  have hdata : s.cw (s.operand 0 - s.operand 1) ≠ [] := List.ne_nil_of_length_pos (by rw [State.cw_length]; omega)
  exact (rsEncode_raisesOnly hs.prim s.base hdata he).bind fun _ _ => .ok _

theorem execRsSynd_raisesListed (rd : Nat) : RaisesListed (.rsSynd rd) s := by
  refine ⟨_, rfl, .bind .check fun _ _ => .bind .check fun _ _ => .bind .check fun _ htwo => ?_⟩
  have htwo : s.operand 1 ≤ 255 := of_decide_eq_true (check_ok htwo)
  exact .bind (.setPoly_of_le ((syndromes_length_le ..).trans (by omega))) fun _ _ => .ok _

theorem execRsKey_raisesListed (hs : s.Inv) (rd rc ra : Nat) : RaisesListed (.rsKey rd rc ra) s := by
  refine ⟨_, rfl, .bind .check fun _ _ => .bind .check fun _ h0 => .bind .check fun _ h255 => .bind .poly fun S hS => ?_⟩
  have h1 : 1 ≤ s.operand 0 := Nat.one_le_iff_ne_zero.mpr (of_decide_eq_true (check_ok h0))
  have h255 : s.operand 0 ≤ 255 := of_decide_eq_true (check_ok h255)
  have hn := State.poly_ok_normal hS
  have hlen := hs.poly_ok_length hS
  refine (rsKey_raisesOnly hs.prim h1 hn).bind fun so hso => ?_
  obtain ⟨hsigma, homega⟩ := rsKey_ok_lengths hs.prim h1 hn hso
  exact .bind (.setPoly_of_le (by omega)) fun _ _ => .bind (.setPoly_of_le (by omega)) fun _ _ => .ok _

/-- The decode is run only on a block with a nonzero syndrome, of which there is none when `twoS` is 0. -/
theorem execRsDec_raisesListed (hs : s.Inv) : RaisesListed .rsDec s := by
  refine ⟨_, rfl, .bind .check fun _ _ => .bind .check fun _ _ => .bind .check fun _ _ => .ite (fun _ => .ok _) fun herr => ?_⟩
  have htwo : 1 ≤ s.operand 1 := Nat.one_le_iff_ne_zero.mpr fun h0 => herr (by rw [h0]; rfl)
  exact (rsDecode_raisesOnly hs.prim htwo).bind fun _ _ => .ok _

theorem execSymBuild_raisesListed (y : Bank) : RaisesListed (.symBuild y) s := by
  refine ⟨_, rfl, .bind .check fun _ hv => .bind .check fun _ _ => .bind .check fun _ hmask => ?_⟩
  exact (buildSymbol_raisesOnly _ _ (version_of_check hv).1 (of_decide_eq_true (check_ok hmask))).bind fun _ _ => .ok _

theorem execMaskSelect_raisesListed (y : Bank) : RaisesListed (.maskSelect y) s :=
  ⟨_, rfl, .bind .check fun _ hv => .bind .check fun _ _ =>
    (selectMask_raisesOnly _ _ (version_of_check hv)).bind fun _ _ => .ok _⟩

theorem execSymSet_raisesListed : RaisesListed .symSet s := by
  refine ⟨_, rfl, .bind .check fun _ _ => .bind .check fun _ _ => ?_⟩
  cases Cell.ofWord (s.latch.getD 2 0) with
  | none => exact .error
  | some c => exact .ok _

/-- Every command's computation fails only as its row of R910 lists: its checks and reads are listed one by one, and what it computes from
them cannot fail otherwise. -/
theorem exec_raisesListed (hs : s.Inv) (i : Instr) : RaisesListed i s := by
  cases i with
  | nop | bvClear | bmClear | bmTopleft | bmBotright => exact ⟨_, rfl, .ok _⟩
  | gfExp => exact ⟨_, rfl, .bind .fieldOperand fun _ _ => .ok _⟩
  | gfAdd | gfMul => exact ⟨_, rfl, .bind .fieldOperand fun _ _ => .bind .fieldOperand fun _ _ => .ok _⟩
  | gfInv => exact ⟨_, rfl, .bind .fieldOperand fun _ _ => .bind (gfInv_raisesOnly _ _) fun _ _ => .ok _⟩
  | gfLog => exact ⟨_, rfl, .bind .fieldOperand fun _ _ => .bind .check fun _ _ => .ok _⟩
  | pZero rd => exact ⟨s.setPoly rd [0], rfl, .setPoly_of_le (by decide)⟩
  | pMono => exact ⟨_, rfl, .bind .fieldOperand fun _ _ => .bind .check fun _ _ => .setPoly⟩
  | pCopy | pNorm => exact ⟨_, rfl, .bind .poly fun _ hp => .setPoly_of_le (hs.poly_ok_length hp)⟩
  | pAdd =>
    exact ⟨_, rfl, .bind .poly fun _ ha => .bind .poly fun _ hb => .setPoly_of_le
      ((padd_length_le _ _).trans (Nat.max_le.mpr ⟨hs.poly_ok_length ha, hs.poly_ok_length hb⟩))⟩
  | pMul => exact ⟨_, rfl, .bind .poly fun _ _ => .bind .poly fun _ _ => .setPoly⟩
  | pScale =>
    exact ⟨_, rfl, .bind .fieldOperand fun _ _ => .bind .poly fun _ ha => .setPoly_of_le
      ((pscale_length_le _ (State.poly_ok_normal ha).1 _).trans (hs.poly_ok_length ha))⟩
  | pMulmono =>
    exact ⟨_, rfl, .bind .fieldOperand fun _ _ => .bind .poly fun _ _ => .ite (fun _ => .setPoly) fun _ =>
      .bind .check fun _ _ => .setPoly⟩
  | pDiv rd rc ra rb => exact execPDiv_raisesListed hs rd rc ra rb
  | pEval => exact ⟨_, rfl, .bind .fieldOperand fun _ _ => .bind .poly fun _ _ => .ok _⟩
  | pCoef | pDeg => exact ⟨_, rfl, .bind .poly fun _ _ => .ok _⟩
  | rsGen =>
    refine ⟨_, rfl, .bind .check fun _ hd => .setPoly_of_le ?_⟩
    have hd : s.operand 0 ≤ 255 := of_decide_eq_true (check_ok hd)
    rw [gen_length hs.prim]
    omega
  | rsEnc => exact execRsEnc_raisesListed hs
  | rsSynd rd => exact execRsSynd_raisesListed rd
  | rsKey rd rc ra => exact execRsKey_raisesListed hs rd rc ra
  | rsChien => exact ⟨_, rfl, .bind .poly fun _ _ => .bind (chien_raisesOnly _ _) fun _ _ => .ok _⟩
  | rsForney => exact ⟨_, rfl, .bind .poly fun _ _ => .bind (forney_raisesOnly _ _ _ _) fun _ _ => .ok _⟩
  | rsCorr =>
    exact ⟨_, rfl, .bind .check fun _ _ => .bind .check fun _ _ => .bind (rsCorrect_raisesOnly _ _ _ _) fun _ _ => .ok _⟩
  | rsDec => exact execRsDec_raisesListed hs
  | bvGet | bvSet | bvXor | bvSetsize | bmGet | bmSet | bmRow | bmCol | symInit | embVersion | symExport | maskPenalty
    | bchVersion => exact ⟨_, rfl, .bind .check fun _ _ => .ok _⟩
  | bvAppend | bvTobytes | bmInit | bmSetregion | symGet | maskBit =>
    exact ⟨_, rfl, .bind .check fun _ _ => .bind .check fun _ _ => .ok _⟩
  | symSet => exact execSymSet_raisesListed
  | embBasic => exact ⟨_, rfl, .bind .check fun _ _ => .bind (embedBasic_raisesOnly _ _ _) fun _ _ => .ok _⟩
  | embType =>
    exact ⟨_, rfl, .bind .check fun _ _ => .bind .check fun _ _ => .bind (typeBits_raisesOnly _ _) fun _ _ => .ok _⟩
  | embData =>
    exact ⟨_, rfl, .bind .check fun _ _ => .bind .check fun _ _ => .bind (embedData_raisesOnly _ _ _ _) fun _ _ => .ok _⟩
  | symBuild y => exact execSymBuild_raisesListed y
  | maskSelect y => exact execMaskSelect_raisesListed y
  | bchType => exact ⟨_, rfl, .bind .check fun _ _ => .bind (typeBits_raisesOnly _ _) fun _ _ => .ok _⟩

end

/-- Settles O9: a command that ends with `ERR` set reports the failure of its computation. -/
theorem onlyListedFailures : Obligations.OnlyListedFailures := by
  intro i s t hs _ h herr
  obtain ⟨r, hr, hraises⟩ := exec_raisesListed hs i
  obtain ⟨u, -, rfl⟩ | ⟨f, hf, rfl⟩ := s.complete_next (hr.symm.trans h)
  · cases herr
  · exact hraises f hf

end Sys2Proof.Machine
end

section
/-! PROOFS (70_reset_and_hazards.md R950 to R952, R960, R961, R970, R971). What a reset gives the registers and the invariant, what a host
write does while a command runs, and that a running command ends: each access served while it runs brings its completion one nearer. -/

namespace Sys2Proof.Machine

variable {s t : State} {rest : List HostInput}

/-! Reset (R950 to R952). -/

/-- The model's reset state has the reset values (R950). -/
theorem State.reset_registersReset : State.reset.RegistersReset where
  id := rfl
  status := rfl
  errcode := ⟨rfl, rfl⟩
  cmd := rfl
  arg := by decide
  result := by decide
  gfPrim := rfl
  gfBase := rfl
  plen := by decide
  bvSize := fun b => by cases b <;> rfl
  matrix := ⟨rfl, rfl⟩
  symbol := ⟨rfl, rfl⟩
  locCnt := rfl
  pen := by decide

/-- A platform reset takes every register from the model's reset state, in any state (R950, R952). -/
theorem State.platformReset_registersReset (s : State) : s.platformReset.RegistersReset := { State.reset_registersReset with }

/-- Settles O14: a reset is served whether or not a command runs, and only the memories are kept. -/
theorem resetGivesResetValues : Obligations.ResetGivesResetValues :=
  ⟨State.reset_registersReset, fun _ _ hd hh =>
    ⟨_, step_of_asked hd hh, State.platformReset_registersReset _, rfl⟩⟩

/-- `PLEN[r]` is 0 after reset, also for a number that is no register's. -/
theorem State.reset_plenOf (r : Nat) : State.reset.plenOf r = 0 := by
  rw [State.plenOf, vector_getD, State.reset, Vector.getElem?_replicate]
  split <;> rfl

/-- The invariant of the model's reset state (R950, R951). -/
theorem State.reset_inv : State.reset.Inv where
  memory := rfl
  prim := List.mem_cons_self
  plen := fun r => (State.reset_plenOf r).trans_le (Nat.zero_le _)
  bvSize := fun b => by cases b <;> exact Nat.zero_le _
  bmW := Nat.zero_le _
  bmH := Nat.zero_le _
  bmEmpty := Iff.rfl
  symV := Nat.zero_le _
  locCnt := Nat.zero_le _
  running := nofun
  code := .inl rfl
  failed := nofun

/-- Settles O15: of what the invariant speaks of, a block reset keeps the memories alone and takes the rest from the reset state. -/
theorem invariantAtReset : Obligations.InvariantAtReset :=
  ⟨State.reset_inv, fun _ hm => { State.reset_inv.setMem hm with }⟩

/-! Writes while a command runs (R960, R961). -/

/-- A write to the word of a place, while a command runs. -/
theorem step_busy_write_place {o : BitVec 16} {v : Word} (hb : s.status.busy = true) (hw : s.wait ≠ 0)
    (hh : s.host = .write .word o v :: rest) {p : Place} (hp : p.covers o.toNat) (h4 : o.toNat % 4 = 0) :
    step s = .next ((s.take rest).writeBusy p v) := by
  rw [step_busy_write hb hw hh h4, placeAt_of_covers hp h4]

/-- Settles O19: the offset's place decides what a write does while a command runs. -/
theorem busyWrites : Obligations.BusyWrites := by
  intro s offset v rest hb hw hh h4
  refine ⟨fun i hi ho => ?_, fun ho => ?_, fun hhaz => ?_, fun hro => ?_, fun ho => ?_⟩
  · exact step_busy_write_place hb hw hh (p := .arg i) ⟨hi, ho⟩ h4
  · rw [step_busy_write_place hb hw hh (p := .status) ho h4, State.writeBusy, State.take_status, Status.clearedBy, hb]
    rfl
  · exact (step_busy_write hb hw hh h4).trans (congrArg _ (writeBusy_hazard _ v hhaz h4))
  · exact ignoredWrites s offset v rest (State.due_eq_false_of_waiting hw hh) hh h4 hro
  · exact step_busy_write_place hb hw hh (p := .cmd) ho h4

/-! The end of a running command (R970, R971). -/

/-- The completion of a running command ends it, whatever the word in `CMD`. -/
theorem State.runCommand_ends (s : State) : ∃ t, s.runCommand = .next t ∧ t.status.busy = false := by
  cases hd : decode s.cmd with
  | ok i =>
    obtain ⟨t, hexec, hstatus, -⟩ := commandsComplete i s
    exact ⟨t, (State.runCommand_of_ok hd).trans hexec, congrArg Status.busy hstatus⟩
  | error e => exact ⟨_, State.runCommand_of_error hd, rfl⟩

/-- `t` is as far from the end of its command as `s`: `BUSY`, what the host asks and the accesses still to come agree. -/
structure SameProgress (s t : State) : Prop where
  busy : t.status.busy = s.status.busy
  host : t.host = s.host
  wait : t.wait = s.wait

/-- A read changes nothing that a running command's end depends on (R962). -/
theorem State.hostRead_sameProgress (s : State) (p : Place) : SameProgress s (s.hostRead p) := by
  rw [State.hostRead]
  split <;> exact ⟨rfl, rfl, rfl⟩

/-- Neither does a write while it runs (R960, R961). -/
theorem State.writeBusy_sameProgress (s : State) (p : Place) (v : Word) : SameProgress s (s.writeBusy p v) := by
  cases p <;> exact ⟨rfl, rfl, rfl⟩

/-- A defined access while a command runs is a reset, which ends the command, or leaves it running. -/
theorem State.serve_busy {x : HostInput} (hb : s.status.busy = true) (hx : x.defined = true) :
    ∃ t, s.serve x = .next t ∧ (t.status.busy = false ∨ SameProgress s t) := by
  obtain ⟨-, e⟩ | ⟨o, -, -, e⟩ | ⟨o, v, -, -, e⟩ | ⟨hundef, -⟩ := serve_cases s x
  · exact ⟨_, e, .inl rfl⟩
  · exact ⟨_, e, .inr (s.hostRead_sameProgress _)⟩
  · rw [State.hostWrite, if_pos hb] at e
    exact ⟨_, e, .inr (s.writeBusy_sameProgress _ v)⟩
  · exact absurd hx (by simp [hundef])

/-- No command runs any more after at most one step more than `n`, the accesses still to come. -/
def State.EndsWithin (s : State) (n : Nat) : Prop :=
  ∃ k t, k ≤ n + 1 ∧ runFor k s = .next t ∧ t.status.busy = false

/-- The run of a state goes on from the state that its first step answers. -/
theorem runFor_succ (h : step s = .next t) (k : Nat) : runFor (k + 1) s = runFor k t := by rw [runFor, h]

/-- One step that ends the command is within every number of accesses. -/
theorem State.EndsWithin.of_step (h : step s = .next t) (ht : t.status.busy = false) (n : Nat) : s.EndsWithin n :=
  ⟨1, t, Nat.le_add_left 1 n, runFor_succ h 0, ht⟩

/-- One step before a run that ends is one access more. -/
theorem State.EndsWithin.succ (h : step s = .next t) {n : Nat} (ht : t.EndsWithin n) : s.EndsWithin (n + 1) := by
  obtain ⟨k, u, hk, hrun, hu⟩ := ht
  exact ⟨k + 1, u, Nat.succ_le_succ hk, (runFor_succ h k).trans hrun, hu⟩

/-- A command that is due ends in the next step. -/
theorem State.EndsWithin.of_due (h : s.due = true) (n : Nat) : s.EndsWithin n := by
  obtain ⟨t, hrun, ht⟩ := s.runCommand_ends
  exact .of_step ((step_of_due h).trans hrun) ht n

/-- Settles O13, by induction on the accesses still to come: each one that does not end the command leaves one less. -/
theorem busyAlwaysEnds : Obligations.BusyAlwaysEnds := by
  intro s
  change _ → _ → s.EndsWithin s.wait
  induction hw : s.wait generalizing s with
  | zero => exact fun hb _ => .of_due (State.due_eq_true hb (.inl hw)) 0
  | succ n ih =>
    intro hb hdef
    cases hh : s.host with
    | nil => exact .of_due (State.due_eq_true hb (.inr hh)) _
    | cons x rest =>
      rw [hh] at hdef
      obtain ⟨t, hserve, ht⟩ := State.serve_busy (s := s.take rest) hb (hdef x List.mem_cons_self)
      have hstep : step s = .next t := (step_of_asked (State.due_eq_false_of_waiting (by omega) hh) hh).trans hserve
      obtain hidle | hsame := ht
      · exact .of_step hstep hidle _
      · have hwait : t.wait = n := by simp [hsame.wait, hw]
        have hrest : t.host = rest := hsame.host
        exact .succ hstep (ih t hwait (hsame.busy.trans hb) fun y hy => hdef y (List.mem_cons_of_mem x (hrest ▸ hy)))

end Sys2Proof.Machine
end
